-- ==== Sys2Proof/Word.lean ====
section
/-! DEFINITION. The machine's words: widths of 00_scope.md R7 and R12. -/

namespace Sys2Proof

/-- A 32-bit register or address value (R7, R12); `+`, `-`, `*` wrap modulo 2^32. -/
abbrev Word := BitVec 32

/-- A 16-bit Thumb instruction or halfword datum (R7). -/
abbrev Half := BitVec 16

/-- One byte of the byte-addressed store (R80). -/
abbrev Byte := BitVec 8

end Sys2Proof
end

