-- ==== Sys2Proof/Syntax.lean ====
section
/-! DEFINITION. The instructions: one constructor for each row of spec/opcode_table.json (the six undefined-halfword rows too).
Every bit of an instruction word that its row leaves open is an operand here, a should-be-zero bit the core ignores (30_encoding.md
R124) included, so that no bit of an encoding is dropped. -/

namespace Sys2Proof

/-- A logical register number R0..R15 (R31). -/
abbrev Reg := Fin 16

/-- A Thumb low register R0..R7 (R120). -/
abbrev LowReg := Fin 8

/-- The fifteen conditions of R122; the sixteenth encoding is the constructor `Instr.reservedCond`. -/
inductive Cond
  | eq | ne | cs | cc | mi | pl | vs | vc | hi | ls | ge | lt | gt | le | al
  deriving DecidableEq, Repr

/-- The four shift types of R128. -/
inductive ShiftType
  | lsl | lsr | asr | ror
  deriving DecidableEq, Repr

/-- The three forms of a data-processing second operand (R126). -/
inductive Operand2
  | imm    (rotate : BitVec 4) (imm8 : BitVec 8)
  | regImm (rm : Reg) (type : ShiftType) (amount : BitVec 5)
  | regReg (rm : Reg) (type : ShiftType) (rs : Reg)
  deriving DecidableEq, Repr

/-- The offset of a single data transfer (R136, R152). -/
inductive TransferOffset
  | imm (imm12 : BitVec 12)
  | reg (rm : Reg) (type : ShiftType) (amount : BitVec 5)
  deriving DecidableEq, Repr

/-- The offset of a halfword transfer (R134, R153); the register form carries its ignored bits 11:8. -/
inductive HalfOffset
  | imm (imm8 : BitVec 8)
  | reg (sbz : BitVec 4) (rm : Reg)
  deriving DecidableEq, Repr

/-- The four test opcodes (R290 to R293). -/
inductive TestOp
  | tst | teq | cmp | cmn
  deriving DecidableEq, Repr

/-- Every instruction of the core.  ARM constructors take their condition first; Thumb constructors begin with `t`. -/
inductive Instr
  -- ARM data processing (R282 to R297): cond, S, Rn, Rd, operand2; MOV and MVN ignore their Rn field.
  | and (c : Cond) (s : Bool) (rn rd : Reg) (o : Operand2)
  | eor (c : Cond) (s : Bool) (rn rd : Reg) (o : Operand2)
  | sub (c : Cond) (s : Bool) (rn rd : Reg) (o : Operand2)
  | rsb (c : Cond) (s : Bool) (rn rd : Reg) (o : Operand2)
  | add (c : Cond) (s : Bool) (rn rd : Reg) (o : Operand2)
  | adc (c : Cond) (s : Bool) (rn rd : Reg) (o : Operand2)
  | sbc (c : Cond) (s : Bool) (rn rd : Reg) (o : Operand2)
  | rsc (c : Cond) (s : Bool) (rn rd : Reg) (o : Operand2)
  | tst (c : Cond) (rn rd : Reg) (o : Operand2)
  | teq (c : Cond) (rn rd : Reg) (o : Operand2)
  | cmp (c : Cond) (rn rd : Reg) (o : Operand2)
  | cmn (c : Cond) (rn rd : Reg) (o : Operand2)
  | orr (c : Cond) (s : Bool) (rn rd : Reg) (o : Operand2)
  | mov (c : Cond) (s : Bool) (sbz rd : Reg) (o : Operand2)
  | bic (c : Cond) (s : Bool) (rn rd : Reg) (o : Operand2)
  | mvn (c : Cond) (s : Bool) (sbz rd : Reg) (o : Operand2)
  -- the test opcodes with S = 0 (R305)
  | psrSpaceNop (c : Cond) (op : TestOp) (rn rd : Reg) (o : Operand2)
  -- PSR transfer (R129): P = true names the SPSR
  | mrs (c : Cond) (p : Bool) (rd : Reg)
  | msrReg (c : Cond) (p : Bool) (mask : BitVec 4) (rm : Reg)
  | msrImm (c : Cond) (p : Bool) (mask : BitVec 4) (rotate : BitVec 4) (imm8 : BitVec 8)
  -- multiply (R130) and multiply long (R131)
  | mul (c : Cond) (s : Bool) (rd sbz rs rm : Reg)
  | mla (c : Cond) (s : Bool) (rd rn rs rm : Reg)
  | umull (c : Cond) (s : Bool) (hi lo rs rm : Reg)
  | umlal (c : Cond) (s : Bool) (hi lo rs rm : Reg)
  | smull (c : Cond) (s : Bool) (hi lo rs rm : Reg)
  | smlal (c : Cond) (s : Bool) (hi lo rs rm : Reg)
  -- single data transfer (R136); u adds the offset, w writes the base back
  | ldrPre (c : Cond) (u w : Bool) (rn rd : Reg) (off : TransferOffset)
  | ldrPost (c : Cond) (u : Bool) (rn rd : Reg) (off : TransferOffset)
  | ldrbPre (c : Cond) (u w : Bool) (rn rd : Reg) (off : TransferOffset)
  | ldrbPost (c : Cond) (u : Bool) (rn rd : Reg) (off : TransferOffset)
  | strPre (c : Cond) (u w : Bool) (rn rd : Reg) (off : TransferOffset)
  | strPost (c : Cond) (u : Bool) (rn rd : Reg) (off : TransferOffset)
  | strbPre (c : Cond) (u w : Bool) (rn rd : Reg) (off : TransferOffset)
  | strbPost (c : Cond) (u : Bool) (rn rd : Reg) (off : TransferOffset)
  | ldrt (c : Cond) (u : Bool) (rn rd : Reg) (off : TransferOffset)
  | ldrbt (c : Cond) (u : Bool) (rn rd : Reg) (off : TransferOffset)
  | strt (c : Cond) (u : Bool) (rn rd : Reg) (off : TransferOffset)
  | strbt (c : Cond) (u : Bool) (rn rd : Reg) (off : TransferOffset)
  -- halfword and signed transfer (R134)
  | ldrh (c : Cond) (p u w : Bool) (rn rd : Reg) (off : HalfOffset)
  | strh (c : Cond) (p u w : Bool) (rn rd : Reg) (off : HalfOffset)
  | ldrsb (c : Cond) (p u w : Bool) (rn rd : Reg) (off : HalfOffset)
  | ldrsh (c : Cond) (p u w : Bool) (rn rd : Reg) (off : HalfOffset)
  -- the two reserved rows of the halfword space (R392, R393); h is bit 5
  | signedStore (c : Cond) (p u w h : Bool) (rn rd : Reg) (off : HalfOffset)
  | halfSh00 (c : Cond) (p u w l : Bool) (rn rd : Reg) (off : HalfOffset)
  -- single data swap (R132), with its ignored bits 11:8
  | swp (c : Cond) (rn rd : Reg) (sbz : BitVec 4) (rm : Reg)
  | swpb (c : Cond) (rn rd : Reg) (sbz : BitVec 4) (rm : Reg)
  -- block data transfer (R138)
  | ldmia (c : Cond) (s w : Bool) (rn : Reg) (list : BitVec 16)
  | ldmib (c : Cond) (s w : Bool) (rn : Reg) (list : BitVec 16)
  | ldmda (c : Cond) (s w : Bool) (rn : Reg) (list : BitVec 16)
  | ldmdb (c : Cond) (s w : Bool) (rn : Reg) (list : BitVec 16)
  | stmia (c : Cond) (s w : Bool) (rn : Reg) (list : BitVec 16)
  | stmib (c : Cond) (s w : Bool) (rn : Reg) (list : BitVec 16)
  | stmda (c : Cond) (s w : Bool) (rn : Reg) (list : BitVec 16)
  | stmdb (c : Cond) (s w : Bool) (rn : Reg) (list : BitVec 16)
  -- branches (R139, R133), software interrupt (R143)
  | b (c : Cond) (offset24 : BitVec 24)
  | bl (c : Cond) (offset24 : BitVec 24)
  | bx (c : Cond) (rn : Reg)
  | swi (c : Cond) (comment24 : BitVec 24)
  -- the undefined space (R137): its free bits 24:5 and 3:0
  | undefined (c : Cond) (x20 : BitVec 20) (x4 : BitVec 4)
  -- coprocessor instructions (R140 to R142), every field kept, none read
  | ldc (c : Cond) (p u n w : Bool) (rn crd cp : BitVec 4) (offset8 : BitVec 8)
  | stc (c : Cond) (p u n w : Bool) (rn crd cp : BitVec 4) (offset8 : BitVec 8)
  | cdp (c : Cond) (opc crn crd cp : BitVec 4) (info : BitVec 3) (crm : BitVec 4)
  | mcr (c : Cond) (opc : BitVec 3) (crn rd cp : BitVec 4) (info : BitVec 3) (crm : BitVec 4)
  | mrc (c : Cond) (opc : BitVec 3) (crn rd cp : BitVec 4) (info : BitVec 3) (crm : BitVec 4)
  -- condition field 1111, whatever the other 28 bits say (R182)
  | reservedCond (x28 : BitVec 28)
  -- Thumb format 1 (R160)
  | tLslImm (offset5 : BitVec 5) (rs rd : LowReg)
  | tLsrImm (offset5 : BitVec 5) (rs rd : LowReg)
  | tAsrImm (offset5 : BitVec 5) (rs rd : LowReg)
  -- Thumb format 2 (R161)
  | tAddReg (rn rs rd : LowReg)
  | tSubReg (rn rs rd : LowReg)
  | tAddImm3 (imm3 : BitVec 3) (rs rd : LowReg)
  | tSubImm3 (imm3 : BitVec 3) (rs rd : LowReg)
  -- Thumb format 3 (R162)
  | tMovImm (rd : LowReg) (imm8 : BitVec 8)
  | tCmpImm (rd : LowReg) (imm8 : BitVec 8)
  | tAddImm8 (rd : LowReg) (imm8 : BitVec 8)
  | tSubImm8 (rd : LowReg) (imm8 : BitVec 8)
  -- Thumb format 4 (R163)
  | tAnd (rs rd : LowReg)
  | tEor (rs rd : LowReg)
  | tLsl (rs rd : LowReg)
  | tLsr (rs rd : LowReg)
  | tAsr (rs rd : LowReg)
  | tAdc (rs rd : LowReg)
  | tSbc (rs rd : LowReg)
  | tRor (rs rd : LowReg)
  | tTst (rs rd : LowReg)
  | tNeg (rs rd : LowReg)
  | tCmp (rs rd : LowReg)
  | tCmn (rs rd : LowReg)
  | tOrr (rs rd : LowReg)
  | tMul (rs rd : LowReg)
  | tBic (rs rd : LowReg)
  | tMvn (rs rd : LowReg)
  -- Thumb format 5 (R164): 4-bit registers H2 ++ Rs and H1 ++ Rd; BX keeps its ignored bits 2:0
  | tAddHi (rs rd : Reg)
  | tCmpHi (rs rd : Reg)
  | tMovHi (rs rd : Reg)
  | tBx (rs : Reg) (sbz : BitVec 3)
  | tBxH1 (rs : Reg) (sbz : BitVec 3)
  -- Thumb format 6 (R165)
  | tLdrPc (rd : LowReg) (word8 : BitVec 8)
  -- Thumb formats 7 and 8 (R166, R167)
  | tStrReg (ro rb rd : LowReg)
  | tStrbReg (ro rb rd : LowReg)
  | tLdrReg (ro rb rd : LowReg)
  | tLdrbReg (ro rb rd : LowReg)
  | tStrhReg (ro rb rd : LowReg)
  | tLdrhReg (ro rb rd : LowReg)
  | tLdsb (ro rb rd : LowReg)
  | tLdsh (ro rb rd : LowReg)
  -- Thumb formats 9 and 10 (R168, R169)
  | tStrImm (offset5 : BitVec 5) (rb rd : LowReg)
  | tLdrImm (offset5 : BitVec 5) (rb rd : LowReg)
  | tStrbImm (offset5 : BitVec 5) (rb rd : LowReg)
  | tLdrbImm (offset5 : BitVec 5) (rb rd : LowReg)
  | tStrhImm (offset5 : BitVec 5) (rb rd : LowReg)
  | tLdrhImm (offset5 : BitVec 5) (rb rd : LowReg)
  -- Thumb formats 11 and 12 (R170, R171)
  | tStrSp (rd : LowReg) (word8 : BitVec 8)
  | tLdrSp (rd : LowReg) (word8 : BitVec 8)
  | tAddPc (rd : LowReg) (word8 : BitVec 8)
  | tAddSp (rd : LowReg) (word8 : BitVec 8)
  -- Thumb format 13 (R172)
  | tIncSp (sword7 : BitVec 7)
  | tDecSp (sword7 : BitVec 7)
  -- Thumb formats 14 and 15 (R173, R174)
  | tPush (r : Bool) (rlist : BitVec 8)
  | tPop (r : Bool) (rlist : BitVec 8)
  | tStmia (rb : LowReg) (rlist : BitVec 8)
  | tLdmia (rb : LowReg) (rlist : BitVec 8)
  -- Thumb format 16 (R175): the table's three rows by range of condition, and the undefined cond 1110
  | tBCond0to7 (c : Cond) (soffset8 : BitVec 8)
  | tBCond8to11 (c : Cond) (soffset8 : BitVec 8)
  | tBCond12to13 (c : Cond) (soffset8 : BitVec 8)
  | tBCond14 (x8 : BitVec 8)
  -- Thumb formats 17 to 19 (R176 to R178)
  | tSwi (value8 : BitVec 8)
  | tB (offset11 : BitVec 11)
  | tBlHigh (offset11 : BitVec 11)
  | tBlLow (offset11 : BitVec 11)
  -- Thumb undefined halfwords (R180), one constructor for each of the table's six rows, named by its first high byte
  | tUndefB1 (x8 : BitVec 8)
  | tUndefB2 (x9 : BitVec 9)
  | tUndefB6 (x9 : BitVec 9)
  | tUndefB8 (x10 : BitVec 10)
  | tUndefBE (x9 : BitVec 9)
  | tUndefE8 (x11 : BitVec 11)
  deriving DecidableEq, Repr

end Sys2Proof
end

