-- ==== Sys2Proof/WellFormed.lean ====
section
/-! DEFINITION. Which terms of `Instr` stand for an instruction word.  Only five constructors have a check: for them the opcode table's
mask admits words that an earlier row of the decoder takes (30_encoding.md R145, R147), or a condition outside their row's range. -/

namespace Sys2Proof

/-- The four-bit value of a condition (R122). -/
def Cond.toNat : Cond → Nat
  | .eq => 0 | .ne => 1 | .cs => 2 | .cc => 3 | .mi => 4 | .pl => 5 | .vs => 6 | .vc => 7
  | .hi => 8 | .ls => 9 | .ge => 10 | .lt => 11 | .gt => 12 | .le => 13 | .al => 14

/-- A test opcode with S = 0 is data processing only when it is no MRS, MSR or BX word (R129, R133, R147, R305). -/
def psrSpaceNopOk (op : TestOp) (rn rd : Reg) (o : Operand2) : Bool :=
  match op, o with
  | .tst, .regImm rm .lsl amount | .cmp, .regImm rm .lsl amount =>
      !(rn == 15 && rm == 0 && amount == 0)                           -- MRS
  | .teq, .regImm _ .lsl amount | .cmn, .regImm _ .lsl amount =>
      !(rd == 15 && amount == 0)                                      -- MSR, register
  | .teq, .imm .. | .cmn, .imm .. => !(rd == 15)                      -- MSR, immediate
  | .teq, .regReg _ .lsl rs => !(rn == 15 && rd == 15 && rs == 15)    -- BX
  | _, _ => true

/-- A halfword-space word with SH = 00 reaches its row only when it is no MUL, MLA, long multiply or swap (R145 rows 7 to 9, R393). -/
def halfSh00Ok (p u w l : Bool) (off : HalfOffset) : Bool :=
  match p, off with
  | false, .reg .. => false                     -- MUL, MLA (U = 0) and the long multiplies (U = 1)
  | false, .imm _  => !u                        -- the long multiplies
  | true,  _       => u || w || l               -- SWP, SWPB

/-- The term is the meaning of some instruction word. -/
def Instr.wf : Instr → Bool
  | .psrSpaceNop _ op rn rd o => psrSpaceNopOk op rn rd o
  | .halfSh00 _ p u w l _ _ off => halfSh00Ok p u w l off
  | .tBCond0to7 c _ => c.toNat < 8
  | .tBCond8to11 c _ => 8 ≤ c.toNat && c.toNat < 12
  | .tBCond12to13 c _ => 12 ≤ c.toNat && c.toNat < 14
  | .and .. | .eor .. | .sub .. | .rsb .. | .add .. | .adc .. | .sbc .. | .rsc .. | .tst .. | .teq .. | .cmp .. | .cmn ..
  | .orr .. | .mov .. | .bic .. | .mvn .. | .mrs .. | .msrReg .. | .msrImm .. | .mul .. | .mla .. | .umull .. | .umlal ..
  | .smull .. | .smlal .. | .ldrPre .. | .ldrPost .. | .ldrbPre .. | .ldrbPost .. | .strPre .. | .strPost .. | .strbPre ..
  | .strbPost .. | .ldrt .. | .ldrbt .. | .strt .. | .strbt .. | .ldrh .. | .strh .. | .ldrsb .. | .ldrsh .. | .signedStore ..
  | .swp .. | .swpb .. | .ldmia .. | .ldmib .. | .ldmda .. | .ldmdb .. | .stmia .. | .stmib .. | .stmda .. | .stmdb ..
  | .b .. | .bl .. | .bx .. | .swi .. | .undefined .. | .ldc .. | .stc .. | .cdp .. | .mcr .. | .mrc .. | .reservedCond ..
  | .tLslImm .. | .tLsrImm .. | .tAsrImm .. | .tAddReg .. | .tSubReg .. | .tAddImm3 .. | .tSubImm3 .. | .tMovImm .. | .tCmpImm ..
  | .tAddImm8 .. | .tSubImm8 .. | .tAnd .. | .tEor .. | .tLsl .. | .tLsr .. | .tAsr .. | .tAdc .. | .tSbc .. | .tRor .. | .tTst ..
  | .tNeg .. | .tCmp .. | .tCmn .. | .tOrr .. | .tMul .. | .tBic .. | .tMvn .. | .tAddHi .. | .tCmpHi .. | .tMovHi .. | .tBx ..
  | .tBxH1 .. | .tLdrPc .. | .tStrReg .. | .tStrbReg .. | .tLdrReg .. | .tLdrbReg .. | .tStrhReg .. | .tLdrhReg .. | .tLdsb ..
  | .tLdsh .. | .tStrImm .. | .tLdrImm .. | .tStrbImm .. | .tLdrbImm .. | .tStrhImm .. | .tLdrhImm .. | .tStrSp .. | .tLdrSp ..
  | .tAddPc .. | .tAddSp .. | .tIncSp .. | .tDecSp .. | .tPush .. | .tPop .. | .tStmia .. | .tLdmia .. | .tBCond14 .. | .tSwi ..
  | .tB .. | .tBlHigh .. | .tBlLow .. | .tUndefB1 .. | .tUndefB2 .. | .tUndefB6 .. | .tUndefB8 .. | .tUndefBE .. | .tUndefE8 ..
    => true

end Sys2Proof
end

