-- ==== Sys2Proof/Decode.lean ====
section
/-! DEFINITION. The decoders of 30_encoding.md, total on every word and halfword (R145, R179), the decoder of byte strings over them,
and after them the encoder.  Classification follows the spec's two mask tables row by row; fields are pulled out here and nowhere else. -/

namespace Sys2Proof

/-! ## Field conversions -/

def regOf (b : BitVec 4) : Reg := ⟨b.toNat, b.isLt⟩
def regBits (r : Reg) : BitVec 4 := BitVec.ofNatLT r.val r.isLt
def lowRegOf (b : BitVec 3) : LowReg := ⟨b.toNat, b.isLt⟩
def lowRegBits (r : LowReg) : BitVec 3 := BitVec.ofNatLT r.val r.isLt

/-- A one-bit field. -/
def flagBit (b : Bool) : BitVec 1 := BitVec.ofBool b

/-- The condition values of R122; 1111 is no condition. -/
def condOf (b : BitVec 4) : Option Cond :=
  match b.toNat with
  | 0 => some .eq | 1 => some .ne | 2 => some .cs | 3 => some .cc | 4 => some .mi | 5 => some .pl | 6 => some .vs | 7 => some .vc
  | 8 => some .hi | 9 => some .ls | 10 => some .ge | 11 => some .lt | 12 => some .gt | 13 => some .le | 14 => some .al
  | _ => none

def condBits (c : Cond) : BitVec 4 := BitVec.ofNat 4 c.toNat

/-- The shift-type values of R128. -/
def shiftTypeOf (b : BitVec 2) : ShiftType :=
  match b.toNat with
  | 0 => .lsl | 1 => .lsr | 2 => .asr | _ => .ror

def shiftTypeBits : ShiftType → BitVec 2
  | .lsl => 0b00#2 | .lsr => 0b01#2 | .asr => 0b10#2 | .ror => 0b11#2

/-! ## The ARM classifier (R145) -/

/-- The 17 ARM categories of R146; the PSR-transfer category MSR keeps its two forms apart. -/
inductive ArmCategory
  | branchAndExchange | blockDataTransfer | branch | softwareInterrupt | undefined | singleDataTransfer | singleDataSwap
  | multiply | multiplyLong | halfwordTransferRegister | halfwordTransferImmediate | psrTransferMrs | psrTransferMsrRegister
  | psrTransferMsrImmediate | dataProcessing | coprocessorDataTransfer | coprocessorDataOperation | coprocessorRegisterTransfer
  deriving DecidableEq, Repr

structure ArmRow where
  mask : BitVec 32
  pattern : BitVec 32
  category : ArmCategory
  deriving DecidableEq, Repr

/-- The rows of R145 in their priority order. -/
def armRows : List ArmRow :=
  [ ⟨0x0FFFFFF0#32, 0x012FFF10#32, .branchAndExchange⟩,
    ⟨0x0E000000#32, 0x08000000#32, .blockDataTransfer⟩,
    ⟨0x0E000000#32, 0x0A000000#32, .branch⟩,
    ⟨0x0F000000#32, 0x0F000000#32, .softwareInterrupt⟩,
    ⟨0x0E000010#32, 0x06000010#32, .undefined⟩,
    ⟨0x0C000000#32, 0x04000000#32, .singleDataTransfer⟩,
    ⟨0x0FB000F0#32, 0x01000090#32, .singleDataSwap⟩,
    ⟨0x0FC000F0#32, 0x00000090#32, .multiply⟩,
    ⟨0x0F8000F0#32, 0x00800090#32, .multiplyLong⟩,
    ⟨0x0E400090#32, 0x00000090#32, .halfwordTransferRegister⟩,
    ⟨0x0E400090#32, 0x00400090#32, .halfwordTransferImmediate⟩,
    ⟨0x0FBF0FFF#32, 0x010F0000#32, .psrTransferMrs⟩,
    ⟨0x0FB0FFF0#32, 0x0120F000#32, .psrTransferMsrRegister⟩,
    ⟨0x0FB0F000#32, 0x0320F000#32, .psrTransferMsrImmediate⟩,
    ⟨0x0C000000#32, 0x00000000#32, .dataProcessing⟩,
    ⟨0x0E000000#32, 0x0C000000#32, .coprocessorDataTransfer⟩,
    ⟨0x0F000010#32, 0x0E000000#32, .coprocessorDataOperation⟩,
    ⟨0x0F000010#32, 0x0E000010#32, .coprocessorRegisterTransfer⟩ ]

/-- `decodeArm` of R145: the first row that matches, and Undefined when none does (row 14, which R147 says is never reached). -/
def classifyArm (w : BitVec 32) : ArmCategory :=
  match armRows.find? (fun r => w &&& r.mask == r.pattern) with
  | some r => r.category
  | none => .undefined

/-! ## ARM fields (R125 to R143) -/

/-- An ARM word cut where every format cuts it: bits 31:28, 27:20, 19:16, 15:12, 11:8, 7:4 and 3:0. -/
structure ArmFields where
  cond : BitVec 4
  op   : BitVec 8
  rn   : BitVec 4
  rd   : BitVec 4
  rs   : BitVec 4
  lo   : BitVec 4
  rm   : BitVec 4
  deriving DecidableEq, Repr

def armFields (w : BitVec 32) : ArmFields where
  cond := w.extractLsb' 28 4
  op   := w.extractLsb' 20 8
  rn   := w.extractLsb' 16 4
  rd   := w.extractLsb' 12 4
  rs   := w.extractLsb' 8 4
  lo   := w.extractLsb' 4 4
  rm   := w.extractLsb' 0 4

/-- The word of seven fields. -/
def ArmFields.word (f : ArmFields) : BitVec 32 :=
  f.cond ++ f.op ++ f.rn ++ f.rd ++ f.rs ++ f.lo ++ f.rm

/-- Bits 23:0, 15:0, 11:0 and 7:0 of the word. -/
def ArmFields.low24 (f : ArmFields) : BitVec 24 := f.op.extractLsb' 0 4 ++ f.rn ++ f.rd ++ f.rs ++ f.lo ++ f.rm
def ArmFields.low16 (f : ArmFields) : BitVec 16 := f.rd ++ f.rs ++ f.lo ++ f.rm
def ArmFields.low12 (f : ArmFields) : BitVec 12 := f.rs ++ f.lo ++ f.rm
def ArmFields.low8 (f : ArmFields) : BitVec 8 := f.lo ++ f.rm

/-- Bits 25 (I), 24 (P), 23 (U), 22 (B, N or the halfword I), 21 (W, A) and 20 (S, L). -/
def ArmFields.bit25 (f : ArmFields) : Bool := f.op.getLsbD 5
def ArmFields.bit24 (f : ArmFields) : Bool := f.op.getLsbD 4
def ArmFields.bit23 (f : ArmFields) : Bool := f.op.getLsbD 3
def ArmFields.bit22 (f : ArmFields) : Bool := f.op.getLsbD 2
def ArmFields.bit21 (f : ArmFields) : Bool := f.op.getLsbD 1
def ArmFields.bit20 (f : ArmFields) : Bool := f.op.getLsbD 0

/-- A register shifted by an immediate (R126, second row). -/
def ArmFields.shiftAmount (f : ArmFields) : BitVec 5 := f.rs ++ f.lo.extractLsb' 3 1
def ArmFields.shiftType (f : ArmFields) : ShiftType := shiftTypeOf (f.lo.extractLsb' 1 2)

def ArmFields.operand2 (f : ArmFields) : Operand2 :=
  if f.bit25 then .imm f.rs f.low8
  else if f.lo.getLsbD 0 then .regReg (regOf f.rm) f.shiftType (regOf f.rs)
  else .regImm (regOf f.rm) f.shiftType f.shiftAmount

def ArmFields.transferOffset (f : ArmFields) : TransferOffset :=
  if f.bit25 then .reg (regOf f.rm) f.shiftType f.shiftAmount else .imm f.low12

def ArmFields.halfOffset (f : ArmFields) : HalfOffset :=
  if f.bit22 then .imm (f.rs ++ f.rm) else .reg f.rs (regOf f.rm)

/-! ## Decoding each ARM category -/

/-- R127: the opcode values, a test with S = 0 being R305's. -/
def decodeDataProcessing (c : Cond) (f : ArmFields) : Instr :=
  let s := f.bit20
  let rn := regOf f.rn
  let rd := regOf f.rd
  let o := f.operand2
  match (f.op.extractLsb' 1 4).toNat with
  | 0 => .and c s rn rd o
  | 1 => .eor c s rn rd o
  | 2 => .sub c s rn rd o
  | 3 => .rsb c s rn rd o
  | 4 => .add c s rn rd o
  | 5 => .adc c s rn rd o
  | 6 => .sbc c s rn rd o
  | 7 => .rsc c s rn rd o
  | 8 => if s then .tst c rn rd o else .psrSpaceNop c .tst rn rd o
  | 9 => if s then .teq c rn rd o else .psrSpaceNop c .teq rn rd o
  | 10 => if s then .cmp c rn rd o else .psrSpaceNop c .cmp rn rd o
  | 11 => if s then .cmn c rn rd o else .psrSpaceNop c .cmn rn rd o
  | 12 => .orr c s rn rd o
  | 13 => .mov c s rn rd o
  | 14 => .bic c s rn rd o
  | _ => .mvn c s rn rd o

/-- R130: A (bit 21) chooses MLA. -/
def decodeMultiply (c : Cond) (f : ArmFields) : Instr :=
  if f.bit21 then .mla c f.bit20 (regOf f.rn) (regOf f.rd) (regOf f.rs) (regOf f.rm)
  else .mul c f.bit20 (regOf f.rn) (regOf f.rd) (regOf f.rs) (regOf f.rm)

/-- R131: U (bit 22) signed, A (bit 21) accumulate. -/
def decodeMultiplyLong (c : Cond) (f : ArmFields) : Instr :=
  match f.bit22, f.bit21 with
  | false, false => .umull c f.bit20 (regOf f.rn) (regOf f.rd) (regOf f.rs) (regOf f.rm)
  | false, true  => .umlal c f.bit20 (regOf f.rn) (regOf f.rd) (regOf f.rs) (regOf f.rm)
  | true, false  => .smull c f.bit20 (regOf f.rn) (regOf f.rd) (regOf f.rs) (regOf f.rm)
  | true, true   => .smlal c f.bit20 (regOf f.rn) (regOf f.rd) (regOf f.rs) (regOf f.rm)

/-- R136: P = 1 the pre-indexed rows, P = 0 with W = 0 the post-indexed ones, P = 0 with W = 1 the T forms. -/
def decodeSingleTransfer (c : Cond) (f : ArmFields) : Instr :=
  let u := f.bit23
  let w := f.bit21
  let rn := regOf f.rn
  let rd := regOf f.rd
  let off := f.transferOffset
  match f.bit20, f.bit22, f.bit24, w with
  | true,  false, true,  _     => .ldrPre c u w rn rd off
  | true,  false, false, false => .ldrPost c u rn rd off
  | true,  false, false, true  => .ldrt c u rn rd off
  | true,  true,  true,  _     => .ldrbPre c u w rn rd off
  | true,  true,  false, false => .ldrbPost c u rn rd off
  | true,  true,  false, true  => .ldrbt c u rn rd off
  | false, false, true,  _     => .strPre c u w rn rd off
  | false, false, false, false => .strPost c u rn rd off
  | false, false, false, true  => .strt c u rn rd off
  | false, true,  true,  _     => .strbPre c u w rn rd off
  | false, true,  false, false => .strbPost c u rn rd off
  | false, true,  false, true  => .strbt c u rn rd off

/-- R134, R135: bits 6:5 are S H, bit 20 is L. -/
def decodeHalfTransfer (c : Cond) (f : ArmFields) : Instr :=
  let rn := regOf f.rn
  let rd := regOf f.rd
  let off := f.halfOffset
  match f.lo.getLsbD 2, f.lo.getLsbD 1, f.bit20 with
  | false, false, l    => .halfSh00 c f.bit24 f.bit23 f.bit21 l rn rd off
  | false, true, true  => .ldrh c f.bit24 f.bit23 f.bit21 rn rd off
  | false, true, false => .strh c f.bit24 f.bit23 f.bit21 rn rd off
  | true, false, true  => .ldrsb c f.bit24 f.bit23 f.bit21 rn rd off
  | true, true, true   => .ldrsh c f.bit24 f.bit23 f.bit21 rn rd off
  | true, h, false     => .signedStore c f.bit24 f.bit23 f.bit21 h rn rd off

/-- R132. -/
def decodeSwap (c : Cond) (f : ArmFields) : Instr :=
  if f.bit22 then .swpb c (regOf f.rn) (regOf f.rd) f.rs (regOf f.rm) else .swp c (regOf f.rn) (regOf f.rd) f.rs (regOf f.rm)

/-- R138: P and U choose the addressing mode, S is bit 22. -/
def decodeBlockTransfer (c : Cond) (f : ArmFields) : Instr :=
  let s := f.bit22
  let w := f.bit21
  let rn := regOf f.rn
  match f.bit20, f.bit24, f.bit23 with
  | true,  false, true  => .ldmia c s w rn f.low16
  | true,  true,  true  => .ldmib c s w rn f.low16
  | true,  false, false => .ldmda c s w rn f.low16
  | true,  true,  false => .ldmdb c s w rn f.low16
  | false, false, true  => .stmia c s w rn f.low16
  | false, true,  true  => .stmib c s w rn f.low16
  | false, false, false => .stmda c s w rn f.low16
  | false, true,  false => .stmdb c s w rn f.low16

/-- R139. -/
def decodeBranch (c : Cond) (f : ArmFields) : Instr :=
  if f.bit24 then .bl c f.low24 else .b c f.low24

/-- R140. -/
def decodeCoprocessorTransfer (c : Cond) (f : ArmFields) : Instr :=
  if f.bit20 then .ldc c f.bit24 f.bit23 f.bit22 f.bit21 f.rn f.rd f.rs f.low8
  else .stc c f.bit24 f.bit23 f.bit22 f.bit21 f.rn f.rd f.rs f.low8

/-- R142: L (bit 20) = 1 is MRC. -/
def decodeCoprocessorRegister (c : Cond) (f : ArmFields) : Instr :=
  if f.bit20 then .mrc c (f.op.extractLsb' 1 3) f.rn f.rd f.rs (f.lo.extractLsb' 1 3) f.rm
  else .mcr c (f.op.extractLsb' 1 3) f.rn f.rd f.rs (f.lo.extractLsb' 1 3) f.rm

/-- The decoder of each category (R149). -/
def decodeCategory (c : Cond) (f : ArmFields) : ArmCategory → Instr
  | .branchAndExchange => .bx c (regOf f.rm)
  | .blockDataTransfer => decodeBlockTransfer c f
  | .branch => decodeBranch c f
  | .softwareInterrupt => .swi c f.low24
  | .undefined => .undefined c (f.op.extractLsb' 0 5 ++ f.rn ++ f.rd ++ f.rs ++ f.lo.extractLsb' 1 3) f.rm
  | .singleDataTransfer => decodeSingleTransfer c f
  | .singleDataSwap => decodeSwap c f
  | .multiply => decodeMultiply c f
  | .multiplyLong => decodeMultiplyLong c f
  | .halfwordTransferRegister | .halfwordTransferImmediate => decodeHalfTransfer c f
  | .psrTransferMrs => .mrs c f.bit22 (regOf f.rd)
  | .psrTransferMsrRegister => .msrReg c f.bit22 f.rn (regOf f.rm)
  | .psrTransferMsrImmediate => .msrImm c f.bit22 f.rn f.rs f.low8
  | .dataProcessing => decodeDataProcessing c f
  | .coprocessorDataTransfer => decodeCoprocessorTransfer c f
  | .coprocessorDataOperation => .cdp c (f.op.extractLsb' 0 4) f.rn f.rd f.rs (f.lo.extractLsb' 1 3) f.rm
  | .coprocessorRegisterTransfer => decodeCoprocessorRegister c f

/-- The ARM decoder: condition 1111 first, whatever the category (R182), then R145. -/
def decodeArm (w : BitVec 32) : Instr :=
  let f := armFields w
  match condOf f.cond with
  | none => .reservedCond (w.extractLsb' 0 28)
  | some c => decodeCategory c f (classifyArm w)

/-! ## The Thumb decoder (R179) -/

/-- The 19 formats of R160 to R178, and the undefined row. -/
inductive ThumbFormat
  | moveShiftedRegister | addSubtract | moveCompareAddSubtractImmediate | aluOperations | hiRegisterOperationsBranchExchange
  | pcRelativeLoad | loadStoreRegisterOffset | loadStoreSignExtended | loadStoreImmediateOffset | loadStoreHalfword
  | spRelativeLoadStore | loadAddress | addOffsetToStackPointer | pushPopRegisters | multipleLoadStore | conditionalBranch
  | softwareInterrupt | unconditionalBranch | longBranchWithLink | thumbUndefined
  deriving DecidableEq, Repr

structure ThumbRow where
  mask : Half
  pattern : Half
  format : ThumbFormat
  /-- the extra condition of the table's row 17: bits 11:8 are not 1110 -/
  notCond14 : Bool
  deriving DecidableEq, Repr

/-- The rows of R179 in their order. -/
def thumbRows : List ThumbRow :=
  [ ⟨0xF800#16, 0x1800#16, .addSubtract, false⟩,
    ⟨0xE000#16, 0x0000#16, .moveShiftedRegister, false⟩,
    ⟨0xE000#16, 0x2000#16, .moveCompareAddSubtractImmediate, false⟩,
    ⟨0xFC00#16, 0x4000#16, .aluOperations, false⟩,
    ⟨0xFC00#16, 0x4400#16, .hiRegisterOperationsBranchExchange, false⟩,
    ⟨0xF800#16, 0x4800#16, .pcRelativeLoad, false⟩,
    ⟨0xF200#16, 0x5000#16, .loadStoreRegisterOffset, false⟩,
    ⟨0xF200#16, 0x5200#16, .loadStoreSignExtended, false⟩,
    ⟨0xE000#16, 0x6000#16, .loadStoreImmediateOffset, false⟩,
    ⟨0xF000#16, 0x8000#16, .loadStoreHalfword, false⟩,
    ⟨0xF000#16, 0x9000#16, .spRelativeLoadStore, false⟩,
    ⟨0xF000#16, 0xA000#16, .loadAddress, false⟩,
    ⟨0xFF00#16, 0xB000#16, .addOffsetToStackPointer, false⟩,
    ⟨0xF600#16, 0xB400#16, .pushPopRegisters, false⟩,
    ⟨0xF000#16, 0xC000#16, .multipleLoadStore, false⟩,
    ⟨0xFF00#16, 0xDF00#16, .softwareInterrupt, false⟩,
    ⟨0xF000#16, 0xD000#16, .conditionalBranch, true⟩,
    ⟨0xF800#16, 0xE000#16, .unconditionalBranch, false⟩,
    ⟨0xF000#16, 0xF000#16, .longBranchWithLink, false⟩ ]

/-- `decodeThumb` of R179. -/
def classifyThumb (h : Half) : ThumbFormat :=
  match thumbRows.find? (fun r => h &&& r.mask == r.pattern && !(r.notCond14 && h &&& 0x0F00#16 == 0x0E00#16)) with
  | some r => r.format
  | none => .thumbUndefined

/-- Format 1 (R160); Op 11 is format 2. -/
def decodeThumbShift (h : Half) : Instr :=
  let off := h.extractLsb' 6 5
  let rs := lowRegOf (h.extractLsb' 3 3)
  let rd := lowRegOf (h.extractLsb' 0 3)
  match (h.extractLsb' 11 2).toNat with
  | 0 => .tLslImm off rs rd
  | 1 => .tLsrImm off rs rd
  | _ => .tAsrImm off rs rd

/-- Format 2 (R161): bits 10:9 are I Op. -/
def decodeThumbAddSub (h : Half) : Instr :=
  let rs := lowRegOf (h.extractLsb' 3 3)
  let rd := lowRegOf (h.extractLsb' 0 3)
  match (h.extractLsb' 9 2).toNat with
  | 0 => .tAddReg (lowRegOf (h.extractLsb' 6 3)) rs rd
  | 1 => .tSubReg (lowRegOf (h.extractLsb' 6 3)) rs rd
  | 2 => .tAddImm3 (h.extractLsb' 6 3) rs rd
  | _ => .tSubImm3 (h.extractLsb' 6 3) rs rd

/-- Format 3 (R162). -/
def decodeThumbImm8 (h : Half) : Instr :=
  let rd := lowRegOf (h.extractLsb' 8 3)
  let imm := h.extractLsb' 0 8
  match (h.extractLsb' 11 2).toNat with
  | 0 => .tMovImm rd imm
  | 1 => .tCmpImm rd imm
  | 2 => .tAddImm8 rd imm
  | _ => .tSubImm8 rd imm

/-- Format 4 (R163). -/
def decodeThumbAlu (h : Half) : Instr :=
  let rs := lowRegOf (h.extractLsb' 3 3)
  let rd := lowRegOf (h.extractLsb' 0 3)
  match (h.extractLsb' 6 4).toNat with
  | 0 => .tAnd rs rd
  | 1 => .tEor rs rd
  | 2 => .tLsl rs rd
  | 3 => .tLsr rs rd
  | 4 => .tAsr rs rd
  | 5 => .tAdc rs rd
  | 6 => .tSbc rs rd
  | 7 => .tRor rs rd
  | 8 => .tTst rs rd
  | 9 => .tNeg rs rd
  | 10 => .tCmp rs rd
  | 11 => .tCmn rs rd
  | 12 => .tOrr rs rd
  | 13 => .tMul rs rd
  | 14 => .tBic rs rd
  | _ => .tMvn rs rd

/-- Format 5 (R164): the registers are H2 ++ Rs and H1 ++ Rd. -/
def decodeThumbHi (h : Half) : Instr :=
  let rs := regOf (h.extractLsb' 6 1 ++ h.extractLsb' 3 3)
  let rd := regOf (h.extractLsb' 7 1 ++ h.extractLsb' 0 3)
  match (h.extractLsb' 8 2).toNat with
  | 0 => .tAddHi rs rd
  | 1 => .tCmpHi rs rd
  | 2 => .tMovHi rs rd
  | _ => if h.getLsbD 7 then .tBxH1 rs (h.extractLsb' 0 3) else .tBx rs (h.extractLsb' 0 3)

/-- Format 7 (R166): bits 11:10 are L B. -/
def decodeThumbRegOffset (h : Half) : Instr :=
  let ro := lowRegOf (h.extractLsb' 6 3)
  let rb := lowRegOf (h.extractLsb' 3 3)
  let rd := lowRegOf (h.extractLsb' 0 3)
  match (h.extractLsb' 10 2).toNat with
  | 0 => .tStrReg ro rb rd
  | 1 => .tStrbReg ro rb rd
  | 2 => .tLdrReg ro rb rd
  | _ => .tLdrbReg ro rb rd

/-- Format 8 (R167): bits 11:10 are H S. -/
def decodeThumbSignExtended (h : Half) : Instr :=
  let ro := lowRegOf (h.extractLsb' 6 3)
  let rb := lowRegOf (h.extractLsb' 3 3)
  let rd := lowRegOf (h.extractLsb' 0 3)
  match (h.extractLsb' 10 2).toNat with
  | 0 => .tStrhReg ro rb rd
  | 1 => .tLdsb ro rb rd
  | 2 => .tLdrhReg ro rb rd
  | _ => .tLdsh ro rb rd

/-- Format 9 (R168): bits 12:11 are B L. -/
def decodeThumbImmOffset (h : Half) : Instr :=
  let off := h.extractLsb' 6 5
  let rb := lowRegOf (h.extractLsb' 3 3)
  let rd := lowRegOf (h.extractLsb' 0 3)
  match (h.extractLsb' 11 2).toNat with
  | 0 => .tStrImm off rb rd
  | 1 => .tLdrImm off rb rd
  | 2 => .tStrbImm off rb rd
  | _ => .tLdrbImm off rb rd

/-- Format 16 (R175): the opcode table's three rows by range of condition. -/
def decodeThumbCondBranch (h : Half) : Instr :=
  let off := h.extractLsb' 0 8
  match condOf (h.extractLsb' 8 4) with
  | some c => if c.toNat < 8 then .tBCond0to7 c off else if c.toNat < 12 then .tBCond8to11 c off else .tBCond12to13 c off
  | none => .tSwi off

/-- The undefined halfwords of R180 by the opcode table's rows, R601's cond 1110 among them. -/
def decodeThumbUndefined (h : Half) : Instr :=
  if h.extractLsb' 11 5 = 0b11101#5 then .tUndefE8 (h.extractLsb' 0 11)
  else if h.extractLsb' 8 8 = 0xDE#8 then .tBCond14 (h.extractLsb' 0 8)
  else if h.extractLsb' 8 8 = 0xB1#8 then .tUndefB1 (h.extractLsb' 0 8)
  else if h.extractLsb' 9 7 = 0b1011001#7 then .tUndefB2 (h.extractLsb' 0 9)
  else if h.extractLsb' 9 7 = 0b1011011#7 then .tUndefB6 (h.extractLsb' 0 9)
  else if h.extractLsb' 10 6 = 0b101110#6 then .tUndefB8 (h.extractLsb' 0 10)
  else .tUndefBE (h.extractLsb' 0 9)

def decodeFormat (h : Half) : ThumbFormat → Instr
  | .moveShiftedRegister => decodeThumbShift h
  | .addSubtract => decodeThumbAddSub h
  | .moveCompareAddSubtractImmediate => decodeThumbImm8 h
  | .aluOperations => decodeThumbAlu h
  | .hiRegisterOperationsBranchExchange => decodeThumbHi h
  | .pcRelativeLoad => .tLdrPc (lowRegOf (h.extractLsb' 8 3)) (h.extractLsb' 0 8)
  | .loadStoreRegisterOffset => decodeThumbRegOffset h
  | .loadStoreSignExtended => decodeThumbSignExtended h
  | .loadStoreImmediateOffset => decodeThumbImmOffset h
  | .loadStoreHalfword =>
      if h.getLsbD 11 then .tLdrhImm (h.extractLsb' 6 5) (lowRegOf (h.extractLsb' 3 3)) (lowRegOf (h.extractLsb' 0 3))
      else .tStrhImm (h.extractLsb' 6 5) (lowRegOf (h.extractLsb' 3 3)) (lowRegOf (h.extractLsb' 0 3))
  | .spRelativeLoadStore =>
      if h.getLsbD 11 then .tLdrSp (lowRegOf (h.extractLsb' 8 3)) (h.extractLsb' 0 8)
      else .tStrSp (lowRegOf (h.extractLsb' 8 3)) (h.extractLsb' 0 8)
  | .loadAddress =>
      if h.getLsbD 11 then .tAddSp (lowRegOf (h.extractLsb' 8 3)) (h.extractLsb' 0 8)
      else .tAddPc (lowRegOf (h.extractLsb' 8 3)) (h.extractLsb' 0 8)
  | .addOffsetToStackPointer => if h.getLsbD 7 then .tDecSp (h.extractLsb' 0 7) else .tIncSp (h.extractLsb' 0 7)
  | .pushPopRegisters =>
      if h.getLsbD 11 then .tPop (h.getLsbD 8) (h.extractLsb' 0 8) else .tPush (h.getLsbD 8) (h.extractLsb' 0 8)
  | .multipleLoadStore =>
      if h.getLsbD 11 then .tLdmia (lowRegOf (h.extractLsb' 8 3)) (h.extractLsb' 0 8)
      else .tStmia (lowRegOf (h.extractLsb' 8 3)) (h.extractLsb' 0 8)
  | .conditionalBranch => decodeThumbCondBranch h
  | .softwareInterrupt => .tSwi (h.extractLsb' 0 8)
  | .unconditionalBranch => .tB (h.extractLsb' 0 11)
  | .longBranchWithLink => if h.getLsbD 11 then .tBlLow (h.extractLsb' 0 11) else .tBlHigh (h.extractLsb' 0 11)
  | .thumbUndefined => decodeThumbUndefined h

/-- The Thumb decoder. -/
def decodeThumb (h : Half) : Instr := decodeFormat h (classifyThumb h)

/-! ## Decoding bytes -/

/-- Why a byte string is no instruction: it ends before the instruction does.  Every whole word or halfword decodes. -/
inductive DecodeError
  | truncatedArmWord
  | truncatedThumbHalfword
  deriving DecidableEq, Repr

/-- The instruction at the head of a byte string, little-endian (R81), in the instruction set that T selects (R121), with the bytes
after it. -/
def decodeBytes (thumb : Bool) (bytes : List Byte) : Except DecodeError (Instr × List Byte) :=
  match thumb, bytes with
  | false, b0 :: b1 :: b2 :: b3 :: rest => .ok (decodeArm (b3 ++ b2 ++ b1 ++ b0), rest)
  | false, _ => .error .truncatedArmWord
  | true, b0 :: b1 :: rest => .ok (decodeThumb (b1 ++ b0), rest)
  | true, _ => .error .truncatedThumbHalfword

/-- The little-endian bytes of a word and of a halfword (R81). -/
def wordBytes (w : BitVec 32) : List Byte :=
  [w.extractLsb' 0 8, w.extractLsb' 8 8, w.extractLsb' 16 8, w.extractLsb' 24 8]
def halfBytes (h : Half) : List Byte := [h.extractLsb' 0 8, h.extractLsb' 8 8]

/-- The instruction the decoder reads from a word numbered as spec/opcode_table.json numbers it: 32 bits for an ARM row, 16 for a Thumb
row.  The word is laid out as memory holds it and given to `decodeBytes`. -/
def decodeTableWord (nbits w : Nat) : Option Instr :=
  match nbits with
  | 32 =>
    match decodeBytes false (wordBytes (BitVec.ofNat 32 w)) with
    | .ok (i, _) => some i
    | .error _ => none
  | 16 =>
    match decodeBytes true (halfBytes (BitVec.ofNat 16 w)) with
    | .ok (i, _) => some i
    | .error _ => none
  | _ => none

/-! ## The encoder -/

/-- An encoded instruction: an ARM word or a Thumb halfword (R120). -/
inductive Code
  | arm (w : BitVec 32)
  | thumb (h : Half)
  deriving DecidableEq, Repr

def Code.bytes : Code → List Byte
  | .arm w => wordBytes w
  | .thumb h => halfBytes h

def Code.isThumb : Code → Bool
  | .arm _ => false
  | .thumb _ => true

/-- The instruction a code decodes to. -/
def Code.decode : Code → Instr
  | .arm w => decodeArm w
  | .thumb h => decodeThumb h

/-- R125, R126. -/
def encodeDataProcessing (opcode : BitVec 4) (c : Cond) (s : Bool) (rn rd : Reg) : Operand2 → Code
  | .imm rotate imm8 =>
      .arm (ArmFields.mk (condBits c) (0b001#3 ++ opcode ++ flagBit s) (regBits rn) (regBits rd) rotate
        (imm8.extractLsb' 4 4) (imm8.extractLsb' 0 4)).word
  | .regImm rm type amount =>
      .arm (ArmFields.mk (condBits c) (0b000#3 ++ opcode ++ flagBit s) (regBits rn) (regBits rd) (amount.extractLsb' 1 4)
        (amount.extractLsb' 0 1 ++ shiftTypeBits type ++ 0b0#1) (regBits rm)).word
  | .regReg rm type rs =>
      .arm (ArmFields.mk (condBits c) (0b000#3 ++ opcode ++ flagBit s) (regBits rn) (regBits rd) (regBits rs)
        (0b0#1 ++ shiftTypeBits type ++ 0b1#1) (regBits rm)).word

def testOpBits : TestOp → BitVec 4
  | .tst => 0b1000#4 | .teq => 0b1001#4 | .cmp => 0b1010#4 | .cmn => 0b1011#4

/-- R130, R131: the multiplies, `op` being bits 27:20. -/
def encodeMultiply (op : BitVec 8) (c : Cond) (r19 r15 rs rm : Reg) : Code :=
  .arm (ArmFields.mk (condBits c) op (regBits r19) (regBits r15) (regBits rs) 0b1001#4 (regBits rm)).word

/-- R136. -/
def encodeSingleTransfer (p b w l : Bool) (c : Cond) (u : Bool) (rn rd : Reg) : TransferOffset → Code
  | .imm imm12 =>
      .arm (ArmFields.mk (condBits c) (0b010#3 ++ flagBit p ++ flagBit u ++ flagBit b ++ flagBit w ++ flagBit l) (regBits rn)
        (regBits rd) (imm12.extractLsb' 8 4) (imm12.extractLsb' 4 4) (imm12.extractLsb' 0 4)).word
  | .reg rm type amount =>
      .arm (ArmFields.mk (condBits c) (0b011#3 ++ flagBit p ++ flagBit u ++ flagBit b ++ flagBit w ++ flagBit l) (regBits rn)
        (regBits rd) (amount.extractLsb' 1 4) (amount.extractLsb' 0 1 ++ shiftTypeBits type ++ 0b0#1) (regBits rm)).word

/-- R134. -/
def encodeHalfTransfer (sh : BitVec 2) (l : Bool) (c : Cond) (p u w : Bool) (rn rd : Reg) : HalfOffset → Code
  | .imm imm8 =>
      .arm (ArmFields.mk (condBits c) (0b000#3 ++ flagBit p ++ flagBit u ++ 0b1#1 ++ flagBit w ++ flagBit l) (regBits rn)
        (regBits rd) (imm8.extractLsb' 4 4) (0b1#1 ++ sh ++ 0b1#1) (imm8.extractLsb' 0 4)).word
  | .reg sbz rm =>
      .arm (ArmFields.mk (condBits c) (0b000#3 ++ flagBit p ++ flagBit u ++ 0b0#1 ++ flagBit w ++ flagBit l) (regBits rn)
        (regBits rd) sbz (0b1#1 ++ sh ++ 0b1#1) (regBits rm)).word

/-- R138. -/
def encodeBlockTransfer (p u l : Bool) (c : Cond) (s w : Bool) (rn : Reg) (list : BitVec 16) : Code :=
  .arm (ArmFields.mk (condBits c) (0b100#3 ++ flagBit p ++ flagBit u ++ flagBit s ++ flagBit w ++ flagBit l) (regBits rn)
    (list.extractLsb' 12 4) (list.extractLsb' 8 4) (list.extractLsb' 4 4) (list.extractLsb' 0 4)).word

/-- R139, R143: `op4` is bits 27:24. -/
def encodeLow24 (op4 : BitVec 4) (c : Cond) (x : BitVec 24) : Code :=
  .arm (ArmFields.mk (condBits c) (op4 ++ x.extractLsb' 20 4) (x.extractLsb' 16 4) (x.extractLsb' 12 4) (x.extractLsb' 8 4)
    (x.extractLsb' 4 4) (x.extractLsb' 0 4)).word

/-- R140. -/
def encodeCoprocessorTransfer (l : Bool) (c : Cond) (p u n w : Bool) (rn crd cp : BitVec 4) (offset8 : BitVec 8) : Code :=
  .arm (ArmFields.mk (condBits c) (0b110#3 ++ flagBit p ++ flagBit u ++ flagBit n ++ flagBit w ++ flagBit l) rn crd cp
    (offset8.extractLsb' 4 4) (offset8.extractLsb' 0 4)).word

/-- The Thumb layouts: an operation field and the operands below it (R160 to R178). -/
def thumb5533 (op : BitVec 5) (x : BitVec 5) (r2 r1 : BitVec 3) : Code := .thumb (op ++ x ++ r2 ++ r1)
def thumb7333 (op : BitVec 7) (r3 r2 r1 : BitVec 3) : Code := .thumb (op ++ r3 ++ r2 ++ r1)
def thumb538 (op : BitVec 5) (r : BitVec 3) (x : BitVec 8) : Code := .thumb (op ++ r ++ x)
def thumbA33 (op : BitVec 10) (r2 r1 : BitVec 3) : Code := .thumb (op ++ r2 ++ r1)
def thumb88 (op : BitVec 8) (x : BitVec 8) : Code := .thumb (op ++ x)
def thumb97 (op : BitVec 9) (x : BitVec 7) : Code := .thumb (op ++ x)
def thumb79 (op : BitVec 7) (x : BitVec 9) : Code := .thumb (op ++ x)
def thumb6A (op : BitVec 6) (x : BitVec 10) : Code := .thumb (op ++ x)
def thumb5B (op : BitVec 5) (x : BitVec 11) : Code := .thumb (op ++ x)

/-- R164: H1 and H2 are the top bits of the two registers. -/
def thumbHi (op : BitVec 8) (rs rd : BitVec 4) : Code :=
  .thumb (op ++ rd.extractLsb' 3 1 ++ rs.extractLsb' 3 1 ++ rs.extractLsb' 0 3 ++ rd.extractLsb' 0 3)

/-- The code of an instruction. -/
def encode : Instr → Code
  | .and c s rn rd o => encodeDataProcessing 0b0000#4 c s rn rd o
  | .eor c s rn rd o => encodeDataProcessing 0b0001#4 c s rn rd o
  | .sub c s rn rd o => encodeDataProcessing 0b0010#4 c s rn rd o
  | .rsb c s rn rd o => encodeDataProcessing 0b0011#4 c s rn rd o
  | .add c s rn rd o => encodeDataProcessing 0b0100#4 c s rn rd o
  | .adc c s rn rd o => encodeDataProcessing 0b0101#4 c s rn rd o
  | .sbc c s rn rd o => encodeDataProcessing 0b0110#4 c s rn rd o
  | .rsc c s rn rd o => encodeDataProcessing 0b0111#4 c s rn rd o
  | .tst c rn rd o => encodeDataProcessing 0b1000#4 c true rn rd o
  | .teq c rn rd o => encodeDataProcessing 0b1001#4 c true rn rd o
  | .cmp c rn rd o => encodeDataProcessing 0b1010#4 c true rn rd o
  | .cmn c rn rd o => encodeDataProcessing 0b1011#4 c true rn rd o
  | .orr c s rn rd o => encodeDataProcessing 0b1100#4 c s rn rd o
  | .mov c s sbz rd o => encodeDataProcessing 0b1101#4 c s sbz rd o
  | .bic c s rn rd o => encodeDataProcessing 0b1110#4 c s rn rd o
  | .mvn c s sbz rd o => encodeDataProcessing 0b1111#4 c s sbz rd o
  | .psrSpaceNop c op rn rd o => encodeDataProcessing (testOpBits op) c false rn rd o
  | .mrs c p rd =>
      .arm (ArmFields.mk (condBits c) (0b00010#5 ++ flagBit p ++ 0b00#2) 0b1111#4 (regBits rd) 0b0000#4 0b0000#4 0b0000#4).word
  | .msrReg c p mask rm =>
      .arm (ArmFields.mk (condBits c) (0b00010#5 ++ flagBit p ++ 0b10#2) mask 0b1111#4 0b0000#4 0b0000#4 (regBits rm)).word
  | .msrImm c p mask rotate imm8 =>
      .arm (ArmFields.mk (condBits c) (0b00110#5 ++ flagBit p ++ 0b10#2) mask 0b1111#4 rotate (imm8.extractLsb' 4 4)
        (imm8.extractLsb' 0 4)).word
  | .mul c s rd sbz rs rm => encodeMultiply (0b0000000#7 ++ flagBit s) c rd sbz rs rm
  | .mla c s rd rn rs rm => encodeMultiply (0b0000001#7 ++ flagBit s) c rd rn rs rm
  | .umull c s hi lo rs rm => encodeMultiply (0b0000100#7 ++ flagBit s) c hi lo rs rm
  | .umlal c s hi lo rs rm => encodeMultiply (0b0000101#7 ++ flagBit s) c hi lo rs rm
  | .smull c s hi lo rs rm => encodeMultiply (0b0000110#7 ++ flagBit s) c hi lo rs rm
  | .smlal c s hi lo rs rm => encodeMultiply (0b0000111#7 ++ flagBit s) c hi lo rs rm
  | .ldrPre c u w rn rd off => encodeSingleTransfer true false w true c u rn rd off
  | .ldrPost c u rn rd off => encodeSingleTransfer false false false true c u rn rd off
  | .ldrbPre c u w rn rd off => encodeSingleTransfer true true w true c u rn rd off
  | .ldrbPost c u rn rd off => encodeSingleTransfer false true false true c u rn rd off
  | .strPre c u w rn rd off => encodeSingleTransfer true false w false c u rn rd off
  | .strPost c u rn rd off => encodeSingleTransfer false false false false c u rn rd off
  | .strbPre c u w rn rd off => encodeSingleTransfer true true w false c u rn rd off
  | .strbPost c u rn rd off => encodeSingleTransfer false true false false c u rn rd off
  | .ldrt c u rn rd off => encodeSingleTransfer false false true true c u rn rd off
  | .ldrbt c u rn rd off => encodeSingleTransfer false true true true c u rn rd off
  | .strt c u rn rd off => encodeSingleTransfer false false true false c u rn rd off
  | .strbt c u rn rd off => encodeSingleTransfer false true true false c u rn rd off
  | .ldrh c p u w rn rd off => encodeHalfTransfer 0b01#2 true c p u w rn rd off
  | .strh c p u w rn rd off => encodeHalfTransfer 0b01#2 false c p u w rn rd off
  | .ldrsb c p u w rn rd off => encodeHalfTransfer 0b10#2 true c p u w rn rd off
  | .ldrsh c p u w rn rd off => encodeHalfTransfer 0b11#2 true c p u w rn rd off
  | .signedStore c p u w h rn rd off => encodeHalfTransfer (0b1#1 ++ flagBit h) false c p u w rn rd off
  | .halfSh00 c p u w l rn rd off => encodeHalfTransfer 0b00#2 l c p u w rn rd off
  | .swp c rn rd sbz rm => .arm (ArmFields.mk (condBits c) 0b00010000#8 (regBits rn) (regBits rd) sbz 0b1001#4 (regBits rm)).word
  | .swpb c rn rd sbz rm => .arm (ArmFields.mk (condBits c) 0b00010100#8 (regBits rn) (regBits rd) sbz 0b1001#4 (regBits rm)).word
  | .ldmia c s w rn list => encodeBlockTransfer false true true c s w rn list
  | .ldmib c s w rn list => encodeBlockTransfer true true true c s w rn list
  | .ldmda c s w rn list => encodeBlockTransfer false false true c s w rn list
  | .ldmdb c s w rn list => encodeBlockTransfer true false true c s w rn list
  | .stmia c s w rn list => encodeBlockTransfer false true false c s w rn list
  | .stmib c s w rn list => encodeBlockTransfer true true false c s w rn list
  | .stmda c s w rn list => encodeBlockTransfer false false false c s w rn list
  | .stmdb c s w rn list => encodeBlockTransfer true false false c s w rn list
  | .b c off => encodeLow24 0b1010#4 c off
  | .bl c off => encodeLow24 0b1011#4 c off
  | .bx c rn => .arm (ArmFields.mk (condBits c) 0b00010010#8 0b1111#4 0b1111#4 0b1111#4 0b0001#4 (regBits rn)).word
  | .swi c comment => encodeLow24 0b1111#4 c comment
  | .undefined c x20 x4 =>
      .arm (ArmFields.mk (condBits c) (0b011#3 ++ x20.extractLsb' 15 5) (x20.extractLsb' 11 4) (x20.extractLsb' 7 4)
        (x20.extractLsb' 3 4) (x20.extractLsb' 0 3 ++ 0b1#1) x4).word
  | .ldc c p u n w rn crd cp offset8 => encodeCoprocessorTransfer true c p u n w rn crd cp offset8
  | .stc c p u n w rn crd cp offset8 => encodeCoprocessorTransfer false c p u n w rn crd cp offset8
  | .cdp c opc crn crd cp info crm => .arm (ArmFields.mk (condBits c) (0b1110#4 ++ opc) crn crd cp (info ++ 0b0#1) crm).word
  | .mcr c opc crn rd cp info crm => .arm (ArmFields.mk (condBits c) (0b1110#4 ++ opc ++ 0b0#1) crn rd cp (info ++ 0b1#1) crm).word
  | .mrc c opc crn rd cp info crm => .arm (ArmFields.mk (condBits c) (0b1110#4 ++ opc ++ 0b1#1) crn rd cp (info ++ 0b1#1) crm).word
  | .reservedCond x28 => .arm (0b1111#4 ++ x28)
  | .tLslImm off rs rd => thumb5533 0b00000#5 off (lowRegBits rs) (lowRegBits rd)
  | .tLsrImm off rs rd => thumb5533 0b00001#5 off (lowRegBits rs) (lowRegBits rd)
  | .tAsrImm off rs rd => thumb5533 0b00010#5 off (lowRegBits rs) (lowRegBits rd)
  | .tAddReg rn rs rd => thumb7333 0b0001100#7 (lowRegBits rn) (lowRegBits rs) (lowRegBits rd)
  | .tSubReg rn rs rd => thumb7333 0b0001101#7 (lowRegBits rn) (lowRegBits rs) (lowRegBits rd)
  | .tAddImm3 imm3 rs rd => thumb7333 0b0001110#7 imm3 (lowRegBits rs) (lowRegBits rd)
  | .tSubImm3 imm3 rs rd => thumb7333 0b0001111#7 imm3 (lowRegBits rs) (lowRegBits rd)
  | .tMovImm rd imm8 => thumb538 0b00100#5 (lowRegBits rd) imm8
  | .tCmpImm rd imm8 => thumb538 0b00101#5 (lowRegBits rd) imm8
  | .tAddImm8 rd imm8 => thumb538 0b00110#5 (lowRegBits rd) imm8
  | .tSubImm8 rd imm8 => thumb538 0b00111#5 (lowRegBits rd) imm8
  | .tAnd rs rd => thumbA33 0b0100000000#10 (lowRegBits rs) (lowRegBits rd)
  | .tEor rs rd => thumbA33 0b0100000001#10 (lowRegBits rs) (lowRegBits rd)
  | .tLsl rs rd => thumbA33 0b0100000010#10 (lowRegBits rs) (lowRegBits rd)
  | .tLsr rs rd => thumbA33 0b0100000011#10 (lowRegBits rs) (lowRegBits rd)
  | .tAsr rs rd => thumbA33 0b0100000100#10 (lowRegBits rs) (lowRegBits rd)
  | .tAdc rs rd => thumbA33 0b0100000101#10 (lowRegBits rs) (lowRegBits rd)
  | .tSbc rs rd => thumbA33 0b0100000110#10 (lowRegBits rs) (lowRegBits rd)
  | .tRor rs rd => thumbA33 0b0100000111#10 (lowRegBits rs) (lowRegBits rd)
  | .tTst rs rd => thumbA33 0b0100001000#10 (lowRegBits rs) (lowRegBits rd)
  | .tNeg rs rd => thumbA33 0b0100001001#10 (lowRegBits rs) (lowRegBits rd)
  | .tCmp rs rd => thumbA33 0b0100001010#10 (lowRegBits rs) (lowRegBits rd)
  | .tCmn rs rd => thumbA33 0b0100001011#10 (lowRegBits rs) (lowRegBits rd)
  | .tOrr rs rd => thumbA33 0b0100001100#10 (lowRegBits rs) (lowRegBits rd)
  | .tMul rs rd => thumbA33 0b0100001101#10 (lowRegBits rs) (lowRegBits rd)
  | .tBic rs rd => thumbA33 0b0100001110#10 (lowRegBits rs) (lowRegBits rd)
  | .tMvn rs rd => thumbA33 0b0100001111#10 (lowRegBits rs) (lowRegBits rd)
  | .tAddHi rs rd => thumbHi 0b01000100#8 (regBits rs) (regBits rd)
  | .tCmpHi rs rd => thumbHi 0b01000101#8 (regBits rs) (regBits rd)
  | .tMovHi rs rd => thumbHi 0b01000110#8 (regBits rs) (regBits rd)
  | .tBx rs sbz => thumbHi 0b01000111#8 (regBits rs) (0b0#1 ++ sbz)
  | .tBxH1 rs sbz => thumbHi 0b01000111#8 (regBits rs) (0b1#1 ++ sbz)
  | .tLdrPc rd word8 => thumb538 0b01001#5 (lowRegBits rd) word8
  | .tStrReg ro rb rd => thumb7333 0b0101000#7 (lowRegBits ro) (lowRegBits rb) (lowRegBits rd)
  | .tStrbReg ro rb rd => thumb7333 0b0101010#7 (lowRegBits ro) (lowRegBits rb) (lowRegBits rd)
  | .tLdrReg ro rb rd => thumb7333 0b0101100#7 (lowRegBits ro) (lowRegBits rb) (lowRegBits rd)
  | .tLdrbReg ro rb rd => thumb7333 0b0101110#7 (lowRegBits ro) (lowRegBits rb) (lowRegBits rd)
  | .tStrhReg ro rb rd => thumb7333 0b0101001#7 (lowRegBits ro) (lowRegBits rb) (lowRegBits rd)
  | .tLdrhReg ro rb rd => thumb7333 0b0101101#7 (lowRegBits ro) (lowRegBits rb) (lowRegBits rd)
  | .tLdsb ro rb rd => thumb7333 0b0101011#7 (lowRegBits ro) (lowRegBits rb) (lowRegBits rd)
  | .tLdsh ro rb rd => thumb7333 0b0101111#7 (lowRegBits ro) (lowRegBits rb) (lowRegBits rd)
  | .tStrImm off rb rd => thumb5533 0b01100#5 off (lowRegBits rb) (lowRegBits rd)
  | .tLdrImm off rb rd => thumb5533 0b01101#5 off (lowRegBits rb) (lowRegBits rd)
  | .tStrbImm off rb rd => thumb5533 0b01110#5 off (lowRegBits rb) (lowRegBits rd)
  | .tLdrbImm off rb rd => thumb5533 0b01111#5 off (lowRegBits rb) (lowRegBits rd)
  | .tStrhImm off rb rd => thumb5533 0b10000#5 off (lowRegBits rb) (lowRegBits rd)
  | .tLdrhImm off rb rd => thumb5533 0b10001#5 off (lowRegBits rb) (lowRegBits rd)
  | .tStrSp rd word8 => thumb538 0b10010#5 (lowRegBits rd) word8
  | .tLdrSp rd word8 => thumb538 0b10011#5 (lowRegBits rd) word8
  | .tAddPc rd word8 => thumb538 0b10100#5 (lowRegBits rd) word8
  | .tAddSp rd word8 => thumb538 0b10101#5 (lowRegBits rd) word8
  | .tIncSp sword7 => thumb97 0b101100000#9 sword7
  | .tDecSp sword7 => thumb97 0b101100001#9 sword7
  | .tPush r rlist => thumb88 (0b1011010#7 ++ flagBit r) rlist
  | .tPop r rlist => thumb88 (0b1011110#7 ++ flagBit r) rlist
  | .tStmia rb rlist => thumb538 0b11000#5 (lowRegBits rb) rlist
  | .tLdmia rb rlist => thumb538 0b11001#5 (lowRegBits rb) rlist
  | .tBCond0to7 c off => thumb88 (0b1101#4 ++ condBits c) off
  | .tBCond8to11 c off => thumb88 (0b1101#4 ++ condBits c) off
  | .tBCond12to13 c off => thumb88 (0b1101#4 ++ condBits c) off
  | .tBCond14 x8 => thumb88 0xDE#8 x8
  | .tSwi value8 => thumb88 0xDF#8 value8
  | .tB off => thumb5B 0b11100#5 off
  | .tBlHigh off => thumb5B 0b11110#5 off
  | .tBlLow off => thumb5B 0b11111#5 off
  | .tUndefB1 x8 => thumb88 0xB1#8 x8
  | .tUndefB2 x9 => thumb79 0b1011001#7 x9
  | .tUndefB6 x9 => thumb79 0b1011011#7 x9
  | .tUndefB8 x10 => thumb6A 0b101110#6 x10
  | .tUndefBE x9 => thumb79 0b1011111#7 x9
  | .tUndefE8 x11 => thumb5B 0b11101#5 x11

end Sys2Proof
end

