-- ==== Sys2Proof/Config.lean ====
section
/-! DEFINITION. The seven configuration switches of 00_scope.md R9 (92_eei_decisions.md D50 to D56).  A machine's configuration is plain data that every state carries
and no step changes (assumption log 2).  There is no free value: 93_implementation_defined.md leaves no value of an executed
instruction open. -/

namespace Sys2Proof

/-- `cfg.sub_carry` (R262, D50): what C means after a subtraction. -/
inductive SubCarry
  | borrow     -- C = 1 exactly when the subtraction borrows (default)
  | notBorrow  -- C = NOT borrow (ARM7TDMI)
  deriving DecidableEq, Repr

/-- `cfg.imm_shift_zero` (R255, D51): the meaning of an immediate shift amount of 0. -/
inductive ImmShiftZero
  | literal  -- no shift, for every type (default)
  | arm      -- LSR #32, ASR #32, RRX (ARM7TDMI)
  deriving DecidableEq, Repr

/-- `cfg.block_order` (R420, D52): the address of each register of a block transfer. -/
inductive BlockOrder
  | listDirectional  -- the list is walked upwards, the address in the U direction (default)
  | lowestAtLowest   -- the lowest register at the lowest address (ARM7TDMI)
  deriving DecidableEq, Repr

/-- `cfg.ldm_s_pc_bank` (R421, D53): the bank of an LDM with S = 1 and R15 in its list. -/
inductive LdmSPcBank
  | userBank     -- default
  | currentBank  -- ARM7TDMI
  deriving DecidableEq, Repr

/-- `cfg.misaligned` (R87, R88, D54). -/
inductive Misaligned
  | byteExact  -- the bytes at the address given (default)
  | arm7tdmi   -- rotated word load, aligned word store, misaligned halfword fatal
  deriving DecidableEq, Repr

/-- `cfg.psr_transfer` (R310, D55). -/
inductive PsrTransfer
  | fatal        -- default
  | implemented  -- MRS and MSR run
  deriving DecidableEq, Repr

/-- `cfg.undefined` (R455, D56). -/
inductive UndefinedMode
  | fatal  -- default
  | trap   -- the undefined-instruction exception of R640
  deriving DecidableEq, Repr

/-- The configuration (R9). -/
structure Config where
  subCarry     : SubCarry
  immShiftZero : ImmShiftZero
  blockOrder   : BlockOrder
  ldmSPcBank   : LdmSPcBank
  misaligned   : Misaligned
  psrTransfer  : PsrTransfer
  undefined    : UndefinedMode
  deriving DecidableEq, Repr

/-- The default of every switch (R9, R681). -/
def Config.standard : Config where
  subCarry     := .borrow
  immShiftZero := .literal
  blockOrder   := .listDirectional
  ldmSPcBank   := .userBank
  misaligned   := .byteExact
  psrTransfer  := .fatal
  undefined    := .fatal

end Sys2Proof
end

