-- ==== Sys2Proof/Machine/State.lean ====
section
/-! DEFINITION. The state of 10_state.md R30, and memory, as plain data; the reasons a step can stop (60_exceptions.md R620); the state
after reset (70_reset_and_hazards.md R681). -/

namespace Sys2Proof.Machine

/-- The seven modes (R32). -/
inductive Mode
  | user | fiq | irq | supervisor | abort | undefined | system
  deriving DecidableEq, Repr

/-- CPSR as the record of R44; its bits 27:8 have no storage. -/
structure Cpsr where
  n : Bool
  z : Bool
  c : Bool
  v : Bool
  i : Bool
  f : Bool
  t : Bool
  m : Mode
  deriving DecidableEq, Repr

/-- One physical register slot, or one SPSR: its value and its written flag (R30 d, R56). -/
structure RegCell where
  value   : Word
  written : Bool
  deriving DecidableEq, Repr

/-- A physical slot number of R31. -/
abbrev Slot := Fin 31

/-- The five saved status registers (R50). -/
inductive SpsrName
  | fiq | svc | abt | irq | und
  deriving DecidableEq, Repr

/-- The five SPSRs. -/
structure SpsrFile where
  fiq : RegCell
  svc : RegCell
  abt : RegCell
  irq : RegCell
  und : RegCell
  deriving DecidableEq, Repr

/-- Memory: the bytes that differ from `Memory.unlisted`, their addresses strictly rising. -/
abbrev Memory := List Host.Cell

/-- What an address that is not listed reads as (assumption log 3: DESIGN CHOICE, unsafe). -/
def Memory.unlisted : Byte := 0#8

/-- The canonical form from address `lo` upwards: addresses rise and lie below 2^32 (R80), no entry reads as unlisted. -/
def Memory.wfFrom : Nat → Memory → Bool
  | _, [] => true
  | lo, (a, v) :: rest => decide (lo ≤ a) && decide (a < 2 ^ 32) && (v != Memory.unlisted) && Memory.wfFrom (a + 1) rest

/-- The canonical form of memory. -/
def Memory.wf (m : Memory) : Bool := Memory.wfFrom 0 m

/-- The machine's state.  `cfg` is the configuration of R9, a parameter that no step changes (R61); the rest is R30's state and memory. -/
structure State where
  cfg   : Config
  slots : Vector RegCell 31
  cpsr  : Cpsr
  spsr  : SpsrFile
  mem   : Memory
  deriving DecidableEq, Repr

/-- The architectural categories the source leaves unimplemented (R620, R461, R615). -/
inductive Unimplemented
  /-- MRS and MSR under `cfg.psr_transfer = Fatal` (R310). -/
  | psrTransfer
  /-- the ARM Undefined category under `cfg.undefined = Fatal` (R455). -/
  | undefined
  /-- LDC, STC under `cfg.undefined = Fatal` (R456, R457). -/
  | coprocessorDataTransfer
  /-- CDP under `cfg.undefined = Fatal` (R458). -/
  | coprocessorDataOperation
  /-- MCR, MRC under `cfg.undefined = Fatal` (R459, R460). -/
  | coprocessorRegisterTransfer
  /-- a Thumb undefined halfword under `cfg.undefined = Fatal` (R615). -/
  | thumbUndefined
  deriving DecidableEq, Repr

/-- The UNPREDICTABLE cases of 93_implementation_defined.md A.2, each fatal by 92_eei_decisions.md D26. -/
inductive Unpredictable
  /-- operand2 shifted by register with Rs = 15 (R256). -/
  | shiftByPc
  /-- MRS with Rd = 15 (R311). -/
  | psrToPc
  /-- MSR with Rm = 15 (R324). -/
  | psrFromPc
  /-- MRS or MSR of the SPSR in User or System mode (R311, R323). -/
  | noSpsr
  /-- MSR to the CPSR control field that would change T (R322). -/
  | msrChangesT
  /-- a multiply with an R15 operand (R349). -/
  | multiplyPcOperand
  /-- MUL or MLA with Rd = Rm (R349). -/
  | multiplyRdEqualsRm
  /-- a long multiply with RdHi = RdLo or either equal to Rm (R349). -/
  | multiplyLongRegisters
  /-- a transfer with register offset R15 (R372, R392). -/
  | offsetIsPc
  /-- a transfer that writes back to R15 (R372, R392). -/
  | writebackToPc
  /-- a load that writes back to its own destination (R372, R392). -/
  | loadWritebackSameRegister
  /-- a byte or halfword load into R15 (R372, R392). -/
  | subwordLoadToPc
  /-- a halfword-space word with SH = 00 (R393). -/
  | halfwordSH00
  /-- a halfword-space store with SH = 10 or 11 (R392). -/
  | signedStore
  /-- a halfword transfer with P = 0 and W = 1 (R392). -/
  | halfwordPostWriteback
  /-- a halfword access at an odd address under `cfg.misaligned = Arm7tdmi` (R88). -/
  | misalignedHalfword
  /-- SWP or SWPB naming R15 (R410). -/
  | swapPc
  /-- SWP or SWPB with Rn = Rd or Rn = Rm (R410). -/
  | swapBaseOverlap
  /-- LDM or STM with base R15 (R428). -/
  | blockBaseIsPc
  /-- Thumb BX with H1 = 1 (R543). -/
  | thumbBxH1
  /-- Thumb format 5 ADD, CMP or MOV on two low registers (R540). -/
  | thumbHiRegLowLow
  deriving DecidableEq, Repr

/-- `Fatal(reason)` of R620: the step has no effect and the run ends (R621).  Every constructor is safe: the machine stops where the
spec stops it.  R620's `UnwrittenRegister` is no constructor: every register holds a value from reset on (assumption log 1). -/
inductive Fault
  /-- Raised by the register bank's own operations for an index above 15 (R40); no instruction reaches it.  Safe. -/
  | registerIndex
  /-- Raised where a five-bit pattern that is no mode would enter the CPSR (R41, R46, R635, R320).  Safe. -/
  | invalidMode
  /-- Raised by an ARM word with condition 1111 (R182, R202).  Safe. -/
  | reservedCondition
  /-- Raised by the gate of an unimplemented category (R310, R455, R615).  Safe. -/
  | unimplemented (category : Unimplemented)
  /-- Raised by the UNPREDICTABLE checks of the instruction rules (D26).  Safe. -/
  | unpredictable (reason : Unpredictable)
  deriving DecidableEq, Repr

/-- Why the model gives an instruction no meaning. -/
inductive Refusal
  /-- Raised by `exec` for an instruction that has no meaning yet; no arm raises it.  Safe. -/
  | notModelled (mnemonic : String)
  deriving DecidableEq, Repr

/-- A register that nothing has written: it holds zero (assumption log 1: DESIGN CHOICE, unsafe). -/
def RegCell.neverWritten : RegCell := ⟨0#32, false⟩

/-- CPSR = 0x000000D3 (R59, R680): Supervisor, both interrupts masked, ARM state, flags 0. -/
def Cpsr.atReset : Cpsr where
  n := false
  z := false
  c := false
  v := false
  i := true
  f := true
  t := false
  m := .supervisor

/-- The launch state of R681: one `reset()` from power-on, memory with nothing listed, every switch at its default. -/
def State.reset : State where
  cfg   := Config.standard
  slots := (Vector.replicate 31 RegCell.neverWritten).set 15 ⟨0#32, true⟩
  cpsr  := Cpsr.atReset
  spsr  := ⟨RegCell.neverWritten, RegCell.neverWritten, RegCell.neverWritten, RegCell.neverWritten, RegCell.neverWritten⟩
  mem   := []

end Sys2Proof.Machine
end

