-- ==== Sys2Proof/Machine/Ops.lean ====
section
/-! DEFINITION. The named operations over the state: the register bank and its modes (10_state.md), the byte store and its load and store
primitives (20_memory.md), the fetch, the step's branch target (40_execution_cycle.md R206), taking an exception and returning from one
(60_exceptions.md), and what the host does between steps (70_reset_and_hazards.md R680, 40_execution_cycle.md R212). -/

namespace Sys2Proof.Machine

/-! ## Modes and the status register -/

/-- The five-bit encoding of a mode (R32). -/
def modeBits : Mode → BitVec 5
  | .user => 0b10000#5 | .fiq => 0b10001#5 | .irq => 0b10010#5 | .supervisor => 0b10011#5
  | .abort => 0b10111#5 | .undefined => 0b11011#5 | .system => 0b11111#5

/-- The mode of a five-bit pattern; 25 patterns are no mode (R32). -/
def modeOf (b : BitVec 5) : Option Mode :=
  match b.toNat with
  | 16 => some .user | 17 => some .fiq | 18 => some .irq | 19 => some .supervisor
  | 23 => some .abort | 27 => some .undefined | 31 => some .system
  | _ => none

/-- A mode pattern that must be one of the seven (R41, R46). -/
def requireMode (b : BitVec 5) : Except Fault Mode :=
  match modeOf b with
  | some m => .ok m
  | none => .error .invalidMode

/-- R45 `pack`. -/
def Cpsr.pack (c : Cpsr) : Word :=
  BitVec.ofBool c.n ++ BitVec.ofBool c.z ++ BitVec.ofBool c.c ++ BitVec.ofBool c.v ++ 0#20 ++
    BitVec.ofBool c.i ++ BitVec.ofBool c.f ++ BitVec.ofBool c.t ++ modeBits c.m

/-- R45 `unpack`, R46. -/
def Cpsr.unpack (w : Word) : Except Fault Cpsr :=
  match requireMode (w.extractLsb' 0 5) with
  | .ok m => .ok { n := w.getLsbD 31, z := w.getLsbD 30, c := w.getLsbD 29, v := w.getLsbD 28,
                   i := w.getLsbD 7, f := w.getLsbD 6, t := w.getLsbD 5, m := m }
  | .error e => .error e

/-- Every mode but User is privileged (R650). -/
def Mode.privileged : Mode → Bool
  | .user => false
  | .fiq | .irq | .supervisor | .abort | .undefined | .system => true

/-- The six banks of R35. -/
inductive Bank
  | usr | fiq | svc | abt | irq | und
  deriving DecidableEq, Repr

/-- R35. -/
def bankOf : Mode → Bank
  | .user | .system => .usr
  | .fiq => .fiq
  | .supervisor => .svc
  | .abort => .abt
  | .irq => .irq
  | .undefined => .und

/-- The slot of R13 in each bank but FIQ's; R14's is the next one (R37). -/
def Bank.spSlot : Bank → Nat
  | .usr => 13 | .fiq => 21 | .svc => 23 | .abt => 25 | .irq => 27 | .und => 29

/-- R37 as a number. -/
def slotNumber (m : Mode) (n : Nat) : Nat :=
  if n ≤ 7 ∨ n = 15 then n
  else if bankOf m = .fiq then 16 + (n - 8)
  else if n ≤ 12 then n
  else (bankOf m).spSlot + (n - 13)

theorem slotNumber_lt (m : Mode) (n : Reg) : slotNumber m n.val < 31 := by
  revert n
  cases m <;> decide

/-- R37: the physical slot that backs logical register n in mode m. -/
def slotOf (m : Mode) (n : Reg) : Slot := ⟨slotNumber m n.val, slotNumber_lt m n⟩

/-- The SPSR of a mode; User and System have none (R51). -/
def spsrOf : Mode → Option SpsrName
  | .user | .system => none
  | .fiq => some .fiq
  | .supervisor => some .svc
  | .abort => some .abt
  | .irq => some .irq
  | .undefined => some .und

/-! ## Reading and writing the fields of the state -/

/-- The cell of a slot. -/
def State.cell (s : State) (i : Slot) : RegCell := s.slots[i]

/-- Write a slot: its value, and its written flag is set (R56). -/
def State.setSlot (s : State) (i : Slot) (v : Word) : State := { s with slots := s.slots.set i ⟨v, true⟩ }

def State.setCpsr (s : State) (c : Cpsr) : State := { s with cpsr := c }

def State.setMem (s : State) (m : Memory) : State := { s with mem := m }

/-- The cell of an SPSR. -/
def SpsrFile.get (f : SpsrFile) : SpsrName → RegCell
  | .fiq => f.fiq | .svc => f.svc | .abt => f.abt | .irq => f.irq | .und => f.und

def SpsrFile.set (f : SpsrFile) (n : SpsrName) (c : RegCell) : SpsrFile :=
  match n with
  | .fiq => { f with fiq := c }
  | .svc => { f with svc := c }
  | .abt => { f with abt := c }
  | .irq => { f with irq := c }
  | .und => { f with und := c }

/-- Write an SPSR and set its written flag (R50, R56). -/
def State.setSpsr (s : State) (n : SpsrName) (v : Word) : State := { s with spsr := s.spsr.set n ⟨v, true⟩ }

/-- The stored pc: slot 15 in every mode (R38, R53). -/
def State.pc (s : State) : Word := (s.cell 15).value

/-- The value of a slot and of an SPSR; one that nothing has written holds its value at reset (assumption log 1). -/
def readSlot (i : Slot) (s : State) : Word := (s.cell i).value
def readSpsr (n : SpsrName) (s : State) : Word := (s.spsr.get n).value

/-! ## The operations of the Register Bank (R39 to R41) -/

/-- An index above 15 is fatal (R40). -/
def requireIndex (n : Nat) : Except Fault Reg :=
  if h : n < 16 then .ok ⟨n, h⟩ else .error .registerIndex

/-- `read(n)`, without the pc bias (R39). -/
def bankRead (n : Nat) (s : State) : Except Fault Word := do
  let r ← requireIndex n
  .ok (readSlot (slotOf s.cpsr.m r) s)

/-- `write(n, v)` (R39). -/
def bankWrite (n : Nat) (v : Word) (s : State) : Except Fault State := do
  let r ← requireIndex n
  .ok (s.setSlot (slotOf s.cpsr.m r) v)

/-- `readBanked(m, n)` (R39, R41). -/
def readBanked (m : BitVec 5) (n : Nat) (s : State) : Except Fault Word := do
  let mode ← requireMode m
  let r ← requireIndex n
  .ok (readSlot (slotOf mode r) s)

/-- `writeBanked(m, n, v)` (R39, R41). -/
def writeBanked (m : BitVec 5) (n : Nat) (v : Word) (s : State) : Except Fault State := do
  let mode ← requireMode m
  let r ← requireIndex n
  .ok (s.setSlot (slotOf mode r) v)

/-- `currentMode()` (R39). -/
def currentMode (s : State) : Mode := s.cpsr.m

/-- `setMode(m)` (R39, R41). -/
def setMode (m : BitVec 5) (s : State) : Except Fault State := do
  let mode ← requireMode m
  .ok (s.setCpsr { s.cpsr with m := mode })

/-! ## Operand reads -/

/-- The pipeline bias of an R15 operand (R204). -/
def pcBias (t : Bool) : Word := if t then 4#32 else 8#32

/-- `x[n]` (R13, R204): the register through the current bank, R15 with its bias. -/
def readReg (n : Reg) (s : State) : Word :=
  let v := readSlot (slotOf s.cpsr.m n) s
  if n = 15 then v + pcBias s.cpsr.t else v

/-- `x[n]` in the three places where R15 reads pc + 12 (R205). -/
def readRegPc12 (n : Reg) (s : State) : Word :=
  let v := readSlot (slotOf s.cpsr.m n) s
  if n = 15 then v + 12#32 else v

/-- The value a store takes from register n: pc + 12 for R15 (R205 b; 44_arm_load_store.md R371). -/
def readStoreValue (n : Reg) (s : State) : Word := if n = 15 then s.pc + 12#32 else readReg n s

/-! ## The byte store -/

/-- `read8` on the list (R82). -/
def Memory.readByte : Memory → Nat → Byte
  | [], _ => Memory.unlisted
  | (k, v) :: rest, a => if k = a then v else Memory.readByte rest a

/-- The entry for address `a`: none when the byte is what an unlisted address reads as. -/
def Memory.entry (a : Nat) (v : Byte) : Memory := if v = Memory.unlisted then [] else [(a, v)]

/-- `write8` on the list, keeping the canonical form (R82). -/
def Memory.writeByte : Memory → Nat → Byte → Memory
  | [], a, v => Memory.entry a v
  | (k, x) :: rest, a, v =>
    if a < k then Memory.entry a v ++ (k, x) :: rest
    else if a = k then Memory.entry a v ++ rest
    else (k, x) :: Memory.writeByte rest a v

/-- `read8(a)`. -/
def Memory.read8 (m : Memory) (a : Word) : Byte := m.readByte a.toNat

/-- `write8(a, d)`. -/
def Memory.write8 (m : Memory) (a : Word) (d : Byte) : Memory := m.writeByte a.toNat d

/-- `MemRead(a, 2)` and `MemRead(a, 4)` (R83): little-endian, addresses modulo 2^32. -/
def Memory.read16 (m : Memory) (a : Word) : Half := m.read8 (a + 1#32) ++ m.read8 a
def Memory.read32 (m : Memory) (a : Word) : Word :=
  m.read8 (a + 3#32) ++ m.read8 (a + 2#32) ++ m.read8 (a + 1#32) ++ m.read8 a

/-- `MemWrite(a, 2, v)` and `MemWrite(a, 4, v)` (R84). -/
def Memory.write16 (m : Memory) (a : Word) (v : Half) : Memory :=
  (m.write8 a (v.extractLsb' 0 8)).write8 (a + 1#32) (v.extractLsb' 8 8)
def Memory.write32 (m : Memory) (a : Word) (v : Word) : Memory :=
  (((m.write8 a (v.extractLsb' 0 8)).write8 (a + 1#32) (v.extractLsb' 8 8)).write8 (a + 2#32) (v.extractLsb' 16 8)).write8
    (a + 3#32) (v.extractLsb' 24 8)

/-- The address with bits 1:0 cleared. -/
def wordAlign (a : Word) : Word := a &&& 0xFFFFFFFC#32

/-- `LoadWord` (R87, R88). -/
def loadWord (a : Word) (s : State) : Word :=
  match s.cfg.misaligned with
  | .byteExact => s.mem.read32 a
  | .arm7tdmi => (s.mem.read32 (wordAlign a)).rotateRight (8 * (a.extractLsb' 0 2).toNat)

/-- Where `StoreWord` stores its four bytes (R87, R88). -/
def storeWordAddress (cfg : Config) (a : Word) : Word :=
  match cfg.misaligned with
  | .byteExact => a
  | .arm7tdmi => wordAlign a

/-- `StoreWord` (R87, R88). -/
def storeWord (a : Word) (v : Word) (s : State) : State := s.setMem (s.mem.write32 (storeWordAddress s.cfg a) v)

/-- The alignment test of a halfword access (R88). -/
def checkHalf (a : Word) (s : State) : Except Fault Unit :=
  match s.cfg.misaligned with
  | .byteExact => .ok ()
  | .arm7tdmi => if a.getLsbD 0 then .error (.unpredictable .misalignedHalfword) else .ok ()

/-- `LoadHalf`, `LoadSHalf`, `StoreHalf` (R87, R88). -/
def loadHalf (a : Word) (s : State) : Except Fault Word := do
  checkHalf a s
  .ok ((s.mem.read16 a).zeroExtend 32)
def loadSHalf (a : Word) (s : State) : Except Fault Word := do
  checkHalf a s
  .ok ((s.mem.read16 a).signExtend 32)
def storeHalf (a : Word) (v : Word) (s : State) : Except Fault State := do
  checkHalf a s
  .ok (s.setMem (s.mem.write16 a (v.extractLsb' 0 16)))

/-- `LoadByte`, `LoadSByte`, `StoreByte` (R87). -/
def loadByte (a : Word) (s : State) : Word := (s.mem.read8 a).zeroExtend 32
def loadSByte (a : Word) (s : State) : Word := (s.mem.read8 a).signExtend 32
def storeByte (a : Word) (v : Word) (s : State) : State := s.setMem (s.mem.write8 a (v.extractLsb' 0 8))

/-! ## A step's work: the state so far and the branch target recorded (R206) -/

/-- The state inside a step; `target` is R206's. -/
structure Work where
  st     : State
  target : Option Word
  deriving DecidableEq, Repr

/-- The work a step starts with. -/
def State.begin (s : State) : Work := ⟨s, none⟩

/-- `pc <- t` (R206). -/
def Work.branch (w : Work) (t : Word) : Work := { w with target := some t }

/-- `xb[m, n] <- v` for n below 15; R15 is the pc in every bank (R38). -/
def Work.writeIn (w : Work) (m : Mode) (n : Reg) (v : Word) : Work :=
  if n = 15 then w.branch v else { w with st := w.st.setSlot (slotOf m n) v }

/-- `x[n] <- v` (R13): R15 records the branch target. -/
def Work.write (w : Work) (n : Reg) (v : Word) : Work := w.writeIn w.st.cpsr.m n v

def Work.setCpsr (w : Work) (c : Cpsr) : Work := { w with st := w.st.setCpsr c }

/-- A target aligned to the instruction set that T selects (R207). -/
def alignTarget (t : Bool) (a : Word) : Word := if t then a &&& 0xFFFFFFFE#32 else a &&& 0xFFFFFFFC#32

/-- The length of an instruction of the set that T selects (R120). -/
def instructionBytes (t : Bool) : Word := if t then 2#32 else 4#32

/-- `EndOfStep(T0)` (R207). -/
def endOfStep (t0 : Bool) (w : Work) : State :=
  match w.target with
  | some a => w.st.setSlot 15 (alignTarget w.st.cpsr.t a)
  | none => w.st.setSlot 15 (w.st.pc + instructionBytes t0)

/-- The outcome of a step whose body ended (R209, R621: a fault keeps nothing of the body's work). -/
def finishStep (t0 : Bool) : Except Fault Work → Host.Outcome State Fault Refusal
  | .ok w => .next (endOfStep t0 w)
  | .error f => .fault f

/-! ## Taking an exception and returning from one -/

/-- The two exceptions the core enters (R626). -/
inductive ExceptionKind
  | softwareInterrupt
  | undefinedInstruction
  deriving DecidableEq, Repr

/-- The mode an exception enters (R625). -/
def ExceptionKind.mode : ExceptionKind → Mode
  | .softwareInterrupt => .supervisor
  | .undefinedInstruction => .undefined

/-- The SPSR it saves the status in (R630, R640). -/
def ExceptionKind.spsr : ExceptionKind → SpsrName
  | .softwareInterrupt => .svc
  | .undefinedInstruction => .und

/-- Its vector (R93). -/
def ExceptionKind.vector : ExceptionKind → Word
  | .softwareInterrupt => 0x00000008#32
  | .undefinedInstruction => 0x00000004#32

/-- Taking an exception (R630, R640): SPSR_m <- pack(CPSR); M <- m; I <- 1; T <- 0; LR_m <- ret; pc <- vector. -/
def takeException (k : ExceptionKind) (ret : Word) (w : Work) : Work :=
  let saved := w.st.setSpsr k.spsr w.st.cpsr.pack
  let entered := saved.setCpsr { w.st.cpsr with m := k.mode, i := true, t := false }
  Work.branch { w with st := entered.setSlot (slotOf k.mode 14) ret } k.vector

/-- `RestoreCpsrFromSpsr()` (R635, R636): the return from an exception. -/
def restoreCpsr (w : Work) : Except Fault Work :=
  match spsrOf w.st.cpsr.m with
  | none => .ok w
  | some n => do
    let c ← Cpsr.unpack (readSpsr n w.st)
    .ok (w.setCpsr c)

/-- The return when an instruction asks for it. -/
def restoreCpsrIf (b : Bool) (w : Work) : Except Fault Work := if b then restoreCpsr w else .ok w

/-- `UndefinedInstr` (R455, R615), under the gate `cfg.undefined`. -/
def undefinedInstruction (category : Unimplemented) (ret : Word) (w : Work) : Except Fault Work :=
  match w.st.cfg.undefined with
  | .fatal => .error (.unimplemented category)
  | .trap => .ok (takeException .undefinedInstruction ret w)

/-- Raise a fault when a check's condition holds. -/
def faultWhen (b : Bool) (f : Fault) : Except Fault Unit := if b then .error f else .ok ()

/-! ## The fetch (R200) -/

/-- The code at the stored pc: an ARM word when T = 0, a Thumb halfword when T = 1, read afresh from memory (R47, R99, R100). -/
def fetchCode (s : State) : Code :=
  if s.cpsr.t then .thumb (s.mem.read16 s.pc) else .arm (s.mem.read32 s.pc)

/-! ## What the host does between steps -/

/-- The state before the first reset: nothing is written (R56, R681). The CPSR's value there is never read. -/
def State.powerOn (cfg : Config) (mem : Memory) : State where
  cfg   := cfg
  slots := Vector.replicate 31 RegCell.neverWritten
  cpsr  := Cpsr.atReset
  spsr  := ⟨RegCell.neverWritten, RegCell.neverWritten, RegCell.neverWritten, RegCell.neverWritten, RegCell.neverWritten⟩
  mem   := mem

/-- R680's save of the prior pc and status, which power-on has not. -/
def savePrior (s : State) : State :=
  if (s.cell 15).written then (s.setSlot 24 s.pc).setSpsr .svc s.cpsr.pack else s

/-- `reset()` (R680). -/
def hostReset (s : State) : State := ((savePrior s).setCpsr Cpsr.atReset).setSlot 15 0#32

/-- The host's write of one byte (R96, R212). -/
def hostWriteByte (a : Word) (d : Byte) (s : State) : State := s.setMem (s.mem.write8 a d)

/-- The host's bulk write of an image (R212: the BIOS/ROM load, at address 0). -/
def hostLoad : List Byte → Word → State → State
  | [], _, s => s
  | d :: rest, a, s => hostLoad rest (a + 1#32) (hostWriteByte a d s)

end Sys2Proof.Machine
end

