-- ==== Sys2Proof/Machine/Flags.lean ====
section
/-! DEFINITION. The condition evaluator and the flag computations of 41_condition_shifter.md. -/

namespace Sys2Proof.Machine

/-- `ConditionPassed` (R240). -/
def conditionPassed : Cond → Cpsr → Bool
  | .eq, f => f.z
  | .ne, f => !f.z
  | .cs, f => f.c
  | .cc, f => !f.c
  | .mi, f => f.n
  | .pl, f => !f.n
  | .vs, f => f.v
  | .vc, f => !f.v
  | .hi, f => f.c && !f.z
  | .ls, f => !f.c || f.z
  | .ge, f => f.n == f.v
  | .lt, f => f.n != f.v
  | .gt, f => !f.z && f.n == f.v
  | .le, f => f.z || f.n != f.v
  | .al, _ => true

/-- A result with the C and V it computes. -/
structure AluResult where
  value : Word
  c     : Bool
  v     : Bool
  deriving DecidableEq, Repr

/-- `AddWithCarry(a, b, cin)` (R263): C and V from the one exact sum. -/
def addWithCarry (a b : Word) (cin : Bool) : AluResult :=
  let sum := a.toNat + b.toNat + cin.toNat
  let r := BitVec.ofNat 32 sum
  ⟨r, decide (2 ^ 32 ≤ sum), a.msb == b.msb && r.msb != a.msb⟩

/-- What C holds after a subtraction that borrows or does not (R262, R264). -/
def carryOfBorrow (cfg : Config) (borrow : Bool) : Bool :=
  match cfg.subCarry with
  | .borrow => borrow
  | .notBorrow => !borrow

/-- `SubWithBorrow(a, b, bin)` (R264): from the one exact difference. -/
def subWithBorrow (cfg : Config) (a b : Word) (bin : Bool) : AluResult :=
  let diff : Int := (a.toNat : Int) - (b.toNat : Int) - (bin.toNat : Int)
  let r := BitVec.ofInt 32 diff
  ⟨r, carryOfBorrow cfg (decide (diff < 0)), a.msb != b.msb && r.msb != a.msb⟩

/-- N and Z of a result. -/
def Cpsr.withNZ (c : Cpsr) (r : Word) : Cpsr := { c with n := r.msb, z := r == 0#32 }

/-- N and Z of a 64-bit result (R343). -/
def Cpsr.withNZ64 (c : Cpsr) (r : BitVec 64) : Cpsr := { c with n := r.msb, z := r == 0#64 }

/-- N, Z, C: a logical result with the shifter carry. -/
def Cpsr.withLogical (c : Cpsr) (r : Word) (carry : Bool) : Cpsr := { c.withNZ r with c := carry }

/-- N, Z, C, V: an arithmetic result. -/
def Cpsr.withArithmetic (c : Cpsr) (r : AluResult) : Cpsr := { c.withNZ r.value with c := r.c, v := r.v }

/-- `setLogicalFlags(S, Rd, result, carry)` (R260). -/
def setLogicalFlags (s : Bool) (d : Reg) (r : Word) (carry : Bool) (w : Work) : Work :=
  if s && d != 15 then w.setCpsr (w.st.cpsr.withLogical r carry) else w

/-- `setArithmeticFlags(S, Rd, result, C, V)` (R261). -/
def setArithmeticFlags (s : Bool) (d : Reg) (r : AluResult) (w : Work) : Work :=
  if s && d != 15 then w.setCpsr (w.st.cpsr.withArithmetic r) else w

/-- The flags of MUL and MLA (R341): C cleared, V kept. -/
def setMultiplyFlags (s : Bool) (d : Reg) (r : Word) (w : Work) : Work :=
  if s && d != 15 then w.setCpsr (w.st.cpsr.withLogical r false) else w

/-- The flags of a long multiply (R343): C and V cleared. -/
def setMultiplyLongFlags (s : Bool) (hi lo : Reg) (r : BitVec 64) (w : Work) : Work :=
  if s && hi != 15 && lo != 15 then w.setCpsr { w.st.cpsr.withNZ64 r with c := false, v := false } else w

end Sys2Proof.Machine
end

