-- ==== Sys2Proof/Machine/Operands.lean ====
section
/-! DEFINITION. The shifter and every operand form of 41_condition_shifter.md and 44_arm_load_store.md, and the frame of a step:
the condition test around a handler (40_execution_cycle.md R200, R202). -/

namespace Sys2Proof.Machine

/-! ## The shifter -/

/-- A shifter result with its carry out. -/
structure Shifted where
  value : Word
  carry : Bool
  deriving DecidableEq, Repr

/-- `Shift(v, n, type)` for amounts 1 to 31 (R251). -/
def shiftInRange (v : Word) (n : Nat) : ShiftType → Shifted
  | .lsl => ⟨v <<< n, v.getLsbD (32 - n)⟩
  | .lsr => ⟨v >>> n, v.getLsbD (n - 1)⟩
  | .asr => ⟨v.sshiftRight n, v.getLsbD (n - 1)⟩
  | .ror => ⟨v.rotateRight n, v.getLsbD (n - 1)⟩

/-- `Shift(v, n, type)` for amounts from 32 (R253). -/
def shiftBeyond (v : Word) (n : Nat) : ShiftType → Shifted
  | .lsl => ⟨0#32, n == 32 && v.getLsbD 0⟩
  | .lsr => ⟨0#32, n == 32 && v.msb⟩
  | .asr => ⟨v.sshiftRight 32, v.msb⟩
  | .ror => if n % 32 = 0 then ⟨v, v.msb⟩ else shiftInRange v (n % 32) .ror

/-- `Shift(v, n, type)` (R250 to R253). -/
def shift (cin : Bool) (v : Word) (n : Nat) (t : ShiftType) : Shifted :=
  if n = 0 then ⟨v, cin⟩ else if n < 32 then shiftInRange v n t else shiftBeyond v n t

/-- `RRX(v)` (R257). -/
def rrx (cin : Bool) (v : Word) : Shifted := ⟨BitVec.ofBool cin ++ v.extractLsb' 1 31, v.getLsbD 0⟩

/-- An immediate amount of 0 under `cfg.imm_shift_zero = Arm` (R255). -/
def armShiftZero (cin : Bool) (v : Word) : ShiftType → Shifted
  | .lsl => ⟨v, cin⟩
  | .lsr => shift cin v 32 .lsr
  | .asr => shift cin v 32 .asr
  | .ror => rrx cin v

/-- `ShiftImm(v, n, type)` (R255). -/
def shiftImm (cfg : Config) (cin : Bool) (v : Word) (n : Nat) (t : ShiftType) : Shifted :=
  if n = 0 then
    match cfg.immShiftZero with
    | .literal => shift cin v 0 t
    | .arm => armShiftZero cin v t
  else shift cin v n t

/-- A rotated immediate (R254). -/
def rotatedImm (cin : Bool) (rotate : BitVec 4) (imm8 : BitVec 8) : Shifted :=
  shift cin (imm8.zeroExtend 32) (2 * rotate.toNat) .ror

/-! ## Second operands and offsets -/

/-- `Operand2` (R281, R254 to R256); in the form shifted by a register Rs = 15 faults and Rm = 15 reads pc + 12. -/
def operand2 (o : Operand2) (s : State) : Except Fault Shifted :=
  match o with
  | .imm rotate imm8 => .ok (rotatedImm s.cpsr.c rotate imm8)
  | .regImm rm type amount => .ok (shiftImm s.cfg s.cpsr.c (readReg rm s) amount.toNat type)
  | .regReg rm type rs => do
    faultWhen (rs == 15) (.unpredictable .shiftByPc)
    .ok (shift s.cpsr.c (readRegPc12 rm s) ((readReg rs s).extractLsb' 0 8).toNat type)

/-- The first operand Rn beside a second operand (R280): pc + 12 beside a shift by register, else `x[n]`. -/
def firstOperand (rn : Reg) (o : Operand2) (s : State) : Word :=
  match o with
  | .imm .. | .regImm .. => readReg rn s
  | .regReg .. => readRegPc12 rn s

/-- The offset of a single data transfer (R370): its shifter carry is dropped. -/
def transferOffset (off : TransferOffset) (s : State) : Word :=
  match off with
  | .imm imm12 => imm12.zeroExtend 32
  | .reg rm type amount => (shiftImm s.cfg s.cpsr.c (readReg rm s) amount.toNat type).value

/-- The register offset is R15 (R372). -/
def offsetIsPc : TransferOffset → Bool
  | .imm _ => false
  | .reg rm _ _ => rm == 15

/-- The offset of a halfword transfer (R390). -/
def halfOffset (off : HalfOffset) (s : State) : Word :=
  match off with
  | .imm imm8 => imm8.zeroExtend 32
  | .reg _ rm => readReg rm s

def halfOffsetIsPc : HalfOffset → Bool
  | .imm _ => false
  | .reg _ rm => rm == 15

/-- The base with the offset added or subtracted (R371). -/
def offsetBase (u : Bool) (base off : Word) : Word := if u then base + off else base - off

/-! ## The frame of a step -/

/-- An ARM instruction's step: a failing condition only advances the pc (R200, R202). -/
def armStep (c : Cond) (body : Work → Except Fault Work) (s : State) : Host.Outcome State Fault Refusal :=
  if conditionPassed c s.cpsr then finishStep false (body s.begin) else .next (endOfStep false s.begin)

/-- A Thumb instruction's step: no condition field (R210). -/
def thumbStep (body : Work → Except Fault Work) (s : State) : Host.Outcome State Fault Refusal :=
  finishStep true (body s.begin)

end Sys2Proof.Machine
end

