-- ==== Sys2Proof/Machine/LoadStore.lean ====
section
/-! DEFINITION. Single data transfers, halfword and signed transfers, and the swap (44_arm_load_store.md R370 to R412). -/

namespace Sys2Proof.Machine

/-! ## Single data transfer (R370 to R372) -/

/-- Whether the base is written back (R370): always when post-indexed, else when W = 1. -/
def writesBack (p w : Bool) : Bool := !p || w

/-- `SdtChecks` of a load (R372), in its order. -/
def loadChecks (byte p wb : Bool) (rn rd : Reg) (off : TransferOffset) : Except Fault Unit := do
  faultWhen (offsetIsPc off) (.unpredictable .offsetIsPc)
  faultWhen (writesBack p wb && rn == 15) (.unpredictable .writebackToPc)
  faultWhen (writesBack p wb && rn == rd) (.unpredictable .loadWritebackSameRegister)
  faultWhen (byte && rd == 15) (.unpredictable .subwordLoadToPc)

/-- `SdtChecks` of a store (R372). -/
def storeChecks (p wb : Bool) (rn : Reg) (off : TransferOffset) : Except Fault Unit := do
  faultWhen (offsetIsPc off) (.unpredictable .offsetIsPc)
  faultWhen (writesBack p wb && rn == 15) (.unpredictable .writebackToPc)

/-- The address of the access: with the offset when pre-indexed, the base when post-indexed (R371). -/
def accessAddress (p : Bool) (base ea : Word) : Word := if p then ea else base

/-- The write-back of the base (R371). -/
def writeBackBase (b : Bool) (rn : Reg) (ea : Word) (w : Work) : Work := if b then w.write rn ea else w

/-- `SingleDataTransfer` with L = 1 (R371): the base is written back, then the loaded value is written. -/
def singleLoad (byte p u wb : Bool) (rn rd : Reg) (off : TransferOffset) (w : Work) : Except Fault Work := do
  loadChecks byte p wb rn rd off
  let offset := transferOffset off w.st
  let base := readReg rn w.st
  let ea := offsetBase u base offset
  let v := if byte then loadByte (accessAddress p base ea) w.st else loadWord (accessAddress p base ea) w.st
  .ok ((writeBackBase (writesBack p wb) rn ea w).write rd v)

/-- `SingleDataTransfer` with L = 0 (R371): the value is read, stored, then the base is written back. -/
def singleStore (byte p u wb : Bool) (rn rd : Reg) (off : TransferOffset) (w : Work) : Except Fault Work := do
  storeChecks p wb rn off
  let offset := transferOffset off w.st
  let base := readReg rn w.st
  let ea := offsetBase u base offset
  let v := readStoreValue rd w.st
  let stored := if byte then storeByte (accessAddress p base ea) v w.st else storeWord (accessAddress p base ea) v w.st
  .ok (writeBackBase (writesBack p wb) rn ea { w with st := stored })

/-- LDR, pre-indexed (R373). -/
def execLdrPre (c : Cond) (u w : Bool) (rn rd : Reg) (off : TransferOffset) : State → Host.Outcome State Fault Refusal :=
  armStep c (singleLoad false true u w rn rd off)

/-- LDR, post-indexed (R373). -/
def execLdrPost (c : Cond) (u : Bool) (rn rd : Reg) (off : TransferOffset) : State → Host.Outcome State Fault Refusal :=
  armStep c (singleLoad false false u false rn rd off)

/-- LDRB, pre-indexed (R374). -/
def execLdrbPre (c : Cond) (u w : Bool) (rn rd : Reg) (off : TransferOffset) : State → Host.Outcome State Fault Refusal :=
  armStep c (singleLoad true true u w rn rd off)

/-- LDRB, post-indexed (R374). -/
def execLdrbPost (c : Cond) (u : Bool) (rn rd : Reg) (off : TransferOffset) : State → Host.Outcome State Fault Refusal :=
  armStep c (singleLoad true false u false rn rd off)

/-- STR, pre-indexed (R375). -/
def execStrPre (c : Cond) (u w : Bool) (rn rd : Reg) (off : TransferOffset) : State → Host.Outcome State Fault Refusal :=
  armStep c (singleStore false true u w rn rd off)

/-- STR, post-indexed (R375). -/
def execStrPost (c : Cond) (u : Bool) (rn rd : Reg) (off : TransferOffset) : State → Host.Outcome State Fault Refusal :=
  armStep c (singleStore false false u false rn rd off)

/-- STRB, pre-indexed (R376). -/
def execStrbPre (c : Cond) (u w : Bool) (rn rd : Reg) (off : TransferOffset) : State → Host.Outcome State Fault Refusal :=
  armStep c (singleStore true true u w rn rd off)

/-- STRB, post-indexed (R376). -/
def execStrbPost (c : Cond) (u : Bool) (rn rd : Reg) (off : TransferOffset) : State → Host.Outcome State Fault Refusal :=
  armStep c (singleStore true false u false rn rd off)

/-- LDRT (R377): LDR post-indexed, since there is no translation (R94). -/
def execLdrt (c : Cond) (u : Bool) (rn rd : Reg) (off : TransferOffset) : State → Host.Outcome State Fault Refusal :=
  armStep c (singleLoad false false u true rn rd off)

/-- LDRBT (R378). -/
def execLdrbt (c : Cond) (u : Bool) (rn rd : Reg) (off : TransferOffset) : State → Host.Outcome State Fault Refusal :=
  armStep c (singleLoad true false u true rn rd off)

/-- STRT (R379). -/
def execStrt (c : Cond) (u : Bool) (rn rd : Reg) (off : TransferOffset) : State → Host.Outcome State Fault Refusal :=
  armStep c (singleStore false false u true rn rd off)

/-- STRBT (R380). -/
def execStrbt (c : Cond) (u : Bool) (rn rd : Reg) (off : TransferOffset) : State → Host.Outcome State Fault Refusal :=
  armStep c (singleStore true false u true rn rd off)

/-! ## Halfword and signed transfer (R390 to R398) -/

/-- `HalfwordChecks` after those of the reserved rows, of a load (R392). -/
def halfLoadChecks (p wb : Bool) (rn rd : Reg) (off : HalfOffset) : Except Fault Unit := do
  faultWhen (!p && wb) (.unpredictable .halfwordPostWriteback)
  faultWhen (halfOffsetIsPc off) (.unpredictable .offsetIsPc)
  faultWhen (writesBack p wb && rn == 15) (.unpredictable .writebackToPc)
  faultWhen (writesBack p wb && rn == rd) (.unpredictable .loadWritebackSameRegister)
  faultWhen (rd == 15) (.unpredictable .subwordLoadToPc)

/-- The same of a store (R392). -/
def halfStoreChecks (p wb : Bool) (rn : Reg) (off : HalfOffset) : Except Fault Unit := do
  faultWhen (!p && wb) (.unpredictable .halfwordPostWriteback)
  faultWhen (halfOffsetIsPc off) (.unpredictable .offsetIsPc)
  faultWhen (writesBack p wb && rn == 15) (.unpredictable .writebackToPc)

/-- `HalfwordTransfer` with L = 1 (R391). -/
def halfTransferLoad (load : Word → State → Except Fault Word) (p u wb : Bool) (rn rd : Reg) (off : HalfOffset) (w : Work) :
    Except Fault Work := do
  halfLoadChecks p wb rn rd off
  let offset := halfOffset off w.st
  let base := readReg rn w.st
  let ea := offsetBase u base offset
  let v ← load (accessAddress p base ea) w.st
  .ok ((writeBackBase (writesBack p wb) rn ea w).write rd v)

/-- `HalfwordTransfer` with L = 0 (R391). -/
def halfTransferStore (p u wb : Bool) (rn rd : Reg) (off : HalfOffset) (w : Work) : Except Fault Work := do
  halfStoreChecks p wb rn off
  let offset := halfOffset off w.st
  let base := readReg rn w.st
  let ea := offsetBase u base offset
  let v := readStoreValue rd w.st
  let stored ← storeHalf (accessAddress p base ea) v w.st
  .ok (writeBackBase (writesBack p wb) rn ea { w with st := stored })

/-- LDRH (R394). -/
def execLdrh (c : Cond) (p u w : Bool) (rn rd : Reg) (off : HalfOffset) : State → Host.Outcome State Fault Refusal :=
  armStep c (halfTransferLoad loadHalf p u w rn rd off)

/-- STRH (R395). -/
def execStrh (c : Cond) (p u w : Bool) (rn rd : Reg) (off : HalfOffset) : State → Host.Outcome State Fault Refusal :=
  armStep c (halfTransferStore p u w rn rd off)

/-- LDRSB (R396). -/
def execLdrsb (c : Cond) (p u w : Bool) (rn rd : Reg) (off : HalfOffset) : State → Host.Outcome State Fault Refusal :=
  armStep c (halfTransferLoad (fun a s => .ok (loadSByte a s)) p u w rn rd off)

/-- LDRSH (R397). -/
def execLdrsh (c : Cond) (p u w : Bool) (rn rd : Reg) (off : HalfOffset) : State → Host.Outcome State Fault Refusal :=
  armStep c (halfTransferLoad loadSHalf p u w rn rd off)

/-- A halfword-space store with SH = 10 or 11 (R392): the first of its checks. -/
def execSignedStore (c : Cond) (_p _u _w _h : Bool) (_rn _rd : Reg) (_off : HalfOffset) : State → Host.Outcome State Fault Refusal :=
  armStep c (fun _ => .error (.unpredictable .signedStore))

/-- A halfword-space word with SH = 00 (R393), tested before every other check. -/
def execHalfSh00 (c : Cond) (_p _u _w _l : Bool) (_rn _rd : Reg) (_off : HalfOffset) : State → Host.Outcome State Fault Refusal :=
  armStep c (fun _ => .error (.unpredictable .halfwordSH00))

/-! ## Single data swap (R410, R411) -/

/-- The checks of R410. -/
def swapChecks (rn rd rm : Reg) : Except Fault Unit := do
  faultWhen (rn == 15 || rd == 15 || rm == 15) (.unpredictable .swapPc)
  faultWhen (rn == rd || rn == rm) (.unpredictable .swapBaseOverlap)

/-- `Swap` (R410): read, write, then Rd. -/
def swapBody (byte : Bool) (rn rd rm : Reg) (w : Work) : Except Fault Work := do
  swapChecks rn rd rm
  let a := readReg rn w.st
  let src := readReg rm w.st
  let t := if byte then loadByte a w.st else loadWord a w.st
  let stored := if byte then storeByte a src w.st else storeWord a src w.st
  .ok (Work.write { w with st := stored } rd t)

/-- SWP (R410); bits 11:8 (`_sbz`) are ignored (R412). -/
def execSwp (c : Cond) (rn rd : Reg) (_sbz : BitVec 4) (rm : Reg) : State → Host.Outcome State Fault Refusal :=
  armStep c (swapBody false rn rd rm)

/-- SWPB (R411). -/
def execSwpb (c : Cond) (rn rd : Reg) (_sbz : BitVec 4) (rm : Reg) : State → Host.Outcome State Fault Refusal :=
  armStep c (swapBody true rn rd rm)

end Sys2Proof.Machine
end

