-- ==== Sys2Proof/Machine/BlockTransfer.lean ====
section
/-! DEFINITION. Block data transfer (44_arm_load_store.md R420 to R439). -/

namespace Sys2Proof.Machine

/-! ## Addresses (R420) -/

/-- R0 to R15 in order. -/
def allRegs : List Reg := [0, 1, 2, 3, 4, 5, 6, 7, 8, 9, 10, 11, 12, 13, 14, 15]

/-- The registers of a list, ascending. -/
def listedRegs (list : BitVec 16) : List Reg := allRegs.filter (fun i => list.getLsbD i.val)

/-- One word further in the U direction. -/
def nextAddress (u : Bool) (a : Word) : Word := if u then a + 4#32 else a - 4#32

/-- `ListDirectional`: the walk of the list, the advance before the access when P = 1. -/
def directionalAddresses (p u : Bool) : Word → List Reg → List (Reg × Word)
  | _, [] => []
  | a, i :: rest => (i, if p then nextAddress u a else a) :: directionalAddresses p u (nextAddress u a) rest

/-- Consecutive words from `a` upwards. -/
def risingAddresses : Word → List Reg → List (Reg × Word)
  | _, [] => []
  | a, i :: rest => (i, a) :: risingAddresses (a + 4#32) rest

/-- Four bytes for each listed register. -/
def blockBytes (list : BitVec 16) : Word := BitVec.ofNat 32 (4 * (listedRegs list).length)

/-- `LowestAtLowest`: the lowest address of the block. -/
def blockStart (p u : Bool) (a0 k4 : Word) : Word :=
  match p, u with
  | false, true  => a0
  | true,  true  => a0 + 4#32
  | false, false => a0 - k4 + 4#32
  | true,  false => a0 - k4

/-- `BlockAddresses`: each listed register with its address, in ascending register order. -/
def blockAddresses (cfg : Config) (p u : Bool) (base : Word) (list : BitVec 16) : List (Reg × Word) :=
  match cfg.blockOrder with
  | .listDirectional => directionalAddresses p u (wordAlign base) (listedRegs list)
  | .lowestAtLowest => risingAddresses (blockStart p u (wordAlign base) (blockBytes list)) (listedRegs list)

/-- The write-back value, from the unmasked base (R420). -/
def blockWriteBack (u : Bool) (base : Word) (list : BitVec 16) : Word := offsetBase u base (blockBytes list)

/-- `BlockBank` (R421). -/
def blockBank (cfg : Config) (s load : Bool) (list : BitVec 16) (current : Mode) : Mode :=
  if s && !(load && list.getLsbD 15 && cfg.ldmSPcBank == .currentBank) then .user else current

/-! ## LDM (R422) -/

/-- The loaded values, read before any register is written. -/
def loadBlock (s : State) (as : List (Reg × Word)) : List (Reg × Word) := as.map (fun x => (x.1, loadWord x.2 s))

/-- The register writes in ascending order, R15 last as the branch target. -/
def writeBlock (m : Mode) : List (Reg × Word) → Work → Work
  | [], w => w
  | (i, v) :: rest, w => writeBlock m rest (w.writeIn m i v)

/-- `LoadMultiple` (R422, R425). -/
def loadMultiple (p u s wb : Bool) (rn : Reg) (list : BitVec 16) (w : Work) : Except Fault Work := do
  faultWhen (rn == 15) (.unpredictable .blockBaseIsPc)
  let base := readReg rn w.st
  let values := loadBlock w.st (blockAddresses w.st.cfg p u base list)
  let bm := blockBank w.st.cfg s true list w.st.cpsr.m
  let w1 := writeBackBase wb rn (blockWriteBack u base list) w
  restoreCpsrIf (s && list.getLsbD 15) (writeBlock bm values w1)

/-! ## STM (R423) -/

/-- The lowest listed register. -/
def firstListed (list : BitVec 16) : Option Reg := (listedRegs list).head?

/-- The value stored for register i (R423, R426): pc + 12 for R15; the write-back value for the base when W = 1 and it is not the
lowest listed register; else the register through the bank of the transfer. -/
def blockStoreValue (wb : Bool) (bm : Mode) (rn : Reg) (written : Word) (list : BitVec 16) (i : Reg) (s : State) : Word :=
  if i = 15 then s.pc + 12#32
  else if wb && firstListed list != some i && slotOf bm i == slotOf s.cpsr.m rn then written
  else readSlot (slotOf bm i) s

/-- The stores in ascending register order. -/
def storeBlock (value : Reg → State → Word) : List (Reg × Word) → State → State
  | [], s => s
  | (i, a) :: rest, s => storeBlock value rest (storeWord a (value i s) s)

/-- `StoreMultiple` (R423). -/
def storeMultiple (p u s wb : Bool) (rn : Reg) (list : BitVec 16) (w : Work) : Except Fault Work := do
  faultWhen (rn == 15) (.unpredictable .blockBaseIsPc)
  let base := readReg rn w.st
  let written := blockWriteBack u base list
  let bm := blockBank w.st.cfg s false list w.st.cpsr.m
  let stored := storeBlock (blockStoreValue wb bm rn written list) (blockAddresses w.st.cfg p u base list) w.st
  .ok (writeBackBase wb rn written { w with st := stored })

/-! ## The meanings -/

/-- LDMIA (R430). -/
def execLdmia (c : Cond) (s w : Bool) (rn : Reg) (list : BitVec 16) : State → Host.Outcome State Fault Refusal :=
  armStep c (loadMultiple false true s w rn list)

/-- LDMIB (R431). -/
def execLdmib (c : Cond) (s w : Bool) (rn : Reg) (list : BitVec 16) : State → Host.Outcome State Fault Refusal :=
  armStep c (loadMultiple true true s w rn list)

/-- LDMDA (R432). -/
def execLdmda (c : Cond) (s w : Bool) (rn : Reg) (list : BitVec 16) : State → Host.Outcome State Fault Refusal :=
  armStep c (loadMultiple false false s w rn list)

/-- LDMDB (R433). -/
def execLdmdb (c : Cond) (s w : Bool) (rn : Reg) (list : BitVec 16) : State → Host.Outcome State Fault Refusal :=
  armStep c (loadMultiple true false s w rn list)

/-- STMIA (R434). -/
def execStmia (c : Cond) (s w : Bool) (rn : Reg) (list : BitVec 16) : State → Host.Outcome State Fault Refusal :=
  armStep c (storeMultiple false true s w rn list)

/-- STMIB (R435). -/
def execStmib (c : Cond) (s w : Bool) (rn : Reg) (list : BitVec 16) : State → Host.Outcome State Fault Refusal :=
  armStep c (storeMultiple true true s w rn list)

/-- STMDA (R436). -/
def execStmda (c : Cond) (s w : Bool) (rn : Reg) (list : BitVec 16) : State → Host.Outcome State Fault Refusal :=
  armStep c (storeMultiple false false s w rn list)

/-- STMDB (R437). -/
def execStmdb (c : Cond) (s w : Bool) (rn : Reg) (list : BitVec 16) : State → Host.Outcome State Fault Refusal :=
  armStep c (storeMultiple true false s w rn list)

end Sys2Proof.Machine
end

