-- ==== Sys2Proof/Machine/BranchSystem.lean ====
section
/-! DEFINITION. ARM branches, the software interrupt, the undefined and coprocessor instructions and the reserved condition
(45_arm_branch_system.md R450 to R462). -/

namespace Sys2Proof.Machine

/-- The target of an ARM branch (R450): pc + 8 plus the sign-extended word offset. -/
def branchTarget (s : State) (offset24 : BitVec 24) : Word := (s.pc + 8#32) + (offset24 ++ 0b00#2).signExtend 32

/-- `B` (R450). -/
def branchBody (offset24 : BitVec 24) (w : Work) : Except Fault Work := .ok (w.branch (branchTarget w.st offset24))

/-- `BL` (R451): LR first, then the branch. -/
def branchLinkBody (offset24 : BitVec 24) (w : Work) : Except Fault Work :=
  .ok ((w.write 14 (w.st.pc + 4#32)).branch (branchTarget w.st offset24))

/-- `BX` (R452): T from bit 0 of the register, the target the register. -/
def branchExchange (rn : Reg) (w : Work) : Except Fault Work :=
  let t := readReg rn w.st
  .ok ((w.setCpsr { w.st.cpsr with t := t.getLsbD 0 }).branch t)

/-- The address of the next ARM instruction, the return address of R454 and R455. -/
def armReturn (w : Work) : Word := w.st.pc + 4#32

/-- B (R450). -/
def execB (c : Cond) (offset24 : BitVec 24) : State → Host.Outcome State Fault Refusal :=
  armStep c (branchBody offset24)

/-- BL (R451). -/
def execBl (c : Cond) (offset24 : BitVec 24) : State → Host.Outcome State Fault Refusal :=
  armStep c (branchLinkBody offset24)

/-- BX (R452). -/
def execBx (c : Cond) (rn : Reg) : State → Host.Outcome State Fault Refusal :=
  armStep c (branchExchange rn)

/-- SWI (R454); the comment is not read. -/
def execSwi (c : Cond) (_comment24 : BitVec 24) : State → Host.Outcome State Fault Refusal :=
  armStep c (fun w => .ok (takeException .softwareInterrupt (armReturn w) w))

/-- The Undefined category (R455). -/
def execUndefined (c : Cond) (_x20 : BitVec 20) (_x4 : BitVec 4) : State → Host.Outcome State Fault Refusal :=
  armStep c (fun w => undefinedInstruction .undefined (armReturn w) w)

/-- LDC (R456). -/
def execLdc (c : Cond) (_p _u _n _w : Bool) (_rn _crd _cp : BitVec 4) (_offset8 : BitVec 8) :
    State → Host.Outcome State Fault Refusal :=
  armStep c (fun w => undefinedInstruction .coprocessorDataTransfer (armReturn w) w)

/-- STC (R457). -/
def execStc (c : Cond) (_p _u _n _w : Bool) (_rn _crd _cp : BitVec 4) (_offset8 : BitVec 8) :
    State → Host.Outcome State Fault Refusal :=
  armStep c (fun w => undefinedInstruction .coprocessorDataTransfer (armReturn w) w)

/-- CDP (R458). -/
def execCdp (c : Cond) (_opc _crn _crd _cp : BitVec 4) (_info : BitVec 3) (_crm : BitVec 4) :
    State → Host.Outcome State Fault Refusal :=
  armStep c (fun w => undefinedInstruction .coprocessorDataOperation (armReturn w) w)

/-- MCR (R459). -/
def execMcr (c : Cond) (_opc : BitVec 3) (_crn _rd _cp : BitVec 4) (_info : BitVec 3) (_crm : BitVec 4) :
    State → Host.Outcome State Fault Refusal :=
  armStep c (fun w => undefinedInstruction .coprocessorRegisterTransfer (armReturn w) w)

/-- MRC (R460). -/
def execMrc (c : Cond) (_opc : BitVec 3) (_crn _rd _cp : BitVec 4) (_info : BitVec 3) (_crm : BitVec 4) :
    State → Host.Outcome State Fault Refusal :=
  armStep c (fun w => undefinedInstruction .coprocessorRegisterTransfer (armReturn w) w)

/-- Condition 1111 (R182, R202, R462): before the condition test and whatever the category. -/
def execReservedCond (_x28 : BitVec 28) (_s : State) : Host.Outcome State Fault Refusal := .fault .reservedCondition

end Sys2Proof.Machine
end

