-- ==== Sys2Proof/Machine/DataProcessing.lean ====
section
/-! DEFINITION. The sixteen data-processing opcodes and the test opcodes with S = 0 (42_arm_data_processing.md R280 to R305). -/

namespace Sys2Proof.Machine

/-! ## The shared steps (R280) -/

/-- `x[d] <- result`, then the return from an exception when S = 1 and d = 15 (R298, R299). -/
def writeResult (s : Bool) (d : Reg) (v : Word) (w : Work) : Except Fault Work :=
  restoreCpsrIf (s && d == 15) (w.write d v)

/-- A logical opcode of two operands that writes Rd. -/
def logicalOp (f : Word → Word → Word) (s : Bool) (rn rd : Reg) (o : Operand2) (w : Work) : Except Fault Work := do
  let b ← operand2 o w.st
  let a := firstOperand rn o w.st
  writeResult s rd (f a b.value) (setLogicalFlags s rd (f a b.value) b.carry w)

/-- MOV and MVN: Rn is not read (R295, R297). -/
def moveOp (f : Word → Word) (s : Bool) (rd : Reg) (o : Operand2) (w : Work) : Except Fault Work := do
  let b ← operand2 o w.st
  writeResult s rd (f b.value) (setLogicalFlags s rd (f b.value) b.carry w)

/-- An arithmetic opcode's result from the configuration, the operands and CPSR.C. -/
abbrev AluOp := Config → Word → Word → Bool → AluResult

/-- An arithmetic opcode that writes Rd; the shifter carry is dropped (R281). -/
def arithmeticOp (f : AluOp) (s : Bool) (rn rd : Reg) (o : Operand2) (w : Work) : Except Fault Work := do
  let b ← operand2 o w.st
  let a := firstOperand rn o w.st
  let r := f w.st.cfg a b.value w.st.cpsr.c
  writeResult s rd r.value (setArithmeticFlags s rd r w)

/-- TST and TEQ: no register is written; Rd = 15 sets no flag (R290, R300). -/
def logicalTest (f : Word → Word → Word) (rn rd : Reg) (o : Operand2) (w : Work) : Except Fault Work := do
  let b ← operand2 o w.st
  let a := firstOperand rn o w.st
  .ok (setLogicalFlags true rd (f a b.value) b.carry w)

/-- CMP and CMN (R292, R293). -/
def arithmeticTest (f : AluOp) (rn rd : Reg) (o : Operand2) (w : Work) : Except Fault Work := do
  let b ← operand2 o w.st
  let a := firstOperand rn o w.st
  .ok (setArithmeticFlags true rd (f w.st.cfg a b.value w.st.cpsr.c) w)

/-- A test opcode with S = 0: its operand reads, whose values nothing takes, and nothing else (R305). -/
def readOnlyTest (o : Operand2) (w : Work) : Except Fault Work := do
  let _ ← operand2 o w.st
  .ok w

/-! ## The arithmetic of the opcodes -/

def aluSub : AluOp := fun cfg a b _ => subWithBorrow cfg a b false       -- R284
def aluRsb : AluOp := fun cfg a b _ => subWithBorrow cfg b a false       -- R285
def aluAdd : AluOp := fun _ a b _ => addWithCarry a b false              -- R286
def aluAdc : AluOp := fun _ a b c => addWithCarry a b c                  -- R287
def aluSbc : AluOp := fun cfg a b c => subWithBorrow cfg a b (!c)        -- R288
def aluRsc : AluOp := fun cfg a b c => subWithBorrow cfg b a (!c)        -- R289
def bicWord (a b : Word) : Word := a &&& ~~~b                            -- R296

/-! ## The meanings -/

/-- AND (R282). -/
def execAnd (c : Cond) (s : Bool) (rn rd : Reg) (o : Operand2) : State → Host.Outcome State Fault Refusal :=
  armStep c (logicalOp (· &&& ·) s rn rd o)

/-- EOR (R283). -/
def execEor (c : Cond) (s : Bool) (rn rd : Reg) (o : Operand2) : State → Host.Outcome State Fault Refusal :=
  armStep c (logicalOp (· ^^^ ·) s rn rd o)

/-- SUB (R284). -/
def execSub (c : Cond) (s : Bool) (rn rd : Reg) (o : Operand2) : State → Host.Outcome State Fault Refusal :=
  armStep c (arithmeticOp aluSub s rn rd o)

/-- RSB (R285). -/
def execRsb (c : Cond) (s : Bool) (rn rd : Reg) (o : Operand2) : State → Host.Outcome State Fault Refusal :=
  armStep c (arithmeticOp aluRsb s rn rd o)

/-- ADD (R286). -/
def execAdd (c : Cond) (s : Bool) (rn rd : Reg) (o : Operand2) : State → Host.Outcome State Fault Refusal :=
  armStep c (arithmeticOp aluAdd s rn rd o)

/-- ADC (R287). -/
def execAdc (c : Cond) (s : Bool) (rn rd : Reg) (o : Operand2) : State → Host.Outcome State Fault Refusal :=
  armStep c (arithmeticOp aluAdc s rn rd o)

/-- SBC (R288). -/
def execSbc (c : Cond) (s : Bool) (rn rd : Reg) (o : Operand2) : State → Host.Outcome State Fault Refusal :=
  armStep c (arithmeticOp aluSbc s rn rd o)

/-- RSC (R289). -/
def execRsc (c : Cond) (s : Bool) (rn rd : Reg) (o : Operand2) : State → Host.Outcome State Fault Refusal :=
  armStep c (arithmeticOp aluRsc s rn rd o)

/-- TST (R290). -/
def execTst (c : Cond) (rn rd : Reg) (o : Operand2) : State → Host.Outcome State Fault Refusal :=
  armStep c (logicalTest (· &&& ·) rn rd o)

/-- TEQ (R291). -/
def execTeq (c : Cond) (rn rd : Reg) (o : Operand2) : State → Host.Outcome State Fault Refusal :=
  armStep c (logicalTest (· ^^^ ·) rn rd o)

/-- CMP (R292). -/
def execCmp (c : Cond) (rn rd : Reg) (o : Operand2) : State → Host.Outcome State Fault Refusal :=
  armStep c (arithmeticTest aluSub rn rd o)

/-- CMN (R293). -/
def execCmn (c : Cond) (rn rd : Reg) (o : Operand2) : State → Host.Outcome State Fault Refusal :=
  armStep c (arithmeticTest aluAdd rn rd o)

/-- ORR (R294). -/
def execOrr (c : Cond) (s : Bool) (rn rd : Reg) (o : Operand2) : State → Host.Outcome State Fault Refusal :=
  armStep c (logicalOp (· ||| ·) s rn rd o)

/-- MOV (R295); its Rn field (`_sbz`) is ignored. -/
def execMov (c : Cond) (s : Bool) (_sbz rd : Reg) (o : Operand2) : State → Host.Outcome State Fault Refusal :=
  armStep c (moveOp id s rd o)

/-- BIC (R296). -/
def execBic (c : Cond) (s : Bool) (rn rd : Reg) (o : Operand2) : State → Host.Outcome State Fault Refusal :=
  armStep c (logicalOp bicWord s rn rd o)

/-- MVN (R297); its Rn field (`_sbz`) is ignored. -/
def execMvn (c : Cond) (s : Bool) (_sbz rd : Reg) (o : Operand2) : State → Host.Outcome State Fault Refusal :=
  armStep c (moveOp (~~~ ·) s rd o)

/-- TST, TEQ, CMP or CMN with S = 0 (R305). -/
def execPsrSpaceNop (c : Cond) (_op : TestOp) (_rn _rd : Reg) (o : Operand2) : State → Host.Outcome State Fault Refusal :=
  armStep c (readOnlyTest o)

end Sys2Proof.Machine
end

