-- ==== Sys2Proof/Machine/Multiply.lean ====
section
/-! DEFINITION. The multiplies (43_arm_multiply.md R340 to R351). -/

namespace Sys2Proof.Machine

/-- `MUL` (R341) with the checks of R340, made before any register is read. -/
def mulBody (s : Bool) (rd rs rm : Reg) (w : Work) : Except Fault Work := do
  faultWhen (rm == 15 || rs == 15) (.unpredictable .multiplyPcOperand)
  faultWhen (rd == rm) (.unpredictable .multiplyRdEqualsRm)
  let a := readReg rm w.st
  let b := readReg rs w.st
  .ok (setMultiplyFlags s rd (a * b) (w.write rd (a * b)))

/-- `MLA` (R342). -/
def mlaBody (s : Bool) (rd rn rs rm : Reg) (w : Work) : Except Fault Work := do
  faultWhen (rm == 15 || rs == 15 || rn == 15) (.unpredictable .multiplyPcOperand)
  faultWhen (rd == rm) (.unpredictable .multiplyRdEqualsRm)
  let a := readReg rm w.st
  let b := readReg rs w.st
  let n := readReg rn w.st
  .ok (setMultiplyFlags s rd (a * b + n) (w.write rd (a * b + n)))

/-- The exact product of two unsigned and of two signed words, modulo 2^64 (R343). -/
def unsignedProduct (a b : Word) : BitVec 64 := a.zeroExtend 64 * b.zeroExtend 64
def signedProduct (a b : Word) : BitVec 64 := a.signExtend 64 * b.signExtend 64

/-- The checks of R343. -/
def multiplyLongChecks (accumulate : Bool) (hi lo rs rm : Reg) : Except Fault Unit := do
  faultWhen (rm == 15 || rs == 15 || (accumulate && (hi == 15 || lo == 15))) (.unpredictable .multiplyPcOperand)
  faultWhen (hi == lo || hi == rm || lo == rm) (.unpredictable .multiplyLongRegisters)

/-- The two writes of a 64-bit result, RdLo first, and its flags (R343). -/
def writeLong (s : Bool) (hi lo : Reg) (r : BitVec 64) (w : Work) : Work :=
  setMultiplyLongFlags s hi lo r ((w.write lo (r.extractLsb' 0 32)).write hi (r.extractLsb' 32 32))

/-- A long multiply without accumulation (R343). -/
def multiplyLong (product : Word → Word → BitVec 64) (s : Bool) (hi lo rs rm : Reg) (w : Work) : Except Fault Work := do
  multiplyLongChecks false hi lo rs rm
  let a := readReg rm w.st
  let b := readReg rs w.st
  .ok (writeLong s hi lo (product a b) w)

/-- A long multiply with accumulation: RdHi ++ RdLo is read before any write (R343). -/
def multiplyLongAccumulate (product : Word → Word → BitVec 64) (s : Bool) (hi lo rs rm : Reg) (w : Work) : Except Fault Work := do
  multiplyLongChecks true hi lo rs rm
  let a := readReg rm w.st
  let b := readReg rs w.st
  let h := readReg hi w.st
  let l := readReg lo w.st
  .ok (writeLong s hi lo (product a b + (h ++ l : BitVec 64)) w)

/-- MUL (R341); its Rn field (`_sbz`) is ignored. -/
def execMul (c : Cond) (s : Bool) (rd _sbz rs rm : Reg) : State → Host.Outcome State Fault Refusal :=
  armStep c (mulBody s rd rs rm)

/-- MLA (R342). -/
def execMla (c : Cond) (s : Bool) (rd rn rs rm : Reg) : State → Host.Outcome State Fault Refusal :=
  armStep c (mlaBody s rd rn rs rm)

/-- UMULL (R344). -/
def execUmull (c : Cond) (s : Bool) (hi lo rs rm : Reg) : State → Host.Outcome State Fault Refusal :=
  armStep c (multiplyLong unsignedProduct s hi lo rs rm)

/-- UMLAL (R345). -/
def execUmlal (c : Cond) (s : Bool) (hi lo rs rm : Reg) : State → Host.Outcome State Fault Refusal :=
  armStep c (multiplyLongAccumulate unsignedProduct s hi lo rs rm)

/-- SMULL (R346). -/
def execSmull (c : Cond) (s : Bool) (hi lo rs rm : Reg) : State → Host.Outcome State Fault Refusal :=
  armStep c (multiplyLong signedProduct s hi lo rs rm)

/-- SMLAL (R347). -/
def execSmlal (c : Cond) (s : Bool) (hi lo rs rm : Reg) : State → Host.Outcome State Fault Refusal :=
  armStep c (multiplyLongAccumulate signedProduct s hi lo rs rm)

end Sys2Proof.Machine
end

