-- ==== Sys2Proof/Machine/PsrTransfer.lean ====
section
/-! DEFINITION. MRS and MSR (42_arm_data_processing.md R310 to R325), behind the gate `cfg.psr_transfer`. -/

namespace Sys2Proof.Machine

/-- The gate of both categories (R310). -/
def requirePsrTransfer (w : Work) : Except Fault Unit :=
  match w.st.cfg.psrTransfer with
  | .fatal => .error (.unimplemented .psrTransfer)
  | .implemented => .ok ()

/-- The SPSR of the current mode, which User and System have not (R51, R311, R323). -/
def currentSpsr (s : State) : Except Fault SpsrName :=
  match spsrOf s.cpsr.m with
  | some n => .ok n
  | none => .error (.unpredictable .noSpsr)

/-- The value MRS reads: `pack(CPSR)`, or the SPSR's whole word (R311). -/
def readPsr (p : Bool) (s : State) : Except Fault Word :=
  if p then do
    let n ← currentSpsr s
    .ok (readSpsr n s)
  else .ok s.cpsr.pack

/-- `Mrs` (R311). -/
def mrsBody (p : Bool) (rd : Reg) (w : Work) : Except Fault Work := do
  requirePsrTransfer w
  faultWhen (rd == 15) (.unpredictable .psrToPc)
  let v ← readPsr p w.st
  .ok (w.write rd v)

/-- Whether an MSR to the CPSR writes the control byte: the c field, outside User mode (R320, R321). -/
def msrWritesControl (mask : BitVec 4) (c : Cpsr) : Bool := mask.getLsbD 0 && c.m.privileged

/-- The mode an MSR's control byte names; it may not change T (R322) and must be a mode (R46). -/
def msrMode (op : Word) (c : Cpsr) : Except Fault Mode := do
  faultWhen (op.getLsbD 5 != c.t) (.unpredictable .msrChangesT)
  requireMode (op.extractLsb' 0 5)

/-- The f field (R320). -/
def msrFlags (b : Bool) (op : Word) (c : Cpsr) : Cpsr :=
  if b then { c with n := op.getLsbD 31, z := op.getLsbD 30, c := op.getLsbD 29, v := op.getLsbD 28 } else c

/-- The c field (R320): I, F and M. -/
def msrControl (op : Word) (m : Mode) (c : Cpsr) : Cpsr := { c with i := op.getLsbD 7, f := op.getLsbD 6, m := m }

/-- MSR to the CPSR (R320); the x and s fields have no storage (R44). -/
def msrCpsr (mask : BitVec 4) (op : Word) (w : Work) : Except Fault Work :=
  let c := w.st.cpsr
  if msrWritesControl mask c then do
    let m ← msrMode op c
    .ok (w.setCpsr (msrControl op m (msrFlags (mask.getLsbD 3) op c)))
  else .ok (w.setCpsr (msrFlags (mask.getLsbD 3) op c))

/-- The bytes whose mask bit is set come from `op`, the others from `old` (R323). -/
def replaceBytes (mask : BitVec 4) (old op : Word) : Word :=
  let byte (k : Nat) : Byte := if mask.getLsbD k then op.extractLsb' (8 * k) 8 else old.extractLsb' (8 * k) 8
  byte 3 ++ byte 2 ++ byte 1 ++ byte 0

/-- `MsrSpsr` (R323). -/
def msrSpsr (mask : BitVec 4) (op : Word) (w : Work) : Except Fault Work := do
  let n ← currentSpsr w.st
  .ok { w with st := w.st.setSpsr n (replaceBytes mask (readSpsr n w.st) op) }

/-- `Msr` once its operand is known (R320). -/
def msrWrite (p : Bool) (mask : BitVec 4) (op : Word) (w : Work) : Except Fault Work :=
  if p then msrSpsr mask op w else msrCpsr mask op w

/-- MSR, register form (R320, R324). -/
def msrRegBody (p : Bool) (mask : BitVec 4) (rm : Reg) (w : Work) : Except Fault Work := do
  requirePsrTransfer w
  faultWhen (rm == 15) (.unpredictable .psrFromPc)
  msrWrite p mask (readReg rm w.st) w

/-- MSR, immediate form (R320); the immediate's carry is not used. -/
def msrImmBody (p : Bool) (mask : BitVec 4) (rotate : BitVec 4) (imm8 : BitVec 8) (w : Work) : Except Fault Work := do
  requirePsrTransfer w
  msrWrite p mask (rotatedImm w.st.cpsr.c rotate imm8).value w

/-- MRS (R310, R311). -/
def execMrs (c : Cond) (p : Bool) (rd : Reg) : State → Host.Outcome State Fault Refusal :=
  armStep c (mrsBody p rd)

/-- MSR, register (R310, R320). -/
def execMsrReg (c : Cond) (p : Bool) (mask : BitVec 4) (rm : Reg) : State → Host.Outcome State Fault Refusal :=
  armStep c (msrRegBody p mask rm)

/-- MSR, immediate (R310, R320). -/
def execMsrImm (c : Cond) (p : Bool) (mask rotate : BitVec 4) (imm8 : BitVec 8) : State → Host.Outcome State Fault Refusal :=
  armStep c (msrImmBody p mask rotate imm8)

end Sys2Proof.Machine
end

