-- ==== Sys2Proof/Machine/ThumbAlu.lean ====
section
/-! DEFINITION. Thumb formats 1 to 5 (46_thumb_alu.md R490 to R543), each the ARM operation it is rewritten to. -/

namespace Sys2Proof.Machine

/-- A low register as a register (R490). -/
def lowReg (r : LowReg) : Reg := r.castLE (by decide)

/-- A register operand with no shift. -/
def plainReg (r : LowReg) : Operand2 := .regImm (lowReg r) .lsl 0#5

/-- An 8-bit immediate with no rotation. -/
def plainImm (x : BitVec 8) : Operand2 := .imm 0#4 x

/-! ## Format 1 (R500 to R502) -/

/-- LSL (R500): MOVS Rd, Rs, LSL #Offset5. -/
def execTLslImm (offset5 : BitVec 5) (rs rd : LowReg) : State → Host.Outcome State Fault Refusal :=
  thumbStep (moveOp id true (lowReg rd) (.regImm (lowReg rs) .lsl offset5))

/-- LSR (R501). -/
def execTLsrImm (offset5 : BitVec 5) (rs rd : LowReg) : State → Host.Outcome State Fault Refusal :=
  thumbStep (moveOp id true (lowReg rd) (.regImm (lowReg rs) .lsr offset5))

/-- ASR (R502). -/
def execTAsrImm (offset5 : BitVec 5) (rs rd : LowReg) : State → Host.Outcome State Fault Refusal :=
  thumbStep (moveOp id true (lowReg rd) (.regImm (lowReg rs) .asr offset5))

/-! ## Format 2 (R503 to R506) -/

/-- ADD Rd, Rs, Rn (R503): ADDS. -/
def execTAddReg (rn rs rd : LowReg) : State → Host.Outcome State Fault Refusal :=
  thumbStep (arithmeticOp aluAdd true (lowReg rs) (lowReg rd) (plainReg rn))

/-- SUB Rd, Rs, Rn (R504): SUBS. -/
def execTSubReg (rn rs rd : LowReg) : State → Host.Outcome State Fault Refusal :=
  thumbStep (arithmeticOp aluSub true (lowReg rs) (lowReg rd) (plainReg rn))

/-- ADD Rd, Rs, #Offset3 (R505). -/
def execTAddImm3 (imm3 : BitVec 3) (rs rd : LowReg) : State → Host.Outcome State Fault Refusal :=
  thumbStep (arithmeticOp aluAdd true (lowReg rs) (lowReg rd) (plainImm (imm3.zeroExtend 8)))

/-- SUB Rd, Rs, #Offset3 (R506). -/
def execTSubImm3 (imm3 : BitVec 3) (rs rd : LowReg) : State → Host.Outcome State Fault Refusal :=
  thumbStep (arithmeticOp aluSub true (lowReg rs) (lowReg rd) (plainImm (imm3.zeroExtend 8)))

/-! ## Format 3 (R507 to R510) -/

/-- MOV (R507). -/
def execTMovImm (rd : LowReg) (imm8 : BitVec 8) : State → Host.Outcome State Fault Refusal :=
  thumbStep (moveOp id true (lowReg rd) (plainImm imm8))

/-- CMP (R508). -/
def execTCmpImm (rd : LowReg) (imm8 : BitVec 8) : State → Host.Outcome State Fault Refusal :=
  thumbStep (arithmeticTest aluSub (lowReg rd) (lowReg rd) (plainImm imm8))

/-- ADD (R509). -/
def execTAddImm8 (rd : LowReg) (imm8 : BitVec 8) : State → Host.Outcome State Fault Refusal :=
  thumbStep (arithmeticOp aluAdd true (lowReg rd) (lowReg rd) (plainImm imm8))

/-- SUB (R510). -/
def execTSubImm8 (rd : LowReg) (imm8 : BitVec 8) : State → Host.Outcome State Fault Refusal :=
  thumbStep (arithmeticOp aluSub true (lowReg rd) (lowReg rd) (plainImm imm8))

/-! ## Format 4 (R520 to R535) -/

/-- MOVS Rd, Rd, <type> Rs. -/
def thumbShiftReg (type : ShiftType) (rs rd : LowReg) : Work → Except Fault Work :=
  moveOp id true (lowReg rd) (.regReg (lowReg rd) type (lowReg rs))

/-- AND (R520): ANDS Rd, Rd, Rs. -/
def execTAnd (rs rd : LowReg) : State → Host.Outcome State Fault Refusal :=
  thumbStep (logicalOp (· &&& ·) true (lowReg rd) (lowReg rd) (plainReg rs))

/-- EOR (R521). -/
def execTEor (rs rd : LowReg) : State → Host.Outcome State Fault Refusal :=
  thumbStep (logicalOp (· ^^^ ·) true (lowReg rd) (lowReg rd) (plainReg rs))

/-- LSL (R522). -/
def execTLsl (rs rd : LowReg) : State → Host.Outcome State Fault Refusal := thumbStep (thumbShiftReg .lsl rs rd)

/-- LSR (R523). -/
def execTLsr (rs rd : LowReg) : State → Host.Outcome State Fault Refusal := thumbStep (thumbShiftReg .lsr rs rd)

/-- ASR (R524). -/
def execTAsr (rs rd : LowReg) : State → Host.Outcome State Fault Refusal := thumbStep (thumbShiftReg .asr rs rd)

/-- ADC (R525). -/
def execTAdc (rs rd : LowReg) : State → Host.Outcome State Fault Refusal :=
  thumbStep (arithmeticOp aluAdc true (lowReg rd) (lowReg rd) (plainReg rs))

/-- SBC (R526). -/
def execTSbc (rs rd : LowReg) : State → Host.Outcome State Fault Refusal :=
  thumbStep (arithmeticOp aluSbc true (lowReg rd) (lowReg rd) (plainReg rs))

/-- ROR (R527). -/
def execTRor (rs rd : LowReg) : State → Host.Outcome State Fault Refusal := thumbStep (thumbShiftReg .ror rs rd)

/-- TST (R528). -/
def execTTst (rs rd : LowReg) : State → Host.Outcome State Fault Refusal :=
  thumbStep (logicalTest (· &&& ·) (lowReg rd) (lowReg rd) (plainReg rs))

/-- NEG (R529): RSBS Rd, Rs, #0. -/
def execTNeg (rs rd : LowReg) : State → Host.Outcome State Fault Refusal :=
  thumbStep (arithmeticOp aluRsb true (lowReg rs) (lowReg rd) (plainImm 0#8))

/-- CMP (R530). -/
def execTCmp (rs rd : LowReg) : State → Host.Outcome State Fault Refusal :=
  thumbStep (arithmeticTest aluSub (lowReg rd) (lowReg rd) (plainReg rs))

/-- CMN (R531). -/
def execTCmn (rs rd : LowReg) : State → Host.Outcome State Fault Refusal :=
  thumbStep (arithmeticTest aluAdd (lowReg rd) (lowReg rd) (plainReg rs))

/-- ORR (R532). -/
def execTOrr (rs rd : LowReg) : State → Host.Outcome State Fault Refusal :=
  thumbStep (logicalOp (· ||| ·) true (lowReg rd) (lowReg rd) (plainReg rs))

/-- MUL (R533): MULS Rd, Rs, Rd. -/
def execTMul (rs rd : LowReg) : State → Host.Outcome State Fault Refusal :=
  thumbStep (mulBody true (lowReg rd) (lowReg rd) (lowReg rs))

/-- BIC (R534). -/
def execTBic (rs rd : LowReg) : State → Host.Outcome State Fault Refusal :=
  thumbStep (logicalOp bicWord true (lowReg rd) (lowReg rd) (plainReg rs))

/-- MVN (R535). -/
def execTMvn (rs rd : LowReg) : State → Host.Outcome State Fault Refusal :=
  thumbStep (moveOp (~~~ ·) true (lowReg rd) (plainReg rs))

/-! ## Format 5 (R540 to R543) -/

/-- Both registers low (R540): H1 = H2 = 0. -/
def checkHiReg (rs rd : Reg) : Except Fault Unit := faultWhen (decide (rs < 8) && decide (rd < 8)) (.unpredictable .thumbHiRegLowLow)

/-- `x[d] <- x[d] + x[s]`, no flag (R540). -/
def hiAdd (rs rd : Reg) (w : Work) : Except Fault Work := do
  checkHiReg rs rd
  let a := readReg rd w.st
  let b := readReg rs w.st
  .ok (w.write rd (a + b))

/-- The comparison sets the flags whatever Rd is (R541). -/
def hiCompare (rs rd : Reg) (w : Work) : Except Fault Work := do
  checkHiReg rs rd
  let a := readReg rd w.st
  let b := readReg rs w.st
  .ok (w.setCpsr (w.st.cpsr.withArithmetic (subWithBorrow w.st.cfg a b false)))

/-- `x[d] <- x[s]`, no flag (R542). -/
def hiMove (rs rd : Reg) (w : Work) : Except Fault Work := do
  checkHiReg rs rd
  let b := readReg rs w.st
  .ok (w.write rd b)

/-- ADD (R540). -/
def execTAddHi (rs rd : Reg) : State → Host.Outcome State Fault Refusal := thumbStep (hiAdd rs rd)

/-- CMP (R541). -/
def execTCmpHi (rs rd : Reg) : State → Host.Outcome State Fault Refusal := thumbStep (hiCompare rs rd)

/-- MOV (R542). -/
def execTMovHi (rs rd : Reg) : State → Host.Outcome State Fault Refusal := thumbStep (hiMove rs rd)

/-- BX (R543); bits 2:0 (`_sbz`) are ignored. -/
def execTBx (rs : Reg) (_sbz : BitVec 3) : State → Host.Outcome State Fault Refusal := thumbStep (branchExchange rs)

/-- BX with H1 = 1 (R543). -/
def execTBxH1 (_rs : Reg) (_sbz : BitVec 3) : State → Host.Outcome State Fault Refusal :=
  thumbStep (fun _ => .error (.unpredictable .thumbBxH1))

end Sys2Proof.Machine
end

