-- ==== Sys2Proof/Machine/ThumbBranch.lean ====
section
/-! DEFINITION. Thumb formats 16 to 19 and the undefined halfwords (47_thumb_memory_branch.md R600 to R616). -/

namespace Sys2Proof.Machine

/-- pc + 4 plus a sign-extended offset of halfwords (R600, R608). -/
def thumbBranchTarget {n : Nat} (s : State) (offset : BitVec n) : Word := (s.pc + 4#32) + (offset ++ 0b0#1).signExtend 32

/-- `ThumbCondBranch` (R600): a failing condition does nothing. -/
def thumbCondBranch (c : Cond) (soffset8 : BitVec 8) (w : Work) : Except Fault Work :=
  .ok (if conditionPassed c w.st.cpsr then w.branch (thumbBranchTarget w.st soffset8) else w)

/-- The address of the next Thumb instruction, the return address of R605 and R615. -/
def thumbReturn (w : Work) : Word := w.st.pc + 2#32

/-- `ThumbBranch` (R608). -/
def thumbBranch (offset11 : BitVec 11) (w : Work) : Except Fault Work := .ok (w.branch (thumbBranchTarget w.st offset11))

/-- `ThumbBlHigh` (R611): LR <- pc + 4 + the high part of the offset. -/
def thumbBlHigh (offset11 : BitVec 11) (w : Work) : Except Fault Work :=
  .ok (w.write 14 ((w.st.pc + 4#32) + (offset11 ++ 0#12).signExtend 32))

/-- `ThumbBlLow` (R612): LR is read, then written, then the branch. -/
def thumbBlLow (offset11 : BitVec 11) (w : Work) : Except Fault Work :=
  let lr := readReg 14 w.st
  .ok ((w.write 14 ((w.st.pc + 2#32) ||| 1#32)).branch (lr + (offset11 ++ 0b0#1).zeroExtend 32))

/-- `ThumbUndefinedHalf` (R615). -/
def thumbUndefinedHalf (w : Work) : Except Fault Work := undefinedInstruction .thumbUndefined (thumbReturn w) w

/-- B<cond>, conditions 0000 to 0111 (R600). -/
def execTBCond0to7 (c : Cond) (soffset8 : BitVec 8) : State → Host.Outcome State Fault Refusal :=
  thumbStep (thumbCondBranch c soffset8)

/-- B<cond>, conditions 1000 to 1011 (R600). -/
def execTBCond8to11 (c : Cond) (soffset8 : BitVec 8) : State → Host.Outcome State Fault Refusal :=
  thumbStep (thumbCondBranch c soffset8)

/-- B<cond>, conditions 1100 and 1101 (R600). -/
def execTBCond12to13 (c : Cond) (soffset8 : BitVec 8) : State → Host.Outcome State Fault Refusal :=
  thumbStep (thumbCondBranch c soffset8)

/-- Format 16 with condition 1110 (R601): undefined. -/
def execTBCond14 (_x8 : BitVec 8) : State → Host.Outcome State Fault Refusal := thumbStep thumbUndefinedHalf

/-- SWI (R605); Value8 is not read. -/
def execTSwi (_value8 : BitVec 8) : State → Host.Outcome State Fault Refusal :=
  thumbStep (fun w => .ok (takeException .softwareInterrupt (thumbReturn w) w))

/-- B (R608). -/
def execTB (offset11 : BitVec 11) : State → Host.Outcome State Fault Refusal := thumbStep (thumbBranch offset11)

/-- BL, first half (R611). -/
def execTBlHigh (offset11 : BitVec 11) : State → Host.Outcome State Fault Refusal := thumbStep (thumbBlHigh offset11)

/-- BL, second half (R612). -/
def execTBlLow (offset11 : BitVec 11) : State → Host.Outcome State Fault Refusal := thumbStep (thumbBlLow offset11)

/-- Undefined halfwords 0xB100 to 0xB1FF (R615). -/
def execTUndefB1 (_x8 : BitVec 8) : State → Host.Outcome State Fault Refusal := thumbStep thumbUndefinedHalf

/-- Undefined halfwords 0xB200 to 0xB3FF (R615). -/
def execTUndefB2 (_x9 : BitVec 9) : State → Host.Outcome State Fault Refusal := thumbStep thumbUndefinedHalf

/-- Undefined halfwords 0xB600 to 0xB7FF (R615). -/
def execTUndefB6 (_x9 : BitVec 9) : State → Host.Outcome State Fault Refusal := thumbStep thumbUndefinedHalf

/-- Undefined halfwords 0xB800 to 0xBBFF (R615). -/
def execTUndefB8 (_x10 : BitVec 10) : State → Host.Outcome State Fault Refusal := thumbStep thumbUndefinedHalf

/-- Undefined halfwords 0xBE00 to 0xBFFF (R615). -/
def execTUndefBE (_x9 : BitVec 9) : State → Host.Outcome State Fault Refusal := thumbStep thumbUndefinedHalf

/-- Undefined halfwords 0xE800 to 0xEFFF (R615). -/
def execTUndefE8 (_x11 : BitVec 11) : State → Host.Outcome State Fault Refusal := thumbStep thumbUndefinedHalf

end Sys2Proof.Machine
end

