-- ==== Sys2Proof/Machine/ThumbMemory.lean ====
section
/-! DEFINITION. Thumb formats 6 to 15 (47_thumb_memory_branch.md R549 to R596), each the ARM operation it is rewritten to:
P = 1, U = 1, W = 0 for the single and halfword transfers (R549). -/

namespace Sys2Proof.Machine

/-! ## Formats 6, 7 and 8 -/

/-- The pc operand of formats 6 and 12: pc + 4, word-aligned (R550, R580). -/
def thumbPcBase (s : State) : Word := (s.pc + 4#32) &&& 0xFFFFFFFC#32

/-- An offset of words (R550, R570, R580). -/
def wordOffset (word8 : BitVec 8) : Word := (word8 ++ 0b00#2).zeroExtend 32

/-- `ThumbPcLoad` (R550). -/
def pcLoad (rd : LowReg) (word8 : BitVec 8) (w : Work) : Except Fault Work :=
  .ok (w.write (lowReg rd) (loadWord (thumbPcBase w.st + wordOffset word8) w.st))

/-- A register offset with no shift, of a single transfer and of a halfword transfer. -/
def regOffset (ro : LowReg) : TransferOffset := .reg (lowReg ro) .lsl 0#5
def halfRegOffset (ro : LowReg) : HalfOffset := .reg 0#4 (lowReg ro)

/-- LDR Rd, [PC, #Word8 * 4] (R550). -/
def execTLdrPc (rd : LowReg) (word8 : BitVec 8) : State → Host.Outcome State Fault Refusal := thumbStep (pcLoad rd word8)

/-- STR Rd, [Rb, Ro] (R551). -/
def execTStrReg (ro rb rd : LowReg) : State → Host.Outcome State Fault Refusal :=
  thumbStep (singleStore false true true false (lowReg rb) (lowReg rd) (regOffset ro))

/-- STRB Rd, [Rb, Ro] (R552). -/
def execTStrbReg (ro rb rd : LowReg) : State → Host.Outcome State Fault Refusal :=
  thumbStep (singleStore true true true false (lowReg rb) (lowReg rd) (regOffset ro))

/-- LDR Rd, [Rb, Ro] (R553). -/
def execTLdrReg (ro rb rd : LowReg) : State → Host.Outcome State Fault Refusal :=
  thumbStep (singleLoad false true true false (lowReg rb) (lowReg rd) (regOffset ro))

/-- LDRB Rd, [Rb, Ro] (R554). -/
def execTLdrbReg (ro rb rd : LowReg) : State → Host.Outcome State Fault Refusal :=
  thumbStep (singleLoad true true true false (lowReg rb) (lowReg rd) (regOffset ro))

/-- STRH Rd, [Rb, Ro] (R555). -/
def execTStrhReg (ro rb rd : LowReg) : State → Host.Outcome State Fault Refusal :=
  thumbStep (halfTransferStore true true false (lowReg rb) (lowReg rd) (halfRegOffset ro))

/-- LDRH Rd, [Rb, Ro] (R556). -/
def execTLdrhReg (ro rb rd : LowReg) : State → Host.Outcome State Fault Refusal :=
  thumbStep (halfTransferLoad loadHalf true true false (lowReg rb) (lowReg rd) (halfRegOffset ro))

/-- LDSB Rd, [Rb, Ro] (R557). -/
def execTLdsb (ro rb rd : LowReg) : State → Host.Outcome State Fault Refusal :=
  thumbStep (halfTransferLoad (fun a s => .ok (loadSByte a s)) true true false (lowReg rb) (lowReg rd) (halfRegOffset ro))

/-- LDSH Rd, [Rb, Ro] (R558). -/
def execTLdsh (ro rb rd : LowReg) : State → Host.Outcome State Fault Refusal :=
  thumbStep (halfTransferLoad loadSHalf true true false (lowReg rb) (lowReg rd) (halfRegOffset ro))

/-! ## Formats 9 and 10 -/

/-- Offset5 in words (R560), bytes (R562) and halfwords (R565). -/
def immWordOffset (offset5 : BitVec 5) : TransferOffset := .imm ((offset5 ++ 0b00#2).zeroExtend 12)
def immByteOffset (offset5 : BitVec 5) : TransferOffset := .imm (offset5.zeroExtend 12)
def immHalfOffset (offset5 : BitVec 5) : HalfOffset := .imm ((offset5 ++ 0b0#1).zeroExtend 8)

/-- STR Rd, [Rb, #Offset5 * 4] (R560). -/
def execTStrImm (offset5 : BitVec 5) (rb rd : LowReg) : State → Host.Outcome State Fault Refusal :=
  thumbStep (singleStore false true true false (lowReg rb) (lowReg rd) (immWordOffset offset5))

/-- LDR Rd, [Rb, #Offset5 * 4] (R561). -/
def execTLdrImm (offset5 : BitVec 5) (rb rd : LowReg) : State → Host.Outcome State Fault Refusal :=
  thumbStep (singleLoad false true true false (lowReg rb) (lowReg rd) (immWordOffset offset5))

/-- STRB Rd, [Rb, #Offset5] (R562). -/
def execTStrbImm (offset5 : BitVec 5) (rb rd : LowReg) : State → Host.Outcome State Fault Refusal :=
  thumbStep (singleStore true true true false (lowReg rb) (lowReg rd) (immByteOffset offset5))

/-- LDRB Rd, [Rb, #Offset5] (R563). -/
def execTLdrbImm (offset5 : BitVec 5) (rb rd : LowReg) : State → Host.Outcome State Fault Refusal :=
  thumbStep (singleLoad true true true false (lowReg rb) (lowReg rd) (immByteOffset offset5))

/-- STRH Rd, [Rb, #Offset5 * 2] (R565). -/
def execTStrhImm (offset5 : BitVec 5) (rb rd : LowReg) : State → Host.Outcome State Fault Refusal :=
  thumbStep (halfTransferStore true true false (lowReg rb) (lowReg rd) (immHalfOffset offset5))

/-- LDRH Rd, [Rb, #Offset5 * 2] (R566). -/
def execTLdrhImm (offset5 : BitVec 5) (rb rd : LowReg) : State → Host.Outcome State Fault Refusal :=
  thumbStep (halfTransferLoad loadHalf true true false (lowReg rb) (lowReg rd) (immHalfOffset offset5))

/-! ## Formats 11, 12 and 13 -/

/-- Word8 in words as a transfer offset (R570). -/
def spOffset (word8 : BitVec 8) : TransferOffset := .imm ((word8 ++ 0b00#2).zeroExtend 12)

/-- STR Rd, [SP, #Word8 * 4] (R570). -/
def execTStrSp (rd : LowReg) (word8 : BitVec 8) : State → Host.Outcome State Fault Refusal :=
  thumbStep (singleStore false true true false 13 (lowReg rd) (spOffset word8))

/-- LDR Rd, [SP, #Word8 * 4] (R571). -/
def execTLdrSp (rd : LowReg) (word8 : BitVec 8) : State → Host.Outcome State Fault Refusal :=
  thumbStep (singleLoad false true true false 13 (lowReg rd) (spOffset word8))

/-- `ThumbLoadAddress` from the pc (R580). -/
def addPcBody (rd : LowReg) (word8 : BitVec 8) (w : Work) : Except Fault Work :=
  .ok (w.write (lowReg rd) (thumbPcBase w.st + wordOffset word8))

/-- `ThumbLoadAddress` from SP (R581). -/
def addSpBody (rd : LowReg) (word8 : BitVec 8) (w : Work) : Except Fault Work :=
  let sp := readReg 13 w.st
  .ok (w.write (lowReg rd) (sp + wordOffset word8))

/-- `ThumbAdjustSp` (R585, R586). -/
def adjustSp (up : Bool) (sword7 : BitVec 7) (w : Work) : Except Fault Work :=
  let sp := readReg 13 w.st
  .ok (w.write 13 (offsetBase up sp ((sword7 ++ 0b00#2).zeroExtend 32)))

/-- ADD Rd, PC, #Word8 * 4 (R580). -/
def execTAddPc (rd : LowReg) (word8 : BitVec 8) : State → Host.Outcome State Fault Refusal := thumbStep (addPcBody rd word8)

/-- ADD Rd, SP, #Word8 * 4 (R581). -/
def execTAddSp (rd : LowReg) (word8 : BitVec 8) : State → Host.Outcome State Fault Refusal := thumbStep (addSpBody rd word8)

/-- ADD SP, #SWord7 * 4 (R585). -/
def execTIncSp (sword7 : BitVec 7) : State → Host.Outcome State Fault Refusal := thumbStep (adjustSp true sword7)

/-- SUB SP, #SWord7 * 4 (R586). -/
def execTDecSp (sword7 : BitVec 7) : State → Host.Outcome State Fault Refusal := thumbStep (adjustSp false sword7)

/-! ## Formats 14 and 15 -/

/-- R adds LR to a PUSH list and PC to a POP list (R590, R591). -/
def pushList (r : Bool) (rlist : BitVec 8) : BitVec 16 := 0b0#1 ++ BitVec.ofBool r ++ 0#6 ++ rlist
def popList (r : Bool) (rlist : BitVec 8) : BitVec 16 := BitVec.ofBool r ++ 0#7 ++ rlist

/-- PUSH (R590): STMDB SP!. -/
def execTPush (r : Bool) (rlist : BitVec 8) : State → Host.Outcome State Fault Refusal :=
  thumbStep (storeMultiple true false false true 13 (pushList r rlist))

/-- POP (R591): LDMIA SP!. -/
def execTPop (r : Bool) (rlist : BitVec 8) : State → Host.Outcome State Fault Refusal :=
  thumbStep (loadMultiple false true false true 13 (popList r rlist))

/-- STMIA Rb! (R595). -/
def execTStmia (rb : LowReg) (rlist : BitVec 8) : State → Host.Outcome State Fault Refusal :=
  thumbStep (storeMultiple false true false true (lowReg rb) (rlist.zeroExtend 16))

/-- LDMIA Rb! (R596). -/
def execTLdmia (rb : LowReg) (rlist : BitVec 8) : State → Host.Outcome State Fault Refusal :=
  thumbStep (loadMultiple false true false true (lowReg rb) (rlist.zeroExtend 16))

end Sys2Proof.Machine
end

