-- ==== Sys2Proof/Machine/Dispatch.lean ====
section
/-! DEFINITION. The meaning of every instruction: one arm per constructor. -/

namespace Sys2Proof.Machine

def exec (i : Instr) (s : State) : Host.Outcome State Fault Refusal :=
  match i with
  | .and c sf rn rd o => Sys2Proof.Machine.execAnd c sf rn rd o s
  | .eor c sf rn rd o => Sys2Proof.Machine.execEor c sf rn rd o s
  | .sub c sf rn rd o => Sys2Proof.Machine.execSub c sf rn rd o s
  | .rsb c sf rn rd o => Sys2Proof.Machine.execRsb c sf rn rd o s
  | .add c sf rn rd o => Sys2Proof.Machine.execAdd c sf rn rd o s
  | .adc c sf rn rd o => Sys2Proof.Machine.execAdc c sf rn rd o s
  | .sbc c sf rn rd o => Sys2Proof.Machine.execSbc c sf rn rd o s
  | .rsc c sf rn rd o => Sys2Proof.Machine.execRsc c sf rn rd o s
  | .tst c rn rd o => Sys2Proof.Machine.execTst c rn rd o s
  | .teq c rn rd o => Sys2Proof.Machine.execTeq c rn rd o s
  | .cmp c rn rd o => Sys2Proof.Machine.execCmp c rn rd o s
  | .cmn c rn rd o => Sys2Proof.Machine.execCmn c rn rd o s
  | .orr c sf rn rd o => Sys2Proof.Machine.execOrr c sf rn rd o s
  | .mov c sf sbz rd o => Sys2Proof.Machine.execMov c sf sbz rd o s
  | .bic c sf rn rd o => Sys2Proof.Machine.execBic c sf rn rd o s
  | .mvn c sf sbz rd o => Sys2Proof.Machine.execMvn c sf sbz rd o s
  | .psrSpaceNop c op rn rd o => Sys2Proof.Machine.execPsrSpaceNop c op rn rd o s
  | .mrs c p rd => Sys2Proof.Machine.execMrs c p rd s
  | .msrReg c p mask rm => Sys2Proof.Machine.execMsrReg c p mask rm s
  | .msrImm c p mask rotate imm8 => Sys2Proof.Machine.execMsrImm c p mask rotate imm8 s
  | .mul c sf rd sbz rs rm => Sys2Proof.Machine.execMul c sf rd sbz rs rm s
  | .mla c sf rd rn rs rm => Sys2Proof.Machine.execMla c sf rd rn rs rm s
  | .umull c sf hi lo rs rm => Sys2Proof.Machine.execUmull c sf hi lo rs rm s
  | .umlal c sf hi lo rs rm => Sys2Proof.Machine.execUmlal c sf hi lo rs rm s
  | .smull c sf hi lo rs rm => Sys2Proof.Machine.execSmull c sf hi lo rs rm s
  | .smlal c sf hi lo rs rm => Sys2Proof.Machine.execSmlal c sf hi lo rs rm s
  | .ldrPre c u w rn rd off => Sys2Proof.Machine.execLdrPre c u w rn rd off s
  | .ldrPost c u rn rd off => Sys2Proof.Machine.execLdrPost c u rn rd off s
  | .ldrbPre c u w rn rd off => Sys2Proof.Machine.execLdrbPre c u w rn rd off s
  | .ldrbPost c u rn rd off => Sys2Proof.Machine.execLdrbPost c u rn rd off s
  | .strPre c u w rn rd off => Sys2Proof.Machine.execStrPre c u w rn rd off s
  | .strPost c u rn rd off => Sys2Proof.Machine.execStrPost c u rn rd off s
  | .strbPre c u w rn rd off => Sys2Proof.Machine.execStrbPre c u w rn rd off s
  | .strbPost c u rn rd off => Sys2Proof.Machine.execStrbPost c u rn rd off s
  | .ldrt c u rn rd off => Sys2Proof.Machine.execLdrt c u rn rd off s
  | .ldrbt c u rn rd off => Sys2Proof.Machine.execLdrbt c u rn rd off s
  | .strt c u rn rd off => Sys2Proof.Machine.execStrt c u rn rd off s
  | .strbt c u rn rd off => Sys2Proof.Machine.execStrbt c u rn rd off s
  | .ldrh c p u w rn rd off => Sys2Proof.Machine.execLdrh c p u w rn rd off s
  | .strh c p u w rn rd off => Sys2Proof.Machine.execStrh c p u w rn rd off s
  | .ldrsb c p u w rn rd off => Sys2Proof.Machine.execLdrsb c p u w rn rd off s
  | .ldrsh c p u w rn rd off => Sys2Proof.Machine.execLdrsh c p u w rn rd off s
  | .signedStore c p u w h rn rd off => Sys2Proof.Machine.execSignedStore c p u w h rn rd off s
  | .halfSh00 c p u w l rn rd off => Sys2Proof.Machine.execHalfSh00 c p u w l rn rd off s
  | .swp c rn rd sbz rm => Sys2Proof.Machine.execSwp c rn rd sbz rm s
  | .swpb c rn rd sbz rm => Sys2Proof.Machine.execSwpb c rn rd sbz rm s
  | .ldmia c sf w rn list => Sys2Proof.Machine.execLdmia c sf w rn list s
  | .ldmib c sf w rn list => Sys2Proof.Machine.execLdmib c sf w rn list s
  | .ldmda c sf w rn list => Sys2Proof.Machine.execLdmda c sf w rn list s
  | .ldmdb c sf w rn list => Sys2Proof.Machine.execLdmdb c sf w rn list s
  | .stmia c sf w rn list => Sys2Proof.Machine.execStmia c sf w rn list s
  | .stmib c sf w rn list => Sys2Proof.Machine.execStmib c sf w rn list s
  | .stmda c sf w rn list => Sys2Proof.Machine.execStmda c sf w rn list s
  | .stmdb c sf w rn list => Sys2Proof.Machine.execStmdb c sf w rn list s
  | .b c offset24 => Sys2Proof.Machine.execB c offset24 s
  | .bl c offset24 => Sys2Proof.Machine.execBl c offset24 s
  | .bx c rn => Sys2Proof.Machine.execBx c rn s
  | .swi c comment24 => Sys2Proof.Machine.execSwi c comment24 s
  | .undefined c x20 x4 => Sys2Proof.Machine.execUndefined c x20 x4 s
  | .ldc c p u n w rn crd cp offset8 => Sys2Proof.Machine.execLdc c p u n w rn crd cp offset8 s
  | .stc c p u n w rn crd cp offset8 => Sys2Proof.Machine.execStc c p u n w rn crd cp offset8 s
  | .cdp c opc crn crd cp info crm => Sys2Proof.Machine.execCdp c opc crn crd cp info crm s
  | .mcr c opc crn rd cp info crm => Sys2Proof.Machine.execMcr c opc crn rd cp info crm s
  | .mrc c opc crn rd cp info crm => Sys2Proof.Machine.execMrc c opc crn rd cp info crm s
  | .reservedCond x28 => Sys2Proof.Machine.execReservedCond x28 s
  | .tLslImm offset5 rs rd => Sys2Proof.Machine.execTLslImm offset5 rs rd s
  | .tLsrImm offset5 rs rd => Sys2Proof.Machine.execTLsrImm offset5 rs rd s
  | .tAsrImm offset5 rs rd => Sys2Proof.Machine.execTAsrImm offset5 rs rd s
  | .tAddReg rn rs rd => Sys2Proof.Machine.execTAddReg rn rs rd s
  | .tSubReg rn rs rd => Sys2Proof.Machine.execTSubReg rn rs rd s
  | .tAddImm3 imm3 rs rd => Sys2Proof.Machine.execTAddImm3 imm3 rs rd s
  | .tSubImm3 imm3 rs rd => Sys2Proof.Machine.execTSubImm3 imm3 rs rd s
  | .tMovImm rd imm8 => Sys2Proof.Machine.execTMovImm rd imm8 s
  | .tCmpImm rd imm8 => Sys2Proof.Machine.execTCmpImm rd imm8 s
  | .tAddImm8 rd imm8 => Sys2Proof.Machine.execTAddImm8 rd imm8 s
  | .tSubImm8 rd imm8 => Sys2Proof.Machine.execTSubImm8 rd imm8 s
  | .tAnd rs rd => Sys2Proof.Machine.execTAnd rs rd s
  | .tEor rs rd => Sys2Proof.Machine.execTEor rs rd s
  | .tLsl rs rd => Sys2Proof.Machine.execTLsl rs rd s
  | .tLsr rs rd => Sys2Proof.Machine.execTLsr rs rd s
  | .tAsr rs rd => Sys2Proof.Machine.execTAsr rs rd s
  | .tAdc rs rd => Sys2Proof.Machine.execTAdc rs rd s
  | .tSbc rs rd => Sys2Proof.Machine.execTSbc rs rd s
  | .tRor rs rd => Sys2Proof.Machine.execTRor rs rd s
  | .tTst rs rd => Sys2Proof.Machine.execTTst rs rd s
  | .tNeg rs rd => Sys2Proof.Machine.execTNeg rs rd s
  | .tCmp rs rd => Sys2Proof.Machine.execTCmp rs rd s
  | .tCmn rs rd => Sys2Proof.Machine.execTCmn rs rd s
  | .tOrr rs rd => Sys2Proof.Machine.execTOrr rs rd s
  | .tMul rs rd => Sys2Proof.Machine.execTMul rs rd s
  | .tBic rs rd => Sys2Proof.Machine.execTBic rs rd s
  | .tMvn rs rd => Sys2Proof.Machine.execTMvn rs rd s
  | .tAddHi rs rd => Sys2Proof.Machine.execTAddHi rs rd s
  | .tCmpHi rs rd => Sys2Proof.Machine.execTCmpHi rs rd s
  | .tMovHi rs rd => Sys2Proof.Machine.execTMovHi rs rd s
  | .tBx rs sbz => Sys2Proof.Machine.execTBx rs sbz s
  | .tBxH1 rs sbz => Sys2Proof.Machine.execTBxH1 rs sbz s
  | .tLdrPc rd word8 => Sys2Proof.Machine.execTLdrPc rd word8 s
  | .tStrReg ro rb rd => Sys2Proof.Machine.execTStrReg ro rb rd s
  | .tStrbReg ro rb rd => Sys2Proof.Machine.execTStrbReg ro rb rd s
  | .tLdrReg ro rb rd => Sys2Proof.Machine.execTLdrReg ro rb rd s
  | .tLdrbReg ro rb rd => Sys2Proof.Machine.execTLdrbReg ro rb rd s
  | .tStrhReg ro rb rd => Sys2Proof.Machine.execTStrhReg ro rb rd s
  | .tLdrhReg ro rb rd => Sys2Proof.Machine.execTLdrhReg ro rb rd s
  | .tLdsb ro rb rd => Sys2Proof.Machine.execTLdsb ro rb rd s
  | .tLdsh ro rb rd => Sys2Proof.Machine.execTLdsh ro rb rd s
  | .tStrImm offset5 rb rd => Sys2Proof.Machine.execTStrImm offset5 rb rd s
  | .tLdrImm offset5 rb rd => Sys2Proof.Machine.execTLdrImm offset5 rb rd s
  | .tStrbImm offset5 rb rd => Sys2Proof.Machine.execTStrbImm offset5 rb rd s
  | .tLdrbImm offset5 rb rd => Sys2Proof.Machine.execTLdrbImm offset5 rb rd s
  | .tStrhImm offset5 rb rd => Sys2Proof.Machine.execTStrhImm offset5 rb rd s
  | .tLdrhImm offset5 rb rd => Sys2Proof.Machine.execTLdrhImm offset5 rb rd s
  | .tStrSp rd word8 => Sys2Proof.Machine.execTStrSp rd word8 s
  | .tLdrSp rd word8 => Sys2Proof.Machine.execTLdrSp rd word8 s
  | .tAddPc rd word8 => Sys2Proof.Machine.execTAddPc rd word8 s
  | .tAddSp rd word8 => Sys2Proof.Machine.execTAddSp rd word8 s
  | .tIncSp sword7 => Sys2Proof.Machine.execTIncSp sword7 s
  | .tDecSp sword7 => Sys2Proof.Machine.execTDecSp sword7 s
  | .tPush r rlist => Sys2Proof.Machine.execTPush r rlist s
  | .tPop r rlist => Sys2Proof.Machine.execTPop r rlist s
  | .tStmia rb rlist => Sys2Proof.Machine.execTStmia rb rlist s
  | .tLdmia rb rlist => Sys2Proof.Machine.execTLdmia rb rlist s
  | .tBCond0to7 c soffset8 => Sys2Proof.Machine.execTBCond0to7 c soffset8 s
  | .tBCond8to11 c soffset8 => Sys2Proof.Machine.execTBCond8to11 c soffset8 s
  | .tBCond12to13 c soffset8 => Sys2Proof.Machine.execTBCond12to13 c soffset8 s
  | .tBCond14 x8 => Sys2Proof.Machine.execTBCond14 x8 s
  | .tSwi value8 => Sys2Proof.Machine.execTSwi value8 s
  | .tB offset11 => Sys2Proof.Machine.execTB offset11 s
  | .tBlHigh offset11 => Sys2Proof.Machine.execTBlHigh offset11 s
  | .tBlLow offset11 => Sys2Proof.Machine.execTBlLow offset11 s
  | .tUndefB1 x8 => Sys2Proof.Machine.execTUndefB1 x8 s
  | .tUndefB2 x9 => Sys2Proof.Machine.execTUndefB2 x9 s
  | .tUndefB6 x9 => Sys2Proof.Machine.execTUndefB6 x9 s
  | .tUndefB8 x10 => Sys2Proof.Machine.execTUndefB8 x10 s
  | .tUndefBE x9 => Sys2Proof.Machine.execTUndefBE x9 s
  | .tUndefE8 x11 => Sys2Proof.Machine.execTUndefE8 x11 s

end Sys2Proof.Machine
end

