-- ==== Sys2Proof/Machine/Step.lean ====
section
/-! DEFINITION. One step (40_execution_cycle.md R200), and the placing of one instruction where the next step fetches it. -/

namespace Sys2Proof.Machine

/-- `Step()` (R200): fetch at the stored pc, decode in the instruction set that T selects, execute; the meaning itself tests the
condition and ends the step (R202, R207). -/
def step (s : State) : Host.Outcome State Fault Refusal := exec (fetchCode s).decode s

/-- The state with one instruction stored at the stored pc, in the instruction set its length names (assumption log 4). -/
def State.withFetchWord (s : State) (nbits w : Nat) : State :=
  if nbits ≤ 16 then
    { s with cpsr := { s.cpsr with t := true }, mem := s.mem.write16 s.pc (BitVec.ofNat 16 w) }
  else
    { s with cpsr := { s.cpsr with t := false }, mem := s.mem.write32 s.pc (BitVec.ofNat 32 w) }

end Sys2Proof.Machine
end

