-- ==== Sys2Proof/Machine/Reads.lean ====
section
/-! DEFINITION. The operand reads of every instruction (10_state.md R56): which slots and SPSRs it takes a value from, and when a step
reads one that nothing has written, where R56 names `Fatal(UnwrittenRegister)` and this model reads the value held since reset
(assumption log 1). -/

namespace Sys2Proof.Machine

/-- The condition field of an ARM instruction; a Thumb instruction, and condition 1111, have none. -/
def armCond : Instr → Option Cond
  | .and c .. | .eor c .. | .sub c .. | .rsb c .. | .add c .. | .adc c .. | .sbc c .. | .rsc c .. | .tst c .. | .teq c .. | .cmp c ..
  | .cmn c .. | .orr c .. | .mov c .. | .bic c .. | .mvn c .. | .psrSpaceNop c .. | .mrs c .. | .msrReg c .. | .msrImm c .. | .mul c ..
  | .mla c .. | .umull c .. | .umlal c .. | .smull c .. | .smlal c .. | .ldrPre c .. | .ldrPost c .. | .ldrbPre c .. | .ldrbPost c ..
  | .strPre c .. | .strPost c .. | .strbPre c .. | .strbPost c .. | .ldrt c .. | .ldrbt c .. | .strt c .. | .strbt c .. | .ldrh c ..
  | .strh c .. | .ldrsb c .. | .ldrsh c .. | .signedStore c .. | .halfSh00 c .. | .swp c .. | .swpb c .. | .ldmia c .. | .ldmib c ..
  | .ldmda c .. | .ldmdb c .. | .stmia c .. | .stmib c .. | .stmda c .. | .stmdb c .. | .b c .. | .bl c .. | .bx c .. | .swi c ..
  | .undefined c .. | .ldc c .. | .stc c .. | .cdp c .. | .mcr c .. | .mrc c .. => some c
  | _ => none

/-- An instruction that returns from an exception (R635): a writing opcode with S = 1 and Rd = 15, an LDM with S = 1 and R15 listed. -/
def isReturn : Instr → Bool
  | .and _ s _ rd _ | .eor _ s _ rd _ | .sub _ s _ rd _ | .rsb _ s _ rd _ | .add _ s _ rd _ | .adc _ s _ rd _ | .sbc _ s _ rd _
  | .rsc _ s _ rd _ | .orr _ s _ rd _ | .mov _ s _ rd _ | .bic _ s _ rd _ | .mvn _ s _ rd _ => s && rd == 15
  | .ldmia _ s _ _ list | .ldmib _ s _ _ list | .ldmda _ s _ _ list | .ldmdb _ s _ _ list => s && list.getLsbD 15
  | _ => false

/-- The registers an operand form reads. -/
def op2Regs : Operand2 → List Reg
  | .imm .. => []
  | .regImm rm _ _ => [rm]
  | .regReg rm _ rs => [rm, rs]
def offsetRegs : TransferOffset → List Reg
  | .imm _ => []
  | .reg rm _ _ => [rm]
def halfRegs : HalfOffset → List Reg
  | .imm _ => []
  | .reg _ rm => [rm]

/-- The register a store takes its value from; R15's is the pc itself (R205 b). -/
def storeRegs (rd : Reg) : List Reg := if rd = 15 then [] else [rd]

/-- The registers whose operand an instruction reads through the current bank (`x[n]` of its rule). -/
def operandRegs : Instr → List Reg
  | .and _ _ rn _ o | .eor _ _ rn _ o | .sub _ _ rn _ o | .rsb _ _ rn _ o | .add _ _ rn _ o | .adc _ _ rn _ o | .sbc _ _ rn _ o
  | .rsc _ _ rn _ o | .orr _ _ rn _ o | .bic _ _ rn _ o | .tst _ rn _ o | .teq _ rn _ o | .cmp _ rn _ o | .cmn _ rn _ o
  | .psrSpaceNop _ _ rn _ o => rn :: op2Regs o
  | .mov _ _ _ _ o | .mvn _ _ _ _ o => op2Regs o
  | .msrReg _ _ _ rm => [rm]
  | .mrs .. | .msrImm .. => []
  | .mul _ _ _ _ rs rm | .umull _ _ _ _ rs rm | .smull _ _ _ _ rs rm => [rm, rs]
  | .mla _ _ _ rn rs rm => [rm, rs, rn]
  | .umlal _ _ hi lo rs rm | .smlal _ _ hi lo rs rm => [rm, rs, hi, lo]
  | .ldrPre _ _ _ rn _ off | .ldrPost _ _ rn _ off | .ldrbPre _ _ _ rn _ off | .ldrbPost _ _ rn _ off | .ldrt _ _ rn _ off
  | .ldrbt _ _ rn _ off => rn :: offsetRegs off
  | .strPre _ _ _ rn rd off | .strPost _ _ rn rd off | .strbPre _ _ _ rn rd off | .strbPost _ _ rn rd off | .strt _ _ rn rd off
  | .strbt _ _ rn rd off => rn :: (offsetRegs off ++ storeRegs rd)
  | .ldrh _ _ _ _ rn _ off | .ldrsb _ _ _ _ rn _ off | .ldrsh _ _ _ _ rn _ off => rn :: halfRegs off
  | .strh _ _ _ _ rn rd off => rn :: (halfRegs off ++ storeRegs rd)
  | .signedStore .. | .halfSh00 .. => []
  | .swp _ rn _ _ rm | .swpb _ rn _ _ rm => [rn, rm]
  | .ldmia _ _ _ rn _ | .ldmib _ _ _ rn _ | .ldmda _ _ _ rn _ | .ldmdb _ _ _ rn _ | .stmia _ _ _ rn _ | .stmib _ _ _ rn _
  | .stmda _ _ _ rn _ | .stmdb _ _ _ rn _ | .bx _ rn => [rn]
  | .b .. | .bl .. | .swi .. | .undefined .. | .ldc .. | .stc .. | .cdp .. | .mcr .. | .mrc .. | .reservedCond .. => []
  | .tLslImm _ rs _ | .tLsrImm _ rs _ | .tAsrImm _ rs _ | .tAddImm3 _ rs _ | .tSubImm3 _ rs _ | .tNeg rs _ | .tMvn rs _ => [lowReg rs]
  | .tAddReg rn rs _ | .tSubReg rn rs _ => [lowReg rs, lowReg rn]
  | .tMovImm .. => []
  | .tCmpImm rd _ | .tAddImm8 rd _ | .tSubImm8 rd _ => [lowReg rd]
  | .tAnd rs rd | .tEor rs rd | .tLsl rs rd | .tLsr rs rd | .tAsr rs rd | .tAdc rs rd | .tSbc rs rd | .tRor rs rd | .tTst rs rd
  | .tCmp rs rd | .tCmn rs rd | .tOrr rs rd | .tMul rs rd | .tBic rs rd => [lowReg rd, lowReg rs]
  | .tAddHi rs rd | .tCmpHi rs rd => [rd, rs]
  | .tMovHi rs _ | .tBx rs _ => [rs]
  | .tBxH1 .. | .tLdrPc .. | .tAddPc .. => []
  | .tLdrReg ro rb _ | .tLdrbReg ro rb _ | .tLdrhReg ro rb _ | .tLdsb ro rb _ | .tLdsh ro rb _ => [lowReg rb, lowReg ro]
  | .tStrReg ro rb rd | .tStrbReg ro rb rd | .tStrhReg ro rb rd => [lowReg rb, lowReg ro, lowReg rd]
  | .tLdrImm _ rb _ | .tLdrbImm _ rb _ | .tLdrhImm _ rb _ => [lowReg rb]
  | .tStrImm _ rb rd | .tStrbImm _ rb rd | .tStrhImm _ rb rd => [lowReg rb, lowReg rd]
  | .tStrSp rd _ => [13, lowReg rd]
  | .tLdrSp .. | .tAddSp .. | .tIncSp .. | .tDecSp .. | .tPush .. | .tPop .. => [13]
  | .tStmia rb _ | .tLdmia rb _ => [lowReg rb]
  | .tBCond0to7 .. | .tBCond8to11 .. | .tBCond12to13 .. | .tBCond14 .. | .tSwi .. | .tB .. | .tBlHigh .. => []
  | .tBlLow _ => [14]
  | .tUndefB1 .. | .tUndefB2 .. | .tUndefB6 .. | .tUndefB8 .. | .tUndefBE .. | .tUndefE8 .. => []

/-- The registers an STM reads from its bank to store them (R423): the listed ones but R15, and but the base where its written-back
value is stored (R426). -/
def blockStoredSlots (s : State) (sb wb : Bool) (rn : Reg) (list : BitVec 16) : List Slot :=
  let bm := blockBank s.cfg sb false list s.cpsr.m
  ((listedRegs list).filter
    (fun i => i != 15 && !(wb && firstListed list != some i && slotOf bm i == slotOf s.cpsr.m rn))).map (slotOf bm)
def storedSlots (i : Instr) (s : State) : List Slot :=
  match i with
  | .stmia _ sb w rn list | .stmib _ sb w rn list | .stmda _ sb w rn list | .stmdb _ sb w rn list => blockStoredSlots s sb w rn list
  | .tPush r rlist => blockStoredSlots s false true 13 (pushList r rlist)
  | .tStmia rb rlist => blockStoredSlots s false true (lowReg rb) (rlist.zeroExtend 16)
  | _ => []

/-- Every slot an instruction reads as an operand in a state. -/
def readSlots (i : Instr) (s : State) : List Slot := (operandRegs i).map (slotOf s.cpsr.m) ++ storedSlots i s

/-- The SPSR it reads: the current mode's, by MRS and MSR of the SPSR and by the returns. -/
def readsSpsr : Instr → Bool
  | .mrs _ p _ | .msrReg _ p _ _ | .msrImm _ p _ _ _ => p
  | i => isReturn i
def readSpsrs (i : Instr) (s : State) : List SpsrName := if readsSpsr i then (spsrOf s.cpsr.m).toList else []

/-- The instruction's condition, if it has one, passes. -/
def conditionHolds (i : Instr) (s : State) : Bool :=
  match armCond i with
  | some c => conditionPassed c s.cpsr
  | none => true

/-- The instruction runs and reads a register that nothing has written (R56). -/
def readsUnwritten (i : Instr) (s : State) : Bool :=
  conditionHolds i s && ((readSlots i s).any (fun q => !(s.cell q).written) || (readSpsrs i s).any (fun n => !(s.spsr.get n).written))

end Sys2Proof.Machine
end

