-- ==== Sys2Proof/Safety.lean ====
section
/-! DEFINITION. What a safe run is, and the invariant that every step keeps. -/

namespace Sys2Proof.Machine

/-- R54: the stored pc is a multiple of 4 in ARM state and of 2 in Thumb state. -/
def State.pcAligned (s : State) : Bool := alignTarget s.cpsr.t s.pc == s.pc

/-- The invariant: memory is in its canonical form, the stored pc is aligned (R54) and has been written (R59). -/
def State.inv (s : State) : Bool := s.mem.wf && s.pcAligned && (s.cell 15).written

/-- Whether address `b` is one of the `n` bytes from `a` upwards, addresses modulo 2^32 (R84). -/
def inBytes (a : Word) (n : Nat) (b : Word) : Bool := decide ((b - a).toNat < n)

/-- A run as R211 ends it: after at most `fuel` steps, at a fault, or between steps when the stored pc is `stop`. -/
def runUntil (stop : Word) : Nat → State → Host.Outcome State Fault Refusal
  | 0, s => .next s
  | fuel + 1, s =>
    if s.pc = stop then .next s
    else
      match step s with
      | .next t => runUntil stop fuel t
      | .fault f => .fault f
      | .refused r => .refused r

/-- The outcome is a next state: neither a fault nor a refusal. -/
def Completes : Host.Outcome State Fault Refusal → Prop
  | .next _ => True
  | .fault _ => False
  | .refused _ => False

/-- R684: a program writes each register before it reads it, so that no step of the run reads one that nothing has written. -/
def WritesBeforeReads (stop : Word) (s : State) : Prop :=
  ∀ fuel t, runUntil stop fuel s = .next t → t.pc ≠ stop → readsUnwritten (fetchCode t).decode t = false

/-- A run is safe when no step of it faults or refuses (R211: `Fatal` is never a good end), and none would by R56. -/
def SafeRun (stop : Word) (s : State) : Prop := (∀ fuel, Completes (runUntil stop fuel s)) ∧ WritesBeforeReads stop s

end Sys2Proof.Machine
end

