-- ==== Sys2Proof/Certificates/Slice0/Vocabulary.lean ====
section
/-! DEFINITION. The words the statements are written in: an operand's value, a next state's parts, and each
instruction's footprint (the registers, flags, status bits and memory bytes the spec lets it write). -/

namespace Sys2Proof.Claims

open Sys2Proof.Machine

/-! ## Operands -/

/-- The register's stored value through the current bank (R39). -/
def reg (n : Reg) (s : State) : Word := (s.cell (slotOf s.cpsr.m n)).value

/-- `x[n]` (R204). -/
def x (n : Reg) (s : State) : Word := if n = 15 then s.pc + (if s.cpsr.t then 4#32 else 8#32) else reg n s

/-- `x[n]` where R15 reads pc + 12 (R205). -/
def xPc12 (n : Reg) (s : State) : Word := if n = 15 then s.pc + 12#32 else reg n s

/-- The slot of a low register, the same in every mode (R31). -/
def lo (r : LowReg) : Slot := r.castLE (by decide)
def low (r : LowReg) (s : State) : Word := (s.cell (lo r)).value

/-- When operand2 answers: no shift by R15 (R256). -/
def Op2Ready : Operand2 → Prop
  | .imm .. => True
  | .regImm .. => True
  | .regReg _ _ rs => rs ≠ 15

/-- The second operand and its shifter carry (R254 to R256). -/
def op2 : Operand2 → State → Shifted
  | .imm rotate imm8, s => shift s.cpsr.c (imm8.zeroExtend 32) (2 * rotate.toNat) .ror
  | .regImm rm type amount, s => shiftImm s.cfg s.cpsr.c (x rm s) amount.toNat type
  | .regReg rm type rs, s => shift s.cpsr.c (xPc12 rm s) ((reg rs s).toNat % 256) type

/-- The first operand beside it (R280). -/
def op1 (rn : Reg) : Operand2 → State → Word
  | .imm .., s => x rn s
  | .regImm .., s => x rn s
  | .regReg .., s => xPc12 rn s

/-! ## Parts of a next state -/

/-- N, Z and C set, V kept (R260). -/
def nzc (c : Cpsr) (r : Word) (carry : Bool) : Cpsr := { c with n := r.getLsbD 31, z := decide (r = 0#32), c := carry }

/-- N, Z, C and V set (R261). -/
def nzcv (c : Cpsr) (r : AluResult) : Cpsr :=
  { c with n := r.value.getLsbD 31, z := decide (r.value = 0#32), c := r.c, v := r.v }

/-- A branch target as the stored pc takes it (R207). -/
def jump (t : Bool) (a : Word) : Word := if t then a &&& 0xFFFFFFFE#32 else a &&& 0xFFFFFFFC#32

/-- The next state of an instruction that only advances the pc by `len`. -/
def advance (s : State) (len : Word) : State := s.setSlot 15 (s.pc + len)

/-- The next state of an instruction that writes register d: R15 branches in the current instruction set (R206, R207). -/
def afterWrite (s : State) (d : Reg) (v : Word) (len : Word) : State :=
  if d = 15 then s.setSlot 15 (jump s.cpsr.t v) else (s.setSlot (slotOf s.cpsr.m d) v).setSlot 15 (s.pc + len)

/-- The next state of a Thumb instruction that writes a low register and the status. -/
def afterLow (s : State) (c : Cpsr) (rd : LowReg) (v : Word) : State := ((s.setCpsr c).setSlot (lo rd) v).setSlot 15 (s.pc + 2#32)

/-- The word `LoadWord` gives (R87, R88). -/
def wordAt (a : Word) (s : State) : Word :=
  match s.cfg.misaligned with
  | .byteExact => s.mem.read32 a
  | .arm7tdmi => (s.mem.read32 (a &&& 0xFFFFFFFC#32)).rotateRight (8 * (a.toNat % 4))

/-- Where `StoreWord` puts its four bytes (R87, R88). -/
def wordStoreAt (cfg : Config) (a : Word) : Word :=
  match cfg.misaligned with
  | .byteExact => a
  | .arm7tdmi => a &&& 0xFFFFFFFC#32

/-- A halfword access at `a` does not raise `MisalignedHalfword` (R88). -/
def HalfReady (a : Word) (s : State) : Prop := s.cfg.misaligned = .byteExact ∨ a.getLsbD 0 = false

/-- A store changes no byte outside the `n` bytes from `a`. -/
def OnlyBytes (s t : State) (a : Word) (n : Nat) : Prop := ∀ b, inBytes a n b = false → t.mem.read8 b = s.mem.read8 b

/-! ## Transfers -/

/-- The offset of a single transfer (R370). -/
def offset : TransferOffset → State → Word
  | .imm imm12, _ => imm12.zeroExtend 32
  | .reg rm type amount, s => (shiftImm s.cfg s.cpsr.c (x rm s) amount.toNat type).value
def offsetRegIsPc : TransferOffset → Prop
  | .imm _ => False
  | .reg rm _ _ => rm = 15

/-- The same of a halfword transfer (R390). -/
def halfOff : HalfOffset → State → Word
  | .imm imm8, _ => imm8.zeroExtend 32
  | .reg _ rm, s => x rm s
def halfRegIsPc : HalfOffset → Prop
  | .imm _ => False
  | .reg _ rm => rm = 15

/-- The base with the offset applied (R371). -/
def effective (u : Bool) (rn : Reg) (off : Word) (s : State) : Word := if u then x rn s + off else x rn s - off

/-- The address of the access: pre-indexed or post-indexed (R371). -/
def address (p u : Bool) (rn : Reg) (off : Word) (s : State) : Word := if p then effective u rn off s else x rn s

/-- The write-back of the base, when there is one. -/
def withBase (b : Bool) (rn : Reg) (v : Word) (s : State) : State := if b then s.setSlot (slotOf s.cpsr.m rn) v else s

/-- A store's value (R205 b). -/
def storeValue (rd : Reg) (s : State) : Word := if rd = 15 then s.pc + 12#32 else reg rd s

/-! ## Block transfers -/

/-- Register i is in the list. -/
def Listed (list : BitVec 16) (i : Reg) : Prop := list.getLsbD i.val = true

/-- How many listed registers lie below i. -/
def rank (list : BitVec 16) (i : Reg) : Nat := (allRegs.filter (fun r => decide (r < i) && list.getLsbD r.val)).length

/-- How many registers are listed. -/
def popcount (list : BitVec 16) : Nat := (allRegs.filter (fun r => list.getLsbD r.val)).length

/-- The address of listed register i (R420), in closed form. -/
def blockAddress (cfg : Config) (p u : Bool) (base : Word) (list : BitVec 16) (i : Reg) : Word :=
  let a0 := base &&& 0xFFFFFFFC#32
  let j := BitVec.ofNat 32 (4 * rank list i)
  let k := BitVec.ofNat 32 (4 * popcount list)
  match cfg.blockOrder, p, u with
  | .listDirectional, false, true  => a0 + j
  | .listDirectional, true,  true  => a0 + j + 4#32
  | .listDirectional, false, false => a0 - j
  | .listDirectional, true,  false => a0 - j - 4#32
  | .lowestAtLowest,  false, true  => a0 + j
  | .lowestAtLowest,  true,  true  => a0 + 4#32 + j
  | .lowestAtLowest,  false, false => a0 - k + 4#32 + j
  | .lowestAtLowest,  true,  false => a0 - k + j

/-- The write-back value (R420). -/
def blockBase (u : Bool) (base : Word) (list : BitVec 16) : Word :=
  if u then base + BitVec.ofNat 32 (4 * popcount list) else base - BitVec.ofNat 32 (4 * popcount list)

/-- The bank of a load and of a store (R421). -/
def loadBank (cfg : Config) (s : Bool) (list : BitVec 16) (m : Mode) : Mode :=
  if s = true ∧ ¬ (list.getLsbD 15 = true ∧ cfg.ldmSPcBank = .currentBank) then .user else m
def storeBank (s : Bool) (m : Mode) : Mode := if s then .user else m

/-- The value STM stores for listed register i (R423, R426). -/
def blockValue (sb wb : Bool) (rn : Reg) (u : Bool) (list : BitVec 16) (i : Reg) (s : State) : Word :=
  if i = 15 then s.pc + 12#32
  else if wb = true ∧ rank list i ≠ 0 ∧ slotOf (storeBank sb s.cpsr.m) i = slotOf s.cpsr.m rn then blockBase u (x rn s) list
  else (s.cell (slotOf (storeBank sb s.cpsr.m) i)).value

/-! ## Classes of instructions -/

/-- A software interrupt. -/
def isSwi : Instr → Bool
  | .swi .. | .tSwi .. => true
  | _ => false

/-- An instruction that takes the undefined trap under `cfg.undefined = Trap` (R640). -/
def isUndefined : Instr → Bool
  | .undefined .. | .ldc .. | .stc .. | .cdp .. | .mcr .. | .mrc .. | .tBCond14 .. | .tUndefB1 .. | .tUndefB2 .. | .tUndefB6 ..
  | .tUndefB8 .. | .tUndefBE .. | .tUndefE8 .. => true
  | _ => false

/-- An MSR to the CPSR, and one to the SPSR, with its field mask. -/
def msrCpsrMask : Instr → Option (BitVec 4)
  | .msrReg _ false mask _ => some mask
  | .msrImm _ false mask _ _ => some mask
  | _ => none
def msrSpsrMask : Instr → Option (BitVec 4)
  | .msrReg _ true mask _ => some mask
  | .msrImm _ true mask _ _ => some mask
  | _ => none

/-- BX in either instruction set. -/
def isBx : Instr → Bool
  | .bx .. | .tBx .. => true
  | _ => false

/-- The instructions that write N and Z by themselves (R49). -/
def setsFlags : Instr → Bool
  | .and _ s _ rd _ | .eor _ s _ rd _ | .sub _ s _ rd _ | .rsb _ s _ rd _ | .add _ s _ rd _ | .adc _ s _ rd _ | .sbc _ s _ rd _
  | .rsc _ s _ rd _ | .orr _ s _ rd _ | .mov _ s _ rd _ | .bic _ s _ rd _ | .mvn _ s _ rd _ => s && rd != 15
  | .tst _ _ rd _ | .teq _ _ rd _ | .cmp _ _ rd _ | .cmn _ _ rd _ => rd != 15
  | .mul _ s rd _ _ _ | .mla _ s rd _ _ _ => s && rd != 15
  | .umull _ s hi lo _ _ | .umlal _ s hi lo _ _ | .smull _ s hi lo _ _ | .smlal _ s hi lo _ _ => s && hi != 15 && lo != 15
  | .tLslImm .. | .tLsrImm .. | .tAsrImm .. | .tAddReg .. | .tSubReg .. | .tAddImm3 .. | .tSubImm3 .. | .tMovImm .. | .tCmpImm ..
  | .tAddImm8 .. | .tSubImm8 .. | .tAnd .. | .tEor .. | .tLsl .. | .tLsr .. | .tAsr .. | .tAdc .. | .tSbc .. | .tRor .. | .tTst ..
  | .tNeg .. | .tCmp .. | .tCmn .. | .tOrr .. | .tMul .. | .tBic .. | .tMvn .. | .tCmpHi .. => true
  | _ => false

/-- The instructions among those that write V too (R260: the logical ones keep it; R341: MUL and MLA keep it). -/
def setsOverflow : Instr → Bool
  | .sub _ s _ rd _ | .rsb _ s _ rd _ | .add _ s _ rd _ | .adc _ s _ rd _ | .sbc _ s _ rd _ | .rsc _ s _ rd _ => s && rd != 15
  | .cmp _ _ rd _ | .cmn _ _ rd _ => rd != 15
  | .umull _ s hi lo _ _ | .umlal _ s hi lo _ _ | .smull _ s hi lo _ _ | .smlal _ s hi lo _ _ => s && hi != 15 && lo != 15
  | .tAddReg .. | .tSubReg .. | .tAddImm3 .. | .tSubImm3 .. | .tCmpImm .. | .tAddImm8 .. | .tSubImm8 .. | .tAdc .. | .tSbc ..
  | .tNeg .. | .tCmp .. | .tCmn .. | .tCmpHi .. => true
  | _ => false

/-! ## Footprints -/

/-- The slots of an LDM's listed registers, and of its base when written back. -/
def ldmSlots (s : State) (sb wb : Bool) (rn : Reg) (list : BitVec 16) : List Slot :=
  (listedRegs list).map (slotOf (loadBank s.cfg sb list s.cpsr.m)) ++ (if wb then [slotOf s.cpsr.m rn] else [])

/-- The slots, besides the pc's, that the spec lets the instruction write in a state. -/
def writtenSlots (i : Instr) (s : State) : List Slot :=
  let r := slotOf s.cpsr.m
  match i with
  | .and _ _ _ rd _ | .eor _ _ _ rd _ | .sub _ _ _ rd _ | .rsb _ _ _ rd _ | .add _ _ _ rd _ | .adc _ _ _ rd _ | .sbc _ _ _ rd _
  | .rsc _ _ _ rd _ | .orr _ _ _ rd _ | .mov _ _ _ rd _ | .bic _ _ _ rd _ | .mvn _ _ _ rd _ | .mrs _ _ rd => [r rd]
  | .tst .. | .teq .. | .cmp .. | .cmn .. | .psrSpaceNop .. | .msrReg .. | .msrImm .. => []
  | .mul _ _ rd _ _ _ | .mla _ _ rd _ _ _ => [r rd]
  | .umull _ _ hi lo _ _ | .umlal _ _ hi lo _ _ | .smull _ _ hi lo _ _ | .smlal _ _ hi lo _ _ => [r lo, r hi]
  | .ldrPre _ _ w rn rd _ | .ldrbPre _ _ w rn rd _ => r rd :: (if w then [r rn] else [])
  | .ldrPost _ _ rn rd _ | .ldrbPost _ _ rn rd _ | .ldrt _ _ rn rd _ | .ldrbt _ _ rn rd _ => [r rd, r rn]
  | .strPre _ _ w rn _ _ | .strbPre _ _ w rn _ _ => if w then [r rn] else []
  | .strPost _ _ rn _ _ | .strbPost _ _ rn _ _ | .strt _ _ rn _ _ | .strbt _ _ rn _ _ => [r rn]
  | .ldrh _ p _ w rn rd _ | .ldrsb _ p _ w rn rd _ | .ldrsh _ p _ w rn rd _ => r rd :: (if !p || w then [r rn] else [])
  | .strh _ p _ w rn _ _ => if !p || w then [r rn] else []
  | .signedStore .. | .halfSh00 .. => []
  | .swp _ _ rd _ _ | .swpb _ _ rd _ _ => [r rd]
  | .ldmia _ sb w rn list | .ldmib _ sb w rn list | .ldmda _ sb w rn list | .ldmdb _ sb w rn list => ldmSlots s sb w rn list
  | .stmia _ _ w rn _ | .stmib _ _ w rn _ | .stmda _ _ w rn _ | .stmdb _ _ w rn _ => if w then [r rn] else []
  | .bl .. => [r 14]
  | .b .. | .bx .. => []
  | .swi .. | .tSwi .. => [24]
  | .undefined .. | .ldc .. | .stc .. | .cdp .. | .mcr .. | .mrc .. | .tBCond14 .. | .tUndefB1 .. | .tUndefB2 .. | .tUndefB6 ..
  | .tUndefB8 .. | .tUndefBE .. | .tUndefE8 .. => [30]
  | .reservedCond .. => []
  | .tLslImm _ _ rd | .tLsrImm _ _ rd | .tAsrImm _ _ rd | .tAddReg _ _ rd | .tSubReg _ _ rd | .tAddImm3 _ _ rd | .tSubImm3 _ _ rd
  | .tMovImm rd _ | .tAddImm8 rd _ | .tSubImm8 rd _ | .tAnd _ rd | .tEor _ rd | .tLsl _ rd | .tLsr _ rd | .tAsr _ rd | .tAdc _ rd
  | .tSbc _ rd | .tRor _ rd | .tNeg _ rd | .tOrr _ rd | .tMul _ rd | .tBic _ rd | .tMvn _ rd => [lo rd]
  | .tCmpImm .. | .tTst .. | .tCmp .. | .tCmn .. | .tCmpHi .. | .tBx .. | .tBxH1 .. => []
  | .tAddHi _ rd | .tMovHi _ rd => [r rd]
  | .tLdrPc rd _ | .tLdrReg _ _ rd | .tLdrbReg _ _ rd | .tLdrhReg _ _ rd | .tLdsb _ _ rd | .tLdsh _ _ rd | .tLdrImm _ _ rd
  | .tLdrbImm _ _ rd | .tLdrhImm _ _ rd | .tLdrSp rd _ | .tAddPc rd _ | .tAddSp rd _ => [lo rd]
  | .tStrReg .. | .tStrbReg .. | .tStrhReg .. | .tStrImm .. | .tStrbImm .. | .tStrhImm .. | .tStrSp .. => []
  | .tIncSp _ | .tDecSp _ | .tPush .. => [r 13]
  | .tPop r' rlist => ldmSlots s false true 13 (popList r' rlist)
  | .tStmia rb _ => [lo rb]
  | .tLdmia rb rlist => ldmSlots s false true (lowReg rb) (rlist.zeroExtend 16)
  | .tBCond0to7 .. | .tBCond8to11 .. | .tBCond12to13 .. | .tB .. => []
  | .tBlHigh _ | .tBlLow _ => [r 14]

/-- The bytes (address and how many) that the spec lets the instruction store to in a state, the addresses by the functions the
meanings apply to the same state. -/
def storedBytes (i : Instr) (s : State) : List (Word × Nat) :=
  let word (a : Word) : List (Word × Nat) := [(storeWordAddress s.cfg a, 4)]
  let block (p u : Bool) (rn : Reg) (list : BitVec 16) : List (Word × Nat) :=
    (blockAddresses s.cfg p u (x rn s) list).map (fun q => (q.2, 4))
  match i with
  | .strPre _ u _ rn _ off => word (accessAddress true (x rn s) (offsetBase u (x rn s) (offset off s)))
  | .strPost _ u rn _ off | .strt _ u rn _ off => word (accessAddress false (x rn s) (offsetBase u (x rn s) (offset off s)))
  | .strbPre _ u _ rn _ off => [(accessAddress true (x rn s) (offsetBase u (x rn s) (offset off s)), 1)]
  | .strbPost _ u rn _ off | .strbt _ u rn _ off => [(accessAddress false (x rn s) (offsetBase u (x rn s) (offset off s)), 1)]
  | .strh _ p u _ rn _ off => [(accessAddress p (x rn s) (offsetBase u (x rn s) (halfOff off s)), 2)]
  | .swp _ rn _ _ _ => word (x rn s)
  | .swpb _ rn _ _ _ => [(x rn s, 1)]
  | .stmia _ _ _ rn list => block false true rn list
  | .stmib _ _ _ rn list => block true true rn list
  | .stmda _ _ _ rn list => block false false rn list
  | .stmdb _ _ _ rn list => block true false rn list
  | .tStrReg ro rb _ => word (low rb s + low ro s)
  | .tStrbReg ro rb _ => [(low rb s + low ro s, 1)]
  | .tStrhReg ro rb _ => [(low rb s + low ro s, 2)]
  | .tStrImm off rb _ => word (low rb s + (off ++ 0b00#2).zeroExtend 32)
  | .tStrbImm off rb _ => [(low rb s + off.zeroExtend 32, 1)]
  | .tStrhImm off rb _ => [(low rb s + (off ++ 0b0#1).zeroExtend 32, 2)]
  | .tStrSp _ word8 => word (reg 13 s + (word8 ++ 0b00#2).zeroExtend 32)
  | .tPush r rlist => block true false 13 (pushList r rlist)
  | .tStmia rb rlist => block false true (lowReg rb) (rlist.zeroExtend 16)
  | _ => []

/-! ## Two states -/

/-- The states agree on everything an instruction reads (R56): the configuration, the status, memory, the pc, and the values of the slots
and SPSRs it takes an operand from. -/
def AgreeOnReads (i : Instr) (s s' : State) : Prop :=
  s'.cfg = s.cfg ∧ s'.cpsr = s.cpsr ∧ s'.mem = s.mem ∧ s'.pc = s.pc ∧
    (∀ q ∈ readSlots i s, (s'.cell q).value = (s.cell q).value) ∧
    (∀ n ∈ readSpsrs i s, (s'.spsr.get n).value = (s.spsr.get n).value)

/-- The same cell after both runs, or each run kept its own. -/
def SameOrKept (c c' d d' : RegCell) : Prop := d' = d ∨ (d = c ∧ d' = c')

/-- The outcomes agree, from states s and s', on everything either run has written. -/
def SameOutcome (s s' : State) : Host.Outcome State Fault Refusal → Host.Outcome State Fault Refusal → Prop
  | .next t, .next t' =>
    t'.cfg = t.cfg ∧ t'.cpsr = t.cpsr ∧ t'.mem = t.mem ∧ t'.pc = t.pc ∧
      (∀ q, SameOrKept (s.cell q) (s'.cell q) (t.cell q) (t'.cell q)) ∧
      (∀ n, SameOrKept (s.spsr.get n) (s'.spsr.get n) (t.spsr.get n) (t'.spsr.get n))
  | .fault f, .fault f' => f' = f
  | .refused r, .refused r' => r' = r
  | _, _ => False

end Sys2Proof.Claims
end

