-- ==== Sys2Proof/Certificates/Slice0/Obligations.lean ====
section
/-! DEFINITION. The statements for the provers.  A result statement is an equation `exec i s = .next …` or names the next state and
every part of it: the instruction completes, and everything the equation does not change is its frame. -/

open Sys2Proof Sys2Proof.Machine Sys2Proof.Claims

/-! ## Decoding and the step -/

/-- Words written from the spec's encodings decode to their instructions: the five decode examples of R148 and one word of most families. -/
def Obligations.SpecWordsDecode : Prop :=
  decodeArm 0x012FFF10#32 = .bx .eq 0 ∧
  decodeArm 0x00000090#32 = .mul .eq false 0 0 0 0 ∧
  decodeArm 0x00800090#32 = .umull .eq false 0 0 0 0 ∧
  decodeArm 0x0F000000#32 = .swi .eq 0#24 ∧
  decodeArm 0x06000010#32 = .undefined .eq 0#20 0#4 ∧
  decodeArm 0xE0B10002#32 = .adc .al true 1 0 (.regImm 2 .lsl 0#5) ∧
  decodeArm 0xE4910004#32 = .ldrPost .al true 1 0 (.imm 4#12) ∧
  decodeArm 0xE1D100F2#32 = .ldrsh .al true true false 1 0 (.imm 2#8) ∧
  decodeArm 0xE8FDC000#32 = .ldmia .al true true 13 0xC000#16 ∧
  decodeArm 0xE1010092#32 = .swp .al 1 0 0#4 2 ∧
  decodeArm 0xE14F0000#32 = .mrs .al true 0 ∧
  decodeArm 0xF3A00001#32 = .reservedCond 0x3A00001#28 ∧
  decodeThumb 0x1A88#16 = .tSubReg 2 1 0 ∧
  decodeThumb 0x4448#16 = .tAddHi 9 0 ∧
  decodeThumb 0x5A88#16 = .tLdrhReg 2 1 0 ∧
  decodeThumb 0xBD01#16 = .tPop true 1#8 ∧
  decodeThumb 0xDE00#16 = .tBCond14 0#8 ∧
  decodeThumb 0xF7FF#16 = .tBlHigh 0x7FF#11

/-- Decoding the code of a well-formed instruction gives it back, for every instruction and every operand value. -/
def Obligations.DecodeOfEncode : Prop := ∀ i : Instr, i.wf = true → (encode i).decode = i

/-- Every word and every halfword is the code of exactly the instruction it decodes to, and that instruction is well-formed. -/
def Obligations.EncodeOfDecode : Prop := ∀ code : Code, code.decode.wf = true ∧ encode code.decode = code

/-- A step runs the instruction that the bytes at the stored pc decode to; the step itself adds nothing around `exec`. -/
def Obligations.StepRunsDecoded : Prop :=
  ∀ (s : State) (i : Instr) (rest : List Byte),
    decodeBytes s.cpsr.t [s.mem.read8 s.pc, s.mem.read8 (s.pc + 1#32), s.mem.read8 (s.pc + 2#32), s.mem.read8 (s.pc + 3#32)]
      = .ok (i, rest) →
    step s = exec i s

/-- R202: the reserved condition stops before any test; a failing condition skips every ARM category, whatever it would raise, and the
pc advances by 4. -/
def Obligations.FailingConditionSkips : Prop :=
  (∀ (x28 : BitVec 28) (s : State), exec (.reservedCond x28) s = .fault .reservedCondition) ∧
  ∀ (i : Instr) (c : Cond) (s : State), armCond i = some c → conditionPassed c s.cpsr = false → exec i s = .next (advance s 4#32)

/-- R240: the condition table. -/
def Obligations.ConditionTable : Prop :=
  ∀ f : Cpsr,
    (conditionPassed .eq f = true ↔ f.z = true) ∧ (conditionPassed .ne f = true ↔ f.z = false) ∧
    (conditionPassed .cs f = true ↔ f.c = true) ∧ (conditionPassed .cc f = true ↔ f.c = false) ∧
    (conditionPassed .mi f = true ↔ f.n = true) ∧ (conditionPassed .pl f = true ↔ f.n = false) ∧
    (conditionPassed .vs f = true ↔ f.v = true) ∧ (conditionPassed .vc f = true ↔ f.v = false) ∧
    (conditionPassed .hi f = true ↔ f.c = true ∧ f.z = false) ∧ (conditionPassed .ls f = true ↔ f.c = false ∨ f.z = true) ∧
    (conditionPassed .ge f = true ↔ f.n = f.v) ∧ (conditionPassed .lt f = true ↔ f.n ≠ f.v) ∧
    (conditionPassed .gt f = true ↔ f.z = false ∧ f.n = f.v) ∧ (conditionPassed .le f = true ↔ f.z = true ∨ f.n ≠ f.v) ∧
    conditionPassed .al f = true

/-! ## The shifter and the adder -/

/-- R250 to R253: amount 0 changes nothing and gives C; amounts 1 to 31, the result bit by bit and the carry the last bit shifted out;
amounts from 32. -/
def Obligations.ShifterResult : Prop :=
  (∀ (cin : Bool) (v : Word) (type : ShiftType), shift cin v 0 type = ⟨v, cin⟩) ∧
  (∀ (cin : Bool) (v : Word) (n : Nat), 32 ≤ n →
    shift cin v n .lsl = ⟨0#32, if n = 32 then v.getLsbD 0 else false⟩ ∧
    shift cin v n .lsr = ⟨0#32, if n = 32 then v.getLsbD 31 else false⟩ ∧
    shift cin v n .asr = ⟨if v.getLsbD 31 then 0xFFFFFFFF#32 else 0#32, v.getLsbD 31⟩ ∧
    shift cin v n .ror = if n % 32 = 0 then ⟨v, v.getLsbD 31⟩ else shift cin v (n % 32) .ror) ∧
  ∀ (cin : Bool) (v : Word) (n : Nat), 1 ≤ n → n ≤ 31 →
    ((∀ k, k < 32 → (shift cin v n .lsl).value.getLsbD k = (decide (n ≤ k) && v.getLsbD (k - n))) ∧
      (shift cin v n .lsl).carry = v.getLsbD (32 - n)) ∧
    ((∀ k, k < 32 → (shift cin v n .lsr).value.getLsbD k = v.getLsbD (k + n)) ∧ (shift cin v n .lsr).carry = v.getLsbD (n - 1)) ∧
    ((∀ k, k < 32 → (shift cin v n .asr).value.getLsbD k = if k + n < 32 then v.getLsbD (k + n) else v.getLsbD 31) ∧
      (shift cin v n .asr).carry = v.getLsbD (n - 1)) ∧
    ((∀ k, k < 32 → (shift cin v n .ror).value.getLsbD k = v.getLsbD ((k + n) % 32)) ∧
      (shift cin v n .ror).carry = v.getLsbD (n - 1))

/-- R254, R255, R257: the rotated immediate, and an immediate amount of 0 under both settings of `cfg.imm_shift_zero`. -/
def Obligations.ImmediateOperandForms : Prop :=
  (∀ (cin : Bool) (rotate : BitVec 4) (imm8 : BitVec 8),
    (rotatedImm cin rotate imm8).value = (imm8.zeroExtend 32).rotateRight (2 * rotate.toNat) ∧
    (rotatedImm cin rotate imm8).carry = if rotate = 0#4 then cin else (rotatedImm cin rotate imm8).value.getLsbD 31) ∧
  (∀ (cfg : Config) (cin : Bool) (v : Word) (n : Nat) (type : ShiftType), n ≠ 0 → shiftImm cfg cin v n type = shift cin v n type) ∧
  (∀ (cfg : Config) (cin : Bool) (v : Word) (type : ShiftType), cfg.immShiftZero = .literal → shiftImm cfg cin v 0 type = ⟨v, cin⟩) ∧
  (∀ (cfg : Config) (cin : Bool) (v : Word), cfg.immShiftZero = .arm →
    shiftImm cfg cin v 0 .lsl = ⟨v, cin⟩ ∧ shiftImm cfg cin v 0 .lsr = ⟨0#32, v.getLsbD 31⟩ ∧
    shiftImm cfg cin v 0 .asr = ⟨if v.getLsbD 31 then 0xFFFFFFFF#32 else 0#32, v.getLsbD 31⟩ ∧
    (shiftImm cfg cin v 0 .ror).carry = v.getLsbD 0 ∧
    ∀ k, k < 32 → (shiftImm cfg cin v 0 .ror).value.getLsbD k = if k = 31 then cin else v.getLsbD (k + 1))

/-- R263, R264, R265: the adder's result wraps, C is the carry out of the exact sum or the borrow by `cfg.sub_carry`, and V is set exactly
when the exact signed result lies outside the signed range. -/
def Obligations.AdderFlagsExact : Prop :=
  (∀ (a b : Word) (cin : Bool),
    (addWithCarry a b cin).value = a + b + (if cin then 1#32 else 0#32) ∧
    ((addWithCarry a b cin).c = true ↔ 2 ^ 32 ≤ a.toNat + b.toNat + cin.toNat) ∧
    ((addWithCarry a b cin).v = true ↔
      a.toInt + b.toInt + (cin.toNat : Int) < -(2 ^ 31) ∨ 2 ^ 31 - 1 < a.toInt + b.toInt + (cin.toNat : Int))) ∧
  (∀ (cfg : Config) (a b : Word) (bin : Bool),
    (subWithBorrow cfg a b bin).value = a - b - (if bin then 1#32 else 0#32) ∧
    ((subWithBorrow cfg a b bin).c = true ↔
      if cfg.subCarry = .borrow then a.toNat < b.toNat + bin.toNat else b.toNat + bin.toNat ≤ a.toNat) ∧
    ((subWithBorrow cfg a b bin).v = true ↔
      a.toInt - b.toInt - (bin.toNat : Int) < -(2 ^ 31) ∨ 2 ^ 31 - 1 < a.toInt - b.toInt - (bin.toNat : Int)))

/-! ## ARM data processing -/

/-- A logical opcode with Rd below 15: Rd takes the result; with S = 1 N, Z and C are set, V kept; nothing else changes. -/
def Sys2Proof.Claims.LogicalOpcode (mk : Cond → Bool → Reg → Reg → Operand2 → Instr) (f : Word → Word → Word) : Prop :=
  ∀ (c : Cond) (sf : Bool) (rn rd : Reg) (o : Operand2) (s : State),
    conditionPassed c s.cpsr = true → rd ≠ 15 → Op2Ready o →
    exec (mk c sf rn rd o) s = .next
      (((s.setCpsr (if sf then nzc s.cpsr (f (op1 rn o s) (op2 o s).value) (op2 o s).carry else s.cpsr)).setSlot
        (slotOf s.cpsr.m rd) (f (op1 rn o s) (op2 o s).value)).setSlot 15 (s.pc + 4#32))

/-- R282, R283, R294, R296. -/
def Obligations.LogicalOpcodesResult : Prop :=
  LogicalOpcode .and (fun a b => a &&& b) ∧ LogicalOpcode .eor (fun a b => a ^^^ b) ∧ LogicalOpcode .orr (fun a b => a ||| b) ∧
  LogicalOpcode .bic (fun a b => a &&& ~~~b)

/-- A move with Rd below 15; its Rn field is not read. -/
def Sys2Proof.Claims.MoveOpcode (mk : Cond → Bool → Reg → Reg → Operand2 → Instr) (f : Word → Word) : Prop :=
  ∀ (c : Cond) (sf : Bool) (sbz rd : Reg) (o : Operand2) (s : State),
    conditionPassed c s.cpsr = true → rd ≠ 15 → Op2Ready o →
    exec (mk c sf sbz rd o) s = .next
      (((s.setCpsr (if sf then nzc s.cpsr (f (op2 o s).value) (op2 o s).carry else s.cpsr)).setSlot
        (slotOf s.cpsr.m rd) (f (op2 o s).value)).setSlot 15 (s.pc + 4#32))

/-- R295, R297. -/
def Obligations.MoveOpcodesResult : Prop := MoveOpcode .mov (fun b => b) ∧ MoveOpcode .mvn (fun b => ~~~b)

/-- An arithmetic opcode with Rd below 15. -/
def Sys2Proof.Claims.ArithmeticOpcode (mk : Cond → Bool → Reg → Reg → Operand2 → Instr) (f : Config → Word → Word → Bool → AluResult) :
    Prop :=
  ∀ (c : Cond) (sf : Bool) (rn rd : Reg) (o : Operand2) (s : State),
    conditionPassed c s.cpsr = true → rd ≠ 15 → Op2Ready o →
    exec (mk c sf rn rd o) s = .next
      (((s.setCpsr (if sf then nzcv s.cpsr (f s.cfg (op1 rn o s) (op2 o s).value s.cpsr.c) else s.cpsr)).setSlot
        (slotOf s.cpsr.m rd) (f s.cfg (op1 rn o s) (op2 o s).value s.cpsr.c).value).setSlot 15 (s.pc + 4#32))

/-- R284 to R289: which adder, which operand order and which carry-in each opcode uses. -/
def Obligations.ArithmeticOpcodesResult : Prop :=
  ArithmeticOpcode .sub (fun cfg a b _ => subWithBorrow cfg a b false) ∧
  ArithmeticOpcode .rsb (fun cfg a b _ => subWithBorrow cfg b a false) ∧
  ArithmeticOpcode .add (fun _ a b _ => addWithCarry a b false) ∧
  ArithmeticOpcode .adc (fun _ a b c => addWithCarry a b c) ∧
  ArithmeticOpcode .sbc (fun cfg a b c => subWithBorrow cfg a b (!c)) ∧
  ArithmeticOpcode .rsc (fun cfg a b c => subWithBorrow cfg b a (!c))

/-- A writing opcode with Rd = 15: a branch to the result (R298); with S = 1 the return from an exception, which in User and System
mode restores nothing (R299, R635, R636). -/
def Sys2Proof.Claims.WritesPc (mk : Bool → Instr) (r : Word) (s : State) : Prop :=
  exec (mk false) s = .next (s.setSlot 15 (jump s.cpsr.t r)) ∧
  (spsrOf s.cpsr.m = none → exec (mk true) s = .next (s.setSlot 15 (jump s.cpsr.t r))) ∧
  (∀ n, spsrOf s.cpsr.m = some n →
    (∀ saved, Cpsr.unpack (s.spsr.get n).value = .ok saved →
      exec (mk true) s = .next ((s.setCpsr saved).setSlot 15 (jump saved.t r))) ∧
    (modeOf ((s.spsr.get n).value.extractLsb' 0 5) = none → exec (mk true) s = .fault .invalidMode))

/-- R298, R299, R635, R636 for the twelve writing opcodes. -/
def Obligations.DataProcessingToPc : Prop :=
  ∀ (c : Cond) (rn : Reg) (o : Operand2) (s : State), conditionPassed c s.cpsr = true → Op2Ready o →
    WritesPc (fun sf => .and c sf rn 15 o) (op1 rn o s &&& (op2 o s).value) s ∧
    WritesPc (fun sf => .eor c sf rn 15 o) (op1 rn o s ^^^ (op2 o s).value) s ∧
    WritesPc (fun sf => .orr c sf rn 15 o) (op1 rn o s ||| (op2 o s).value) s ∧
    WritesPc (fun sf => .bic c sf rn 15 o) (op1 rn o s &&& ~~~(op2 o s).value) s ∧
    WritesPc (fun sf => .sub c sf rn 15 o) (op1 rn o s - (op2 o s).value) s ∧
    WritesPc (fun sf => .rsb c sf rn 15 o) ((op2 o s).value - op1 rn o s) s ∧
    WritesPc (fun sf => .add c sf rn 15 o) (op1 rn o s + (op2 o s).value) s ∧
    WritesPc (fun sf => .adc c sf rn 15 o) (op1 rn o s + (op2 o s).value + (if s.cpsr.c then 1#32 else 0#32)) s ∧
    WritesPc (fun sf => .sbc c sf rn 15 o) (op1 rn o s - (op2 o s).value - (if s.cpsr.c then 0#32 else 1#32)) s ∧
    WritesPc (fun sf => .rsc c sf rn 15 o) ((op2 o s).value - op1 rn o s - (if s.cpsr.c then 0#32 else 1#32)) s ∧
    WritesPc (fun sf => .mov c sf rn 15 o) (op2 o s).value s ∧
    WritesPc (fun sf => .mvn c sf rn 15 o) (~~~(op2 o s).value) s

/-- R290 to R293, R300: a test sets its flags and writes no register; with Rd = 15 it sets none. -/
def Obligations.TestOpcodesResult : Prop :=
  ∀ (c : Cond) (rn rd : Reg) (o : Operand2) (s : State),
    conditionPassed c s.cpsr = true → Op2Ready o →
    let after (f : Cpsr) : State := advance (s.setCpsr (if rd = 15 then s.cpsr else f)) 4#32
    exec (.tst c rn rd o) s = .next (after (nzc s.cpsr (op1 rn o s &&& (op2 o s).value) (op2 o s).carry)) ∧
    exec (.teq c rn rd o) s = .next (after (nzc s.cpsr (op1 rn o s ^^^ (op2 o s).value) (op2 o s).carry)) ∧
    exec (.cmp c rn rd o) s = .next (after (nzcv s.cpsr (subWithBorrow s.cfg (op1 rn o s) (op2 o s).value false))) ∧
    exec (.cmn c rn rd o) s = .next (after (nzcv s.cpsr (addWithCarry (op1 rn o s) (op2 o s).value false)))

/-- R305: a test opcode with S = 0 is a no-op apart from its register reads. -/
def Obligations.TestWithoutFlagsIsNoOp : Prop :=
  ∀ (c : Cond) (op : TestOp) (rn rd : Reg) (o : Operand2) (s : State), conditionPassed c s.cpsr = true → Op2Ready o →
    exec (.psrSpaceNop c op rn rd o) s = .next (advance s 4#32)

/-- R256: a shift by R15 stops every opcode with `ShiftByPc`, a test with S = 0 (R305) too. -/
def Obligations.ShiftByPcStops : Prop :=
  ∀ (c : Cond) (sf : Bool) (op : TestOp) (rn rd rm : Reg) (type : ShiftType) (s : State), conditionPassed c s.cpsr = true →
    ∀ i ∈ [Instr.and c sf rn rd (.regReg rm type 15), .eor c sf rn rd (.regReg rm type 15), .sub c sf rn rd (.regReg rm type 15),
        .rsb c sf rn rd (.regReg rm type 15), .add c sf rn rd (.regReg rm type 15), .adc c sf rn rd (.regReg rm type 15),
        .sbc c sf rn rd (.regReg rm type 15), .rsc c sf rn rd (.regReg rm type 15), .tst c rn rd (.regReg rm type 15),
        .teq c rn rd (.regReg rm type 15), .cmp c rn rd (.regReg rm type 15), .cmn c rn rd (.regReg rm type 15),
        .orr c sf rn rd (.regReg rm type 15), .mov c sf rn rd (.regReg rm type 15), .bic c sf rn rd (.regReg rm type 15),
        .mvn c sf rn rd (.regReg rm type 15), .psrSpaceNop c op rn rd (.regReg rm type 15)],
      exec i s = .fault (.unpredictable .shiftByPc)

/-! ## PSR transfer -/

/-- R45 and R44: `pack` places the fields of the CPSR, bits 27:8 read 0, and `unpack` undoes it. -/
def Obligations.PackUnpack : Prop :=
  ∀ c : Cpsr,
    c.pack.getLsbD 31 = c.n ∧ c.pack.getLsbD 30 = c.z ∧ c.pack.getLsbD 29 = c.c ∧ c.pack.getLsbD 28 = c.v ∧
    (∀ k, 8 ≤ k → k ≤ 27 → c.pack.getLsbD k = false) ∧
    c.pack.getLsbD 7 = c.i ∧ c.pack.getLsbD 6 = c.f ∧ c.pack.getLsbD 5 = c.t ∧ c.pack.extractLsb' 0 5 = modeBits c.m ∧
    Cpsr.unpack c.pack = .ok c ∧
    (∀ w : Word, w &&& 0xF00000FF#32 = c.pack → Cpsr.unpack w = .ok c)

/-- R310, R641: under `cfg.psr_transfer = Fatal` MRS and MSR stop, whatever `cfg.undefined` is; R311: MRS of the CPSR and of the SPSR,
and where it stops. -/
def Obligations.MrsResult : Prop :=
  (∀ (c : Cond) (p : Bool) (rd rm : Reg) (mask rotate : BitVec 4) (imm8 : BitVec 8) (s : State),
    conditionPassed c s.cpsr = true → s.cfg.psrTransfer = .fatal →
    exec (.mrs c p rd) s = .fault (.unimplemented .psrTransfer) ∧
    exec (.msrReg c p mask rm) s = .fault (.unimplemented .psrTransfer) ∧
    exec (.msrImm c p mask rotate imm8) s = .fault (.unimplemented .psrTransfer)) ∧
  ∀ (c : Cond) (rd : Reg) (s : State), conditionPassed c s.cpsr = true → s.cfg.psrTransfer = .implemented →
    (rd ≠ 15 → exec (.mrs c false rd) s = .next ((s.setSlot (slotOf s.cpsr.m rd) s.cpsr.pack).setSlot 15 (s.pc + 4#32))) ∧
    (rd ≠ 15 → ∀ n, spsrOf s.cpsr.m = some n →
      exec (.mrs c true rd) s = .next ((s.setSlot (slotOf s.cpsr.m rd) (s.spsr.get n).value).setSlot 15 (s.pc + 4#32))) ∧
    (rd ≠ 15 → spsrOf s.cpsr.m = none → exec (.mrs c true rd) s = .fault (.unpredictable .noSpsr)) ∧
    (∀ p, exec (.mrs c p 15) s = .fault (.unpredictable .psrToPc))

/-- MSR to the CPSR with operand `op` (R320, R321, R322). -/
def Sys2Proof.Claims.MsrCpsr (i : Instr) (mask : BitVec 4) (op : Word) (s : State) : Prop :=
  let flags (c : Cpsr) : Cpsr :=
    if mask.getLsbD 3 then { c with n := op.getLsbD 31, z := op.getLsbD 30, c := op.getLsbD 29, v := op.getLsbD 28 } else c
  ((s.cpsr.m = .user ∨ mask.getLsbD 0 = false) → exec i s = .next (advance (s.setCpsr (flags s.cpsr)) 4#32)) ∧
  (s.cpsr.m ≠ .user → mask.getLsbD 0 = true → op.getLsbD 5 = s.cpsr.t → ∀ m, modeOf (op.extractLsb' 0 5) = some m →
    exec i s = .next (advance (s.setCpsr { flags s.cpsr with i := op.getLsbD 7, f := op.getLsbD 6, m := m }) 4#32)) ∧
  (s.cpsr.m ≠ .user → mask.getLsbD 0 = true → op.getLsbD 5 ≠ s.cpsr.t → exec i s = .fault (.unpredictable .msrChangesT)) ∧
  (s.cpsr.m ≠ .user → mask.getLsbD 0 = true → op.getLsbD 5 = s.cpsr.t → modeOf (op.extractLsb' 0 5) = none →
    exec i s = .fault .invalidMode)

/-- MSR to the SPSR with operand `op` (R323): byte k of the SPSR is replaced exactly when mask bit k is set. -/
def Sys2Proof.Claims.MsrSpsr (i : Instr) (mask : BitVec 4) (op : Word) (s : State) : Prop :=
  (∀ n, spsrOf s.cpsr.m = some n →
    ∃ v, exec i s = .next (advance (s.setSpsr n v) 4#32) ∧
      ∀ k, k < 4 → v.extractLsb' (8 * k) 8 = if mask.getLsbD k then op.extractLsb' (8 * k) 8 else (s.spsr.get n).value.extractLsb' (8 * k) 8) ∧
  (spsrOf s.cpsr.m = none → exec i s = .fault (.unpredictable .noSpsr))

/-- R320 to R324, both forms, to the CPSR and to the SPSR. -/
def Obligations.MsrResult : Prop :=
  ∀ (c : Cond) (mask : BitVec 4) (s : State), conditionPassed c s.cpsr = true → s.cfg.psrTransfer = .implemented →
    (∀ rm : Reg, rm ≠ 15 →
      MsrCpsr (.msrReg c false mask rm) mask (reg rm s) s ∧ MsrSpsr (.msrReg c true mask rm) mask (reg rm s) s) ∧
    (∀ (rotate : BitVec 4) (imm8 : BitVec 8),
      MsrCpsr (.msrImm c false mask rotate imm8) mask ((imm8.zeroExtend 32).rotateRight (2 * rotate.toNat)) s ∧
      MsrSpsr (.msrImm c true mask rotate imm8) mask ((imm8.zeroExtend 32).rotateRight (2 * rotate.toNat)) s) ∧
    (∀ p, exec (.msrReg c p mask 15) s = .fault (.unpredictable .psrFromPc))

/-! ## Multiply -/

/-- The next state of MUL or MLA (R341, R342, R348). -/
def Sys2Proof.Claims.afterMultiply (s : State) (sf : Bool) (rd : Reg) (r : Word) : State :=
  if rd = 15 then s.setSlot 15 (jump s.cpsr.t r)
  else ((s.setCpsr (if sf then nzc s.cpsr r false else s.cpsr)).setSlot (slotOf s.cpsr.m rd) r).setSlot 15 (s.pc + 4#32)

/-- R341, R342, R348. -/
def Obligations.MultiplyResult : Prop :=
  ∀ (c : Cond) (sf : Bool) (rd rn rs rm : Reg) (s : State), conditionPassed c s.cpsr = true →
    rm ≠ 15 → rs ≠ 15 → rd ≠ rm →
    exec (.mul c sf rd rn rs rm) s = .next (afterMultiply s sf rd (BitVec.ofNat 32 ((reg rm s).toNat * (reg rs s).toNat))) ∧
    (rn ≠ 15 → exec (.mla c sf rd rn rs rm) s =
      .next (afterMultiply s sf rd (BitVec.ofNat 32 ((reg rm s).toNat * (reg rs s).toNat + (reg rn s).toNat))))

/-- The next state of a long multiply (R343): the low word is written first, then the high word; a destination of 15 branches and sets
no flag (R348). -/
def Sys2Proof.Claims.afterLong (s : State) (sf : Bool) (hi lo : Reg) (r : BitVec 64) : State :=
  let flags : Cpsr := { s.cpsr with n := r.getLsbD 63, z := decide (r = 0#64), c := false, v := false }
  let low := r.extractLsb' 0 32
  let high := r.extractLsb' 32 32
  if hi = 15 then (s.setSlot (slotOf s.cpsr.m lo) low).setSlot 15 (jump s.cpsr.t high)
  else if lo = 15 then (s.setSlot (slotOf s.cpsr.m hi) high).setSlot 15 (jump s.cpsr.t low)
  else (((s.setCpsr (if sf then flags else s.cpsr)).setSlot (slotOf s.cpsr.m lo) low).setSlot (slotOf s.cpsr.m hi) high).setSlot 15
    (s.pc + 4#32)

/-- R343 to R348: the exact 64-bit products, signed and unsigned, with and without the accumulator. -/
def Obligations.MultiplyLongResult : Prop :=
  ∀ (c : Cond) (sf : Bool) (hi lo rs rm : Reg) (s : State), conditionPassed c s.cpsr = true →
    rm ≠ 15 → rs ≠ 15 → hi ≠ lo → hi ≠ rm → lo ≠ rm →
    let up := (reg rm s).toNat * (reg rs s).toNat
    let sp := (reg rm s).toInt * (reg rs s).toInt
    let acc := (reg hi s).toNat * 2 ^ 32 + (reg lo s).toNat
    exec (.umull c sf hi lo rs rm) s = .next (afterLong s sf hi lo (BitVec.ofNat 64 up)) ∧
    exec (.smull c sf hi lo rs rm) s = .next (afterLong s sf hi lo (BitVec.ofInt 64 sp)) ∧
    (hi ≠ 15 → lo ≠ 15 →
      exec (.umlal c sf hi lo rs rm) s = .next (afterLong s sf hi lo (BitVec.ofNat 64 (up + acc))) ∧
      exec (.smlal c sf hi lo rs rm) s = .next (afterLong s sf hi lo (BitVec.ofInt 64 (sp + (acc : Int)))))

/-- R349: the multiplies' restrictions and the order of their tests. -/
def Obligations.MultiplyRestrictions : Prop :=
  ∀ (c : Cond) (sf : Bool) (a b rs rm : Reg) (s : State), conditionPassed c s.cpsr = true →
    (rm = 15 ∨ rs = 15 →
      exec (.mul c sf a b rs rm) s = .fault (.unpredictable .multiplyPcOperand) ∧
      exec (.mla c sf a b rs rm) s = .fault (.unpredictable .multiplyPcOperand) ∧
      exec (.umull c sf a b rs rm) s = .fault (.unpredictable .multiplyPcOperand) ∧
      exec (.umlal c sf a b rs rm) s = .fault (.unpredictable .multiplyPcOperand) ∧
      exec (.smull c sf a b rs rm) s = .fault (.unpredictable .multiplyPcOperand) ∧
      exec (.smlal c sf a b rs rm) s = .fault (.unpredictable .multiplyPcOperand)) ∧
    (b = 15 → exec (.mla c sf a b rs rm) s = .fault (.unpredictable .multiplyPcOperand)) ∧
    (a = 15 ∨ b = 15 →
      exec (.umlal c sf a b rs rm) s = .fault (.unpredictable .multiplyPcOperand) ∧
      exec (.smlal c sf a b rs rm) s = .fault (.unpredictable .multiplyPcOperand)) ∧
    (rm ≠ 15 → rs ≠ 15 → a = rm →
      exec (.mul c sf a b rs rm) s = .fault (.unpredictable .multiplyRdEqualsRm) ∧
      (b ≠ 15 → exec (.mla c sf a b rs rm) s = .fault (.unpredictable .multiplyRdEqualsRm))) ∧
    (rm ≠ 15 → rs ≠ 15 → (a = b ∨ a = rm ∨ b = rm) →
      exec (.umull c sf a b rs rm) s = .fault (.unpredictable .multiplyLongRegisters) ∧
      exec (.smull c sf a b rs rm) s = .fault (.unpredictable .multiplyLongRegisters) ∧
      (a ≠ 15 → b ≠ 15 →
        exec (.umlal c sf a b rs rm) s = .fault (.unpredictable .multiplyLongRegisters) ∧
        exec (.smlal c sf a b rs rm) s = .fault (.unpredictable .multiplyLongRegisters)))

/-! ## Loads and stores -/

/-- A single load (R371): the value is loaded, the base written back, then Rd written; R15 branches without a state change (R382). -/
def Sys2Proof.Claims.SingleLoad (c : Cond) (mk : Bool → Reg → Reg → TransferOffset → Instr) (byte p wb : Bool) : Prop :=
  ∀ (u : Bool) (rn rd : Reg) (off : TransferOffset) (s : State), conditionPassed c s.cpsr = true →
    ¬ offsetRegIsPc off → (wb = true → rn ≠ 15 ∧ rn ≠ rd) → (byte = true → rd ≠ 15) →
    let a := address p u rn (offset off s) s
    exec (mk u rn rd off) s = .next (((fun v => if rd = 15
        then (withBase wb rn (effective u rn (offset off s) s) s).setSlot 15 (jump s.cpsr.t v)
        else ((withBase wb rn (effective u rn (offset off s) s) s).setSlot (slotOf s.cpsr.m rd) v).setSlot 15 (s.pc + 4#32))
      (if byte then (s.mem.read8 a).zeroExtend 32 else wordAt a s)))

/-- R371, R373, R374, R377, R378, R382: LDR, LDRB, LDRT, LDRBT. -/
def Obligations.SingleLoadsResult : Prop :=
  ∀ c : Cond,
    (∀ w, SingleLoad c (fun u => .ldrPre c u w) false true w) ∧ SingleLoad c (fun u => .ldrPost c u) false false true ∧
    (∀ w, SingleLoad c (fun u => .ldrbPre c u w) true true w) ∧ SingleLoad c (fun u => .ldrbPost c u) true false true ∧
    SingleLoad c (fun u => .ldrt c u) false false true ∧ SingleLoad c (fun u => .ldrbt c u) true false true

/-- A single store (R371): Rd is read, stored, then the base is written back; no other byte changes. -/
def Sys2Proof.Claims.SingleStore (c : Cond) (mk : Bool → Reg → Reg → TransferOffset → Instr) (byte p wb : Bool) : Prop :=
  ∀ (u : Bool) (rn rd : Reg) (off : TransferOffset) (s : State), conditionPassed c s.cpsr = true →
    ¬ offsetRegIsPc off → (wb = true → rn ≠ 15) →
    let a := address p u rn (offset off s) s
    let at' := if byte then a else wordStoreAt s.cfg a
    let mem := if byte then s.mem.write8 a ((storeValue rd s).extractLsb' 0 8) else s.mem.write32 at' (storeValue rd s)
    ∃ t, exec (mk u rn rd off) s = .next t ∧
      t = (withBase wb rn (effective u rn (offset off s) s) (s.setMem mem)).setSlot 15 (s.pc + 4#32) ∧
      (s.mem.wf = true → OnlyBytes s t at' (if byte then 1 else 4))

/-- R371, R375, R376, R379, R380: STR, STRB, STRT, STRBT. -/
def Obligations.SingleStoresResult : Prop :=
  ∀ c : Cond,
    (∀ w, SingleStore c (fun u => .strPre c u w) false true w) ∧ SingleStore c (fun u => .strPost c u) false false true ∧
    (∀ w, SingleStore c (fun u => .strbPre c u w) true true w) ∧ SingleStore c (fun u => .strbPost c u) true false true ∧
    SingleStore c (fun u => .strt c u) false false true ∧ SingleStore c (fun u => .strbt c u) true false true

/-- A halfword or signed load (R391); P = 0 writes the base back. -/
def Sys2Proof.Claims.HalfLoad (c : Cond) (mk : Bool → Bool → Bool → Reg → Reg → HalfOffset → Instr) (value : Word → State → Word)
    (half : Bool) : Prop :=
  ∀ (p u w : Bool) (rn rd : Reg) (off : HalfOffset) (s : State), conditionPassed c s.cpsr = true →
    ¬ (p = false ∧ w = true) → ¬ halfRegIsPc off → (p = false ∨ w = true → rn ≠ 15 ∧ rn ≠ rd) → rd ≠ 15 →
    (half = true → HalfReady (address p u rn (halfOff off s) s) s) →
    exec (mk p u w rn rd off) s = .next
      (((withBase (!p || w) rn (effective u rn (halfOff off s) s) s).setSlot (slotOf s.cpsr.m rd)
        (value (address p u rn (halfOff off s) s) s)).setSlot 15 (s.pc + 4#32))

/-- STRH (R391, R395). -/
def Sys2Proof.Claims.HalfStore (c : Cond) : Prop :=
  ∀ (p u w : Bool) (rn rd : Reg) (off : HalfOffset) (s : State), conditionPassed c s.cpsr = true →
    ¬ (p = false ∧ w = true) → ¬ halfRegIsPc off → (p = false ∨ w = true → rn ≠ 15) →
    HalfReady (address p u rn (halfOff off s) s) s →
    let a := address p u rn (halfOff off s) s
    ∃ t, exec (.strh c p u w rn rd off) s = .next t ∧
      t = (withBase (!p || w) rn (effective u rn (halfOff off s) s)
        (s.setMem (s.mem.write16 a ((storeValue rd s).extractLsb' 0 16)))).setSlot 15 (s.pc + 4#32) ∧
      (s.mem.wf = true → OnlyBytes s t a 2)

/-- R391, R394 to R397: LDRH, LDRSB, LDRSH and STRH. -/
def Obligations.HalfTransfersResult : Prop :=
  ∀ c : Cond,
    HalfLoad c (fun p u w => .ldrh c p u w) (fun a s => (s.mem.read16 a).zeroExtend 32) true ∧
    HalfLoad c (fun p u w => .ldrsb c p u w) (fun a s => (s.mem.read8 a).signExtend 32) false ∧
    HalfLoad c (fun p u w => .ldrsh c p u w) (fun a s => (s.mem.read16 a).signExtend 32) true ∧
    HalfStore c

/-- R372's tests of a single transfer, in their order; `wb` says whether the form writes its base back. -/
def Sys2Proof.Claims.SingleStops (mk : Reg → Reg → TransferOffset → Instr) (load byte wb : Bool) (s : State) : Prop :=
  ∀ (rn rd : Reg) (off : TransferOffset),
    (offsetRegIsPc off → exec (mk rn rd off) s = .fault (.unpredictable .offsetIsPc)) ∧
    (¬ offsetRegIsPc off → wb = true → rn = 15 → exec (mk rn rd off) s = .fault (.unpredictable .writebackToPc)) ∧
    (¬ offsetRegIsPc off → load = true → wb = true → rn ≠ 15 → rn = rd →
      exec (mk rn rd off) s = .fault (.unpredictable .loadWritebackSameRegister)) ∧
    (¬ offsetRegIsPc off → load = true → byte = true → (wb = true → rn ≠ 15 ∧ rn ≠ rd) → rd = 15 →
      exec (mk rn rd off) s = .fault (.unpredictable .subwordLoadToPc))

/-- R392's tests of a halfword transfer, in their order, and R88's test of the address under `cfg.misaligned = Arm7tdmi`, after them. -/
def Sys2Proof.Claims.HalfStops (mk : Bool → Bool → Bool → Reg → Reg → HalfOffset → Instr) (load half : Bool) (s : State) : Prop :=
  ∀ (p u w : Bool) (rn rd : Reg) (off : HalfOffset),
    (p = false → w = true → exec (mk p u w rn rd off) s = .fault (.unpredictable .halfwordPostWriteback)) ∧
    (¬ (p = false ∧ w = true) → halfRegIsPc off → exec (mk p u w rn rd off) s = .fault (.unpredictable .offsetIsPc)) ∧
    (¬ (p = false ∧ w = true) → ¬ halfRegIsPc off → (p = false ∨ w = true) → rn = 15 →
      exec (mk p u w rn rd off) s = .fault (.unpredictable .writebackToPc)) ∧
    (¬ (p = false ∧ w = true) → ¬ halfRegIsPc off → load = true → (p = false ∨ w = true) → rn ≠ 15 → rn = rd →
      exec (mk p u w rn rd off) s = .fault (.unpredictable .loadWritebackSameRegister)) ∧
    (¬ (p = false ∧ w = true) → ¬ halfRegIsPc off → load = true → (p = false ∨ w = true → rn ≠ 15 ∧ rn ≠ rd) → rd = 15 →
      exec (mk p u w rn rd off) s = .fault (.unpredictable .subwordLoadToPc)) ∧
    (¬ (p = false ∧ w = true) → ¬ halfRegIsPc off → (p = false ∨ w = true → rn ≠ 15 ∧ (load = true → rn ≠ rd)) →
      (load = true → rd ≠ 15) →
      half = true → s.cfg.misaligned = .arm7tdmi → (address p u rn (halfOff off s) s).getLsbD 0 = true →
      exec (mk p u w rn rd off) s = .fault (.unpredictable .misalignedHalfword))

/-- R372 for the twelve constructors of single transfer, R392 and R88 for LDRH, STRH, LDRSB and LDRSH. -/
def Obligations.TransferStops : Prop :=
  ∀ (c : Cond) (u w : Bool) (s : State), conditionPassed c s.cpsr = true →
    SingleStops (.ldrPre c u w) true false w s ∧ SingleStops (.ldrPost c u) true false true s ∧
    SingleStops (.ldrbPre c u w) true true w s ∧ SingleStops (.ldrbPost c u) true true true s ∧
    SingleStops (.strPre c u w) false false w s ∧ SingleStops (.strPost c u) false false true s ∧
    SingleStops (.strbPre c u w) false true w s ∧ SingleStops (.strbPost c u) false true true s ∧
    SingleStops (.ldrt c u) true false true s ∧ SingleStops (.ldrbt c u) true true true s ∧
    SingleStops (.strt c u) false false true s ∧ SingleStops (.strbt c u) false true true s ∧
    HalfStops (.ldrh c) true true s ∧ HalfStops (.strh c) false true s ∧ HalfStops (.ldrsb c) true false s ∧
    HalfStops (.ldrsh c) true true s

/-- The instructions the spec gives no effect: each stops, whatever the state, once its condition passes (Thumb has none): R392
`SignedStore`, R393 `HalfwordSH00`, R543 `ThumbBxH1`; and R182: every word with condition 1111 decodes to the one that stops always. -/
def Obligations.ReservedFormsStop : Prop :=
  ∀ (c : Cond) (p u w h : Bool) (rn rd : Reg) (off : HalfOffset) (x28 : BitVec 28) (rs : Reg) (x3 : BitVec 3) (s : State),
    (conditionPassed c s.cpsr = true →
      exec (.signedStore c p u w h rn rd off) s = .fault (.unpredictable .signedStore) ∧
      exec (.halfSh00 c p u w h rn rd off) s = .fault (.unpredictable .halfwordSH00)) ∧
    (∀ w : BitVec 32, w.extractLsb' 28 4 = 0b1111#4 → decodeArm w = .reservedCond (w.extractLsb' 0 28)) ∧
    exec (.reservedCond x28) s = .fault .reservedCondition ∧
    exec (.tBxH1 rs x3) s = .fault (.unpredictable .thumbBxH1)

/-- R410, R411: the old memory goes to Rd, Rm's value goes to memory, and nothing else changes; and R410's checks. -/
def Obligations.SwapResult : Prop :=
  ∀ (c : Cond) (rn rd rm : Reg) (sbz : BitVec 4) (s : State), conditionPassed c s.cpsr = true →
    (rn ≠ 15 → rd ≠ 15 → rm ≠ 15 → rn ≠ rd → rn ≠ rm →
      (∃ t, exec (.swp c rn rd sbz rm) s = .next t ∧
        t = ((s.setMem (s.mem.write32 (wordStoreAt s.cfg (reg rn s)) (reg rm s))).setSlot (slotOf s.cpsr.m rd)
          (wordAt (reg rn s) s)).setSlot 15 (s.pc + 4#32) ∧
        (s.mem.wf = true → OnlyBytes s t (wordStoreAt s.cfg (reg rn s)) 4)) ∧
      (∃ t, exec (.swpb c rn rd sbz rm) s = .next t ∧
        t = ((s.setMem (s.mem.write8 (reg rn s) ((reg rm s).extractLsb' 0 8))).setSlot (slotOf s.cpsr.m rd)
          ((s.mem.read8 (reg rn s)).zeroExtend 32)).setSlot 15 (s.pc + 4#32) ∧
        (s.mem.wf = true → OnlyBytes s t (reg rn s) 1))) ∧
    (rn = 15 ∨ rd = 15 ∨ rm = 15 →
      exec (.swp c rn rd sbz rm) s = .fault (.unpredictable .swapPc) ∧
      exec (.swpb c rn rd sbz rm) s = .fault (.unpredictable .swapPc)) ∧
    (rn ≠ 15 → rd ≠ 15 → rm ≠ 15 → (rn = rd ∨ rn = rm) →
      exec (.swp c rn rd sbz rm) s = .fault (.unpredictable .swapBaseOverlap) ∧
      exec (.swpb c rn rd sbz rm) s = .fault (.unpredictable .swapBaseOverlap))

/-! ## Block transfers -/

/-- R420: the addresses the model walks are the rule's closed forms, in ascending register order, all multiples of 4 (R424). -/
def Obligations.BlockAddressesClosedForm : Prop :=
  ∀ (cfg : Config) (p u : Bool) (base : Word) (list : BitVec 16),
    blockAddresses cfg p u base list = (listedRegs list).map (fun i => (i, blockAddress cfg p u base list i)) ∧
    ∀ q ∈ blockAddresses cfg p u base list, q.2 &&& 3#32 = 0#32

/-- An LDM's next state (R420 to R422, R425 to R427, R429): every listed register, the base, the pc, the status, and the frame. -/
def Sys2Proof.Claims.LoadsBlock (i : Instr) (len : Word) (p u sb wb : Bool) (rn : Reg) (list : BitVec 16) (s : State) : Prop :=
  let bank := loadBank s.cfg sb list s.cpsr.m
  let value (r : Reg) : Word := s.mem.read32 (blockAddress s.cfg p u (x rn s) list r)
  let returns := sb = true ∧ list.getLsbD 15 = true
  (∀ n, returns → spsrOf s.cpsr.m = some n → (modeOf ((s.spsr.get n).value.extractLsb' 0 5)).isSome) →
  ∃ t, exec i s = .next t ∧
    (∀ r, Listed list r → r ≠ 15 → t.cell (slotOf bank r) = ⟨value r, true⟩) ∧
    (∀ q, q ≠ 15 → (∀ r, Listed list r → slotOf bank r ≠ q) →
      t.cell q = if wb = true ∧ q = slotOf s.cpsr.m rn then ⟨blockBase u (x rn s) list, true⟩ else s.cell q) ∧
    (¬ returns → t.cpsr = s.cpsr) ∧
    (returns → spsrOf s.cpsr.m = none → t.cpsr = s.cpsr) ∧
    (∀ n, returns → spsrOf s.cpsr.m = some n → Cpsr.unpack (s.spsr.get n).value = .ok t.cpsr) ∧
    t.pc = (if list.getLsbD 15 then jump t.cpsr.t (value 15) else s.pc + len) ∧
    t.spsr = s.spsr ∧ t.mem = s.mem ∧ t.cfg = s.cfg

/-- R422, R425 to R433, for the four LDM forms; the base R15 stops (R428). -/
def Obligations.LoadMultipleResult : Prop :=
  ∀ (c : Cond) (sb wb : Bool) (rn : Reg) (list : BitVec 16) (s : State), conditionPassed c s.cpsr = true →
    (rn ≠ 15 →
      LoadsBlock (.ldmia c sb wb rn list) 4#32 false true sb wb rn list s ∧
      LoadsBlock (.ldmib c sb wb rn list) 4#32 true true sb wb rn list s ∧
      LoadsBlock (.ldmda c sb wb rn list) 4#32 false false sb wb rn list s ∧
      LoadsBlock (.ldmdb c sb wb rn list) 4#32 true false sb wb rn list s) ∧
    (rn = 15 → ∀ i ∈ [Instr.ldmia c sb wb rn list, .ldmib c sb wb rn list, .ldmda c sb wb rn list, .ldmdb c sb wb rn list],
      exec i s = .fault (.unpredictable .blockBaseIsPc))

/-- An STM's next state (R420, R421, R423, R426, R427, R429): the word at each listed register's address, every other byte, the base, and
the frame. -/
def Sys2Proof.Claims.StoresBlock (i : Instr) (len : Word) (p u sb wb : Bool) (rn : Reg) (list : BitVec 16) (s : State) : Prop :=
  ∃ t, exec i s = .next t ∧
    (s.mem.wf = true →
      (∀ r, Listed list r → t.mem.read32 (blockAddress s.cfg p u (x rn s) list r) = blockValue sb wb rn u list r s) ∧
      (∀ b, (∀ r, Listed list r → inBytes (blockAddress s.cfg p u (x rn s) list r) 4 b = false) →
        t.mem.read8 b = s.mem.read8 b)) ∧
    (∀ q, q ≠ 15 → t.cell q = if wb = true ∧ q = slotOf s.cpsr.m rn then ⟨blockBase u (x rn s) list, true⟩ else s.cell q) ∧
    t.pc = s.pc + len ∧ t.cpsr = s.cpsr ∧ t.spsr = s.spsr ∧ t.cfg = s.cfg

/-- R423, R426 to R429, R434 to R437, for the four STM forms; the base R15 stops (R428). -/
def Obligations.StoreMultipleResult : Prop :=
  ∀ (c : Cond) (sb wb : Bool) (rn : Reg) (list : BitVec 16) (s : State), conditionPassed c s.cpsr = true →
    (rn ≠ 15 →
      StoresBlock (.stmia c sb wb rn list) 4#32 false true sb wb rn list s ∧
      StoresBlock (.stmib c sb wb rn list) 4#32 true true sb wb rn list s ∧
      StoresBlock (.stmda c sb wb rn list) 4#32 false false sb wb rn list s ∧
      StoresBlock (.stmdb c sb wb rn list) 4#32 true false sb wb rn list s) ∧
    (rn = 15 → ∀ i ∈ [Instr.stmia c sb wb rn list, .stmib c sb wb rn list, .stmda c sb wb rn list, .stmdb c sb wb rn list],
      exec i s = .fault (.unpredictable .blockBaseIsPc))

/-- R438: an STM and then, from any state with the memory it left and the same base value, an LDM of the same list and direction gives
every listed register below R15 the value it had before the STM. -/
def Obligations.StoreLoadRoundTrip : Prop :=
  ∀ (c c' : Cond) (rn : Reg) (list : BitVec 16) (s t u v : State), s.mem.wf = true →
    u.mem = t.mem → u.cfg = s.cfg → u.cpsr.m = s.cpsr.m → reg rn u = reg rn s →
    conditionPassed c s.cpsr = true → conditionPassed c' u.cpsr = true →
    ((exec (.stmia c false false rn list) s = .next t ∧ exec (.ldmia c' false false rn list) u = .next v) ∨
     (exec (.stmib c false false rn list) s = .next t ∧ exec (.ldmib c' false false rn list) u = .next v) ∨
     (exec (.stmda c false false rn list) s = .next t ∧ exec (.ldmda c' false false rn list) u = .next v) ∨
     (exec (.stmdb c false false rn list) s = .next t ∧ exec (.ldmdb c' false false rn list) u = .next v)) →
    (∀ r, Listed list r → r ≠ 15 → reg r v = reg r s) ∧
    (∀ r, ¬ Listed list r → r ≠ 15 → reg r v = reg r u)

/-! ## ARM branches and exceptions -/

/-- R450 to R453: B, BL and BX, and everything they leave unchanged. -/
def Obligations.BranchResult : Prop :=
  ∀ (c : Cond) (off : BitVec 24) (rn : Reg) (s : State), conditionPassed c s.cpsr = true →
    let target := s.pc + 8#32 + BitVec.ofInt 32 (4 * off.toInt)
    exec (.b c off) s = .next (s.setSlot 15 (jump s.cpsr.t target)) ∧
    exec (.bl c off) s = .next ((s.setSlot (slotOf s.cpsr.m 14) (s.pc + 4#32)).setSlot 15 (jump s.cpsr.t target)) ∧
    exec (.bx c rn) s = .next ((s.setCpsr { s.cpsr with t := (x rn s).getLsbD 0 }).setSlot 15 (jump ((x rn s).getLsbD 0) (x rn s)))

/-- The state after an exception entry (R630, R640): slot `lr` and the SPSR are written, the mode, I and T change, F and the flags
are kept, and the pc is the vector. -/
def Sys2Proof.Claims.entered (s : State) (n : SpsrName) (lr : Slot) (m : Mode) (ret vector : Word) : State :=
  (((s.setSpsr n s.cpsr.pack).setCpsr { s.cpsr with m := m, i := true, t := false }).setSlot lr ret).setSlot 15 vector

/-- R630, R631, R454, R605: the software interrupt of both instruction sets. -/
def Obligations.SoftwareInterruptEntry : Prop :=
  ∀ (c : Cond) (comment24 : BitVec 24) (value8 : BitVec 8) (s : State),
    (conditionPassed c s.cpsr = true → exec (.swi c comment24) s = .next (entered s .svc 24 .supervisor (s.pc + 4#32) 8#32)) ∧
    exec (.tSwi value8) s = .next (entered s .svc 24 .supervisor (s.pc + 2#32) 8#32)

/-- R455 to R461, R601, R615, R640: every undefined and coprocessor instruction under both settings of `cfg.undefined`. -/
def Obligations.UndefinedInstructions : Prop :=
  ∀ (c : Cond) (x20 : BitVec 20) (x4 : BitVec 4) (p u n w : Bool) (a b d e : BitVec 4) (o8 : BitVec 8) (i3 o3 : BitVec 3)
    (x9 : BitVec 9) (x10 : BitVec 10) (x11 : BitVec 11) (s : State),
    let arm (i : Instr) (category : Unimplemented) : Prop :=
      (s.cfg.undefined = .trap → exec i s = .next (entered s .und 30 .undefined (s.pc + 4#32) 4#32)) ∧
      (s.cfg.undefined = .fatal → exec i s = .fault (.unimplemented category))
    let thumb (i : Instr) : Prop :=
      (s.cfg.undefined = .trap → exec i s = .next (entered s .und 30 .undefined (s.pc + 2#32) 4#32)) ∧
      (s.cfg.undefined = .fatal → exec i s = .fault (.unimplemented .thumbUndefined))
    (conditionPassed c s.cpsr = true →
      arm (.undefined c x20 x4) .undefined ∧ arm (.ldc c p u n w a b d o8) .coprocessorDataTransfer ∧
      arm (.stc c p u n w a b d o8) .coprocessorDataTransfer ∧ arm (.cdp c a b d e i3 x4) .coprocessorDataOperation ∧
      arm (.mcr c o3 a b d i3 e) .coprocessorRegisterTransfer ∧ arm (.mrc c o3 a b d i3 e) .coprocessorRegisterTransfer) ∧
    thumb (.tBCond14 o8) ∧ thumb (.tUndefB1 o8) ∧ thumb (.tUndefB2 x9) ∧ thumb (.tUndefB6 x9) ∧ thumb (.tUndefB8 x10) ∧
    thumb (.tUndefBE x9) ∧ thumb (.tUndefE8 x11)

/-- R633, R637: from any state, a software interrupt (ARM or Thumb) and then `MOVS PC, LR` in the handler resume at the next instruction
with the status register exactly as before and every register but R14_svc as before. -/
def Obligations.SoftwareInterruptReturn : Prop :=
  ∀ (comment24 : BitVec 24) (value8 : BitVec 8) (s : State),
    (s.pcAligned = true → s.cpsr.t = false → ∃ h t, exec (.swi .al comment24) s = .next h ∧
      exec (.mov .al true 0 15 (.regImm 14 .lsl 0#5)) h = .next t ∧
      t = ((s.setSpsr .svc s.cpsr.pack).setSlot 24 (s.pc + 4#32)).setSlot 15 (s.pc + 4#32)) ∧
    (s.pcAligned = true → s.cpsr.t = true → ∃ h t, exec (.tSwi value8) s = .next h ∧
      exec (.mov .al true 0 15 (.regImm 14 .lsl 0#5)) h = .next t ∧
      t = ((s.setSpsr .svc s.cpsr.pack).setSlot 24 (s.pc + 2#32)).setSlot 15 (s.pc + 2#32))

/-! ## Thumb -/

/-- R500 to R502, R522, R523, R524, R527: the Thumb shifts. -/
def Obligations.ThumbShiftsResult : Prop :=
  ∀ (off : BitVec 5) (rs rd : LowReg) (s : State),
    let byImm (type : ShiftType) : State :=
      let r := shiftImm s.cfg s.cpsr.c (low rs s) off.toNat type
      afterLow s (nzc s.cpsr r.value r.carry) rd r.value
    let byReg (type : ShiftType) : State :=
      let r := shift s.cpsr.c (low rd s) ((low rs s).toNat % 256) type
      afterLow s (nzc s.cpsr r.value r.carry) rd r.value
    exec (.tLslImm off rs rd) s = .next (byImm .lsl) ∧ exec (.tLsrImm off rs rd) s = .next (byImm .lsr) ∧
    exec (.tAsrImm off rs rd) s = .next (byImm .asr) ∧
    exec (.tLsl rs rd) s = .next (byReg .lsl) ∧ exec (.tLsr rs rd) s = .next (byReg .lsr) ∧
    exec (.tAsr rs rd) s = .next (byReg .asr) ∧ exec (.tRor rs rd) s = .next (byReg .ror)

/-- R503 to R510, R525, R526, R529 to R531: the Thumb additions, subtractions and comparisons. -/
def Obligations.ThumbArithmeticResult : Prop :=
  ∀ (rn rs rd : LowReg) (imm3 : BitVec 3) (imm8 : BitVec 8) (s : State),
    let sets (r : AluResult) : State := afterLow s (nzcv s.cpsr r) rd r.value
    let compares (r : AluResult) : State := advance (s.setCpsr (nzcv s.cpsr r)) 2#32
    exec (.tAddReg rn rs rd) s = .next (sets (addWithCarry (low rs s) (low rn s) false)) ∧
    exec (.tSubReg rn rs rd) s = .next (sets (subWithBorrow s.cfg (low rs s) (low rn s) false)) ∧
    exec (.tAddImm3 imm3 rs rd) s = .next (sets (addWithCarry (low rs s) (imm3.zeroExtend 32) false)) ∧
    exec (.tSubImm3 imm3 rs rd) s = .next (sets (subWithBorrow s.cfg (low rs s) (imm3.zeroExtend 32) false)) ∧
    exec (.tNeg rs rd) s = .next (sets (subWithBorrow s.cfg 0#32 (low rs s) false)) ∧
    exec (.tCmpImm rd imm8) s = .next (compares (subWithBorrow s.cfg (low rd s) (imm8.zeroExtend 32) false)) ∧
    exec (.tAddImm8 rd imm8) s = .next (sets (addWithCarry (low rd s) (imm8.zeroExtend 32) false)) ∧
    exec (.tSubImm8 rd imm8) s = .next (sets (subWithBorrow s.cfg (low rd s) (imm8.zeroExtend 32) false)) ∧
    exec (.tAdc rs rd) s = .next (sets (addWithCarry (low rd s) (low rs s) s.cpsr.c)) ∧
    exec (.tSbc rs rd) s = .next (sets (subWithBorrow s.cfg (low rd s) (low rs s) (!s.cpsr.c))) ∧
    exec (.tCmp rs rd) s = .next (compares (subWithBorrow s.cfg (low rd s) (low rs s) false)) ∧
    exec (.tCmn rs rd) s = .next (compares (addWithCarry (low rd s) (low rs s) false))

/-- R507, R520, R521, R528, R532 to R535: the Thumb moves, logic and MUL. -/
def Obligations.ThumbLogicResult : Prop :=
  ∀ (rs rd : LowReg) (imm8 : BitVec 8) (s : State),
    let sets (r : Word) : State := afterLow s (nzc s.cpsr r s.cpsr.c) rd r
    exec (.tMovImm rd imm8) s = .next (sets (imm8.zeroExtend 32)) ∧
    exec (.tMvn rs rd) s = .next (sets (~~~ low rs s)) ∧
    exec (.tAnd rs rd) s = .next (sets (low rd s &&& low rs s)) ∧
    exec (.tEor rs rd) s = .next (sets (low rd s ^^^ low rs s)) ∧
    exec (.tOrr rs rd) s = .next (sets (low rd s ||| low rs s)) ∧
    exec (.tBic rs rd) s = .next (sets (low rd s &&& ~~~ low rs s)) ∧
    exec (.tTst rs rd) s = .next (advance (s.setCpsr (nzc s.cpsr (low rd s &&& low rs s) s.cpsr.c)) 2#32) ∧
    (rs ≠ rd → exec (.tMul rs rd) s =
      .next (let r := BitVec.ofNat 32 ((low rs s).toNat * (low rd s).toNat); afterLow s (nzc s.cpsr r false) rd r)) ∧
    exec (.tMul rd rd) s = .fault (.unpredictable .multiplyRdEqualsRm)

/-- R540 to R543: the hi-register operations on every pair with a high register, and BX. -/
def Obligations.ThumbHiRegistersResult : Prop :=
  ∀ (rs rd : Reg) (x3 : BitVec 3) (s : State),
    (rs.val ≥ 8 ∨ rd.val ≥ 8 →
      exec (.tMovHi rs rd) s = .next (afterWrite s rd (x rs s) 2#32) ∧
      exec (.tAddHi rs rd) s = .next (afterWrite s rd (x rd s + x rs s) 2#32) ∧
      exec (.tCmpHi rs rd) s = .next (advance (s.setCpsr (nzcv s.cpsr (subWithBorrow s.cfg (x rd s) (x rs s) false))) 2#32)) ∧
    (rs.val < 8 → rd.val < 8 →
      exec (.tMovHi rs rd) s = .fault (.unpredictable .thumbHiRegLowLow) ∧
      exec (.tAddHi rs rd) s = .fault (.unpredictable .thumbHiRegLowLow) ∧
      exec (.tCmpHi rs rd) s = .fault (.unpredictable .thumbHiRegLowLow)) ∧
    exec (.tBx rs x3) s =
      .next ((s.setCpsr { s.cpsr with t := (x rs s).getLsbD 0 }).setSlot 15 (jump ((x rs s).getLsbD 0) (x rs s)))

/-- R550, R553, R554, R556 to R558, R561, R563, R566, R571: the Thumb loads, and the misaligned halfword of the
three that load one (R88). -/
def Obligations.ThumbLoadsResult : Prop :=
  ∀ (ro rb rd : LowReg) (off : BitVec 5) (word8 : BitVec 8) (s : State),
    let loads (v : Word) : State := (s.setSlot (lo rd) v).setSlot 15 (s.pc + 2#32)
    let sum := low rb s + low ro s
    let half := low rb s + (off ++ 0b0#1).zeroExtend 32
    exec (.tLdrPc rd word8) s =
      .next (loads (s.mem.read32 (((s.pc + 4#32) &&& 0xFFFFFFFC#32) + (word8 ++ 0b00#2).zeroExtend 32))) ∧
    exec (.tLdrSp rd word8) s = .next (loads (wordAt (reg 13 s + (word8 ++ 0b00#2).zeroExtend 32) s)) ∧
    exec (.tLdrImm off rb rd) s = .next (loads (wordAt (low rb s + (off ++ 0b00#2).zeroExtend 32) s)) ∧
    exec (.tLdrbImm off rb rd) s = .next (loads ((s.mem.read8 (low rb s + off.zeroExtend 32)).zeroExtend 32)) ∧
    exec (.tLdrReg ro rb rd) s = .next (loads (wordAt sum s)) ∧
    exec (.tLdrbReg ro rb rd) s = .next (loads ((s.mem.read8 sum).zeroExtend 32)) ∧
    exec (.tLdsb ro rb rd) s = .next (loads ((s.mem.read8 sum).signExtend 32)) ∧
    (HalfReady half s → exec (.tLdrhImm off rb rd) s = .next (loads ((s.mem.read16 half).zeroExtend 32))) ∧
    (¬ HalfReady half s → exec (.tLdrhImm off rb rd) s = .fault (.unpredictable .misalignedHalfword)) ∧
    (HalfReady sum s →
      exec (.tLdrhReg ro rb rd) s = .next (loads ((s.mem.read16 sum).zeroExtend 32)) ∧
      exec (.tLdsh ro rb rd) s = .next (loads ((s.mem.read16 sum).signExtend 32))) ∧
    (¬ HalfReady sum s →
      exec (.tLdrhReg ro rb rd) s = .fault (.unpredictable .misalignedHalfword) ∧
      exec (.tLdsh ro rb rd) s = .fault (.unpredictable .misalignedHalfword))

/-- A Thumb store of `n` bytes: memory and the pc change, and no byte outside the stored ones. -/
def Sys2Proof.Claims.ThumbStores (i : Instr) (s : State) (mem : Memory) (a : Word) (n : Nat) : Prop :=
  ∃ t, exec i s = .next t ∧ t = advance (s.setMem mem) 2#32 ∧ (s.mem.wf = true → OnlyBytes s t a n)

/-- R551, R552, R555, R560, R562, R565, R570: the Thumb stores. -/
def Obligations.ThumbStoresResult : Prop :=
  ∀ (ro rb rd : LowReg) (off : BitVec 5) (word8 : BitVec 8) (s : State),
    let word (i : Instr) (a : Word) : Prop :=
      ThumbStores i s (s.mem.write32 (wordStoreAt s.cfg a) (low rd s)) (wordStoreAt s.cfg a) 4
    let half (i : Instr) (a : Word) : Prop :=
      (HalfReady a s → ThumbStores i s (s.mem.write16 a ((low rd s).extractLsb' 0 16)) a 2) ∧
      (¬ HalfReady a s → exec i s = .fault (.unpredictable .misalignedHalfword))
    let byte (i : Instr) (a : Word) : Prop := ThumbStores i s (s.mem.write8 a ((low rd s).extractLsb' 0 8)) a 1
    word (.tStrSp rd word8) (reg 13 s + (word8 ++ 0b00#2).zeroExtend 32) ∧
    word (.tStrImm off rb rd) (low rb s + (off ++ 0b00#2).zeroExtend 32) ∧
    byte (.tStrbImm off rb rd) (low rb s + off.zeroExtend 32) ∧
    half (.tStrhImm off rb rd) (low rb s + (off ++ 0b0#1).zeroExtend 32) ∧
    word (.tStrReg ro rb rd) (low rb s + low ro s) ∧
    byte (.tStrbReg ro rb rd) (low rb s + low ro s) ∧
    half (.tStrhReg ro rb rd) (low rb s + low ro s)

/-- R580, R581, R585, R586: the Thumb address arithmetic; no flag changes. -/
def Obligations.ThumbAddressesResult : Prop :=
  ∀ (rd : LowReg) (word8 : BitVec 8) (sword7 : BitVec 7) (s : State),
    exec (.tAddPc rd word8) s = .next ((s.setSlot (lo rd)
      (((s.pc + 4#32) &&& 0xFFFFFFFC#32) + (word8 ++ 0b00#2).zeroExtend 32)).setSlot 15 (s.pc + 2#32)) ∧
    exec (.tAddSp rd word8) s =
      .next ((s.setSlot (lo rd) (reg 13 s + (word8 ++ 0b00#2).zeroExtend 32)).setSlot 15 (s.pc + 2#32)) ∧
    exec (.tIncSp sword7) s =
      .next ((s.setSlot (slotOf s.cpsr.m 13) (reg 13 s + (sword7 ++ 0b00#2).zeroExtend 32)).setSlot 15 (s.pc + 2#32)) ∧
    exec (.tDecSp sword7) s =
      .next ((s.setSlot (slotOf s.cpsr.m 13) (reg 13 s - (sword7 ++ 0b00#2).zeroExtend 32)).setSlot 15 (s.pc + 2#32))

/-- R590, R591, R595, R596: PUSH is STMDB SP!, POP is LDMIA SP!, STMIA and LDMIA write their base back. -/
def Obligations.ThumbBlockResult : Prop :=
  ∀ (r : Bool) (rb : LowReg) (rlist : BitVec 8) (s : State),
    let base : Reg := lowReg rb
    StoresBlock (.tPush r rlist) 2#32 true false false true 13 (0b0#1 ++ BitVec.ofBool r ++ 0#6 ++ rlist) s ∧
    LoadsBlock (.tPop r rlist) 2#32 false true false true 13 (BitVec.ofBool r ++ 0#7 ++ rlist) s ∧
    StoresBlock (.tStmia rb rlist) 2#32 false true false true base (rlist.zeroExtend 16) s ∧
    LoadsBlock (.tLdmia rb rlist) 2#32 false true false true base (rlist.zeroExtend 16) s

/-- R600, R608: the Thumb branches, the conditional ones on every condition of their row. -/
def Obligations.ThumbBranchesResult : Prop :=
  ∀ (c : Cond) (soffset8 : BitVec 8) (offset11 : BitVec 11) (s : State),
    let cond := if conditionPassed c s.cpsr
      then s.setSlot 15 (jump s.cpsr.t (s.pc + 4#32 + BitVec.ofInt 32 (2 * soffset8.toInt))) else advance s 2#32
    exec (.tBCond0to7 c soffset8) s = .next cond ∧ exec (.tBCond8to11 c soffset8) s = .next cond ∧
    exec (.tBCond12to13 c soffset8) s = .next cond ∧
    exec (.tB offset11) s = .next (s.setSlot 15 (jump s.cpsr.t (s.pc + 4#32 + BitVec.ofInt 32 (2 * offset11.toInt))))

/-- R610 to R612: each half of the Thumb long branch, and the pair run at consecutive addresses. -/
def Obligations.ThumbLongBranchResult : Prop :=
  ∀ (high low11 : BitVec 11) (s : State),
    exec (.tBlHigh high) s =
      .next ((s.setSlot (slotOf s.cpsr.m 14) (s.pc + 4#32 + BitVec.ofInt 32 (4096 * high.toInt))).setSlot 15 (s.pc + 2#32)) ∧
    exec (.tBlLow low11) s =
      .next ((s.setSlot (slotOf s.cpsr.m 14) ((s.pc + 2#32) ||| 1#32)).setSlot 15
        (jump s.cpsr.t (reg 14 s + BitVec.ofNat 32 (2 * low11.toNat)))) ∧
    (∃ t u, exec (.tBlHigh high) s = .next t ∧ exec (.tBlLow low11) t = .next u ∧
      u.pc = jump s.cpsr.t (s.pc + 4#32 + BitVec.ofInt 32 (2 * (high ++ low11).toInt)) ∧
      reg 14 u = ((s.pc + 4#32) ||| 1#32) ∧ u.cpsr = s.cpsr ∧ u.mem = s.mem)

/-! ## The whole machine -/

/-- Every step keeps the invariant: canonical memory, an aligned pc (R54), a written pc. -/
def Obligations.InvariantKept : Prop := ∀ s t : State, s.inv = true → step s = .next t → t.inv = true

/-- The invariant holds right after reset. -/
def Obligations.InvariantAtReset : Prop := State.reset.inv = true

/-- R680, R681: what `reset()` does to any state, to one whose pc was never written (power-on) too, and that the launch state is one
`reset()` from power-on, whatever the configuration and the memory (R681's `mem0`).  The zeros that unwritten cells and unlisted bytes
hold are the model's choice (assumption logs 1 and 3), and nothing here rests on them; that the state holds the configuration is too
(log 2), and so is the value `State.powerOn` gives the CPSR, which is not read (log 10). -/
def Obligations.ResetState : Prop :=
  (∀ s : State,
    (hostReset s).cpsr = ⟨false, false, false, false, true, true, false, .supervisor⟩ ∧ (hostReset s).cpsr.pack = 0x000000D3#32 ∧
    (hostReset s).cell 15 = ⟨0#32, true⟩ ∧
    (∀ q, q ≠ 15 → q ≠ 24 → (hostReset s).cell q = s.cell q) ∧ (∀ n, n ≠ .svc → (hostReset s).spsr.get n = s.spsr.get n) ∧
    (hostReset s).mem = s.mem ∧ (hostReset s).cfg = s.cfg ∧
    ((s.cell 15).written = true →
      (hostReset s).cell 24 = ⟨s.pc, true⟩ ∧ (hostReset s).spsr.get .svc = ⟨s.cpsr.pack, true⟩) ∧
    ((s.cell 15).written = false →
      (hostReset s).cell 24 = s.cell 24 ∧ (hostReset s).spsr.get .svc = s.spsr.get .svc)) ∧
  (∀ (cfg : Config) (mem : Memory), hostReset (State.powerOn cfg mem) = { State.reset with cfg := cfg, mem := mem }) ∧
  State.reset.cfg = Config.standard ∧ State.reset.mem = [] ∧
  (∀ q, q ≠ 15 → (State.reset.cell q).written = false) ∧ (∀ n, (State.reset.spsr.get n).written = false)

/-- R56's written flags and operand reads.  A register or an SPSR after an instruction is the one before it or has its written flag set,
so that no instruction clears a flag.  What an instruction reads, completely: its outcome depends on no register and no SPSR but those
it reads as operands, and on no written flag; in two states that agree on the values it reads it stops for the same reason, or gives next
states that agree on everything it has written and elsewhere keep what each had.  R56's `Fatal(UnwrittenRegister)` is not raised
(assumption log 1). -/
def Obligations.WrittenFlagRules : Prop :=
  (∀ (i : Instr) (s t : State), exec i s = .next t →
    (∀ q, t.cell q = s.cell q ∨ (t.cell q).written = true) ∧
    (∀ n, t.spsr.get n = s.spsr.get n ∨ (t.spsr.get n).written = true)) ∧
  (∀ (i : Instr) (s s' : State), AgreeOnReads i s s' → SameOutcome s s' (exec i s) (exec i s'))

/-- A step never refuses (R209: a step has exactly two outcomes), and no step changes the configuration (R61; that the state holds the
configuration is the model's choice, assumption log 2). -/
def Obligations.StepNeverRefuses : Prop :=
  ∀ s : State, (∃ t, step s = .next t ∧ t.cfg = s.cfg) ∨ (∃ f, step s = .fault f)

/-- R652: how the mode changes, completely. -/
def Obligations.ModeChangesComplete : Prop :=
  ∀ (i : Instr) (s t : State), exec i s = .next t → t.cpsr.m ≠ s.cpsr.m →
    (isSwi i = true ∧ t.cpsr.m = .supervisor) ∨
    (isUndefined i = true ∧ s.cfg.undefined = .trap ∧ t.cpsr.m = .undefined) ∨
    (isReturn i = true ∧ ∃ n, spsrOf s.cpsr.m = some n ∧ modeOf ((s.spsr.get n).value.extractLsb' 0 5) = some t.cpsr.m) ∨
    (s.cfg.psrTransfer = .implemented ∧ s.cpsr.m ≠ .user ∧ ∃ mask, msrCpsrMask i = some mask ∧ mask.getLsbD 0 = true)

/-- The table of R43: what may write I, F and T, completely. -/
def Obligations.ControlBitWriters : Prop :=
  ∀ (i : Instr) (s t : State), exec i s = .next t →
    let msr := s.cfg.psrTransfer = .implemented ∧ s.cpsr.m ≠ .user ∧ ∃ mask, msrCpsrMask i = some mask ∧ mask.getLsbD 0 = true
    let entry := isSwi i = true ∨ (isUndefined i = true ∧ s.cfg.undefined = .trap)
    let return' := isReturn i = true ∧ (spsrOf s.cpsr.m).isSome
    (t.cpsr.i ≠ s.cpsr.i → (entry ∧ t.cpsr.i = true) ∨ return' ∨ msr) ∧
    (t.cpsr.f ≠ s.cpsr.f → return' ∨ msr) ∧
    (t.cpsr.t ≠ s.cpsr.t → isBx i = true ∨ (entry ∧ t.cpsr.t = false) ∨ return')

/-- R49: what may write N, Z, C and V, completely. -/
def Obligations.FlagWriters : Prop :=
  ∀ (i : Instr) (s t : State), exec i s = .next t →
    let msr := s.cfg.psrTransfer = .implemented ∧ ∃ mask, msrCpsrMask i = some mask ∧ mask.getLsbD 3 = true
    let return' := isReturn i = true ∧ (spsrOf s.cpsr.m).isSome
    (t.cpsr.n ≠ s.cpsr.n ∨ t.cpsr.z ≠ s.cpsr.z ∨ t.cpsr.c ≠ s.cpsr.c → setsFlags i = true ∨ return' ∨ msr) ∧
    (t.cpsr.v ≠ s.cpsr.v → setsOverflow i = true ∨ return' ∨ msr)

/-- R52: what may write an SPSR, completely (reset apart, which is no step). -/
def Obligations.SpsrWriters : Prop :=
  ∀ (i : Instr) (s t : State) (n : SpsrName), exec i s = .next t → t.spsr.get n ≠ s.spsr.get n →
    (isSwi i = true ∧ n = .svc) ∨ (isUndefined i = true ∧ s.cfg.undefined = .trap ∧ n = .und) ∨
    (s.cfg.psrTransfer = .implemented ∧ spsrOf s.cpsr.m = some n ∧ ∃ mask, msrSpsrMask i = some mask)

/-- The register frame of every instruction: a slot other than the pc's changes only if the spec lets the instruction write it. -/
def Obligations.RegisterFrame : Prop :=
  ∀ (i : Instr) (s t : State) (q : Slot), exec i s = .next t → q ≠ 15 → q ∉ writtenSlots i s → t.cell q = s.cell q

/-- The memory frame of every instruction: a byte changes only inside the bytes the instruction stores to. -/
def Obligations.MemoryFrame : Prop :=
  ∀ (i : Instr) (s t : State) (b : Word), s.mem.wf = true → exec i s = .next t →
    (∀ q ∈ storedBytes i s, inBytes q.1 q.2 b = false) → t.mem.read8 b = s.mem.read8 b

/-- R651, R626: a step taken in User mode leaves every banked register, every SPSR, the mode, I and F as they are, unless it enters an
exception, which writes only that exception's link register and SPSR. -/
def Obligations.UserModeConfined : Prop :=
  ∀ s t : State, s.cpsr.m = .user → step s = .next t →
    ((∀ q : Slot, 16 ≤ q.val → t.cell q = s.cell q) ∧ t.spsr = s.spsr ∧ t.cpsr.m = .user ∧ t.cpsr.i = s.cpsr.i ∧
      t.cpsr.f = s.cpsr.f) ∨
    ((∀ q : Slot, 16 ≤ q.val → q ≠ 24 → t.cell q = s.cell q) ∧ (∀ n, n ≠ .svc → t.spsr.get n = s.spsr.get n) ∧
      t.cpsr.m = .supervisor ∧ t.cpsr.i = true ∧ t.cpsr.f = s.cpsr.f ∧ t.pc = 8#32) ∨
    (s.cfg.undefined = .trap ∧ (∀ q : Slot, 16 ≤ q.val → q ≠ 30 → t.cell q = s.cell q) ∧
      (∀ n, n ≠ .und → t.spsr.get n = s.spsr.get n) ∧ t.cpsr.m = .undefined ∧ t.cpsr.i = true ∧ t.cpsr.f = s.cpsr.f ∧ t.pc = 4#32)

/-- R34, R35, R37: one slot backs each name; two modes share a slot for a banked register exactly when they share a bank.  R39 to R41:
the bank's own operations, with an index above 15 and a pattern that is no mode (which fault an
operation with both gives is not stated: assumption log 9). -/
def Obligations.BankingExact : Prop :=
  (∀ (m : Mode) (a b : Reg), slotOf m a = slotOf m b → a = b) ∧
  (∀ (m m' : Mode) (n : Reg), n.val ≤ 7 ∨ n = 15 → slotOf m n = slotOf m' n) ∧
  (∀ (m m' : Mode) (n : Reg), 13 ≤ n.val → n.val ≤ 14 → (slotOf m n = slotOf m' n ↔ bankOf m = bankOf m')) ∧
  (∀ (m m' : Mode) (n : Reg), 8 ≤ n.val → n.val ≤ 12 → (slotOf m n = slotOf m' n ↔ (bankOf m = .fiq ↔ bankOf m' = .fiq))) ∧
  (∀ q : Slot, ∃ (m : Mode) (n : Reg), slotOf m n = q) ∧
  (∀ (b : BitVec 5) (m : Mode) (n : Nat) (v : Word) (s : State), 16 ≤ n → modeOf b = some m →
    bankRead n s = .error .registerIndex ∧ bankWrite n v s = .error .registerIndex ∧
    readBanked b n s = .error .registerIndex ∧ writeBanked b n v s = .error .registerIndex) ∧
  (∀ (b : BitVec 5) (n : Reg) (v : Word) (s : State), modeOf b = none →
    readBanked b n.val s = .error .invalidMode ∧ writeBanked b n.val v s = .error .invalidMode ∧ setMode b s = .error .invalidMode) ∧
  (∀ (b : BitVec 5) (m : Mode) (n : Reg) (v : Word) (s : State), modeOf b = some m →
    setMode b s = .ok (s.setCpsr { s.cpsr with m := m }) ∧ writeBanked b n.val v s = .ok (s.setSlot (slotOf m n) v) ∧
    readBanked b n.val s = .ok (s.cell (slotOf m n)).value ∧
    bankWrite n.val v s = .ok (s.setSlot (slotOf s.cpsr.m n) v) ∧ bankRead n.val s = .ok (reg n s))

/-- R83 to R85: what word, halfword and byte reads give after a write of each width.  As `m` is any memory, a write before it
included, an access that overlaps two writes is covered.  The canonical form is the model's choice (assumption log 3). -/
def Obligations.ReadAfterWrite : Prop :=
  (∀ (m : Memory) (b : Word), m.read16 b = m.read8 (b + 1#32) ++ m.read8 b ∧
    m.read32 b = m.read8 (b + 3#32) ++ m.read8 (b + 2#32) ++ m.read8 (b + 1#32) ++ m.read8 b) ∧
  ∀ (m : Memory) (a : Word), m.wf = true →
    (∀ v : Word, (m.write32 a v).wf = true ∧ (m.write32 a v).read32 a = v ∧
      (m.write32 a v).read16 a = v.extractLsb' 0 16 ∧ (m.write32 a v).read16 (a + 2#32) = v.extractLsb' 16 16 ∧
      (∀ k : Nat, k < 4 → (m.write32 a v).read8 (a + BitVec.ofNat 32 k) = v.extractLsb' (8 * k) 8) ∧
      (∀ b, inBytes a 4 b = false → (m.write32 a v).read8 b = m.read8 b)) ∧
    (∀ h : Half, (m.write16 a h).wf = true ∧ (m.write16 a h).read16 a = h ∧
      (∀ k : Nat, k < 2 → (m.write16 a h).read8 (a + BitVec.ofNat 32 k) = h.extractLsb' (8 * k) 8) ∧
      (∀ b, inBytes a 2 b = false → (m.write16 a h).read8 b = m.read8 b)) ∧
    (∀ d : Byte, (m.write8 a d).wf = true ∧ (m.write8 a d).read8 a = d ∧
      (∀ b, b ≠ a → (m.write8 a d).read8 b = m.read8 b))
end

