-- ==== Sys2Proof/Laws/State.lean ====
section
/-! SUPPORT. One lemma for each field under each update of the state and of a step's work, so that no later proof unfolds a record. -/

namespace Sys2Proof.Machine

variable (s : State) (w : Work)

/-! ## setSlot -/

@[simp] theorem setSlot_cfg (i : Slot) (v : Word) : (s.setSlot i v).cfg = s.cfg := rfl
@[simp] theorem setSlot_cpsr (i : Slot) (v : Word) : (s.setSlot i v).cpsr = s.cpsr := rfl
@[simp] theorem setSlot_spsr (i : Slot) (v : Word) : (s.setSlot i v).spsr = s.spsr := rfl
@[simp] theorem setSlot_mem (i : Slot) (v : Word) : (s.setSlot i v).mem = s.mem := rfl
@[simp] theorem setSlot_cell_self (i : Slot) (v : Word) : (s.setSlot i v).cell i = ⟨v, true⟩ := by
  simp [State.setSlot, State.cell]
theorem setSlot_cell_ne {i j : Slot} (v : Word) (h : j ≠ i) : (s.setSlot i v).cell j = s.cell j := by
  have h' : i.val ≠ j.val := fun e => h (Fin.ext e.symm)
  simp [State.setSlot, State.cell, h']
theorem setSlot_cell (i j : Slot) (v : Word) : (s.setSlot i v).cell j = if j = i then ⟨v, true⟩ else s.cell j := by
  split
  · next h => rw [h, setSlot_cell_self]
  · next h => exact setSlot_cell_ne s v h

/-! ## setCpsr -/

@[simp] theorem setCpsr_cfg (c : Cpsr) : (s.setCpsr c).cfg = s.cfg := rfl
@[simp] theorem setCpsr_cpsr (c : Cpsr) : (s.setCpsr c).cpsr = c := rfl
@[simp] theorem setCpsr_spsr (c : Cpsr) : (s.setCpsr c).spsr = s.spsr := rfl
@[simp] theorem setCpsr_mem (c : Cpsr) : (s.setCpsr c).mem = s.mem := rfl
@[simp] theorem setCpsr_cell (c : Cpsr) (i : Slot) : (s.setCpsr c).cell i = s.cell i := rfl
@[simp] theorem setCpsr_pc (c : Cpsr) : (s.setCpsr c).pc = s.pc := rfl
@[simp] theorem setCpsr_self : s.setCpsr s.cpsr = s := rfl

/-! ## setMem -/

@[simp] theorem setMem_cfg (m : Memory) : (s.setMem m).cfg = s.cfg := rfl
@[simp] theorem setMem_cpsr (m : Memory) : (s.setMem m).cpsr = s.cpsr := rfl
@[simp] theorem setMem_spsr (m : Memory) : (s.setMem m).spsr = s.spsr := rfl
@[simp] theorem setMem_mem (m : Memory) : (s.setMem m).mem = m := rfl
@[simp] theorem setMem_cell (m : Memory) (i : Slot) : (s.setMem m).cell i = s.cell i := rfl
@[simp] theorem setMem_pc (m : Memory) : (s.setMem m).pc = s.pc := rfl

/-! ## setSpsr -/

@[simp] theorem setSpsr_cfg (n : SpsrName) (v : Word) : (s.setSpsr n v).cfg = s.cfg := rfl
@[simp] theorem setSpsr_cpsr (n : SpsrName) (v : Word) : (s.setSpsr n v).cpsr = s.cpsr := rfl
@[simp] theorem setSpsr_mem (n : SpsrName) (v : Word) : (s.setSpsr n v).mem = s.mem := rfl
@[simp] theorem setSpsr_cell (n : SpsrName) (v : Word) (i : Slot) : (s.setSpsr n v).cell i = s.cell i := rfl
@[simp] theorem setSpsr_pc (n : SpsrName) (v : Word) : (s.setSpsr n v).pc = s.pc := rfl
@[simp] theorem setSpsr_spsr_self (n : SpsrName) (v : Word) : (s.setSpsr n v).spsr.get n = ⟨v, true⟩ := by
  cases n <;> rfl
theorem setSpsr_spsr_ne {n k : SpsrName} (v : Word) (h : k ≠ n) : (s.setSpsr n v).spsr.get k = s.spsr.get k := by
  cases n <;> cases k <;> first | rfl | exact absurd rfl h

/-! ## A step's work -/

@[simp] theorem begin_st : s.begin.st = s := rfl
@[simp] theorem begin_target : s.begin.target = none := rfl
@[simp] theorem branch_st (t : Word) : (w.branch t).st = w.st := rfl
@[simp] theorem branch_target (t : Word) : (w.branch t).target = some t := rfl
@[simp] theorem workSetCpsr_st (c : Cpsr) : (w.setCpsr c).st = w.st.setCpsr c := rfl
@[simp] theorem workSetCpsr_target (c : Cpsr) : (w.setCpsr c).target = w.target := rfl
@[simp] theorem writeIn_pc (m : Mode) (v : Word) : w.writeIn m 15 v = w.branch v := rfl
theorem writeIn_reg (m : Mode) {n : Reg} (v : Word) (h : n ≠ 15) :
    w.writeIn m n v = { w with st := w.st.setSlot (slotOf m n) v } := by
  simp [Work.writeIn, h]
@[simp] theorem write_pc (v : Word) : w.write 15 v = w.branch v := rfl
theorem write_reg {n : Reg} (v : Word) (h : n ≠ 15) :
    w.write n v = { w with st := w.st.setSlot (slotOf w.st.cpsr.m n) v } := writeIn_reg w _ v h
@[simp] theorem writeIn_cfg (m : Mode) (n : Reg) (v : Word) : (w.writeIn m n v).st.cfg = w.st.cfg := by
  unfold Work.writeIn; split <;> rfl
@[simp] theorem writeIn_cpsr (m : Mode) (n : Reg) (v : Word) : (w.writeIn m n v).st.cpsr = w.st.cpsr := by
  unfold Work.writeIn; split <;> rfl
@[simp] theorem writeIn_spsr (m : Mode) (n : Reg) (v : Word) : (w.writeIn m n v).st.spsr = w.st.spsr := by
  unfold Work.writeIn; split <;> rfl
@[simp] theorem writeIn_mem (m : Mode) (n : Reg) (v : Word) : (w.writeIn m n v).st.mem = w.st.mem := by
  unfold Work.writeIn; split <;> rfl
@[simp] theorem write_cfg (n : Reg) (v : Word) : (w.write n v).st.cfg = w.st.cfg := writeIn_cfg w _ n v
@[simp] theorem write_cpsr (n : Reg) (v : Word) : (w.write n v).st.cpsr = w.st.cpsr := writeIn_cpsr w _ n v
@[simp] theorem write_spsr (n : Reg) (v : Word) : (w.write n v).st.spsr = w.st.spsr := writeIn_spsr w _ n v
@[simp] theorem write_mem (n : Reg) (v : Word) : (w.write n v).st.mem = w.st.mem := writeIn_mem w _ n v

/-! ## The end of a step -/

@[simp] theorem endOfStep_cfg (t : Bool) : (endOfStep t w).cfg = w.st.cfg := by unfold endOfStep; split <;> rfl
@[simp] theorem endOfStep_cpsr (t : Bool) : (endOfStep t w).cpsr = w.st.cpsr := by unfold endOfStep; split <;> rfl
@[simp] theorem endOfStep_spsr (t : Bool) : (endOfStep t w).spsr = w.st.spsr := by unfold endOfStep; split <;> rfl
@[simp] theorem endOfStep_mem (t : Bool) : (endOfStep t w).mem = w.st.mem := by unfold endOfStep; split <;> rfl
theorem endOfStep_cell {i : Slot} (t : Bool) (h : i ≠ 15) : (endOfStep t w).cell i = w.st.cell i := by
  unfold endOfStep; split <;> exact setSlot_cell_ne _ _ h
@[simp] theorem endOfStep_written (t : Bool) : ((endOfStep t w).cell 15).written = true := by
  unfold endOfStep; split <;> simp

/-- The stored pc after a step with a target, and without one (R207). -/
theorem endOfStep_pc_target {t : Bool} {a : Word} (h : w.target = some a) : (endOfStep t w).pc = alignTarget w.st.cpsr.t a := by
  simp [endOfStep, h, State.pc]
theorem endOfStep_pc_none {t : Bool} (h : w.target = none) : (endOfStep t w).pc = w.st.pc + instructionBytes t := by
  simp [endOfStep, h, State.pc]

theorem finishStep_ok (t : Bool) : finishStep t (.ok w) = .next (endOfStep t w) := rfl
theorem finishStep_error (t : Bool) (f : Fault) : finishStep t (.error f) = .fault f := rfl

/-- A finished step that answers a next state comes from a body that succeeded. -/
theorem finishStep_next {t : Bool} {r : Except Fault Work} {s' : State} (h : finishStep t r = .next s') :
    ∃ w, r = .ok w ∧ s' = endOfStep t w := by
  cases r with
  | ok w => exact ⟨w, rfl, (Host.Outcome.next.inj h).symm⟩
  | error f => cases h

/-- No finished step is a refusal. -/
theorem finishStep_not_refused (t : Bool) (r : Except Fault Work) (q : Refusal) : finishStep t r ≠ .refused q := by
  cases r <;> intro h <;> cases h

end Sys2Proof.Machine
end

