-- ==== Sys2Proof/Laws/Memory.lean ====
section
/-! SUPPORT. The byte store: a read after a write, and the canonical form that every write keeps. -/

namespace Sys2Proof.Machine

/-! ## One byte -/

theorem wfFrom_lo {lo lo' : Nat} {m : Memory} (h : Memory.wfFrom lo m = true) (hle : lo' ≤ lo) : Memory.wfFrom lo' m = true := by
  cases m with
  | nil => rfl
  | cons x rest =>
    simp only [Memory.wfFrom, Bool.and_eq_true, decide_eq_true_eq] at h ⊢
    exact ⟨⟨⟨by omega, h.1.1.2⟩, h.1.2⟩, h.2⟩

/-- An address below every listed one reads as unlisted. -/
theorem readByte_below {lo a : Nat} {m : Memory} (h : Memory.wfFrom lo m = true) (ha : a < lo) :
    m.readByte a = Memory.unlisted := by
  induction m generalizing lo with
  | nil => rfl
  | cons x rest ih =>
    obtain ⟨k, v⟩ := x
    simp only [Memory.wfFrom, Bool.and_eq_true, decide_eq_true_eq] at h
    have hk : k ≠ a := by omega
    simp only [Memory.readByte, hk, if_false]
    exact ih h.2 (by omega)

theorem readByte_entry_append {a b : Nat} {v : Byte} {rest : Memory} (hr : rest.readByte a = Memory.unlisted) :
    (Memory.entry a v ++ rest).readByte b = if b = a then v else rest.readByte b := by
  unfold Memory.entry
  split
  · next h =>
    split
    · next hb => rw [hb, List.nil_append, hr, h]
    · rfl
  · simp only [List.cons_append, List.nil_append, Memory.readByte]
    split <;> split <;> first | rfl | omega

/-- The byte read after a write: the written one at its address, any other unchanged. -/
theorem readByte_writeByte {lo a : Nat} {m : Memory} (h : Memory.wfFrom lo m = true) (v : Byte) (b : Nat) :
    (m.writeByte a v).readByte b = if b = a then v else m.readByte b := by
  induction m generalizing lo with
  | nil =>
    have := readByte_entry_append (a := a) (b := b) (v := v) (rest := []) rfl
    simpa [Memory.writeByte] using this
  | cons x rest ih =>
    obtain ⟨k, x⟩ := x
    simp only [Memory.wfFrom, Bool.and_eq_true, decide_eq_true_eq] at h
    unfold Memory.writeByte
    split
    · next hlt =>
      apply readByte_entry_append
      simp only [Memory.readByte, show k ≠ a by omega, if_false]
      exact readByte_below h.2 (by omega)
    · split
      · next hne heq =>
        subst heq
        rw [readByte_entry_append (readByte_below h.2 (by omega))]
        by_cases hb : b = a
        · simp [hb]
        · simp [Memory.readByte, hb, Ne.symm hb]
      · next hne hne' =>
        simp only [Memory.readByte]
        rw [ih h.2]
        split <;> split <;> first | rfl | omega

theorem wfFrom_entry_append {lo a : Nat} {v : Byte} {rest : Memory} (hlo : lo ≤ a) (ha : a < 2 ^ 32)
    (hr : Memory.wfFrom (a + 1) rest = true) : Memory.wfFrom lo (Memory.entry a v ++ rest) = true := by
  unfold Memory.entry
  split
  · exact wfFrom_lo hr (by omega)
  · next h =>
    simp only [List.cons_append, List.nil_append, Memory.wfFrom, Bool.and_eq_true, decide_eq_true_eq, bne_iff_ne]
    exact ⟨⟨⟨hlo, ha⟩, h⟩, hr⟩

/-- A write keeps the canonical form. -/
theorem wfFrom_writeByte {lo a : Nat} {m : Memory} (h : Memory.wfFrom lo m = true) (hlo : lo ≤ a) (ha : a < 2 ^ 32) (v : Byte) :
    Memory.wfFrom lo (m.writeByte a v) = true := by
  induction m generalizing lo with
  | nil =>
    have := wfFrom_entry_append (v := v) (rest := []) hlo ha rfl
    simpa [Memory.writeByte] using this
  | cons x rest ih =>
    obtain ⟨k, x⟩ := x
    have hfull := h
    simp only [Memory.wfFrom, Bool.and_eq_true, decide_eq_true_eq] at h
    unfold Memory.writeByte
    split
    · next hlt =>
      apply wfFrom_entry_append hlo ha
      simp only [Memory.wfFrom, Bool.and_eq_true, decide_eq_true_eq]
      exact ⟨⟨⟨by omega, h.1.1.2⟩, h.1.2⟩, h.2⟩
    · split
      · next hne heq =>
        subst heq
        exact wfFrom_entry_append hlo ha h.2
      · next hne hne' =>
        simp only [Memory.wfFrom, Bool.and_eq_true, decide_eq_true_eq]
        exact ⟨⟨⟨h.1.1.1, h.1.1.2⟩, h.1.2⟩, ih h.2 (by omega)⟩

/-! ## read8 and write8 -/

theorem write8_wf {m : Memory} (h : m.wf = true) (a : Word) (v : Byte) : (m.write8 a v).wf = true :=
  wfFrom_writeByte h (Nat.zero_le _) a.isLt v

/-- R82: the byte read after a write. -/
theorem read8_write8 {m : Memory} (h : m.wf = true) (a b : Word) (v : Byte) :
    (m.write8 a v).read8 b = if b = a then v else m.read8 b := by
  unfold Memory.read8 Memory.write8
  rw [readByte_writeByte h]
  by_cases hb : b = a
  · simp [hb]
  · have : b.toNat ≠ a.toNat := fun e => hb (BitVec.eq_of_toNat_eq e)
    simp [hb, this]

theorem read8_write8_ne {m : Memory} (h : m.wf = true) {a b : Word} (v : Byte) (hb : b ≠ a) :
    (m.write8 a v).read8 b = m.read8 b := by
  rw [read8_write8 h, if_neg hb]

/-! ## Halfwords and words -/

theorem write16_wf {m : Memory} (h : m.wf = true) (a : Word) (v : Half) : (m.write16 a v).wf = true :=
  write8_wf (write8_wf h _ _) _ _

theorem write32_wf {m : Memory} (h : m.wf = true) (a : Word) (v : Word) : (m.write32 a v).wf = true :=
  write8_wf (write8_wf (write8_wf (write8_wf h _ _) _ _) _ _) _ _

theorem read8_write16_outside {m : Memory} (h : m.wf = true) {a b : Word} (v : Half) (hb : inBytes a 2 b = false) :
    (m.write16 a v).read8 b = m.read8 b := by
  have h0 : b ≠ a := by
    rintro rfl; simp [inBytes] at hb
  have h1 : b ≠ a + 1#32 := by
    rintro rfl; simp [inBytes] at hb
  unfold Memory.write16
  rw [read8_write8_ne (write8_wf h _ _) _ h1, read8_write8_ne h _ h0]

theorem read8_write32_outside {m : Memory} (h : m.wf = true) {a b : Word} (v : Word) (hb : inBytes a 4 b = false) :
    (m.write32 a v).read8 b = m.read8 b := by
  have h0 : b ≠ a := by
    rintro rfl; simp [inBytes] at hb
  have h1 : b ≠ a + 1#32 := by
    rintro rfl; simp [inBytes] at hb
  have h2 : b ≠ a + 2#32 := by
    rintro rfl; simp [inBytes] at hb
  have h3 : b ≠ a + 3#32 := by
    rintro rfl; simp [inBytes] at hb
  unfold Memory.write32
  rw [read8_write8_ne (write8_wf (write8_wf (write8_wf h _ _) _ _) _ _) _ h3,
    read8_write8_ne (write8_wf (write8_wf h _ _) _ _) _ h2, read8_write8_ne (write8_wf h _ _) _ h1, read8_write8_ne h _ h0]

/-- The four bytes of a written word (R84). -/
theorem read8_write32 {m : Memory} (h : m.wf = true) (a : Word) (v : Word) {k : Nat} (hk : k < 4) :
    (m.write32 a v).read8 (a + BitVec.ofNat 32 k) = v.extractLsb' (8 * k) 8 := by
  have w0 := write8_wf h a (v.extractLsb' 0 8)
  have w1 := write8_wf w0 (a + 1#32) (v.extractLsb' 8 8)
  have w2 := write8_wf w1 (a + 2#32) (v.extractLsb' 16 8)
  have n01 : a ≠ a + 1#32 := by simp
  have n02 : a ≠ a + 2#32 := by simp
  have n03 : a ≠ a + 3#32 := by simp
  have n12 : a + 1#32 ≠ a + 2#32 := by simp
  have n13 : a + 1#32 ≠ a + 3#32 := by simp
  have n23 : a + 2#32 ≠ a + 3#32 := by simp
  unfold Memory.write32
  interval_cases k
  · rw [show a + BitVec.ofNat 32 0 = a by simp, read8_write8 w2, if_neg n03, read8_write8 w1, if_neg n02, read8_write8 w0, if_neg n01,
      read8_write8 h, if_pos rfl]
  · rw [read8_write8 w2, if_neg n13, read8_write8 w1, if_neg n12, read8_write8 w0, if_pos rfl]
  · rw [read8_write8 w2, if_neg n23, read8_write8 w1, if_pos rfl]
  · rw [read8_write8 w2, if_pos rfl]

/-- The two bytes of a written halfword (R84), and the halfword read after it (R83). -/
theorem read8_write16 {m : Memory} (h : m.wf = true) (a : Word) (v : Half) {k : Nat} (hk : k < 2) :
    (m.write16 a v).read8 (a + BitVec.ofNat 32 k) = v.extractLsb' (8 * k) 8 := by
  have w0 := write8_wf h a (v.extractLsb' 0 8)
  unfold Memory.write16
  interval_cases k
  · rw [show a + BitVec.ofNat 32 0 = a by simp, read8_write8 w0, if_neg (by simp), read8_write8 h, if_pos rfl]
  · rw [read8_write8 w0, if_pos rfl]

theorem read16_write16 {m : Memory} (h : m.wf = true) (a : Word) (v : Half) : (m.write16 a v).read16 a = v := by
  have h0 := read8_write16 h a v (k := 0) (by omega)
  rw [show a + BitVec.ofNat 32 0 = a by simp] at h0
  unfold Memory.read16
  rw [read8_write16 h a v (k := 1) (by omega), h0]
  apply BitVec.eq_of_getLsbD_eq
  intro i hi
  simp only [BitVec.getLsbD_append, BitVec.getLsbD_extractLsb']
  split
  · simp [*]
  · simp [show i - 8 < 8 by omega]; congr 1; omega

/-- R85: the word read after a word was written. -/
theorem read32_write32 {m : Memory} (h : m.wf = true) (a : Word) (v : Word) : (m.write32 a v).read32 a = v := by
  have h0 := read8_write32 h a v (k := 0) (by omega)
  rw [show a + BitVec.ofNat 32 0 = a by simp] at h0
  unfold Memory.read32
  rw [read8_write32 h a v (k := 3) (by omega), read8_write32 h a v (k := 2) (by omega), read8_write32 h a v (k := 1) (by omega), h0]
  apply BitVec.eq_of_getLsbD_eq
  intro i hi
  simp only [BitVec.getLsbD_append, BitVec.getLsbD_extractLsb']
  split
  · simp [*]
  · split
    · next h1 h2 => simp [h2]; congr 1; omega
    · split
      · next h1 h2 h3 => simp [h3]; congr 1; omega
      · next h1 h2 h3 => simp [show i - 8 - 8 - 8 < 8 by omega]; congr 1; omega

/-- A word that shares no byte with the stored ones reads as before. -/
theorem read32_write32_disjoint {m : Memory} (h : m.wf = true) {a b : Word} (v : Word)
    (hb : ∀ k, k < 4 → inBytes a 4 (b + BitVec.ofNat 32 k) = false) : (m.write32 a v).read32 b = m.read32 b := by
  have h0 := hb 0 (by omega)
  rw [show b + BitVec.ofNat 32 0 = b by simp] at h0
  unfold Memory.read32
  rw [read8_write32_outside h v h0, read8_write32_outside h v (hb 1 (by omega)), read8_write32_outside h v (hb 2 (by omega)),
    read8_write32_outside h v (hb 3 (by omega))]

end Sys2Proof.Machine
end

