-- ==== Sys2Proof/Laws/Ops.lean ====
section
/-! SUPPORT. What each shared operation of Machine/Ops.lean, Operands.lean and Flags.lean answers, said once. -/

namespace Sys2Proof.Machine

open Sys2Proof.Claims

/-! ## Sequencing -/

@[simp] theorem ok_bind {α β : Type} (a : α) (f : α → Except Fault β) : (Except.ok a >>= f) = f a := rfl
@[simp] theorem error_bind {α β : Type} (e : Fault) (f : α → Except Fault β) : ((Except.error e : Except Fault α) >>= f) = .error e := rfl

/-- A sequence succeeds exactly when both parts do. -/
theorem bind_eq_ok {α β : Type} {x : Except Fault α} {f : α → Except Fault β} {b : β} :
    (x >>= f) = .ok b ↔ ∃ a, x = .ok a ∧ f a = .ok b := by
  cases x with
  | ok a => simp
  | error e => simp

@[simp] theorem faultWhen_true (f : Fault) : faultWhen true f = .error f := rfl
@[simp] theorem faultWhen_false (f : Fault) : faultWhen false f = .ok () := rfl
theorem faultWhen_eq_ok {b : Bool} {f : Fault} {u : Unit} : faultWhen b f = .ok u ↔ b = false := by
  cases b <;> simp

/-! ## Slots (R37) -/

@[simp] theorem slotOf_pc (m : Mode) : slotOf m 15 = 15 := by cases m <;> rfl

theorem slotOf_injective : ∀ (m : Mode) (a b : Reg), slotOf m a = slotOf m b → a = b := by
  intro m; cases m <;> decide

theorem slotOf_inj {m : Mode} {a b : Reg} : slotOf m a = slotOf m b ↔ a = b :=
  ⟨slotOf_injective m a b, fun h => h ▸ rfl⟩

theorem slotOf_ne_pc {m : Mode} {n : Reg} (h : n ≠ 15) : slotOf m n ≠ 15 := by
  rw [← slotOf_pc m]; exact fun e => h (slotOf_injective m _ _ e)

theorem slotOf_low : ∀ (m : Mode) (r : LowReg), slotOf m (lowReg r) = lo r := by
  intro m; cases m <;> decide

theorem lowReg_ne_pc : ∀ r : LowReg, lowReg r ≠ 15 := by decide
theorem lo_ne_pc : ∀ r : LowReg, lo r ≠ 15 := by decide
theorem lowReg_inj : ∀ {a b : LowReg}, lowReg a = lowReg b ↔ a = b := by decide
theorem lowReg_lt : ∀ r : LowReg, lowReg r < 8 := by decide

/-- A User mode name never reaches a banked slot. -/
theorem slotOf_user_lt : ∀ n : Reg, (slotOf .user n).val < 16 := by decide

/-- The link register of an exception's mode. -/
@[simp] theorem slotOf_supervisor_lr : slotOf .supervisor 14 = 24 := rfl
@[simp] theorem slotOf_undefined_lr : slotOf .undefined 14 = 30 := rfl

/-! ## Modes and the status register -/

theorem modeOf_modeBits (m : Mode) : modeOf (modeBits m) = some m := by cases m <;> rfl

theorem requireMode_some {b : BitVec 5} {m : Mode} (h : modeOf b = some m) : requireMode b = .ok m := by
  simp [requireMode, h]
theorem requireMode_none {b : BitVec 5} (h : modeOf b = none) : requireMode b = .error .invalidMode := by
  simp [requireMode, h]
theorem requireMode_eq_ok {b : BitVec 5} {m : Mode} : requireMode b = .ok m ↔ modeOf b = some m := by
  unfold requireMode; cases modeOf b <;> simp

/-- `unpack` succeeds exactly on the seven modes, with the fields in their places. -/
theorem unpack_eq_ok {w : Word} {c : Cpsr} (h : Cpsr.unpack w = .ok c) :
    modeOf (w.extractLsb' 0 5) = some c.m ∧ c.n = w.getLsbD 31 ∧ c.z = w.getLsbD 30 ∧ c.c = w.getLsbD 29 ∧ c.v = w.getLsbD 28 ∧
    c.i = w.getLsbD 7 ∧ c.f = w.getLsbD 6 ∧ c.t = w.getLsbD 5 := by
  unfold Cpsr.unpack at h
  split at h
  · next m hm => cases h; exact ⟨requireMode_eq_ok.mp hm, rfl, rfl, rfl, rfl, rfl, rfl, rfl⟩
  · cases h

theorem unpack_none {w : Word} (h : modeOf (w.extractLsb' 0 5) = none) : Cpsr.unpack w = .error .invalidMode := by
  simp [Cpsr.unpack, requireMode_none h]

/-! ## Reads -/

/-- `x[n]` is its value. -/
theorem readReg_eq (n : Reg) (s : State) : readReg n s = x n s := by
  simp only [readReg, readSlot, x, reg]
  split
  · next hn => subst hn; simp [State.pc, pcBias]
  · rfl

theorem readRegPc12_eq (n : Reg) (s : State) : readRegPc12 n s = xPc12 n s := by
  simp only [readRegPc12, readSlot, xPc12, reg]
  split
  · next hn => subst hn; simp [State.pc]
  · rfl

theorem x_ne_pc {n : Reg} (h : n ≠ 15) (s : State) : x n s = reg n s := by simp [x, h]
theorem xPc12_ne_pc {n : Reg} (h : n ≠ 15) (s : State) : xPc12 n s = reg n s := by simp [xPc12, h]

theorem reg_low (r : LowReg) (s : State) : reg (lowReg r) s = low r s := by simp [reg, low, slotOf_low]
@[simp] theorem x_low (r : LowReg) (s : State) : x (lowReg r) s = low r s := by rw [x_ne_pc (lowReg_ne_pc r), reg_low]
@[simp] theorem xPc12_low (r : LowReg) (s : State) : xPc12 (lowReg r) s = low r s := by rw [xPc12_ne_pc (lowReg_ne_pc r), reg_low]
theorem readStoreValue_eq (n : Reg) (s : State) : readStoreValue n s = storeValue n s := by
  unfold readStoreValue storeValue
  split
  · rfl
  · next hn => rw [readReg_eq, x_ne_pc hn]

/-! ## Operands -/

theorem operand2_ok {o : Operand2} (h : Op2Ready o) (s : State) : operand2 o s = .ok (op2 o s) := by
  cases o with
  | imm rotate imm8 => rfl
  | regImm rm type amount => simp only [operand2, readReg_eq, op2]
  | regReg rm type rs =>
    have h15 : rs ≠ 15 := h
    simp [operand2, beq_false_of_ne h15, readRegPc12_eq, readReg_eq, op2, x_ne_pc h15, BitVec.extractLsb'_toNat]

/-- The second operand inverted: it answers only where no shift is by R15. -/
theorem operand2_eq_ok {o : Operand2} {s : State} {b : Shifted} (h : operand2 o s = .ok b) : Op2Ready o ∧ b = op2 o s := by
  have ho : Op2Ready o := by
    cases o with
    | imm => trivial
    | regImm => trivial
    | regReg rm type rs =>
      intro e
      subst e
      cases h
  rw [operand2_ok ho] at h
  exact ⟨ho, (Except.ok.inj h).symm⟩

theorem operand2_shiftByPc (rm : Reg) (type : ShiftType) (s : State) :
    operand2 (.regReg rm type 15) s = .error (.unpredictable .shiftByPc) := rfl

theorem firstOperand_eq (rn : Reg) (o : Operand2) (s : State) : firstOperand rn o s = op1 rn o s := by
  cases o <;> simp only [firstOperand, op1, readReg_eq, readRegPc12_eq]

theorem transferOffset_eq (off : TransferOffset) (s : State) : transferOffset off s = offset off s := by
  cases off <;> simp only [transferOffset, readReg_eq, offset]

theorem offsetIsPc_iff {off : TransferOffset} : offsetIsPc off = true ↔ offsetRegIsPc off := by
  cases off <;> simp [offsetIsPc, offsetRegIsPc]

theorem halfOffset_eq (off : HalfOffset) (s : State) : halfOffset off s = halfOff off s := by
  cases off <;> simp only [halfOffset, readReg_eq, halfOff]

theorem halfOffsetIsPc_iff {off : HalfOffset} : halfOffsetIsPc off = true ↔ halfRegIsPc off := by
  cases off <;> simp [halfOffsetIsPc, halfRegIsPc]

theorem offsetBase_eq_effective (u : Bool) (rn : Reg) (off : Word) (s : State) :
    offsetBase u (x rn s) off = effective u rn off s := rfl

theorem accessAddress_effective (p u : Bool) (rn : Reg) (off : Word) (s : State) :
    accessAddress p (x rn s) (effective u rn off s) = address p u rn off s := rfl

/-! ## Memory accesses -/

theorem loadWord_eq (a : Word) (s : State) : loadWord a s = wordAt a s := by
  unfold loadWord wordAt wordAlign
  cases s.cfg.misaligned
  · rfl
  · simp [BitVec.extractLsb'_toNat]

theorem storeWordAddress_eq (cfg : Config) (a : Word) : storeWordAddress cfg a = wordStoreAt cfg a := by
  unfold storeWordAddress wordStoreAt wordAlign
  cases cfg.misaligned <;> rfl

theorem storeWord_eq (a v : Word) (s : State) : storeWord a v s = s.setMem (s.mem.write32 (wordStoreAt s.cfg a) v) := by
  rw [storeWord, storeWordAddress_eq]

theorem checkHalf_ok {a : Word} {s : State} (h : HalfReady a s) : checkHalf a s = .ok () := by
  unfold checkHalf
  rcases h with h | h
  · simp [h]
  · simp only [h]; cases s.cfg.misaligned <;> rfl

theorem checkHalf_error {a : Word} {s : State} (h : ¬ HalfReady a s) : checkHalf a s = .error (.unpredictable .misalignedHalfword) := by
  unfold checkHalf
  unfold HalfReady at h
  cases hm : s.cfg.misaligned
  · exact absurd (.inl hm) h
  · cases ha : a.getLsbD 0
    · exact absurd (.inr ha) h
    · rfl

/-- An address whose two low bits are 0 loads and stores the same bytes under both settings (R88). -/
theorem wordAt_aligned {a : Word} (h : a &&& 0xFFFFFFFC#32 = a) (s : State) : wordAt a s = s.mem.read32 a := by
  unfold wordAt
  cases s.cfg.misaligned with
  | byteExact => rfl
  | arm7tdmi =>
    have : a.toNat % 4 = 0 := by
      have h2 := congrArg (fun b : Word => b.extractLsb' 0 2) h
      have : a.extractLsb' 0 2 = 0#2 := by
        rw [← h2]; ext i hi; interval_cases i <;> simp
      have := congrArg BitVec.toNat this
      simpa [BitVec.extractLsb'_toNat] using this
    simp [h, this, BitVec.rotateRight, BitVec.rotateRightAux]

theorem wordStoreAt_aligned {a : Word} (h : a &&& 0xFFFFFFFC#32 = a) (cfg : Config) : wordStoreAt cfg a = a := by
  unfold wordStoreAt
  cases cfg.misaligned
  · rfl
  · exact h

/-! ## Alignment -/

/-- Two low bits clear, as a remainder. -/
theorem and_three_eq_zero {a : Word} : a &&& 3#32 = 0#32 ↔ a.toNat % 4 = 0 := by
  rw [← BitVec.toNat_inj, BitVec.toNat_and]
  have : (3#32).toNat = 2 ^ 2 - 1 := rfl
  rw [this, Nat.and_two_pow_sub_one_eq_mod]
  simp

/-- The multiples of 4 are the words that clearing bits 1:0 keeps. -/
theorem and_word_mask {a : Word} : a &&& 0xFFFFFFFC#32 = a ↔ a.toNat % 4 = 0 := by
  rw [← and_three_eq_zero]
  have key : a &&& 0xFFFFFFFC#32 = a - (a &&& 3#32) := by
    have h : (a &&& 0xFFFFFFFC#32) + (a &&& 3#32) = a := by
      rw [BitVec.add_eq_or_of_and_eq_zero]
      · rw [← BitVec.and_or_distrib_left, show (0xFFFFFFFC#32 ||| 3#32) = BitVec.allOnes 32 from rfl, BitVec.and_allOnes]
      · rw [show (a &&& 0xFFFFFFFC#32) &&& (a &&& 3#32) = a &&& a &&& (0xFFFFFFFC#32 &&& 3#32) by ac_rfl]; simp
    rw [BitVec.eq_sub_iff_add_eq, h]
  rw [key]
  constructor
  · intro h
    have := congrArg (fun b => a - b) h
    simpa using this
  · intro h; simp [h]

/-- The even words are those that clearing bit 0 keeps. -/
theorem and_half_mask {a : Word} : a &&& 0xFFFFFFFE#32 = a ↔ a.toNat % 2 = 0 := by
  have h1 : a &&& 1#32 = 0#32 ↔ a.toNat % 2 = 0 := by
    rw [← BitVec.toNat_inj, BitVec.toNat_and]
    have : (1#32).toNat = 2 ^ 1 - 1 := rfl
    rw [this, Nat.and_two_pow_sub_one_eq_mod]
    simp
  rw [← h1]
  have key : a &&& 0xFFFFFFFE#32 = a - (a &&& 1#32) := by
    have h : (a &&& 0xFFFFFFFE#32) + (a &&& 1#32) = a := by
      rw [BitVec.add_eq_or_of_and_eq_zero]
      · rw [← BitVec.and_or_distrib_left, show (0xFFFFFFFE#32 ||| 1#32) = BitVec.allOnes 32 from rfl, BitVec.and_allOnes]
      · rw [show (a &&& 0xFFFFFFFE#32) &&& (a &&& 1#32) = a &&& a &&& (0xFFFFFFFE#32 &&& 1#32) by ac_rfl]; simp
    rw [BitVec.eq_sub_iff_add_eq, h]
  rw [key]
  constructor
  · intro h
    have := congrArg (fun b => a - b) h
    simpa using this
  · intro h; simp [h]

/-- An aligned target stays as it is. -/
theorem alignTarget_idem (t : Bool) (a : Word) : alignTarget t (alignTarget t a) = alignTarget t a := by
  cases t <;> simp [alignTarget, BitVec.and_assoc]

/-- The next instruction's address keeps the alignment (R54). -/
theorem alignTarget_next {t : Bool} {a : Word} (h : alignTarget t a = a) :
    alignTarget t (a + instructionBytes t) = a + instructionBytes t := by
  cases t
  · have h' := and_word_mask.mp h
    refine and_word_mask.mpr ?_
    simp only [instructionBytes, Bool.false_eq_true, if_false, BitVec.toNat_add, BitVec.toNat_ofNat]
    omega
  · have h' := and_half_mask.mp h
    refine and_half_mask.mpr ?_
    simp only [instructionBytes, if_true, BitVec.toNat_add, BitVec.toNat_ofNat]
    omega

/-! ## The step's frame -/

theorem armStep_pass {c : Cond} {s : State} (h : conditionPassed c s.cpsr = true) (body : Work → Except Fault Work) :
    armStep c body s = finishStep false (body s.begin) := by simp [armStep, h]

theorem armStep_fail {c : Cond} {s : State} (h : conditionPassed c s.cpsr = false) (body : Work → Except Fault Work) :
    armStep c body s = .next (advance s 4#32) := by simp [armStep, h]; rfl

theorem armStep_ok {c : Cond} {s : State} {body : Work → Except Fault Work} {w : Work} (h : conditionPassed c s.cpsr = true)
    (hb : body s.begin = .ok w) : armStep c body s = .next (endOfStep false w) := by
  rw [armStep_pass h, hb, finishStep_ok]

theorem armStep_error {c : Cond} {s : State} {body : Work → Except Fault Work} {f : Fault} (h : conditionPassed c s.cpsr = true)
    (hb : body s.begin = .error f) : armStep c body s = .fault f := by
  rw [armStep_pass h, hb, finishStep_error]

theorem thumbStep_ok {s : State} {body : Work → Except Fault Work} {w : Work} (hb : body s.begin = .ok w) :
    thumbStep body s = .next (endOfStep true w) := by
  rw [thumbStep, hb, finishStep_ok]

theorem thumbStep_error {s : State} {body : Work → Except Fault Work} {f : Fault} (hb : body s.begin = .error f) :
    thumbStep body s = .fault f := by
  rw [thumbStep, hb, finishStep_error]

/-- What a step that answers a next state did: its condition failed and only the pc moved, or its body succeeded. -/
theorem armStep_next {c : Cond} {body : Work → Except Fault Work} {s t : State} (h : armStep c body s = .next t) :
    (conditionPassed c s.cpsr = false ∧ t = advance s 4#32) ∨
    ∃ w, conditionPassed c s.cpsr = true ∧ body s.begin = .ok w ∧ t = endOfStep false w := by
  unfold armStep at h
  split at h
  · next hc =>
    obtain ⟨w, hw, ht⟩ := finishStep_next h
    exact .inr ⟨w, hc, hw, ht⟩
  · next hc => exact .inl ⟨by simpa using hc, (Host.Outcome.next.inj h).symm⟩

theorem thumbStep_next {body : Work → Except Fault Work} {s t : State} (h : thumbStep body s = .next t) :
    ∃ w, body s.begin = .ok w ∧ t = endOfStep true w := finishStep_next h

theorem endOfStep_target {w : Work} {a : Word} (t : Bool) (h : w.target = some a) :
    endOfStep t w = w.st.setSlot 15 (jump w.st.cpsr.t a) := by simp [endOfStep, h, alignTarget, jump]
theorem endOfStep_none {w : Work} (t : Bool) (h : w.target = none) :
    endOfStep t w = w.st.setSlot 15 (w.st.pc + if t then 2#32 else 4#32) := by simp [endOfStep, h, instructionBytes]

/-- The end of a step whose last act was a branch, a status write after a branch, or neither. -/
theorem finishStep_branch (t : Bool) (w : Work) (a : Word) :
    finishStep t (.ok (w.branch a)) = .next (w.st.setSlot 15 (jump w.st.cpsr.t a)) := by
  rw [finishStep_ok, endOfStep_target (a := a) t (branch_target w a)]; simp
theorem finishStep_branch_setCpsr (t : Bool) (w : Work) (a : Word) (c : Cpsr) :
    finishStep t (.ok ((w.branch a).setCpsr c)) = .next ((w.st.setCpsr c).setSlot 15 (jump c.t a)) := by
  rw [finishStep_ok, endOfStep_target (a := a) t (by rw [workSetCpsr_target, branch_target])]; simp
theorem finishStep_plain (t : Bool) (s : State) :
    finishStep t (.ok s.begin) = .next (s.setSlot 15 (s.pc + if t then 2#32 else 4#32)) := by
  rw [finishStep_ok, endOfStep_none t (begin_target s)]; simp
theorem finishStep_plain_st (t : Bool) (s u : State) :
    finishStep t (.ok { s.begin with st := u }) = .next (u.setSlot 15 (u.pc + if t then 2#32 else 4#32)) := finishStep_plain t u

theorem setSlot_pc_ne (s : State) {i : Slot} (v : Word) (h : i ≠ 15) : (s.setSlot i v).pc = s.pc := by
  simp [State.pc, setSlot_cell_ne s v h.symm]

/-- The end of a step that wrote register d as its last act. -/
theorem finishStep_write_reg (t : Bool) {d : Reg} (h : d ≠ 15) (v : Word) (u : State) :
    finishStep t (.ok (u.begin.write d v)) =
      .next ((u.setSlot (slotOf u.cpsr.m d) v).setSlot 15 (u.pc + if t then 2#32 else 4#32)) := by
  rw [write_reg _ v h]
  simp only [begin_st]
  rw [show ({ u.begin with st := u.setSlot (slotOf u.cpsr.m d) v } : Work) = (u.setSlot (slotOf u.cpsr.m d) v).begin from rfl,
    finishStep_plain, setSlot_pc_ne u v (slotOf_ne_pc h)]

/-! ## The flags and the return -/

theorem withLogical_eq (c : Cpsr) (r : Word) (carry : Bool) : c.withLogical r carry = nzc c r carry := by
  simp [Cpsr.withLogical, Cpsr.withNZ, nzc, BitVec.msb_eq_getLsbD_last, beq_eq_decide]

theorem withArithmetic_eq (c : Cpsr) (r : AluResult) : c.withArithmetic r = nzcv c r := by
  simp [Cpsr.withArithmetic, Cpsr.withNZ, nzcv, BitVec.msb_eq_getLsbD_last, beq_eq_decide]

theorem restoreCpsr_none {w : Work} (h : spsrOf w.st.cpsr.m = none) : restoreCpsr w = .ok w := by simp [restoreCpsr, h]
theorem restoreCpsr_some {w : Work} {n : SpsrName} {c : Cpsr} (h : spsrOf w.st.cpsr.m = some n)
    (hc : Cpsr.unpack (w.st.spsr.get n).value = .ok c) :
    restoreCpsr w = .ok (w.setCpsr c) := by
  simp [restoreCpsr, h, readSpsr, hc]
theorem restoreCpsr_invalid {w : Work} {n : SpsrName} (h : spsrOf w.st.cpsr.m = some n)
    (hc : modeOf ((w.st.spsr.get n).value.extractLsb' 0 5) = none) :
    restoreCpsr w = .error .invalidMode := by
  simp [restoreCpsr, h, readSpsr, unpack_none hc]

/-- Everything a return that succeeds can do. -/
theorem restoreCpsr_eq_ok {w w' : Work} (h : restoreCpsr w = .ok w') :
    (spsrOf w.st.cpsr.m = none ∧ w' = w) ∨
    ∃ n c, spsrOf w.st.cpsr.m = some n ∧ Cpsr.unpack (w.st.spsr.get n).value = .ok c ∧ w' = w.setCpsr c := by
  unfold restoreCpsr at h
  split at h
  · next hn => exact .inl ⟨hn, (Except.ok.inj h).symm⟩
  · next n hn =>
    obtain ⟨c, hc, h⟩ := bind_eq_ok.mp h
    exact .inr ⟨n, c, hn, hc, (Except.ok.inj h).symm⟩

/-- Everything an undefined instruction can do. -/
theorem undefinedInstruction_eq_ok {k : Unimplemented} {ret : Word} {w w' : Work} (h : undefinedInstruction k ret w = .ok w') :
    w.st.cfg.undefined = .trap ∧ w' = takeException .undefinedInstruction ret w := by
  unfold undefinedInstruction at h
  split at h
  · cases h
  · next hu => exact ⟨hu, (Except.ok.inj h).symm⟩

end Sys2Proof.Machine
end

