-- ==== Sys2Proof/Laws/DataProcessing.lean ====
section
/-! SUPPORT. What the shared steps of data processing answer: each operation's result when its second operand answers. -/

namespace Sys2Proof.Machine

open Sys2Proof.Claims

/-! ## Flags and results -/

theorem setLogicalFlags_eq (s : Bool) (d : Reg) (r : Word) (carry : Bool) (w : Work) :
    setLogicalFlags s d r carry w = w.setCpsr (if s && d != 15 then nzc w.st.cpsr r carry else w.st.cpsr) := by
  unfold setLogicalFlags
  split <;> simp [withLogical_eq, Work.setCpsr]

theorem setArithmeticFlags_eq (s : Bool) (d : Reg) (r : AluResult) (w : Work) :
    setArithmeticFlags s d r w = w.setCpsr (if s && d != 15 then nzcv w.st.cpsr r else w.st.cpsr) := by
  unfold setArithmeticFlags
  split <;> simp [withArithmetic_eq, Work.setCpsr]

theorem writeResult_reg (s : Bool) {d : Reg} (h : d ≠ 15) (v : Word) (w : Work) :
    writeResult s d v w = .ok { w with st := w.st.setSlot (slotOf w.st.cpsr.m d) v } := by
  simp [writeResult, restoreCpsrIf, beq_false_of_ne h, write_reg w v h]

theorem writeResult_pc (s : Bool) (v : Word) (w : Work) : writeResult s 15 v w = restoreCpsrIf s (w.branch v) := by
  simp [writeResult]

/-- The rotated immediate's value (R254). -/
theorem rotatedImm_value (cin : Bool) (rotate : BitVec 4) (imm8 : BitVec 8) :
    (rotatedImm cin rotate imm8).value = (imm8.zeroExtend 32).rotateRight (2 * rotate.toNat) := by
  unfold rotatedImm shift
  split
  · next h => rw [h]; simp [BitVec.rotateRight, BitVec.rotateRightAux]
  · rw [if_pos (by omega)]; rfl

/-! ## The operations -/

theorem logicalOp_ok {o : Operand2} {w : Work} (ho : Op2Ready o) (rn : Reg) (f : Word → Word → Word)
    (s : Bool) (rd : Reg) :
    logicalOp f s rn rd o w =
      writeResult s rd (f (op1 rn o w.st) (op2 o w.st).value)
        (w.setCpsr (if s && rd != 15 then nzc w.st.cpsr (f (op1 rn o w.st) (op2 o w.st).value) (op2 o w.st).carry else w.st.cpsr)) := by
  simp only [logicalOp, operand2_ok ho, firstOperand_eq, ok_bind, setLogicalFlags_eq]

theorem moveOp_ok {o : Operand2} {w : Work} (ho : Op2Ready o) (f : Word → Word) (s : Bool) (rd : Reg) :
    moveOp f s rd o w =
      writeResult s rd (f (op2 o w.st).value)
        (w.setCpsr (if s && rd != 15 then nzc w.st.cpsr (f (op2 o w.st).value) (op2 o w.st).carry else w.st.cpsr)) := by
  simp only [moveOp, operand2_ok ho, ok_bind, setLogicalFlags_eq]

theorem arithmeticOp_ok {o : Operand2} {w : Work} (ho : Op2Ready o) (rn : Reg) (f : AluOp) (s : Bool)
    (rd : Reg) :
    arithmeticOp f s rn rd o w =
      writeResult s rd (f w.st.cfg (op1 rn o w.st) (op2 o w.st).value w.st.cpsr.c).value
        (w.setCpsr (if s && rd != 15 then nzcv w.st.cpsr (f w.st.cfg (op1 rn o w.st) (op2 o w.st).value w.st.cpsr.c)
          else w.st.cpsr)) := by
  simp only [arithmeticOp, operand2_ok ho, firstOperand_eq, ok_bind, setArithmeticFlags_eq]

theorem logicalTest_ok {o : Operand2} {w : Work} (ho : Op2Ready o) (rn : Reg) (f : Word → Word → Word)
    (rd : Reg) :
    logicalTest f rn rd o w =
      .ok (w.setCpsr (if rd != 15 then nzc w.st.cpsr (f (op1 rn o w.st) (op2 o w.st).value) (op2 o w.st).carry else w.st.cpsr)) := by
  simp [logicalTest, operand2_ok ho, firstOperand_eq, setLogicalFlags_eq]

theorem arithmeticTest_ok {o : Operand2} {w : Work} (ho : Op2Ready o) (rn : Reg) (f : AluOp) (rd : Reg) :
    arithmeticTest f rn rd o w =
      .ok (w.setCpsr (if rd != 15 then nzcv w.st.cpsr (f w.st.cfg (op1 rn o w.st) (op2 o w.st).value w.st.cpsr.c)
        else w.st.cpsr)) := by
  simp [arithmeticTest, operand2_ok ho, firstOperand_eq, setArithmeticFlags_eq]

theorem readOnlyTest_ok {o : Operand2} (ho : Op2Ready o) (w : Work) : readOnlyTest o w = .ok w := by
  simp [readOnlyTest, operand2_ok ho]

/-- The end of a step that wrote register d and then, when S = 1 and d = 15, returned (R298, R299). -/
theorem finish_writeResult_reg (t s : Bool) {d : Reg} (h : d ≠ 15) (v : Word) (st : State) (c : Cpsr) :
    finishStep t (writeResult s d v (st.begin.setCpsr c)) =
      .next (((st.setCpsr c).setSlot (slotOf c.m d) v).setSlot 15 (st.pc + if t then 2#32 else 4#32)) := by
  rw [writeResult_reg s h]
  exact (finishStep_write_reg t h v (st.setCpsr c) ▸ by rw [write_reg _ v h]; rfl)

/-- The adder's values (R263, R264). -/
theorem addWithCarry_value (a b : Word) (cin : Bool) : (addWithCarry a b cin).value = a + b + (if cin then 1#32 else 0#32) := by
  apply BitVec.eq_of_toNat_eq
  cases cin <;> simp [addWithCarry, BitVec.toNat_ofNat]

theorem subWithBorrow_value (cfg : Config) (a b : Word) (bin : Bool) :
    (subWithBorrow cfg a b bin).value = a - b - (if bin then 1#32 else 0#32) := by
  apply BitVec.eq_of_toNat_eq
  have ha := a.isLt
  have hb := b.isLt
  cases bin <;> simp only [subWithBorrow, BitVec.toNat_ofInt, BitVec.toNat_sub, Bool.toNat_false, Bool.toNat_true, if_true, if_false,
    Bool.false_eq_true, BitVec.toNat_ofNat] <;> omega

end Sys2Proof.Machine
end

