-- ==== Sys2Proof/Laws/LoadStore.lean ====
section
/-! SUPPORT. What the shared bodies of the single and halfword transfers, the swap and the multiplies answer when their checks pass. -/

namespace Sys2Proof.Machine

open Sys2Proof.Claims

/-! ## Products -/

/-- The 64-bit products are the exact ones (R343). -/
theorem unsignedProduct_eq (a b : Word) : unsignedProduct a b = BitVec.ofNat 64 (a.toNat * b.toNat) := by
  apply BitVec.eq_of_toNat_eq
  simp [unsignedProduct, BitVec.toNat_mul]

theorem signedProduct_eq (a b : Word) : signedProduct a b = BitVec.ofInt 64 (a.toInt * b.toInt) := by
  apply BitVec.eq_of_toInt_eq
  rw [signedProduct, BitVec.toInt_mul, BitVec.toInt_signExtend_of_le (by omega), BitVec.toInt_signExtend_of_le (by omega),
    BitVec.toInt_ofInt]

theorem setMultiplyFlags_eq (s : Bool) (d : Reg) (r : Word) (w : Work) :
    setMultiplyFlags s d r w = w.setCpsr (if s && d != 15 then nzc w.st.cpsr r false else w.st.cpsr) := by
  unfold setMultiplyFlags
  split <;> simp [withLogical_eq, Work.setCpsr]

/-! ## Transfers -/

theorem writeBackBase_eq {b : Bool} {rn : Reg} (h : b = true → rn ≠ 15) (ea : Word) (w : Work) :
    writeBackBase b rn ea w = { w with st := withBase b rn ea w.st } := by
  cases b with
  | false => rfl
  | true => simp [writeBackBase, withBase, write_reg _ _ (h rfl)]

theorem singleLoad_ok {byte p u wb : Bool} {rn rd : Reg} {off : TransferOffset} {s : State} (ho : ¬ offsetRegIsPc off)
    (hb : writesBack p wb = true → rn ≠ 15 ∧ rn ≠ rd) (hd : byte = true → rd ≠ 15) :
    singleLoad byte p u wb rn rd off s.begin =
      .ok ((withBase (writesBack p wb) rn (effective u rn (offset off s) s) s).begin.write rd
        (if byte then (s.mem.read8 (address p u rn (offset off s) s)).zeroExtend 32
          else wordAt (address p u rn (offset off s) s) s)) := by
  have h1 : offsetIsPc off = false := by rw [← Bool.not_eq_true, offsetIsPc_iff]; exact ho
  have h2 : (writesBack p wb && rn == 15) = false := by
    cases h : writesBack p wb
    · rfl
    · simp [(hb h).1]
  have h3 : (writesBack p wb && rn == rd) = false := by
    cases h : writesBack p wb
    · rfl
    · simp [(hb h).2]
  have h4 : (byte && rd == 15) = false := by
    cases h : byte
    · rfl
    · simp [hd h]
  simp only [singleLoad, loadChecks, h1, h2, h3, h4, faultWhen_false, ok_bind, begin_st, transferOffset_eq, readReg_eq,
    loadWord_eq, loadByte, offsetBase_eq_effective, writeBackBase_eq (fun h => (hb h).1)]
  rfl

theorem singleStore_ok {byte p u wb : Bool} {rn rd : Reg} {off : TransferOffset} {s : State} (ho : ¬ offsetRegIsPc off)
    (hb : writesBack p wb = true → rn ≠ 15) :
    singleStore byte p u wb rn rd off s.begin =
      .ok (withBase (writesBack p wb) rn (effective u rn (offset off s) s)
        (s.setMem (if byte then s.mem.write8 (address p u rn (offset off s) s) ((storeValue rd s).extractLsb' 0 8)
          else s.mem.write32 (wordStoreAt s.cfg (address p u rn (offset off s) s)) (storeValue rd s)))).begin := by
  have h1 : offsetIsPc off = false := by rw [← Bool.not_eq_true, offsetIsPc_iff]; exact ho
  have h2 : (writesBack p wb && rn == 15) = false := by
    cases h : writesBack p wb
    · rfl
    · simp [hb h]
  simp only [singleStore, storeChecks, h1, h2, faultWhen_false, ok_bind, begin_st, transferOffset_eq, readReg_eq,
    readStoreValue_eq, storeWord_eq, storeByte, offsetBase_eq_effective, writeBackBase_eq hb]
  cases byte <;> rfl

theorem halfTransferLoad_ok {load : Word → State → Except Fault Word} {p u wb : Bool} {rn rd : Reg} {off : HalfOffset} {s : State}
    {v : Word} (hw : ¬ (p = false ∧ wb = true)) (ho : ¬ halfRegIsPc off) (hb : p = false ∨ wb = true → rn ≠ 15 ∧ rn ≠ rd)
    (hd : rd ≠ 15) (hv : load (address p u rn (halfOff off s) s) s = .ok v) :
    halfTransferLoad load p u wb rn rd off s.begin =
      .ok ((withBase (!p || wb) rn (effective u rn (halfOff off s) s) s).begin.write rd v) := by
  have h0 : (!p && wb) = false := by cases p <;> cases wb <;> simp_all
  have h1 : halfOffsetIsPc off = false := by rw [← Bool.not_eq_true, halfOffsetIsPc_iff]; exact ho
  have hb' : writesBack p wb = true → rn ≠ 15 ∧ rn ≠ rd := fun h => hb (by cases p <;> simp_all [writesBack])
  have h2 : (writesBack p wb && rn == 15) = false := by
    cases h : writesBack p wb
    · rfl
    · simp [(hb' h).1]
  have h3 : (writesBack p wb && rn == rd) = false := by
    cases h : writesBack p wb
    · rfl
    · simp [(hb' h).2]
  simp only [halfTransferLoad, halfLoadChecks, h0, h1, h2, h3, beq_false_of_ne hd, faultWhen_false, ok_bind, begin_st,
    halfOffset_eq, readReg_eq, accessAddress_effective, hv, offsetBase_eq_effective, writeBackBase_eq (fun h => (hb' h).1)]
  rfl

theorem halfTransferStore_ok {p u wb : Bool} {rn rd : Reg} {off : HalfOffset} {s : State} (hw : ¬ (p = false ∧ wb = true))
    (ho : ¬ halfRegIsPc off) (hb : p = false ∨ wb = true → rn ≠ 15)
    (ha : HalfReady (address p u rn (halfOff off s) s) s) :
    halfTransferStore p u wb rn rd off s.begin =
      .ok (withBase (!p || wb) rn (effective u rn (halfOff off s) s)
        (s.setMem (s.mem.write16 (address p u rn (halfOff off s) s) ((storeValue rd s).extractLsb' 0 16)))).begin := by
  have h0 : (!p && wb) = false := by cases p <;> cases wb <;> simp_all
  have h1 : halfOffsetIsPc off = false := by rw [← Bool.not_eq_true, halfOffsetIsPc_iff]; exact ho
  have hb' : writesBack p wb = true → rn ≠ 15 := fun h => hb (by cases p <;> simp_all [writesBack])
  have h2 : (writesBack p wb && rn == 15) = false := by
    cases h : writesBack p wb
    · rfl
    · simp [hb' h]
  simp only [halfTransferStore, halfStoreChecks, h0, h1, h2, faultWhen_false, ok_bind, begin_st, halfOffset_eq, readReg_eq,
    readStoreValue_eq, accessAddress_effective, storeHalf, checkHalf_ok ha, offsetBase_eq_effective, writeBackBase_eq hb']
  rfl

theorem loadHalf_ok {a : Word} {s : State} (h : HalfReady a s) : loadHalf a s = .ok ((s.mem.read16 a).zeroExtend 32) := by
  simp only [loadHalf, checkHalf_ok h, ok_bind]
theorem loadSHalf_ok {a : Word} {s : State} (h : HalfReady a s) : loadSHalf a s = .ok ((s.mem.read16 a).signExtend 32) := by
  simp only [loadSHalf, checkHalf_ok h, ok_bind]

theorem withBase_pc {b : Bool} {rn : Reg} (h : b = true → rn ≠ 15) (v : Word) (s : State) : (withBase b rn v s).pc = s.pc := by
  cases b with
  | false => rfl
  | true => exact setSlot_pc_ne s v (slotOf_ne_pc (h rfl))
@[simp] theorem withBase_cpsr (b : Bool) (rn : Reg) (v : Word) (s : State) : (withBase b rn v s).cpsr = s.cpsr := by cases b <;> rfl
@[simp] theorem withBase_mem (b : Bool) (rn : Reg) (v : Word) (s : State) : (withBase b rn v s).mem = s.mem := by cases b <;> rfl
@[simp] theorem withBase_cfg (b : Bool) (rn : Reg) (v : Word) (s : State) : (withBase b rn v s).cfg = s.cfg := by cases b <;> rfl
@[simp] theorem withBase_spsr (b : Bool) (rn : Reg) (v : Word) (s : State) : (withBase b rn v s).spsr = s.spsr := by cases b <;> rfl

end Sys2Proof.Machine
end

