-- ==== Sys2Proof/Laws/Block.lean ====
section
/-! SUPPORT. Block transfers: the addresses in closed form, the stores of an STM and the register writes of an LDM. -/

namespace Sys2Proof.Machine

open Sys2Proof.Claims

/-! ## Lists -/

theorem mem_listedRegs {list : BitVec 16} {i : Reg} : i ∈ listedRegs list ↔ Listed list i := by
  have : ∀ i : Reg, i ∈ allRegs := by decide
  simp [listedRegs, Listed, this i]

theorem listedRegs_sorted (list : BitVec 16) : (listedRegs list).Pairwise (· < ·) :=
  List.Pairwise.filter _ (by decide)

theorem popcount_eq (list : BitVec 16) : popcount list = (listedRegs list).length := rfl

theorem rank_eq (list : BitVec 16) (i : Reg) : rank list i = ((listedRegs list).filter (fun r => decide (r < i))).length := by
  rw [rank, listedRegs, List.filter_filter]

theorem popcount_le (list : BitVec 16) : popcount list ≤ 16 := by
  rw [popcount_eq]; exact (List.length_filter_le _ _).trans (by decide)

theorem rank_lt {list : BitVec 16} {i : Reg} (h : Listed list i) : rank list i < popcount list := by
  rw [rank_eq, popcount_eq]
  have hmem := mem_listedRegs.mpr h
  refine lt_of_le_of_ne (List.length_filter_le _ _) fun e => ?_
  have := List.length_filter_eq_length_iff.mp e i hmem
  simp at this

theorem rank_injective {list : BitVec 16} {i j : Reg} (hi : Listed list i) (hij : i < j) : rank list i < rank list j := by
  rw [rank_eq, rank_eq]
  have hsub : (listedRegs list).filter (fun r => decide (r < i)) = ((listedRegs list).filter (fun r => decide (r < j))).filter
      (fun r => decide (r < i)) := by
    rw [List.filter_filter]
    apply List.filter_congr
    intro r _
    by_cases h : r < i
    · simp [h, h.trans hij]
    · simp [h]
  rw [hsub]
  refine lt_of_le_of_ne (List.length_filter_le _ _) fun e => ?_
  have hm : i ∈ (listedRegs list).filter (fun r => decide (r < j)) := by
    rw [List.mem_filter]; exact ⟨mem_listedRegs.mpr hi, by simpa using hij⟩
  have := List.length_filter_eq_length_iff.mp e i hm
  simp at this

/-! ## Addresses -/

/-- The number of elements below i, of a rising list whose head lies below i. -/
theorem filter_lt_cons {h : Reg} {rest : List Reg} {i : Reg} (hi : h < i) :
    ((h :: rest).filter (fun r => decide (r < i))).length = (rest.filter (fun r => decide (r < i))).length + 1 := by
  simp [hi]

theorem filter_lt_head {h : Reg} {rest : List Reg} (hs : (h :: rest).Pairwise (· < ·)) :
    ((h :: rest).filter (fun r => decide (r < h))).length = 0 := by
  rw [List.length_eq_zero_iff, List.filter_eq_nil_iff]
  intro r hr
  rcases List.mem_cons.mp hr with rfl | hr
  · simp
  · have := (List.pairwise_cons.mp hs).1 r hr
    simp [this.le]

theorem four_succ (n : Nat) : BitVec.ofNat 32 (4 * (n + 1)) = 4#32 + BitVec.ofNat 32 (4 * n) := by
  rw [Nat.mul_add, Nat.add_comm, BitVec.ofNat_add]

theorem risingAddresses_eq (a : Word) {l : List Reg} (hs : l.Pairwise (· < ·)) :
    risingAddresses a l = l.map (fun i => (i, a + BitVec.ofNat 32 (4 * (l.filter (fun r => decide (r < i))).length))) := by
  induction l generalizing a with
  | nil => rfl
  | cons h rest ih =>
    obtain ⟨hlt, hrest⟩ := List.pairwise_cons.mp hs
    rw [risingAddresses, ih _ hrest, List.map_cons, filter_lt_head hs]
    simp only [Nat.mul_zero, List.cons.injEq]
    refine ⟨by simp, List.map_congr_left fun i hi => ?_⟩
    rw [filter_lt_cons (hlt i hi), four_succ, BitVec.add_assoc]

theorem directionalAddresses_up (p : Bool) (a : Word) {l : List Reg} (hs : l.Pairwise (· < ·)) :
    directionalAddresses p true a l = l.map (fun i =>
      (i, if p then a + BitVec.ofNat 32 (4 * (l.filter (fun r => decide (r < i))).length) + 4#32
        else a + BitVec.ofNat 32 (4 * (l.filter (fun r => decide (r < i))).length))) := by
  induction l generalizing a with
  | nil => rfl
  | cons h rest ih =>
    obtain ⟨hlt, hrest⟩ := List.pairwise_cons.mp hs
    rw [directionalAddresses, ih _ hrest, List.map_cons, filter_lt_head hs]
    simp only [Nat.mul_zero, List.cons.injEq, nextAddress, if_true]
    refine ⟨by simp, List.map_congr_left fun i hi => ?_⟩
    rw [filter_lt_cons (hlt i hi), four_succ]
    simp only [BitVec.add_assoc]

theorem directionalAddresses_down (p : Bool) (a : Word) {l : List Reg} (hs : l.Pairwise (· < ·)) :
    directionalAddresses p false a l = l.map (fun i =>
      (i, if p then a - BitVec.ofNat 32 (4 * (l.filter (fun r => decide (r < i))).length) - 4#32
        else a - BitVec.ofNat 32 (4 * (l.filter (fun r => decide (r < i))).length))) := by
  induction l generalizing a with
  | nil => rfl
  | cons h rest ih =>
    obtain ⟨hlt, hrest⟩ := List.pairwise_cons.mp hs
    rw [directionalAddresses, ih _ hrest, List.map_cons, filter_lt_head hs]
    simp only [Nat.mul_zero, List.cons.injEq, nextAddress, Bool.false_eq_true, if_false]
    refine ⟨by simp, List.map_congr_left fun i hi => ?_⟩
    rw [filter_lt_cons (hlt i hi), four_succ]
    simp only [sub_sub]

/-- R420: the addresses of a block, in closed form. -/
theorem blockAddresses_eq (cfg : Config) (p u : Bool) (base : Word) (list : BitVec 16) :
    blockAddresses cfg p u base list = (listedRegs list).map (fun i => (i, blockAddress cfg p u base list i)) := by
  unfold blockAddresses
  have hs := listedRegs_sorted list
  cases hb : cfg.blockOrder <;> simp only
  · cases u
    · rw [directionalAddresses_down _ _ hs]
      refine List.map_congr_left fun i _ => ?_
      cases p <;> simp [blockAddress, hb, rank_eq, wordAlign]
    · rw [directionalAddresses_up _ _ hs]
      refine List.map_congr_left fun i _ => ?_
      cases p <;> simp [blockAddress, hb, rank_eq, wordAlign]
  · rw [risingAddresses_eq _ hs]
    refine List.map_congr_left fun i _ => ?_
    cases p <;> cases u <;> simp [blockAddress, hb, rank_eq, wordAlign, blockStart, blockBytes, popcount_eq]

theorem word_mask_mod (a : Word) : (a &&& 0xFFFFFFFC#32).toNat % 4 = 0 := by
  rw [← and_three_eq_zero, BitVec.and_assoc]; simp

/-- Every address of a block is a multiple of 4 (R424). -/
theorem blockAddress_mod (cfg : Config) (p u : Bool) (base : Word) (list : BitVec 16) (i : Reg) :
    (blockAddress cfg p u base list i).toNat % 4 = 0 := by
  have h := word_mask_mod base
  unfold blockAddress
  generalize base &&& 0xFFFFFFFC#32 = a at h
  generalize rank list i = r
  generalize popcount list = n
  cases cfg.blockOrder <;> cases p <;> cases u <;>
    simp only [BitVec.toNat_add, BitVec.toNat_sub, BitVec.toNat_ofNat] <;> omega

theorem blockAddress_aligned (cfg : Config) (p u : Bool) (base : Word) (list : BitVec 16) (i : Reg) :
    blockAddress cfg p u base list i &&& 0xFFFFFFFC#32 = blockAddress cfg p u base list i :=
  and_word_mask.mpr (blockAddress_mod ..)

/-- The words of two listed registers share no byte. -/
theorem blockAddress_disjoint (cfg : Config) (p u : Bool) (base : Word) {list : BitVec 16} {i j : Reg} (hi : Listed list i)
    (hj : Listed list j) (hij : i ≠ j) {k : Nat} (hk : k < 4) :
    inBytes (blockAddress cfg p u base list i) 4 (blockAddress cfg p u base list j + BitVec.ofNat 32 k) = false := by
  have hne : rank list i ≠ rank list j := by
    rcases lt_or_gt_of_ne hij with h | h
    · exact (rank_injective hi h).ne
    · exact (rank_injective hj h).ne'
  have h1 := rank_lt hi
  have h2 := rank_lt hj
  have h3 := popcount_le list
  unfold inBytes blockAddress
  rw [decide_eq_false_iff_not]
  generalize base &&& 0xFFFFFFFC#32 = a
  generalize rank list i = r at *
  generalize rank list j = r' at *
  generalize popcount list = n at *
  have ha := a.isLt
  cases cfg.blockOrder <;> cases p <;> cases u <;>
    simp only [BitVec.toNat_add, BitVec.toNat_sub, BitVec.toNat_ofNat] <;> omega

/-! ## The stores of an STM -/

/-- Words stored one after another. -/
def storeWords : List (Word × Word) → Memory → Memory
  | [], m => m
  | (a, v) :: rest, m => storeWords rest (m.write32 a v)

/-- The stores of a block whose values do not depend on memory. -/
theorem storeBlock_eq {value : Reg → State → Word} {val : Reg → Word} {as : List (Reg × Word)} {s : State}
    (hv : ∀ q ∈ as, ∀ m, value q.1 (s.setMem m) = val q.1) (ha : ∀ q ∈ as, q.2 &&& 0xFFFFFFFC#32 = q.2) :
    storeBlock value as s = s.setMem (storeWords (as.map (fun q => (q.2, val q.1))) s.mem) := by
  induction as generalizing s with
  | nil => rfl
  | cons q rest ih =>
    obtain ⟨i, a⟩ := q
    have h0 := hv (i, a) (by simp) s.mem
    have ha0 := ha (i, a) (by simp)
    rw [storeBlock, show value i s = val i from h0, storeWord_eq, wordStoreAt_aligned ha0]
    rw [ih (s := s.setMem (s.mem.write32 a (val i)))]
    · rfl
    · intro q hq m; exact hv q (by simp [hq]) m
    · intro q hq; exact ha q (by simp [hq])

theorem storeWords_wf {ws : List (Word × Word)} {m : Memory} (h : m.wf = true) : (storeWords ws m).wf = true := by
  induction ws generalizing m with
  | nil => exact h
  | cons q rest ih => exact ih (write32_wf h _ _)

theorem storeWords_outside {ws : List (Word × Word)} {m : Memory} (h : m.wf = true) {b : Word}
    (hb : ∀ q ∈ ws, inBytes q.1 4 b = false) : (storeWords ws m).read8 b = m.read8 b := by
  induction ws generalizing m with
  | nil => rfl
  | cons q rest ih =>
    rw [storeWords, ih (write32_wf h _ _) (fun q hq => hb q (by simp [hq])), read8_write32_outside h _ (hb q (by simp))]

theorem storeWords_read32_outside {ws : List (Word × Word)} {m : Memory} (h : m.wf = true) {b : Word}
    (hb : ∀ q ∈ ws, ∀ k, k < 4 → inBytes q.1 4 (b + BitVec.ofNat 32 k) = false) : (storeWords ws m).read32 b = m.read32 b := by
  induction ws generalizing m with
  | nil => rfl
  | cons q rest ih =>
    rw [storeWords, ih (write32_wf h _ _) (fun q hq => hb q (by simp [hq])), read32_write32_disjoint h _ (hb q (by simp))]

/-- A stored word of pairwise disjoint ones is read back. -/
theorem storeWords_read32 {ws : List (Word × Word)} {m : Memory} (h : m.wf = true)
    (hd : ws.Pairwise (fun x y => ∀ k, k < 4 → inBytes y.1 4 (x.1 + BitVec.ofNat 32 k) = false)) {a v : Word} (hm : (a, v) ∈ ws) :
    (storeWords ws m).read32 a = v := by
  induction ws generalizing m with
  | nil => cases hm
  | cons q rest ih =>
    obtain ⟨h1, h2⟩ := List.pairwise_cons.mp hd
    rw [storeWords]
    rcases List.mem_cons.mp hm with rfl | hm
    · rw [storeWords_read32_outside (write32_wf h _ _) h1, read32_write32 h]
    · exact ih (write32_wf h _ _) h2 hm

/-! ## The register writes of an LDM -/

theorem writeBlock_keeps (m : Mode) (vs : List (Reg × Word)) (w : Work) :
    (writeBlock m vs w).st.cfg = w.st.cfg ∧ (writeBlock m vs w).st.cpsr = w.st.cpsr ∧ (writeBlock m vs w).st.spsr = w.st.spsr ∧
    (writeBlock m vs w).st.mem = w.st.mem := by
  induction vs generalizing w with
  | nil => exact ⟨rfl, rfl, rfl, rfl⟩
  | cons q rest ih =>
    obtain ⟨i, v⟩ := q
    rw [writeBlock]
    obtain ⟨h1, h2, h3, h4⟩ := ih (w.writeIn m i v)
    exact ⟨h1.trans (writeIn_cfg ..), h2.trans (writeIn_cpsr ..), h3.trans (writeIn_spsr ..), h4.trans (writeIn_mem ..)⟩

theorem writeIn_cell_ne (w : Work) (m : Mode) (i : Reg) (v : Word) {q : Slot} (h : i = 15 ∨ slotOf m i ≠ q) :
    (w.writeIn m i v).st.cell q = w.st.cell q := by
  unfold Work.writeIn
  split
  · rfl
  · next hi => exact setSlot_cell_ne _ _ (h.resolve_left hi).symm

/-- A slot that no written register names is kept. -/
theorem writeBlock_cell_ne (m : Mode) (vs : List (Reg × Word)) (w : Work) {q : Slot}
    (h : ∀ p ∈ vs, p.1 = 15 ∨ slotOf m p.1 ≠ q) : (writeBlock m vs w).st.cell q = w.st.cell q := by
  induction vs generalizing w with
  | nil => rfl
  | cons p rest ih =>
    obtain ⟨i, v⟩ := p
    rw [writeBlock, ih _ (fun p hp => h p (by simp [hp])), writeIn_cell_ne _ _ _ _ (h (i, v) (by simp))]

/-- A written register below R15 takes its value. -/
theorem writeBlock_cell (m : Mode) {vs : List (Reg × Word)} (w : Work) (hs : vs.Pairwise (fun x y => x.1 < y.1)) {i : Reg} {v : Word}
    (hm : (i, v) ∈ vs) (hi : i ≠ 15) : (writeBlock m vs w).st.cell (slotOf m i) = ⟨v, true⟩ := by
  induction vs generalizing w with
  | nil => cases hm
  | cons p rest ih =>
    obtain ⟨h1, h2⟩ := List.pairwise_cons.mp hs
    rw [writeBlock]
    rcases List.mem_cons.mp hm with rfl | hm
    · rw [writeBlock_cell_ne, writeIn_reg _ _ _ hi]
      · exact setSlot_cell_self ..
      · intro p hp; exact .inr fun e => (h1 p hp).ne (slotOf_inj.mp e).symm
    · exact ih _ h2 hm

theorem writeBlock_target_none (m : Mode) (vs : List (Reg × Word)) (w : Work) (h : ∀ p ∈ vs, p.1 ≠ 15) :
    (writeBlock m vs w).target = w.target := by
  induction vs generalizing w with
  | nil => rfl
  | cons p rest ih =>
    obtain ⟨i, v⟩ := p
    rw [writeBlock, ih _ (fun p hp => h p (by simp [hp])), writeIn_reg _ _ _ (h (i, v) (by simp))]

theorem writeBlock_target (m : Mode) {vs : List (Reg × Word)} (w : Work) (hs : vs.Pairwise (fun x y => x.1 < y.1)) {v : Word}
    (hm : (15, v) ∈ vs) : (writeBlock m vs w).target = some v := by
  induction vs generalizing w with
  | nil => cases hm
  | cons p rest ih =>
    obtain ⟨h1, h2⟩ := List.pairwise_cons.mp hs
    rw [writeBlock]
    rcases List.mem_cons.mp hm with rfl | hm
    · rw [writeBlock_target_none, writeIn_pc, branch_target]
      intro p hp e
      exact (h1 p hp).ne e.symm
    · exact ih _ h2 hm

/-- The base's write-back value (R420). -/
theorem blockWriteBack_eq (u : Bool) (base : Word) (list : BitVec 16) : blockWriteBack u base list = blockBase u base list := by
  cases u <;> rfl

theorem blockBank_load (cfg : Config) (s : Bool) (list : BitVec 16) (m : Mode) :
    blockBank cfg s true list m = loadBank cfg s list m := by
  unfold blockBank loadBank
  cases s <;> cases list.getLsbD 15 <;> cases cfg.ldmSPcBank <;> simp

theorem blockBank_store (cfg : Config) (s : Bool) (list : BitVec 16) (m : Mode) : blockBank cfg s false list m = storeBank s m := by
  cases s <;> rfl

/-- The lowest listed register is the one of rank 0. -/
theorem firstListed_ne {list : BitVec 16} {i : Reg} (h : Listed list i) : (firstListed list != some i) = decide (rank list i ≠ 0) := by
  have hm := mem_listedRegs.mpr h
  have hs := listedRegs_sorted list
  rw [rank_eq, firstListed]
  cases hl : listedRegs list with
  | nil => rw [hl] at hm; cases hm
  | cons a rest =>
    rw [hl] at hm hs
    simp only [List.head?_cons]
    by_cases e : a = i
    · subst e; rw [filter_lt_head hs]; simp
    · have : a < i := (List.pairwise_cons.mp hs).1 i ((List.mem_cons.mp hm).resolve_left (Ne.symm e))
      rw [filter_lt_cons this]
      simp [e]

/-- What an STM stores for a listed register (R423, R426), whatever memory holds by then. -/
theorem blockStoreValue_eq {sb wb : Bool} {rn : Reg} {u : Bool} {list : BitVec 16} {r : Reg} {s : State} (hl : Listed list r)
    (m : Memory) :
    blockStoreValue wb (storeBank sb s.cpsr.m) rn (blockBase u (x rn s) list) list r (s.setMem m) = blockValue sb wb rn u list r s := by
  unfold blockStoreValue blockValue
  by_cases h15 : r = 15
  · simp [h15]
  · rw [if_neg h15, if_neg h15, firstListed_ne hl, setMem_cpsr]
    by_cases hc : wb = true ∧ rank list r ≠ 0 ∧ slotOf (storeBank sb s.cpsr.m) r = slotOf s.cpsr.m rn
    · rw [if_pos hc, if_pos (by simp [hc.1, hc.2.1, hc.2.2])]
    · rw [if_neg hc, if_neg (by simpa [and_assoc] using hc)]
      rfl

end Sys2Proof.Machine
end

