-- ==== Sys2Proof/Laws/Effects.lean ====
section
/-! SUPPORT. Everything each shared body can do when it succeeds: the slots and bytes it may write (`Effect`) and what becomes of the
status registers (`StatusChange`).  A frame of an instruction cites its body's lemma and unfolds nothing. -/

namespace Sys2Proof.Machine

open Sys2Proof.Claims

/-- Work that writes at most the given slots and bytes, keeps the configuration and the stored pc, sets the written flag of every slot it
changes and keeps the canonical form of memory. -/
structure Effect (slots : List Slot) (stores : List (Word × Nat)) (w w' : Work) : Prop where
  cfg     : w'.st.cfg = w.st.cfg
  pc      : w'.st.cell 15 = w.st.cell 15
  cells   : ∀ q, q ≠ 15 → q ∉ slots → w'.st.cell q = w.st.cell q
  changed : ∀ q, w'.st.cell q = w.st.cell q ∨ (w'.st.cell q).written = true
  wf      : w.st.mem.wf = true → w'.st.mem.wf = true
  bytes   : w.st.mem.wf = true → ∀ b, (∀ q ∈ stores, inBytes q.1 q.2 b = false) → w'.st.mem.read8 b = w.st.mem.read8 b

namespace Effect

variable {slots : List Slot} {stores : List (Word × Nat)} {w w' w'' : Work}

theorem refl (w : Work) : Effect slots stores w w := ⟨rfl, rfl, fun _ _ _ => rfl, fun _ => .inl rfl, fun h => h, fun _ _ _ => rfl⟩

theorem trans (h : Effect slots stores w w') (h' : Effect slots stores w' w'') : Effect slots stores w w'' where
  cfg := h'.cfg.trans h.cfg
  pc := h'.pc.trans h.pc
  cells q h15 hq := (h'.cells q h15 hq).trans (h.cells q h15 hq)
  changed q := by
    rcases h'.changed q with e | hw
    · rw [e]; exact h.changed q
    · exact .inr hw
  wf hm := h'.wf (h.wf hm)
  bytes hm b hb := (h'.bytes (h.wf hm) b hb).trans (h.bytes hm b hb)

theorem mono {slots' : List Slot} {stores' : List (Word × Nat)} (h : Effect slots stores w w') (hs : ∀ q ∈ slots, q ∈ slots')
    (ht : ∀ q ∈ stores, q ∈ stores') : Effect slots' stores' w w' where
  cfg := h.cfg
  pc := h.pc
  cells q h15 hq := h.cells q h15 fun hm => hq (hs q hm)
  changed := h.changed
  wf := h.wf
  bytes hm b hb := h.bytes hm b fun q hq => hb q (ht q hq)

/-- A status, an SPSR or a target is no slot and no byte. -/
theorem of_same (hc : w'.st.cfg = w.st.cfg) (hq : ∀ q, w'.st.cell q = w.st.cell q) (hm : w'.st.mem = w.st.mem) :
    Effect slots stores w w' :=
  ⟨hc, hq 15, fun q _ _ => hq q, fun q => .inl (hq q), fun h => by rw [hm]; exact h, fun _ _ _ => by rw [hm]⟩

theorem setCpsr (w : Work) (c : Cpsr) : Effect slots stores w (w.setCpsr c) := of_same rfl (fun _ => rfl) rfl
theorem branch (w : Work) (a : Word) : Effect slots stores w (w.branch a) := of_same rfl (fun _ => rfl) rfl

theorem writeIn {m : Mode} {n : Reg} (w : Work) (v : Word) (h : slotOf m n ∈ slots) : Effect slots stores w (w.writeIn m n v) := by
  unfold Work.writeIn
  split
  · exact branch w v
  · next hn =>
    refine ⟨rfl, setSlot_cell_ne _ _ (slotOf_ne_pc hn).symm, fun q _ hq => setSlot_cell_ne _ _ fun e => hq (e ▸ h), fun q => ?_,
      fun hm => hm, fun _ _ _ => rfl⟩
    simp only [setSlot_cell]
    split
    · exact .inr rfl
    · exact .inl rfl

theorem write {n : Reg} (w : Work) (v : Word) (h : slotOf w.st.cpsr.m n ∈ slots) : Effect slots stores w (w.write n v) := writeIn w v h

/-- A store of `n` bytes at `a`. -/
theorem store (w : Work) {m : Memory} {a : Word} {n : Nat} (hm : (a, n) ∈ stores) (hw : w.st.mem.wf = true → m.wf = true)
    (hb : w.st.mem.wf = true → ∀ b, inBytes a n b = false → m.read8 b = w.st.mem.read8 b) :
    Effect slots stores w { w with st := w.st.setMem m } :=
  ⟨rfl, rfl, fun _ _ _ => rfl, fun _ => .inl rfl, hw, fun h b hall => hb h b (hall _ hm)⟩

theorem storeWord (w : Work) (a v : Word) (hm : (storeWordAddress w.st.cfg a, 4) ∈ stores) :
    Effect slots stores w { w with st := Machine.storeWord a v w.st } :=
  store w hm (fun h => write32_wf h _ _) (fun h _ hb => read8_write32_outside h _ hb)

theorem storeByte (w : Work) (a v : Word) (hm : (a, 1) ∈ stores) : Effect slots stores w { w with st := Machine.storeByte a v w.st } := by
  refine store w hm (fun h => write8_wf h _ _) (fun h b hb => read8_write8_ne h _ ?_)
  rintro rfl
  simp [inBytes] at hb

theorem storeHalf {w : Work} {a v : Word} {s : State} (h : Machine.storeHalf a v w.st = .ok s) (hm : (a, 2) ∈ stores) :
    Effect slots stores w { w with st := s } := by
  obtain ⟨_, _, h⟩ := bind_eq_ok.mp h
  cases h
  exact store w hm (fun h => write16_wf h _ _) (fun h _ hb => read8_write16_outside h _ hb)

end Effect

/-- What can become of the status registers in a body that enters no exception, is no BX and no MSR: kept; some of N, Z, C (and V when
`overflow`) set; or the CPSR restored from the SPSR, which comes with a branch. -/
inductive StatusChange (flags overflow ret : Bool) (w w' : Work) : Prop
  | kept (hc : w'.st.cpsr = w.st.cpsr) (hs : w'.st.spsr = w.st.spsr)
  | set (hf : flags = true) (n z c v : Bool) (hv : overflow = false → v = w.st.cpsr.v)
      (hc : w'.st.cpsr = { w.st.cpsr with n := n, z := z, c := c, v := v }) (hs : w'.st.spsr = w.st.spsr)
  | returned (hr : ret = true) (k : SpsrName) (hk : spsrOf w.st.cpsr.m = some k)
      (hc : Cpsr.unpack (w.st.spsr.get k).value = .ok w'.st.cpsr) (hs : w'.st.spsr = w.st.spsr) (ht : w'.target.isSome = true)

namespace StatusChange

variable {flags overflow ret : Bool} {w w' w'' : Work}

theorem of_same (hc : w''.st.cpsr = w'.st.cpsr) (hs : w''.st.spsr = w'.st.spsr) (ht : w'.target.isSome = true → w''.target.isSome = true)
    (h : StatusChange flags overflow ret w w') : StatusChange flags overflow ret w w'' := by
  cases h with
  | kept h1 h2 => exact .kept (hc.trans h1) (hs.trans h2)
  | set hf n z c v hv h1 h2 => exact .set hf n z c v hv (hc.trans h1) (hs.trans h2)
  | returned hr k hk h1 h2 h3 => exact .returned hr k hk (hc ▸ h1) (hs.trans h2) (ht h3)

end StatusChange

theorem write_target_isSome (w : Work) (n : Reg) (v : Word) (h : w.target.isSome = true) : (w.write n v).target.isSome = true := by
  unfold Work.write Work.writeIn
  split
  · rfl
  · exact h

/-! ## Data processing -/

theorem writeResult_effect {s : Bool} {d : Reg} {v : Word} {w w' : Work} {slots : List Slot} {stores : List (Word × Nat)}
    (h : writeResult s d v w = .ok w') (hd : slotOf w.st.cpsr.m d ∈ slots) : Effect slots stores w w' := by
  unfold writeResult restoreCpsrIf at h
  have e := Effect.write (stores := stores) w v hd
  split at h
  · rcases restoreCpsr_eq_ok h with ⟨_, rfl⟩ | ⟨n, c, _, _, rfl⟩
    · exact e
    · exact e.trans (Effect.setCpsr _ _)
  · cases h
    exact e

theorem writeResult_status {s : Bool} {d : Reg} {v : Word} {c : Cpsr} {w w' : Work} {flags overflow : Bool}
    (h : writeResult s d v (w.setCpsr c) = .ok w')
    (hc : c = w.st.cpsr ∨ (flags = true ∧ (s && d == 15) = false ∧
      ∃ n z cc vv, c = { w.st.cpsr with n := n, z := z, c := cc, v := vv } ∧ (overflow = false → vv = w.st.cpsr.v))) :
    StatusChange flags overflow (s && d == 15) w w' := by
  unfold writeResult restoreCpsrIf at h
  rcases hc with rfl | ⟨hf, h15, n, z, cc, vv, rfl, hv⟩
  · split at h
    · next hr =>
      have hd : d = 15 := eq_of_beq (Bool.and_eq_true _ _ ▸ hr).2
      subst hd
      rcases restoreCpsr_eq_ok h with ⟨_, rfl⟩ | ⟨k, c, hk, hc, rfl⟩
      · exact .kept rfl rfl
      · exact .returned hr k hk hc rfl rfl
    · cases h
      exact .kept (write_cpsr ..) (write_spsr ..)
  · rw [h15, if_neg (by simp)] at h
    cases h
    exact .set hf n z cc vv hv (write_cpsr ..) (write_spsr ..)

theorem logicalOp_inv {f : Word → Word → Word} {s : Bool} {rn rd : Reg} {o : Operand2} {w w' : Work}
    (h : logicalOp f s rn rd o w = .ok w') :
    Effect [slotOf w.st.cpsr.m rd] [] w w' ∧ StatusChange (s && rd != 15) false (s && rd == 15) w w' := by
  obtain ⟨b, _, h⟩ := bind_eq_ok.mp h
  dsimp only at h
  rw [setLogicalFlags_eq] at h
  refine ⟨(Effect.setCpsr _ _).trans (writeResult_effect h (by simp; split <;> rfl)), writeResult_status h ?_⟩
  split
  · next hf => exact .inr ⟨hf, by cases s <;> simp_all, _, _, _, _, rfl, fun _ => rfl⟩
  · exact .inl rfl

theorem moveOp_inv {f : Word → Word} {s : Bool} {rd : Reg} {o : Operand2} {w w' : Work} (h : moveOp f s rd o w = .ok w') :
    Effect [slotOf w.st.cpsr.m rd] [] w w' ∧ StatusChange (s && rd != 15) false (s && rd == 15) w w' := by
  obtain ⟨b, _, h⟩ := bind_eq_ok.mp h
  rw [setLogicalFlags_eq] at h
  refine ⟨(Effect.setCpsr _ _).trans (writeResult_effect h (by simp; split <;> rfl)), writeResult_status h ?_⟩
  split
  · next hf => exact .inr ⟨hf, by cases s <;> simp_all, _, _, _, _, rfl, fun _ => rfl⟩
  · exact .inl rfl

theorem arithmeticOp_inv {f : AluOp} {s : Bool} {rn rd : Reg} {o : Operand2} {w w' : Work} (h : arithmeticOp f s rn rd o w = .ok w') :
    Effect [slotOf w.st.cpsr.m rd] [] w w' ∧ StatusChange (s && rd != 15) true (s && rd == 15) w w' := by
  obtain ⟨b, _, h⟩ := bind_eq_ok.mp h
  dsimp only at h
  rw [setArithmeticFlags_eq] at h
  refine ⟨(Effect.setCpsr _ _).trans (writeResult_effect h (by simp; split <;> rfl)), writeResult_status h ?_⟩
  split
  · next hf => exact .inr ⟨hf, by cases s <;> simp_all, _, _, _, _, rfl, fun h => by simp at h⟩
  · exact .inl rfl

theorem logicalTest_inv {f : Word → Word → Word} {rn rd : Reg} {o : Operand2} {w w' : Work} (h : logicalTest f rn rd o w = .ok w') :
    Effect [] [] w w' ∧ StatusChange (rd != 15) false false w w' ∧ w'.target = w.target := by
  obtain ⟨b, _, h⟩ := bind_eq_ok.mp h
  dsimp only at h
  rw [setLogicalFlags_eq] at h
  cases h
  refine ⟨Effect.setCpsr _ _, ?_, rfl⟩
  split
  · next hf => exact .set (by simpa using hf) _ _ _ _ (fun _ => rfl) rfl rfl
  · exact .kept rfl rfl

theorem arithmeticTest_inv {f : AluOp} {rn rd : Reg} {o : Operand2} {w w' : Work} (h : arithmeticTest f rn rd o w = .ok w') :
    Effect [] [] w w' ∧ StatusChange (rd != 15) true false w w' ∧ w'.target = w.target := by
  obtain ⟨b, _, h⟩ := bind_eq_ok.mp h
  dsimp only at h
  rw [setArithmeticFlags_eq] at h
  cases h
  refine ⟨Effect.setCpsr _ _, ?_, rfl⟩
  split
  · next hf => exact .set (by simpa using hf) _ _ _ _ (fun h => by simp at h) rfl rfl
  · exact .kept rfl rfl

theorem readOnlyTest_inv {o : Operand2} {w w' : Work} (h : readOnlyTest o w = .ok w') : w' = w := by
  obtain ⟨_, _, h⟩ := bind_eq_ok.mp h
  exact (Except.ok.inj h).symm

/-! ## Multiply -/

theorem setMultiplyFlags_status {s : Bool} {d : Reg} {r v : Word} {w : Work} :
    StatusChange (s && d != 15) false false w (setMultiplyFlags s d r (w.write d v)) := by
  rw [setMultiplyFlags_eq]
  split
  · next hf =>
    exact .set hf _ _ _ _ (fun _ => rfl) (by rw [workSetCpsr_st, setCpsr_cpsr, write_cpsr]; rfl) (by simp)
  · exact .kept (by simp) (by simp)

theorem mulBody_inv {s : Bool} {rd rs rm : Reg} {w w' : Work} (h : mulBody s rd rs rm w = .ok w') :
    Effect [slotOf w.st.cpsr.m rd] [] w w' ∧ StatusChange (s && rd != 15) false false w w' := by
  obtain ⟨_, _, h⟩ := bind_eq_ok.mp h
  obtain ⟨_, _, h⟩ := bind_eq_ok.mp h
  cases h
  refine ⟨?_, setMultiplyFlags_status⟩
  rw [setMultiplyFlags_eq]
  exact (Effect.write _ _ (by simp)).trans (Effect.setCpsr _ _)

theorem mlaBody_inv {s : Bool} {rd rn rs rm : Reg} {w w' : Work} (h : mlaBody s rd rn rs rm w = .ok w') :
    Effect [slotOf w.st.cpsr.m rd] [] w w' ∧ StatusChange (s && rd != 15) false false w w' := by
  obtain ⟨_, _, h⟩ := bind_eq_ok.mp h
  obtain ⟨_, _, h⟩ := bind_eq_ok.mp h
  cases h
  refine ⟨?_, setMultiplyFlags_status⟩
  rw [setMultiplyFlags_eq]
  exact (Effect.write _ _ (by simp)).trans (Effect.setCpsr _ _)

theorem writeLong_inv (s : Bool) (hi lo : Reg) (r : BitVec 64) (w : Work) :
    Effect [slotOf w.st.cpsr.m lo, slotOf w.st.cpsr.m hi] [] w (writeLong s hi lo r w) ∧
    StatusChange (s && hi != 15 && lo != 15) true false w (writeLong s hi lo r w) := by
  have e : Effect [slotOf w.st.cpsr.m lo, slotOf w.st.cpsr.m hi] [] w
      ((w.write lo (r.extractLsb' 0 32)).write hi (r.extractLsb' 32 32)) :=
    (Effect.write _ _ (by simp)).trans (Effect.write _ _ (by simp))
  unfold writeLong setMultiplyLongFlags
  split
  · next hf =>
    refine ⟨e.trans (Effect.setCpsr _ _), .set hf r.msb (r == 0#64) false false (fun h => by simp at h) ?_ (by simp)⟩
    rw [workSetCpsr_st, setCpsr_cpsr, write_cpsr, write_cpsr]
    rfl
  · exact ⟨e, .kept (by simp) (by simp)⟩

theorem multiplyLong_inv {product : Word → Word → BitVec 64} {s : Bool} {hi lo rs rm : Reg} {w w' : Work}
    (h : multiplyLong product s hi lo rs rm w = .ok w') :
    Effect [slotOf w.st.cpsr.m lo, slotOf w.st.cpsr.m hi] [] w w' ∧ StatusChange (s && hi != 15 && lo != 15) true false w w' := by
  obtain ⟨_, _, h⟩ := bind_eq_ok.mp h
  cases h
  exact writeLong_inv ..

theorem multiplyLongAccumulate_inv {product : Word → Word → BitVec 64} {s : Bool} {hi lo rs rm : Reg} {w w' : Work}
    (h : multiplyLongAccumulate product s hi lo rs rm w = .ok w') :
    Effect [slotOf w.st.cpsr.m lo, slotOf w.st.cpsr.m hi] [] w w' ∧ StatusChange (s && hi != 15 && lo != 15) true false w w' := by
  obtain ⟨_, _, h⟩ := bind_eq_ok.mp h
  cases h
  exact writeLong_inv ..

/-! ## Transfers -/

/-- A body that keeps both status registers. -/
def StatusKept (w w' : Work) : Prop := w'.st.cpsr = w.st.cpsr ∧ w'.st.spsr = w.st.spsr

theorem writeBackBase_inv (b : Bool) (rn : Reg) (ea : Word) (w : Work) {slots : List Slot} {stores : List (Word × Nat)}
    (h : b = true → slotOf w.st.cpsr.m rn ∈ slots) :
    Effect slots stores w (writeBackBase b rn ea w) ∧ StatusKept w (writeBackBase b rn ea w) := by
  cases b with
  | false => exact ⟨Effect.refl w, rfl, rfl⟩
  | true => exact ⟨Effect.write w ea (h rfl), write_cpsr .., write_spsr ..⟩

/-- The slots of a load and of a store with base write-back. -/
def loadSlots (wb : Bool) (m : Mode) (rn rd : Reg) : List Slot := slotOf m rd :: (if wb then [slotOf m rn] else [])
def storeSlots (wb : Bool) (m : Mode) (rn : Reg) : List Slot := if wb then [slotOf m rn] else []

theorem loadWrite_inv (b : Bool) (rn rd : Reg) (ea v : Word) (w : Work) :
    Effect (loadSlots b w.st.cpsr.m rn rd) [] w ((writeBackBase b rn ea w).write rd v) ∧
    StatusKept w ((writeBackBase b rn ea w).write rd v) := by
  obtain ⟨he, hc, hs⟩ := writeBackBase_inv (slots := loadSlots b w.st.cpsr.m rn rd) (stores := []) b rn ea w
    (fun h => by simp [loadSlots, h])
  refine ⟨he.trans (Effect.write _ _ (by rw [hc]; simp [loadSlots])), (write_cpsr ..).trans hc, (write_spsr ..).trans hs⟩

theorem singleLoad_inv {byte p u wb : Bool} {rn rd : Reg} {off : TransferOffset} {w w' : Work}
    (h : singleLoad byte p u wb rn rd off w = .ok w') :
    Effect (loadSlots (writesBack p wb) w.st.cpsr.m rn rd) [] w w' ∧ StatusKept w w' := by
  obtain ⟨_, _, h⟩ := bind_eq_ok.mp h
  cases h
  exact loadWrite_inv ..

theorem singleStore_inv {byte p u wb : Bool} {rn rd : Reg} {off : TransferOffset} {w w' : Work}
    (h : singleStore byte p u wb rn rd off w = .ok w') :
    Effect (storeSlots (writesBack p wb) w.st.cpsr.m rn)
      (let a := accessAddress p (x rn w.st) (offsetBase u (x rn w.st) (offset off w.st))
        if byte then [(a, 1)] else [(storeWordAddress w.st.cfg a, 4)]) w w' ∧ StatusKept w w' ∧ w'.target = w.target := by
  obtain ⟨_, hc, h⟩ := bind_eq_ok.mp h
  simp only [transferOffset_eq, readReg_eq] at h
  generalize readStoreValue rd w.st = v at h
  cases h
  have hwb : writesBack p wb = true → rn ≠ 15 := by
    intro hw
    obtain ⟨_, _, hc⟩ := bind_eq_ok.mp hc
    rw [faultWhen_eq_ok] at hc
    intro e
    simp [hw, e] at hc
  generalize hs : (if byte then storeByte (accessAddress p (x rn w.st) (offsetBase u (x rn w.st) (offset off w.st))) v w.st
    else storeWord (accessAddress p (x rn w.st) (offsetBase u (x rn w.st) (offset off w.st))) v w.st) = s
  generalize hstores : (let a := accessAddress p (x rn w.st) (offsetBase u (x rn w.st) (offset off w.st))
    if byte then [(a, 1)] else [(storeWordAddress w.st.cfg a, 4)]) = stores
  have hx : Effect (storeSlots (writesBack p wb) w.st.cpsr.m rn) stores w { w with st := s } := by
    subst hs hstores
    cases byte
    · exact Effect.storeWord _ _ _ (by simp)
    · exact Effect.storeByte _ _ _ (by simp)
  have hst : StatusKept w { w with st := s } := by
    subst hs
    cases byte <;> exact ⟨rfl, rfl⟩
  obtain ⟨h1, h2, h3⟩ := writeBackBase_inv (slots := storeSlots (writesBack p wb) w.st.cpsr.m rn) (stores := stores)
    (writesBack p wb) rn (offsetBase u (x rn w.st) (offset off w.st)) { w with st := s }
    (fun h => by rw [hst.1]; simp [storeSlots, h])
  refine ⟨hx.trans h1, ⟨h2.trans hst.1, h3.trans hst.2⟩, ?_⟩
  rw [writeBackBase_eq hwb]

theorem halfTransferLoad_inv {load : Word → State → Except Fault Word} {p u wb : Bool} {rn rd : Reg} {off : HalfOffset} {w w' : Work}
    (h : halfTransferLoad load p u wb rn rd off w = .ok w') :
    Effect (loadSlots (writesBack p wb) w.st.cpsr.m rn rd) [] w w' ∧ StatusKept w w' := by
  obtain ⟨_, _, h⟩ := bind_eq_ok.mp h
  obtain ⟨_, _, h⟩ := bind_eq_ok.mp h
  cases h
  exact loadWrite_inv ..

theorem halfTransferStore_inv {p u wb : Bool} {rn rd : Reg} {off : HalfOffset} {w w' : Work}
    (h : halfTransferStore p u wb rn rd off w = .ok w') :
    Effect (storeSlots (writesBack p wb) w.st.cpsr.m rn)
      [(accessAddress p (x rn w.st) (offsetBase u (x rn w.st) (halfOff off w.st)), 2)] w w' ∧ StatusKept w w' ∧
    w'.target = w.target := by
  obtain ⟨_, hc, h⟩ := bind_eq_ok.mp h
  simp only [halfOffset_eq, readReg_eq] at h
  obtain ⟨s, hs, h⟩ := bind_eq_ok.mp h
  cases h
  have hwb : writesBack p wb = true → rn ≠ 15 := by
    intro hw
    obtain ⟨_, _, hc⟩ := bind_eq_ok.mp hc
    obtain ⟨_, _, hc⟩ := bind_eq_ok.mp hc
    rw [faultWhen_eq_ok] at hc
    intro e
    simp [hw, e] at hc
  have hst : StatusKept w { w with st := s } := by
    obtain ⟨_, _, hs⟩ := bind_eq_ok.mp hs
    cases hs
    exact ⟨rfl, rfl⟩
  obtain ⟨h1, h2, h3⟩ := writeBackBase_inv (slots := storeSlots (writesBack p wb) w.st.cpsr.m rn)
    (stores := [(accessAddress p (x rn w.st) (offsetBase u (x rn w.st) (halfOff off w.st)), 2)]) (writesBack p wb) rn
    (offsetBase u (x rn w.st) (halfOff off w.st)) { w with st := s } (fun h => by rw [hst.1]; simp [storeSlots, h])
  refine ⟨(Effect.storeHalf hs (by simp)).trans h1, ⟨h2.trans hst.1, h3.trans hst.2⟩, ?_⟩
  rw [writeBackBase_eq hwb]

theorem swapBody_inv {byte : Bool} {rn rd rm : Reg} {w w' : Work} (h : swapBody byte rn rd rm w = .ok w') :
    Effect [slotOf w.st.cpsr.m rd] (if byte then [(x rn w.st, 1)] else [(storeWordAddress w.st.cfg (x rn w.st), 4)]) w w' ∧
    StatusKept w w' := by
  obtain ⟨_, _, h⟩ := bind_eq_ok.mp h
  simp only [readReg_eq] at h
  cases h
  cases byte
  · exact ⟨(Effect.storeWord _ _ _ (by simp)).trans (Effect.write _ _ (by simp [storeWord])), write_cpsr .., write_spsr ..⟩
  · exact ⟨(Effect.storeByte _ _ _ (by simp)).trans (Effect.write _ _ (by simp [storeByte])), write_cpsr .., write_spsr ..⟩

/-! ## Block transfers -/

theorem writeBlock_effect (m : Mode) (vs : List (Reg × Word)) (w : Work) {slots : List Slot} {stores : List (Word × Nat)}
    (h : ∀ p ∈ vs, slotOf m p.1 ∈ slots) : Effect slots stores w (writeBlock m vs w) := by
  induction vs generalizing w with
  | nil => exact Effect.refl w
  | cons p rest ih =>
    obtain ⟨i, v⟩ := p
    rw [writeBlock]
    exact (Effect.writeIn w v (h (i, v) (by simp))).trans (ih _ fun p hp => h p (by simp [hp]))

theorem storeBlock_inv {value : Reg → State → Word} {as : List (Reg × Word)} {w : Work} (ha : ∀ q ∈ as, q.2 &&& 0xFFFFFFFC#32 = q.2)
    {slots : List Slot} {stores : List (Word × Nat)} (hm : ∀ q ∈ as, (q.2, 4) ∈ stores) :
    Effect slots stores w { w with st := storeBlock value as w.st } ∧ StatusKept w { w with st := storeBlock value as w.st } := by
  induction as generalizing w with
  | nil => exact ⟨Effect.refl w, rfl, rfl⟩
  | cons q rest ih =>
    obtain ⟨i, a⟩ := q
    have ha0 := ha (i, a) (by simp)
    have e : Effect slots stores w { w with st := storeWord a (value i w.st) w.st } :=
      Effect.storeWord w a _ (by rw [storeWordAddress_eq, wordStoreAt_aligned ha0]; exact hm (i, a) (by simp))
    obtain ⟨h1, h2, h3⟩ := ih (w := { w with st := storeWord a (value i w.st) w.st }) (fun q hq => ha q (by simp [hq]))
      (fun q hq => hm q (by simp [hq]))
    exact ⟨e.trans h1, h2, h3⟩

theorem loadMultiple_inv {p u sb wb : Bool} {rn : Reg} {list : BitVec 16} {w w' : Work}
    (h : loadMultiple p u sb wb rn list w = .ok w') :
    Effect (ldmSlots w.st sb wb rn list) [] w w' ∧ StatusChange false false (sb && list.getLsbD 15) w w' := by
  obtain ⟨_, _, h⟩ := bind_eq_ok.mp h
  generalize readReg rn w.st = b at h
  obtain ⟨h1, h2, h3⟩ := writeBackBase_inv (slots := ldmSlots w.st sb wb rn list) (stores := []) wb rn (blockWriteBack u b list) w
    (fun h => by simp [ldmSlots, h])
  dsimp only at h
  rw [blockAddresses_eq, blockBank_load] at h
  have h4 : Effect (ldmSlots w.st sb wb rn list) [] (writeBackBase wb rn (blockWriteBack u b list) w)
      (writeBlock (loadBank w.st.cfg sb list w.st.cpsr.m) (loadBlock w.st ((listedRegs list).map
        (fun i => (i, blockAddress w.st.cfg p u b list i)))) (writeBackBase wb rn (blockWriteBack u b list) w)) := by
    refine writeBlock_effect _ _ _ fun q hq => ?_
    simp only [loadBlock, List.map_map, List.mem_map, Function.comp] at hq
    obtain ⟨r, hr, rfl⟩ := hq
    simp only [ldmSlots, List.mem_append, List.mem_map]
    exact .inl ⟨r, hr, rfl⟩
  obtain ⟨_, k2, k3, _⟩ := writeBlock_keeps (loadBank w.st.cfg sb list w.st.cpsr.m) (loadBlock w.st ((listedRegs list).map
    (fun i => (i, blockAddress w.st.cfg p u b list i)))) (writeBackBase wb rn (blockWriteBack u b list) w)
  unfold restoreCpsrIf at h
  split at h
  · next hr =>
    rcases restoreCpsr_eq_ok h with ⟨_, rfl⟩ | ⟨k, c, hk, hc, rfl⟩
    · exact ⟨h1.trans h4, .kept (k2.trans h2) (k3.trans h3)⟩
    · refine ⟨(h1.trans h4).trans (Effect.setCpsr _ _), .returned hr k ?_ ?_ (k3.trans h3) ?_⟩
      · rw [← k2.trans h2]; exact hk
      · rw [← k3.trans h3]; exact hc
      · have hl : Listed list 15 := (Bool.and_eq_true _ _ ▸ hr).2
        rw [workSetCpsr_target, writeBlock_target (v := loadWord (blockAddress w.st.cfg p u b list 15) w.st)]
        · rfl
        · simp only [loadBlock, List.map_map]
          rw [List.pairwise_map]
          exact listedRegs_sorted list
        · simp only [loadBlock, List.map_map, List.mem_map, Function.comp]
          exact ⟨15, mem_listedRegs.mpr hl, rfl⟩
  · cases h
    exact ⟨h1.trans h4, .kept (k2.trans h2) (k3.trans h3)⟩

theorem storeMultiple_inv {p u sb wb : Bool} {rn : Reg} {list : BitVec 16} {w w' : Work}
    (h : storeMultiple p u sb wb rn list w = .ok w') :
    Effect (storeSlots wb w.st.cpsr.m rn) ((blockAddresses w.st.cfg p u (x rn w.st) list).map (fun q => (q.2, 4))) w w' ∧
    StatusKept w w' ∧ w'.target = w.target := by
  obtain ⟨_, hn, h⟩ := bind_eq_ok.mp h
  simp only [readReg_eq] at h
  cases h
  rw [faultWhen_eq_ok] at hn
  have hn' : rn ≠ 15 := by simpa using hn
  generalize blockStoreValue wb (blockBank w.st.cfg sb false list w.st.cpsr.m) rn (blockWriteBack u (x rn w.st) list) list = value
  obtain ⟨e, hst⟩ := storeBlock_inv (value := value) (as := blockAddresses w.st.cfg p u (x rn w.st) list) (w := w)
    (slots := storeSlots wb w.st.cpsr.m rn)
    (stores := (blockAddresses w.st.cfg p u (x rn w.st) list).map (fun q => (q.2, 4)))
    (by
      rw [blockAddresses_eq]
      intro q hq
      obtain ⟨i, _, rfl⟩ := List.mem_map.mp hq
      exact blockAddress_aligned ..)
    (fun q hq => List.mem_map.mpr ⟨q, hq, rfl⟩)
  obtain ⟨h1, h2, h3⟩ := writeBackBase_inv (slots := storeSlots wb w.st.cpsr.m rn)
    (stores := (blockAddresses w.st.cfg p u (x rn w.st) list).map (fun q => (q.2, 4))) wb rn (blockWriteBack u (x rn w.st) list)
    { w with st := _ } (fun h => by rw [hst.1]; simp [storeSlots, h])
  refine ⟨e.trans h1, ⟨h2.trans hst.1, h3.trans hst.2⟩, ?_⟩
  rw [writeBackBase_eq (fun _ => hn')]

/-! ## Branches and exceptions -/

theorem branchExchange_inv {rn : Reg} {w w' : Work} (h : branchExchange rn w = .ok w') :
    w' = (w.setCpsr { w.st.cpsr with t := (x rn w.st).getLsbD 0 }).branch (x rn w.st) := by
  simp only [branchExchange, readReg_eq] at h
  exact (Except.ok.inj h).symm

/-- An exception entry writes the link register's slot of its mode (R630, R640). -/
theorem takeException_effect (k : ExceptionKind) (ret : Word) (w : Work) {stores : List (Word × Nat)} :
    Effect [slotOf k.mode 14] stores w (takeException k ret w) := by
  refine ⟨rfl, setSlot_cell_ne _ _ (slotOf_ne_pc (by decide)).symm, fun q _ hq => setSlot_cell_ne _ _ (by simpa using hq),
    fun q => ?_, fun h => h, fun _ _ _ => rfl⟩
  simp only [takeException, branch_st, setSlot_cell]
  split
  · exact .inr rfl
  · exact .inl rfl

theorem takeException_cpsr (k : ExceptionKind) (ret : Word) (w : Work) :
    (takeException k ret w).st.cpsr = { w.st.cpsr with m := k.mode, i := true, t := false } := rfl
theorem takeException_spsr (k : ExceptionKind) (ret : Word) (w : Work) :
    (takeException k ret w).st.spsr = w.st.spsr.set k.spsr ⟨w.st.cpsr.pack, true⟩ := rfl
theorem takeException_target (k : ExceptionKind) (ret : Word) (w : Work) : (takeException k ret w).target = some k.vector := rfl

/-! ## PSR transfer -/

theorem mrsBody_inv {p : Bool} {rd : Reg} {w w' : Work} (h : mrsBody p rd w = .ok w') :
    Effect [slotOf w.st.cpsr.m rd] [] w w' ∧ StatusKept w w' := by
  obtain ⟨_, _, h⟩ := bind_eq_ok.mp h
  obtain ⟨_, _, h⟩ := bind_eq_ok.mp h
  obtain ⟨v, _, h⟩ := bind_eq_ok.mp h
  cases h
  exact ⟨Effect.write _ _ (by simp), write_cpsr .., write_spsr ..⟩

/-- Everything an MSR that succeeds can do (R320 to R323): it never moves T and never branches. -/
structure MsrChange (p : Bool) (mask : BitVec 4) (w w' : Work) : Prop where
  effect  : Effect [] [] w w'
  target  : w'.target = w.target
  t       : w'.st.cpsr.t = w.st.cpsr.t
  flags   : p = true ∨ mask.getLsbD 3 = false → w'.st.cpsr.n = w.st.cpsr.n ∧ w'.st.cpsr.z = w.st.cpsr.z ∧
              w'.st.cpsr.c = w.st.cpsr.c ∧ w'.st.cpsr.v = w.st.cpsr.v
  control : p = true ∨ mask.getLsbD 0 = false ∨ w.st.cpsr.m = .user → w'.st.cpsr.i = w.st.cpsr.i ∧ w'.st.cpsr.f = w.st.cpsr.f ∧
              w'.st.cpsr.m = w.st.cpsr.m
  spsr    : ∀ k, (p = false ∨ spsrOf w.st.cpsr.m ≠ some k) → w'.st.spsr.get k = w.st.spsr.get k
  changed : ∀ k, w'.st.spsr.get k = w.st.spsr.get k ∨ (w'.st.spsr.get k).written = true

theorem msrWrite_inv {p : Bool} {mask : BitVec 4} {op : Word} {w w' : Work} (h : msrWrite p mask op w = .ok w') :
    MsrChange p mask w w' := by
  unfold msrWrite at h
  cases p with
  | true =>
    simp only [if_true] at h
    obtain ⟨n, hn, h⟩ := bind_eq_ok.mp h
    cases h
    have hn' : spsrOf w.st.cpsr.m = some n := by
      unfold currentSpsr at hn
      split at hn
      · next k hk => cases hn; exact hk
      · cases hn
    refine ⟨Effect.of_same rfl (fun _ => rfl) rfl, rfl, rfl, fun _ => ⟨rfl, rfl, rfl, rfl⟩, fun _ => ⟨rfl, rfl, rfl⟩, ?_, ?_⟩
    · intro k hk
      refine setSpsr_spsr_ne w.st _ fun e => ?_
      rcases hk with hk | hk
      · cases hk
      · exact hk (e ▸ hn')
    · intro k
      by_cases e : k = n
      · subst e
        exact .inr (congrArg RegCell.written (setSpsr_spsr_self ..))
      · exact .inl (setSpsr_spsr_ne _ _ e)
  | false =>
    simp only [Bool.false_eq_true, if_false] at h
    unfold msrCpsr at h
    dsimp only at h
    split at h
    · next hw =>
      obtain ⟨m, hm, h⟩ := bind_eq_ok.mp h
      cases h
      have ht : op.getLsbD 5 = w.st.cpsr.t := by
        obtain ⟨_, ht, _⟩ := bind_eq_ok.mp hm
        rw [faultWhen_eq_ok] at ht
        simpa using ht
      have hw' : mask.getLsbD 0 = true ∧ w.st.cpsr.m ≠ .user := by
        simp only [msrWritesControl, Bool.and_eq_true] at hw
        refine ⟨hw.1, fun e => ?_⟩
        simp [e, Mode.privileged] at hw
      refine ⟨Effect.setCpsr _ _, rfl, ?_, ?_, ?_, fun _ _ => rfl, fun _ => .inl rfl⟩
      · simp only [workSetCpsr_st, setCpsr_cpsr, msrControl, msrFlags]
        split <;> rfl
      · rintro (h | h)
        · cases h
        · simp only [workSetCpsr_st, setCpsr_cpsr, msrControl, msrFlags, h, Bool.false_eq_true, if_false, and_self]
      · rintro (h | h | h)
        · cases h
        · rw [hw'.1] at h; cases h
        · exact absurd h hw'.2
    · cases h
      refine ⟨Effect.setCpsr _ _, rfl, ?_, ?_, ?_, fun _ _ => rfl, fun _ => .inl rfl⟩
      · simp only [workSetCpsr_st, setCpsr_cpsr, msrFlags]
        split <;> rfl
      · rintro (h | h)
        · cases h
        · simp only [workSetCpsr_st, setCpsr_cpsr, msrFlags, h, Bool.false_eq_true, if_false, and_self]
      · intro _
        simp only [workSetCpsr_st, setCpsr_cpsr, msrFlags]
        split <;> exact ⟨rfl, rfl, rfl⟩

/-- The gate was open. -/
theorem requirePsrTransfer_eq_ok {w : Work} {u : Unit} (h : requirePsrTransfer w = .ok u) : w.st.cfg.psrTransfer = .implemented := by
  unfold requirePsrTransfer at h
  split at h
  · cases h
  · next hp => exact hp

theorem msrRegBody_inv {p : Bool} {mask : BitVec 4} {rm : Reg} {w w' : Work} (h : msrRegBody p mask rm w = .ok w') :
    w.st.cfg.psrTransfer = .implemented ∧ MsrChange p mask w w' := by
  obtain ⟨_, hp, h⟩ := bind_eq_ok.mp h
  obtain ⟨_, _, h⟩ := bind_eq_ok.mp h
  exact ⟨requirePsrTransfer_eq_ok hp, msrWrite_inv h⟩

theorem msrImmBody_inv {p : Bool} {mask rotate : BitVec 4} {imm8 : BitVec 8} {w w' : Work}
    (h : msrImmBody p mask rotate imm8 w = .ok w') : w.st.cfg.psrTransfer = .implemented ∧ MsrChange p mask w w' := by
  obtain ⟨_, hp, h⟩ := bind_eq_ok.mp h
  exact ⟨requirePsrTransfer_eq_ok hp, msrWrite_inv h⟩

/-! ## Thumb -/

theorem hiAdd_inv {rs rd : Reg} {w w' : Work} (h : hiAdd rs rd w = .ok w') :
    Effect [slotOf w.st.cpsr.m rd] [] w w' ∧ StatusKept w w' := by
  obtain ⟨_, _, h⟩ := bind_eq_ok.mp h
  cases h
  exact ⟨Effect.write _ _ (by simp), write_cpsr .., write_spsr ..⟩

theorem hiMove_inv {rs rd : Reg} {w w' : Work} (h : hiMove rs rd w = .ok w') :
    Effect [slotOf w.st.cpsr.m rd] [] w w' ∧ StatusKept w w' := by
  obtain ⟨_, _, h⟩ := bind_eq_ok.mp h
  cases h
  exact ⟨Effect.write _ _ (by simp), write_cpsr .., write_spsr ..⟩

theorem hiCompare_inv {rs rd : Reg} {w w' : Work} (h : hiCompare rs rd w = .ok w') :
    Effect [] [] w w' ∧ StatusChange true true false w w' ∧ w'.target = w.target := by
  obtain ⟨_, _, h⟩ := bind_eq_ok.mp h
  cases h
  exact ⟨Effect.setCpsr _ _, .set rfl _ _ _ _ (fun h => by simp at h) rfl rfl, rfl⟩

theorem pcLoad_inv {rd : LowReg} {word8 : BitVec 8} {w w' : Work} (h : pcLoad rd word8 w = .ok w') :
    Effect [lo rd] [] w w' ∧ StatusKept w w' := by
  cases h
  exact ⟨Effect.write _ _ (by simp [slotOf_low]), write_cpsr .., write_spsr ..⟩

theorem addPcBody_inv {rd : LowReg} {word8 : BitVec 8} {w w' : Work} (h : addPcBody rd word8 w = .ok w') :
    Effect [lo rd] [] w w' ∧ StatusKept w w' := by
  cases h
  exact ⟨Effect.write _ _ (by simp [slotOf_low]), write_cpsr .., write_spsr ..⟩

theorem addSpBody_inv {rd : LowReg} {word8 : BitVec 8} {w w' : Work} (h : addSpBody rd word8 w = .ok w') :
    Effect [lo rd] [] w w' ∧ StatusKept w w' := by
  cases h
  exact ⟨Effect.write _ _ (by simp [slotOf_low]), write_cpsr .., write_spsr ..⟩

theorem adjustSp_inv {up : Bool} {sword7 : BitVec 7} {w w' : Work} (h : adjustSp up sword7 w = .ok w') :
    Effect [slotOf w.st.cpsr.m 13] [] w w' ∧ StatusKept w w' := by
  cases h
  exact ⟨Effect.write _ _ (by simp), write_cpsr .., write_spsr ..⟩

theorem thumbCondBranch_inv {c : Cond} {soffset8 : BitVec 8} {w w' : Work} (h : thumbCondBranch c soffset8 w = .ok w') :
    Effect [] [] w w' ∧ StatusKept w w' := by
  cases h
  split
  · exact ⟨Effect.branch _ _, rfl, rfl⟩
  · exact ⟨Effect.refl _, rfl, rfl⟩

theorem thumbBlHigh_inv {offset11 : BitVec 11} {w w' : Work} (h : thumbBlHigh offset11 w = .ok w') :
    Effect [slotOf w.st.cpsr.m 14] [] w w' ∧ StatusKept w w' := by
  cases h
  exact ⟨Effect.write _ _ (by simp), write_cpsr .., write_spsr ..⟩

theorem thumbBlLow_inv {offset11 : BitVec 11} {w w' : Work} (h : thumbBlLow offset11 w = .ok w') :
    Effect [slotOf w.st.cpsr.m 14] [] w w' ∧ StatusKept w w' := by
  cases h
  exact ⟨(Effect.write _ _ (by simp)).trans (Effect.branch _ _), write_cpsr .., write_spsr ..⟩

theorem branchBody_inv {offset24 : BitVec 24} {w w' : Work} (h : branchBody offset24 w = .ok w') :
    Effect [] [] w w' ∧ StatusKept w w' := by
  cases h
  exact ⟨Effect.branch _ _, rfl, rfl⟩

theorem branchLinkBody_inv {offset24 : BitVec 24} {w w' : Work} (h : branchLinkBody offset24 w = .ok w') :
    Effect [slotOf w.st.cpsr.m 14] [] w w' ∧ StatusKept w w' := by
  cases h
  exact ⟨(Effect.write _ _ (by simp)).trans (Effect.branch _ _), write_cpsr .., write_spsr ..⟩

end Sys2Proof.Machine
end

