-- ==== Sys2Proof/Laws/Encoding.lean ====
section
/-! SUPPORT. Small laws of the decoder's fields: every field conversion undoes its inverse, an ARM word is its seven fields, and a mask
test on a word is a test on the fields. -/

namespace Sys2Proof

@[simp] theorem regOf_regBits (r : Reg) : regOf (regBits r) = r := by
  apply Fin.ext; simp [regOf, regBits]
@[simp] theorem regBits_regOf (b : BitVec 4) : regBits (regOf b) = b := by simp [regOf, regBits]
@[simp] theorem lowRegOf_lowRegBits (r : LowReg) : lowRegOf (lowRegBits r) = r := by
  apply Fin.ext; simp [lowRegOf, lowRegBits]
@[simp] theorem lowRegBits_lowRegOf (b : BitVec 3) : lowRegBits (lowRegOf b) = b := by simp [lowRegOf, lowRegBits]

@[simp] theorem condOf_condBits (c : Cond) : condOf (condBits c) = some c := by cases c <;> rfl

/-- A condition comes from its own bits only. -/
theorem condOf_eq_some : ∀ {b : BitVec 4} {c : Cond}, condOf b = some c → condBits c = b := by decide

/-- The only field value without a condition is 1111 (R122). -/
theorem condOf_eq_none : ∀ {b : BitVec 4}, condOf b = none ↔ b = 0b1111#4 := by decide

@[simp] theorem shiftTypeOf_shiftTypeBits (t : ShiftType) : shiftTypeOf (shiftTypeBits t) = t := by cases t <;> rfl
@[simp] theorem shiftTypeBits_shiftTypeOf : ∀ b : BitVec 2, shiftTypeBits (shiftTypeOf b) = b := by decide

@[simp] theorem flagBit_getLsbD : ∀ b : BitVec 1, flagBit (b.getLsbD 0) = b := by decide
@[simp] theorem getLsbD_flagBit (b : Bool) : (flagBit b).getLsbD 0 = b := by cases b <;> rfl

/-- The fields of a word of fields are those fields. -/
@[simp] theorem armFields_word (f : ArmFields) : armFields f.word = f := by
  cases f
  simp only [armFields, ArmFields.word, ArmFields.mk.injEq]
  refine ⟨?_, ?_, ?_, ?_, ?_, ?_, ?_⟩ <;>
    (repeat first
      | exact BitVec.extractLsb'_eq_self
      | refine (BitVec.extractLsb'_append_eq_of_add_le (by decide)).trans ?_
      | refine (BitVec.extractLsb'_append_eq_of_le (by decide)).trans ?_)

/-- A word is its seven fields. -/
@[simp] theorem word_armFields (w : BitVec 32) : (armFields w).word = w := by
  have h : ∀ i, i < 32 → (armFields w).word.getLsbD i = w.getLsbD i := by
    intro i hi
    simp only [armFields, ArmFields.word, BitVec.getLsbD_append, BitVec.getLsbD_extractLsb']
    interval_cases i <;> simp
  exact BitVec.eq_of_getLsbD_eq h

/-- Two words of fields are the same word only if the fields are the same. -/
theorem word_injective {f g : ArmFields} (h : f.word = g.word) : f = g := by rw [← armFields_word f, h, armFields_word]

theorem append_and {v w : Nat} (a b : BitVec v) (c d : BitVec w) : (a ++ c) &&& (b ++ d) = (a &&& b) ++ (c &&& d) := by
  apply BitVec.eq_of_getLsbD_eq
  intro i hi
  simp only [BitVec.getLsbD_and, BitVec.getLsbD_append]
  split <;> simp

/-- A mask on a word masks field by field, so a row's test is a test of the fields (with `word_injective`). -/
theorem word_and (f g : ArmFields) : f.word &&& g.word =
    (ArmFields.mk (f.cond &&& g.cond) (f.op &&& g.op) (f.rn &&& g.rn) (f.rd &&& g.rd) (f.rs &&& g.rs) (f.lo &&& g.lo)
      (f.rm &&& g.rm)).word := by
  simp only [ArmFields.word, ← append_and]

/-- The condition field of a word of fields (R121). -/
theorem word_cond (f : ArmFields) : f.word.extractLsb' 28 4 = f.cond := congrArg ArmFields.cond (armFields_word f)

end Sys2Proof
end

