-- ==== Sys2Proof/Laws/Exec.lean ====
section
/-! SUPPORT. Everything an instruction that answers next can do, said once (`exec_effect`): a body with the instruction's own footprint,
one of six changes of the status registers, and the pc of `endOfStep`.  Every rule about the whole machine is read off it. -/

namespace Sys2Proof.Machine

open Sys2Proof.Claims

/-- What an instruction's body can do to the status registers. -/
inductive StatusEffect (i : Instr) (w w' : Work) : Prop
  | skipped (hw : w' = w)
  | plain (h : StatusChange (setsFlags i) (setsOverflow i) (isReturn i) w w') (hx : (isSwi i || isUndefined i) = false)
  | bx (h : isBx i = true) (t : Bool) (hc : w'.st.cpsr = { w.st.cpsr with t := t }) (hs : w'.st.spsr = w.st.spsr)
      (ht : w'.target.isSome = true)
  | entry (k : ExceptionKind) (ret : Word)
      (hk : (isSwi i = true ∧ k = .softwareInterrupt) ∨
        (isUndefined i = true ∧ w.st.cfg.undefined = .trap ∧ k = .undefinedInstruction))
      (hw : w' = takeException k ret w)
  | msr (p : Bool) (mask : BitVec 4) (hm : (if p then msrSpsrMask i else msrCpsrMask i) = some mask)
      (hp : w.st.cfg.psrTransfer = .implemented) (hc : MsrChange p mask w w')

/-- What a body may do for instruction `i` run from `s`. -/
def BodyEffect (i : Instr) (s : State) (w' : Work) : Prop :=
  Effect (writtenSlots i s) (storedBytes i s) s.begin w' ∧ StatusEffect i s.begin w'

/-- What `exec i s = next t` says. -/
def ExecEffect (i : Instr) (s t : State) : Prop := ∃ w', BodyEffect i s w' ∧ t = endOfStep (encode i).isThumb w'

variable {i : Instr} {s t : State} {w w' : Work}

theorem execEffect_arm {c : Cond} {body : Work → Except Fault Work} (hT : (encode i).isThumb = false) (h : armStep c body s = .next t)
    (hb : ∀ {w'}, body s.begin = .ok w' → BodyEffect i s w') : ExecEffect i s t := by
  rcases armStep_next h with ⟨_, rfl⟩ | ⟨w', _, hw, rfl⟩
  · exact ⟨s.begin, ⟨Effect.refl _, .skipped rfl⟩, by rw [hT]; rfl⟩
  · exact ⟨w', hb hw, by rw [hT]⟩

theorem execEffect_thumb {body : Work → Except Fault Work} (hT : (encode i).isThumb = true) (h : thumbStep body s = .next t)
    (hb : ∀ {w'}, body s.begin = .ok w' → BodyEffect i s w') : ExecEffect i s t := by
  obtain ⟨w', hw, rfl⟩ := thumbStep_next h
  exact ⟨w', hb hw, by rw [hT]⟩

/-! ## Shapes of bodies -/

theorem bodyEffect_plain (h : Effect (writtenSlots i s) (storedBytes i s) s.begin w' ∧
    StatusChange (setsFlags i) (setsOverflow i) (isReturn i) s.begin w') (hx : (isSwi i || isUndefined i) = false) : BodyEffect i s w' :=
  ⟨h.1, .plain h.2 hx⟩

theorem bodyEffect_kept {slots : List Slot} {stores : List (Word × Nat)} (he : Effect slots stores s.begin w')
    (hk : StatusKept s.begin w') (hs : writtenSlots i s = slots) (hb : storedBytes i s = stores)
    (hx : (isSwi i || isUndefined i) = false) : BodyEffect i s w' :=
  ⟨hs ▸ hb ▸ he, .plain (.kept hk.1 hk.2) hx⟩

theorem bodyEffect_bx {rn : Reg} (hi : isBx i = true) (h : branchExchange rn s.begin = .ok w') : BodyEffect i s w' := by
  rw [branchExchange_inv h]
  exact ⟨(Effect.setCpsr _ _).trans (Effect.branch _ _), .bx hi _ rfl rfl rfl⟩

theorem bodyEffect_swi {ret : Word} (hi : isSwi i = true) (hs : writtenSlots i s = [24])
    (h : Except.ok (ε := Fault) (takeException .softwareInterrupt ret s.begin) = .ok w') : BodyEffect i s w' := by
  cases h
  exact ⟨hs ▸ takeException_effect .softwareInterrupt _ _, .entry .softwareInterrupt _ (.inl ⟨hi, rfl⟩) rfl⟩

theorem bodyEffect_undefined {k : Unimplemented} {ret : Word} (hi : isUndefined i = true) (hs : writtenSlots i s = [30])
    (h : undefinedInstruction k ret s.begin = .ok w') : BodyEffect i s w' := by
  obtain ⟨hu, rfl⟩ := undefinedInstruction_eq_ok h
  exact ⟨hs ▸ takeException_effect .undefinedInstruction _ _, .entry .undefinedInstruction _ (.inr ⟨hi, hu, rfl⟩) rfl⟩

theorem bodyEffect_msr {p : Bool} {mask : BitVec 4} (hm : (if p then msrSpsrMask i else msrCpsrMask i) = some mask)
    (h : s.begin.st.cfg.psrTransfer = .implemented ∧ MsrChange p mask s.begin w') : BodyEffect i s w' :=
  ⟨h.2.effect.mono (by simp) (by simp), .msr p mask hm h.1 h.2⟩

/-- An arithmetic change sets V only where it sets the flags. -/
theorem overflowOnlyWithFlags {slots : List Slot} {stores : List (Word × Nat)} {f r : Bool}
    (h : Effect slots stores w w' ∧ StatusChange f true r w w') : Effect slots stores w w' ∧ StatusChange f f r w w' := by
  refine ⟨h.1, ?_⟩
  cases h.2 with
  | kept h1 h2 => exact .kept h1 h2
  | set hf n z c v hv h1 h2 => exact .set hf n z c v (fun h => by rw [hf] at h; cases h) h1 h2
  | returned hr k hk h1 h2 h3 => exact .returned hr k hk h1 h2 h3

theorem lowReg_bne_pc (rd : LowReg) : (lowReg rd != 15) = true := by simp [lowReg_ne_pc]
theorem lowReg_beq_pc (rd : LowReg) : (lowReg rd == 15) = false := by simp [lowReg_ne_pc]

/-- A Thumb destination is never R15. -/
theorem lowDestination {rd : LowReg} {o : Bool} (h : Effect [slotOf w.st.cpsr.m (lowReg rd)] [] w w' ∧
    StatusChange (true && lowReg rd != 15) o (true && lowReg rd == 15) w w') :
    Effect [lo rd] [] w w' ∧ StatusChange true o false w w' := by
  simpa only [slotOf_low, lowReg_bne_pc, lowReg_beq_pc, Bool.and_true, Bool.and_false] using h

theorem lowMultiply {rd : LowReg} (h : Effect [slotOf w.st.cpsr.m (lowReg rd)] [] w w' ∧
    StatusChange (true && lowReg rd != 15) false false w w') : Effect [lo rd] [] w w' ∧ StatusChange true false false w w' := by
  simpa only [slotOf_low, lowReg_bne_pc, lowReg_beq_pc, Bool.and_true, Bool.and_false] using h

theorem lowTest {rd : LowReg} {o : Bool} (h : Effect [] [] w w' ∧ StatusChange (lowReg rd != 15) o false w w' ∧ w'.target = w.target) :
    Effect [] [] w w' ∧ StatusChange true o false w w' := by
  simpa only [lowReg_bne_pc] using And.intro h.1 h.2.1

theorem lowLoad {rn : Reg} {rd : LowReg} (h : Effect (loadSlots false w.st.cpsr.m rn (lowReg rd)) [] w w' ∧ StatusKept w w') :
    Effect [lo rd] [] w w' ∧ StatusKept w w' := by
  simpa [loadSlots, slotOf_low] using h

/-! ## Thumb addresses -/

theorem offset_regOffset (ro : LowReg) (s : State) : offset (regOffset ro) s = low ro s := by
  simp only [offset, regOffset, shiftImm, x_low]
  rw [if_pos (by decide)]
  cases s.cfg.immShiftZero <;> simp [shift, armShiftZero]
theorem halfOff_regOffset (ro : LowReg) (s : State) : halfOff (halfRegOffset ro) s = low ro s := by simp [halfOff, halfRegOffset]
theorem offset_immWord (o : BitVec 5) (s : State) : offset (immWordOffset o) s = (o ++ 0b00#2).zeroExtend 32 := by
  simp [offset, immWordOffset]
theorem offset_immByte (o : BitVec 5) (s : State) : offset (immByteOffset o) s = o.zeroExtend 32 := by simp [offset, immByteOffset]
theorem halfOff_immHalf (o : BitVec 5) (s : State) : halfOff (immHalfOffset o) s = (o ++ 0b0#1).zeroExtend 32 := by
  simp [halfOff, immHalfOffset]
theorem offset_sp (o : BitVec 8) (s : State) : offset (spOffset o) s = (o ++ 0b00#2).zeroExtend 32 := by simp [offset, spOffset]

/-- The access of a Thumb store, at base plus offset. -/
theorem thumbAccess (base off : Word) : accessAddress true base (offsetBase true base off) = base + off := rfl

theorem x_sp (s : State) : x 13 s = reg 13 s := x_ne_pc (by decide) s

/-! ## Which codes are ARM's -/

theorem dataProcessing_isArm (op c s rn rd) (o : Operand2) : (encodeDataProcessing op c s rn rd o).isThumb = false := by cases o <;> rfl
theorem singleTransfer_isArm (p b w l c u rn rd) (o : TransferOffset) : (encodeSingleTransfer p b w l c u rn rd o).isThumb = false := by
  cases o <;> rfl
theorem halfTransfer_isArm (sh l c p u w rn rd) (o : HalfOffset) : (encodeHalfTransfer sh l c p u w rn rd o).isThumb = false := by
  cases o <;> rfl

/-! ## Every instruction -/

/-- Everything an instruction that answers next has done. -/
theorem exec_effect (i : Instr) (s t : State) (hex : exec i s = .next t) : ExecEffect i s t := by
  cases i with
  | and => exact execEffect_arm (dataProcessing_isArm ..) hex fun hw => bodyEffect_plain (logicalOp_inv hw) rfl
  | eor => exact execEffect_arm (dataProcessing_isArm ..) hex fun hw => bodyEffect_plain (logicalOp_inv hw) rfl
  | sub => exact execEffect_arm (dataProcessing_isArm ..) hex fun hw => bodyEffect_plain (overflowOnlyWithFlags (arithmeticOp_inv hw)) rfl
  | rsb => exact execEffect_arm (dataProcessing_isArm ..) hex fun hw => bodyEffect_plain (overflowOnlyWithFlags (arithmeticOp_inv hw)) rfl
  | add => exact execEffect_arm (dataProcessing_isArm ..) hex fun hw => bodyEffect_plain (overflowOnlyWithFlags (arithmeticOp_inv hw)) rfl
  | adc => exact execEffect_arm (dataProcessing_isArm ..) hex fun hw => bodyEffect_plain (overflowOnlyWithFlags (arithmeticOp_inv hw)) rfl
  | sbc => exact execEffect_arm (dataProcessing_isArm ..) hex fun hw => bodyEffect_plain (overflowOnlyWithFlags (arithmeticOp_inv hw)) rfl
  | rsc => exact execEffect_arm (dataProcessing_isArm ..) hex fun hw => bodyEffect_plain (overflowOnlyWithFlags (arithmeticOp_inv hw)) rfl
  | tst =>
    exact execEffect_arm (dataProcessing_isArm ..) hex fun hw =>
      bodyEffect_plain ⟨(logicalTest_inv hw).1, (logicalTest_inv hw).2.1⟩ rfl
  | teq =>
    exact execEffect_arm (dataProcessing_isArm ..) hex fun hw =>
      bodyEffect_plain ⟨(logicalTest_inv hw).1, (logicalTest_inv hw).2.1⟩ rfl
  | cmp =>
    exact execEffect_arm (dataProcessing_isArm ..) hex fun hw =>
      bodyEffect_plain (overflowOnlyWithFlags ⟨(arithmeticTest_inv hw).1, (arithmeticTest_inv hw).2.1⟩) rfl
  | cmn =>
    exact execEffect_arm (dataProcessing_isArm ..) hex fun hw =>
      bodyEffect_plain (overflowOnlyWithFlags ⟨(arithmeticTest_inv hw).1, (arithmeticTest_inv hw).2.1⟩) rfl
  | orr => exact execEffect_arm (dataProcessing_isArm ..) hex fun hw => bodyEffect_plain (logicalOp_inv hw) rfl
  | mov => exact execEffect_arm (dataProcessing_isArm ..) hex fun hw => bodyEffect_plain (moveOp_inv hw) rfl
  | bic => exact execEffect_arm (dataProcessing_isArm ..) hex fun hw => bodyEffect_plain (logicalOp_inv hw) rfl
  | mvn => exact execEffect_arm (dataProcessing_isArm ..) hex fun hw => bodyEffect_plain (moveOp_inv hw) rfl
  | psrSpaceNop =>
    exact execEffect_arm (dataProcessing_isArm ..) hex fun hw =>
      ⟨readOnlyTest_inv hw ▸ Effect.refl _, .skipped (readOnlyTest_inv hw)⟩
  | mrs => exact execEffect_arm rfl hex fun hw => bodyEffect_kept (mrsBody_inv hw).1 (mrsBody_inv hw).2 rfl rfl rfl
  | msrReg c p => exact execEffect_arm rfl hex fun hw => bodyEffect_msr (by cases p <;> rfl) (msrRegBody_inv hw)
  | msrImm c p => exact execEffect_arm rfl hex fun hw => bodyEffect_msr (by cases p <;> rfl) (msrImmBody_inv hw)
  | mul => exact execEffect_arm rfl hex fun hw => bodyEffect_plain (mulBody_inv hw) rfl
  | mla => exact execEffect_arm rfl hex fun hw => bodyEffect_plain (mlaBody_inv hw) rfl
  | umull => exact execEffect_arm rfl hex fun hw => bodyEffect_plain (overflowOnlyWithFlags (multiplyLong_inv hw)) rfl
  | umlal => exact execEffect_arm rfl hex fun hw => bodyEffect_plain (overflowOnlyWithFlags (multiplyLongAccumulate_inv hw)) rfl
  | smull => exact execEffect_arm rfl hex fun hw => bodyEffect_plain (overflowOnlyWithFlags (multiplyLong_inv hw)) rfl
  | smlal => exact execEffect_arm rfl hex fun hw => bodyEffect_plain (overflowOnlyWithFlags (multiplyLongAccumulate_inv hw)) rfl
  | ldrPre =>
    exact execEffect_arm (singleTransfer_isArm ..) hex fun hw =>
      bodyEffect_kept (singleLoad_inv hw).1 (singleLoad_inv hw).2 rfl rfl rfl
  | ldrPost =>
    exact execEffect_arm (singleTransfer_isArm ..) hex fun hw =>
      bodyEffect_kept (singleLoad_inv hw).1 (singleLoad_inv hw).2 rfl rfl rfl
  | ldrbPre =>
    exact execEffect_arm (singleTransfer_isArm ..) hex fun hw =>
      bodyEffect_kept (singleLoad_inv hw).1 (singleLoad_inv hw).2 rfl rfl rfl
  | ldrbPost =>
    exact execEffect_arm (singleTransfer_isArm ..) hex fun hw =>
      bodyEffect_kept (singleLoad_inv hw).1 (singleLoad_inv hw).2 rfl rfl rfl
  | strPre =>
    exact execEffect_arm (singleTransfer_isArm ..) hex fun hw =>
      bodyEffect_kept (singleStore_inv hw).1 (singleStore_inv hw).2.1 rfl rfl rfl
  | strPost =>
    exact execEffect_arm (singleTransfer_isArm ..) hex fun hw =>
      bodyEffect_kept (singleStore_inv hw).1 (singleStore_inv hw).2.1 rfl rfl rfl
  | strbPre =>
    exact execEffect_arm (singleTransfer_isArm ..) hex fun hw =>
      bodyEffect_kept (singleStore_inv hw).1 (singleStore_inv hw).2.1 rfl rfl rfl
  | strbPost =>
    exact execEffect_arm (singleTransfer_isArm ..) hex fun hw =>
      bodyEffect_kept (singleStore_inv hw).1 (singleStore_inv hw).2.1 rfl rfl rfl
  | ldrt =>
    exact execEffect_arm (singleTransfer_isArm ..) hex fun hw =>
      bodyEffect_kept (singleLoad_inv hw).1 (singleLoad_inv hw).2 rfl rfl rfl
  | ldrbt =>
    exact execEffect_arm (singleTransfer_isArm ..) hex fun hw =>
      bodyEffect_kept (singleLoad_inv hw).1 (singleLoad_inv hw).2 rfl rfl rfl
  | strt =>
    exact execEffect_arm (singleTransfer_isArm ..) hex fun hw =>
      bodyEffect_kept (singleStore_inv hw).1 (singleStore_inv hw).2.1 rfl rfl rfl
  | strbt =>
    exact execEffect_arm (singleTransfer_isArm ..) hex fun hw =>
      bodyEffect_kept (singleStore_inv hw).1 (singleStore_inv hw).2.1 rfl rfl rfl
  | ldrh =>
    exact execEffect_arm (halfTransfer_isArm ..) hex fun hw =>
      bodyEffect_kept (halfTransferLoad_inv hw).1 (halfTransferLoad_inv hw).2 rfl rfl rfl
  | strh =>
    exact execEffect_arm (halfTransfer_isArm ..) hex fun hw =>
      bodyEffect_kept (halfTransferStore_inv hw).1 (halfTransferStore_inv hw).2.1 rfl rfl rfl
  | ldrsb =>
    exact execEffect_arm (halfTransfer_isArm ..) hex fun hw =>
      bodyEffect_kept (halfTransferLoad_inv hw).1 (halfTransferLoad_inv hw).2 rfl rfl rfl
  | ldrsh =>
    exact execEffect_arm (halfTransfer_isArm ..) hex fun hw =>
      bodyEffect_kept (halfTransferLoad_inv hw).1 (halfTransferLoad_inv hw).2 rfl rfl rfl
  | signedStore =>
    exact execEffect_arm (body := fun _ => .error (.unpredictable .signedStore)) (halfTransfer_isArm ..) hex fun hw =>
      nomatch hw
  | halfSh00 =>
    exact execEffect_arm (body := fun _ => .error (.unpredictable .halfwordSH00)) (halfTransfer_isArm ..) hex fun hw =>
      nomatch hw
  | swp => exact execEffect_arm rfl hex fun hw => bodyEffect_kept (swapBody_inv hw).1 (swapBody_inv hw).2 rfl rfl rfl
  | swpb => exact execEffect_arm rfl hex fun hw => bodyEffect_kept (swapBody_inv hw).1 (swapBody_inv hw).2 rfl rfl rfl
  | ldmia => exact execEffect_arm rfl hex fun hw => bodyEffect_plain (loadMultiple_inv hw) rfl
  | ldmib => exact execEffect_arm rfl hex fun hw => bodyEffect_plain (loadMultiple_inv hw) rfl
  | ldmda => exact execEffect_arm rfl hex fun hw => bodyEffect_plain (loadMultiple_inv hw) rfl
  | ldmdb => exact execEffect_arm rfl hex fun hw => bodyEffect_plain (loadMultiple_inv hw) rfl
  | stmia => exact execEffect_arm rfl hex fun hw => bodyEffect_kept (storeMultiple_inv hw).1 (storeMultiple_inv hw).2.1 rfl rfl rfl
  | stmib => exact execEffect_arm rfl hex fun hw => bodyEffect_kept (storeMultiple_inv hw).1 (storeMultiple_inv hw).2.1 rfl rfl rfl
  | stmda => exact execEffect_arm rfl hex fun hw => bodyEffect_kept (storeMultiple_inv hw).1 (storeMultiple_inv hw).2.1 rfl rfl rfl
  | stmdb => exact execEffect_arm rfl hex fun hw => bodyEffect_kept (storeMultiple_inv hw).1 (storeMultiple_inv hw).2.1 rfl rfl rfl
  | b => exact execEffect_arm rfl hex fun hw => bodyEffect_kept (branchBody_inv hw).1 (branchBody_inv hw).2 rfl rfl rfl
  | bl => exact execEffect_arm rfl hex fun hw => bodyEffect_kept (branchLinkBody_inv hw).1 (branchLinkBody_inv hw).2 rfl rfl rfl
  | bx => exact execEffect_arm rfl hex fun hw => bodyEffect_bx rfl hw
  | swi =>
    exact execEffect_arm (body := fun w => .ok (takeException .softwareInterrupt (armReturn w) w)) rfl hex fun hw =>
      bodyEffect_swi rfl rfl hw
  | undefined => exact execEffect_arm rfl hex fun hw => bodyEffect_undefined (ret := armReturn s.begin) rfl rfl hw
  | ldc => exact execEffect_arm rfl hex fun hw => bodyEffect_undefined (ret := armReturn s.begin) rfl rfl hw
  | stc => exact execEffect_arm rfl hex fun hw => bodyEffect_undefined (ret := armReturn s.begin) rfl rfl hw
  | cdp => exact execEffect_arm rfl hex fun hw => bodyEffect_undefined (ret := armReturn s.begin) rfl rfl hw
  | mcr => exact execEffect_arm rfl hex fun hw => bodyEffect_undefined (ret := armReturn s.begin) rfl rfl hw
  | mrc => exact execEffect_arm rfl hex fun hw => bodyEffect_undefined (ret := armReturn s.begin) rfl rfl hw
  | reservedCond => exact nomatch hex
  | tLslImm => exact execEffect_thumb rfl hex fun hw => bodyEffect_plain (lowDestination (moveOp_inv hw)) rfl
  | tLsrImm => exact execEffect_thumb rfl hex fun hw => bodyEffect_plain (lowDestination (moveOp_inv hw)) rfl
  | tAsrImm => exact execEffect_thumb rfl hex fun hw => bodyEffect_plain (lowDestination (moveOp_inv hw)) rfl
  | tAddReg => exact execEffect_thumb rfl hex fun hw => bodyEffect_plain (lowDestination (arithmeticOp_inv hw)) rfl
  | tSubReg => exact execEffect_thumb rfl hex fun hw => bodyEffect_plain (lowDestination (arithmeticOp_inv hw)) rfl
  | tAddImm3 => exact execEffect_thumb rfl hex fun hw => bodyEffect_plain (lowDestination (arithmeticOp_inv hw)) rfl
  | tSubImm3 => exact execEffect_thumb rfl hex fun hw => bodyEffect_plain (lowDestination (arithmeticOp_inv hw)) rfl
  | tMovImm => exact execEffect_thumb rfl hex fun hw => bodyEffect_plain (lowDestination (moveOp_inv hw)) rfl
  | tCmpImm rd imm8 =>
    exact execEffect_thumb (body := arithmeticTest aluSub (lowReg rd) (lowReg rd) (plainImm imm8)) rfl hex fun hw =>
      bodyEffect_plain (lowTest (arithmeticTest_inv hw)) rfl
  | tAddImm8 => exact execEffect_thumb rfl hex fun hw => bodyEffect_plain (lowDestination (arithmeticOp_inv hw)) rfl
  | tSubImm8 => exact execEffect_thumb rfl hex fun hw => bodyEffect_plain (lowDestination (arithmeticOp_inv hw)) rfl
  | tAnd => exact execEffect_thumb rfl hex fun hw => bodyEffect_plain (lowDestination (logicalOp_inv hw)) rfl
  | tEor => exact execEffect_thumb rfl hex fun hw => bodyEffect_plain (lowDestination (logicalOp_inv hw)) rfl
  | tLsl => exact execEffect_thumb rfl hex fun hw => bodyEffect_plain (lowDestination (moveOp_inv hw)) rfl
  | tLsr => exact execEffect_thumb rfl hex fun hw => bodyEffect_plain (lowDestination (moveOp_inv hw)) rfl
  | tAsr => exact execEffect_thumb rfl hex fun hw => bodyEffect_plain (lowDestination (moveOp_inv hw)) rfl
  | tAdc => exact execEffect_thumb rfl hex fun hw => bodyEffect_plain (lowDestination (arithmeticOp_inv hw)) rfl
  | tSbc => exact execEffect_thumb rfl hex fun hw => bodyEffect_plain (lowDestination (arithmeticOp_inv hw)) rfl
  | tRor => exact execEffect_thumb rfl hex fun hw => bodyEffect_plain (lowDestination (moveOp_inv hw)) rfl
  | tTst rs rd =>
    exact execEffect_thumb (body := logicalTest (· &&& ·) (lowReg rd) (lowReg rd) (plainReg rs)) rfl hex fun hw =>
      bodyEffect_plain (lowTest (logicalTest_inv hw)) rfl
  | tNeg => exact execEffect_thumb rfl hex fun hw => bodyEffect_plain (lowDestination (arithmeticOp_inv hw)) rfl
  | tCmp rs rd =>
    exact execEffect_thumb (body := arithmeticTest aluSub (lowReg rd) (lowReg rd) (plainReg rs)) rfl hex fun hw =>
      bodyEffect_plain (lowTest (arithmeticTest_inv hw)) rfl
  | tCmn rs rd =>
    exact execEffect_thumb (body := arithmeticTest aluAdd (lowReg rd) (lowReg rd) (plainReg rs)) rfl hex fun hw =>
      bodyEffect_plain (lowTest (arithmeticTest_inv hw)) rfl
  | tOrr => exact execEffect_thumb rfl hex fun hw => bodyEffect_plain (lowDestination (logicalOp_inv hw)) rfl
  | tMul => exact execEffect_thumb rfl hex fun hw => bodyEffect_plain (lowMultiply (mulBody_inv hw)) rfl
  | tBic => exact execEffect_thumb rfl hex fun hw => bodyEffect_plain (lowDestination (logicalOp_inv hw)) rfl
  | tMvn => exact execEffect_thumb rfl hex fun hw => bodyEffect_plain (lowDestination (moveOp_inv hw)) rfl
  | tAddHi => exact execEffect_thumb rfl hex fun hw => bodyEffect_kept (hiAdd_inv hw).1 (hiAdd_inv hw).2 rfl rfl rfl
  | tCmpHi => exact execEffect_thumb rfl hex fun hw => bodyEffect_plain ⟨(hiCompare_inv hw).1, (hiCompare_inv hw).2.1⟩ rfl
  | tMovHi => exact execEffect_thumb rfl hex fun hw => bodyEffect_kept (hiMove_inv hw).1 (hiMove_inv hw).2 rfl rfl rfl
  | tBx rs =>
    exact execEffect_thumb (body := branchExchange rs) rfl hex fun hw => bodyEffect_bx rfl hw
  | tBxH1 => exact execEffect_thumb (body := fun _ => .error (.unpredictable .thumbBxH1)) rfl hex fun hw => nomatch hw
  | tLdrPc rd word8 =>
    exact execEffect_thumb (body := (pcLoad rd word8)) rfl hex fun hw =>
      bodyEffect_kept (pcLoad_inv hw).1 (pcLoad_inv hw).2 rfl rfl rfl
  | tStrReg =>
    exact execEffect_thumb rfl hex fun hw =>
      bodyEffect_kept (singleStore_inv hw).1 (singleStore_inv hw).2.1 rfl
        (by simp only [storedBytes, x_low, begin_st, thumbAccess, offset_regOffset]; rfl) rfl
  | tStrbReg =>
    exact execEffect_thumb rfl hex fun hw =>
      bodyEffect_kept (singleStore_inv hw).1 (singleStore_inv hw).2.1 rfl
        (by simp only [storedBytes, x_low, begin_st, thumbAccess, offset_regOffset]; rfl) rfl
  | tLdrReg =>
    exact execEffect_thumb rfl hex fun hw =>
      bodyEffect_kept (lowLoad (singleLoad_inv hw)).1 (lowLoad (singleLoad_inv hw)).2 rfl rfl rfl
  | tLdrbReg =>
    exact execEffect_thumb rfl hex fun hw =>
      bodyEffect_kept (lowLoad (singleLoad_inv hw)).1 (lowLoad (singleLoad_inv hw)).2 rfl rfl rfl
  | tStrhReg =>
    exact execEffect_thumb rfl hex fun hw =>
      bodyEffect_kept (halfTransferStore_inv hw).1 (halfTransferStore_inv hw).2.1 rfl
        (by simp only [storedBytes, x_low, begin_st, thumbAccess, halfOff_regOffset]) rfl
  | tLdrhReg =>
    exact execEffect_thumb rfl hex fun hw =>
      bodyEffect_kept (lowLoad (halfTransferLoad_inv hw)).1 (lowLoad (halfTransferLoad_inv hw)).2 rfl rfl rfl
  | tLdsb =>
    exact execEffect_thumb rfl hex fun hw =>
      bodyEffect_kept (lowLoad (halfTransferLoad_inv hw)).1 (lowLoad (halfTransferLoad_inv hw)).2 rfl rfl rfl
  | tLdsh =>
    exact execEffect_thumb rfl hex fun hw =>
      bodyEffect_kept (lowLoad (halfTransferLoad_inv hw)).1 (lowLoad (halfTransferLoad_inv hw)).2 rfl rfl rfl
  | tStrImm offset5 rb rd =>
    exact execEffect_thumb (body := singleStore false true true false (lowReg rb) (lowReg rd) (immWordOffset offset5)) rfl hex fun hw =>
      bodyEffect_kept (singleStore_inv hw).1 (singleStore_inv hw).2.1 rfl
        (by simp only [storedBytes, x_low, begin_st, thumbAccess, offset_immWord]; rfl) rfl
  | tLdrImm offset5 rb rd =>
    exact execEffect_thumb (body := singleLoad false true true false (lowReg rb) (lowReg rd) (immWordOffset offset5)) rfl hex fun hw =>
      bodyEffect_kept (lowLoad (singleLoad_inv hw)).1 (lowLoad (singleLoad_inv hw)).2 rfl rfl rfl
  | tStrbImm offset5 rb rd =>
    exact execEffect_thumb (body := singleStore true true true false (lowReg rb) (lowReg rd) (immByteOffset offset5)) rfl hex fun hw =>
      bodyEffect_kept (singleStore_inv hw).1 (singleStore_inv hw).2.1 rfl
        (by simp only [storedBytes, x_low, begin_st, thumbAccess, offset_immByte]; rfl) rfl
  | tLdrbImm =>
    exact execEffect_thumb rfl hex fun hw =>
      bodyEffect_kept (lowLoad (singleLoad_inv hw)).1 (lowLoad (singleLoad_inv hw)).2 rfl rfl rfl
  | tStrhImm =>
    exact execEffect_thumb rfl hex fun hw =>
      bodyEffect_kept (halfTransferStore_inv hw).1 (halfTransferStore_inv hw).2.1 rfl
        (by simp only [storedBytes, x_low, begin_st, thumbAccess, halfOff_immHalf]) rfl
  | tLdrhImm =>
    exact execEffect_thumb rfl hex fun hw =>
      bodyEffect_kept (lowLoad (halfTransferLoad_inv hw)).1 (lowLoad (halfTransferLoad_inv hw)).2 rfl rfl rfl
  | tStrSp rd word8 =>
    exact execEffect_thumb (body := singleStore false true true false 13 (lowReg rd) (spOffset word8)) rfl hex fun hw =>
      bodyEffect_kept (singleStore_inv hw).1 (singleStore_inv hw).2.1 rfl
        (by simp only [storedBytes, x_sp, begin_st, thumbAccess, offset_sp]; rfl) rfl
  | tLdrSp rd word8 =>
    exact execEffect_thumb (body := singleLoad false true true false 13 (lowReg rd) (spOffset word8)) rfl hex fun hw =>
      bodyEffect_kept (lowLoad (singleLoad_inv hw)).1 (lowLoad (singleLoad_inv hw)).2 rfl rfl rfl
  | tAddPc rd word8 =>
    exact execEffect_thumb (body := (addPcBody rd word8)) rfl hex fun hw =>
      bodyEffect_kept (addPcBody_inv hw).1 (addPcBody_inv hw).2 rfl rfl rfl
  | tAddSp rd word8 =>
    exact execEffect_thumb (body := (addSpBody rd word8)) rfl hex fun hw =>
      bodyEffect_kept (addSpBody_inv hw).1 (addSpBody_inv hw).2 rfl rfl rfl
  | tIncSp sword7 =>
    exact execEffect_thumb (body := (adjustSp true sword7)) rfl hex fun hw =>
      bodyEffect_kept (adjustSp_inv hw).1 (adjustSp_inv hw).2 rfl rfl rfl
  | tDecSp sword7 =>
    exact execEffect_thumb (body := (adjustSp false sword7)) rfl hex fun hw =>
      bodyEffect_kept (adjustSp_inv hw).1 (adjustSp_inv hw).2 rfl rfl rfl
  | tPush r rlist =>
    exact execEffect_thumb (body := storeMultiple true false false true 13 (pushList r rlist)) rfl hex fun hw =>
      bodyEffect_kept (storeMultiple_inv hw).1 (storeMultiple_inv hw).2.1 rfl rfl rfl
  | tPop r rlist =>
    exact execEffect_thumb (body := loadMultiple false true false true 13 (popList r rlist)) rfl hex fun hw =>
      bodyEffect_plain (loadMultiple_inv hw) rfl
  | tStmia =>
    exact execEffect_thumb rfl hex fun hw =>
      bodyEffect_kept (storeMultiple_inv hw).1 (storeMultiple_inv hw).2.1 (by simp only [writtenSlots, storeSlots, slotOf_low]; rfl) rfl rfl
  | tLdmia => exact execEffect_thumb rfl hex fun hw => bodyEffect_plain (loadMultiple_inv hw) rfl
  | tBCond0to7 c soffset8 =>
    exact execEffect_thumb (body := (thumbCondBranch c soffset8)) rfl hex fun hw =>
      bodyEffect_kept (thumbCondBranch_inv hw).1 (thumbCondBranch_inv hw).2 rfl rfl rfl
  | tBCond8to11 c soffset8 =>
    exact execEffect_thumb (body := (thumbCondBranch c soffset8)) rfl hex fun hw =>
      bodyEffect_kept (thumbCondBranch_inv hw).1 (thumbCondBranch_inv hw).2 rfl rfl rfl
  | tBCond12to13 c soffset8 =>
    exact execEffect_thumb (body := (thumbCondBranch c soffset8)) rfl hex fun hw =>
      bodyEffect_kept (thumbCondBranch_inv hw).1 (thumbCondBranch_inv hw).2 rfl rfl rfl
  | tBCond14 => exact execEffect_thumb rfl hex fun hw => bodyEffect_undefined (ret := thumbReturn s.begin) rfl rfl hw
  | tSwi =>
    exact execEffect_thumb (body := fun w => .ok (takeException .softwareInterrupt (thumbReturn w) w)) rfl hex fun hw =>
      bodyEffect_swi rfl rfl hw
  | tB offset11 =>
    exact execEffect_thumb (body := (thumbBranch offset11)) rfl hex fun hw =>
      ⟨Except.ok.inj hw ▸ Effect.branch _ _, .plain (Except.ok.inj hw ▸ .kept rfl rfl) rfl⟩
  | tBlHigh offset11 =>
    exact execEffect_thumb (body := (thumbBlHigh offset11)) rfl hex fun hw =>
      bodyEffect_kept (thumbBlHigh_inv hw).1 (thumbBlHigh_inv hw).2 rfl rfl rfl
  | tBlLow offset11 =>
    exact execEffect_thumb (body := (thumbBlLow offset11)) rfl hex fun hw =>
      bodyEffect_kept (thumbBlLow_inv hw).1 (thumbBlLow_inv hw).2 rfl rfl rfl
  | tUndefB1 => exact execEffect_thumb rfl hex fun hw => bodyEffect_undefined (ret := thumbReturn s.begin) rfl rfl hw
  | tUndefB2 => exact execEffect_thumb rfl hex fun hw => bodyEffect_undefined (ret := thumbReturn s.begin) rfl rfl hw
  | tUndefB6 => exact execEffect_thumb rfl hex fun hw => bodyEffect_undefined (ret := thumbReturn s.begin) rfl rfl hw
  | tUndefB8 => exact execEffect_thumb rfl hex fun hw => bodyEffect_undefined (ret := thumbReturn s.begin) rfl rfl hw
  | tUndefBE => exact execEffect_thumb rfl hex fun hw => bodyEffect_undefined (ret := thumbReturn s.begin) rfl rfl hw
  | tUndefE8 => exact execEffect_thumb rfl hex fun hw => bodyEffect_undefined (ret := thumbReturn s.begin) rfl rfl hw

end Sys2Proof.Machine
end

