-- ==== Sys2Proof/Laws/PerInstr.lean ====
section
/-! SUPPORT. The per-instruction family `ConditionField`: the condition an ARM instruction carries is the one its word's bits 31:28 hold
(R121, R122), 1111 for the reserved condition; a Thumb instruction carries none. -/

namespace Sys2Proof.Laws.ConditionField

open Sys2Proof.Machine Sys2Proof.Claims

/-- The condition field of one instruction. -/
def Statement (i : Instr) : Prop :=
  match encode i with
  | .arm w => w.extractLsb' 28 4 = (match armCond i with | some c => condBits c | none => 0b1111#4)
  | .thumb _ => armCond i = none

theorem and c sf rn rd o : Statement (.and c sf rn rd o) := by cases o <;> exact word_cond _
theorem eor c sf rn rd o : Statement (.eor c sf rn rd o) := by cases o <;> exact word_cond _
theorem sub c sf rn rd o : Statement (.sub c sf rn rd o) := by cases o <;> exact word_cond _
theorem rsb c sf rn rd o : Statement (.rsb c sf rn rd o) := by cases o <;> exact word_cond _
theorem add c sf rn rd o : Statement (.add c sf rn rd o) := by cases o <;> exact word_cond _
theorem adc c sf rn rd o : Statement (.adc c sf rn rd o) := by cases o <;> exact word_cond _
theorem sbc c sf rn rd o : Statement (.sbc c sf rn rd o) := by cases o <;> exact word_cond _
theorem rsc c sf rn rd o : Statement (.rsc c sf rn rd o) := by cases o <;> exact word_cond _
theorem tst c rn rd o : Statement (.tst c rn rd o) := by cases o <;> exact word_cond _
theorem teq c rn rd o : Statement (.teq c rn rd o) := by cases o <;> exact word_cond _
theorem cmp c rn rd o : Statement (.cmp c rn rd o) := by cases o <;> exact word_cond _
theorem cmn c rn rd o : Statement (.cmn c rn rd o) := by cases o <;> exact word_cond _
theorem orr c sf rn rd o : Statement (.orr c sf rn rd o) := by cases o <;> exact word_cond _
theorem mov c sf sbz rd o : Statement (.mov c sf sbz rd o) := by cases o <;> exact word_cond _
theorem bic c sf rn rd o : Statement (.bic c sf rn rd o) := by cases o <;> exact word_cond _
theorem mvn c sf sbz rd o : Statement (.mvn c sf sbz rd o) := by cases o <;> exact word_cond _
theorem psrSpaceNop c op rn rd o : Statement (.psrSpaceNop c op rn rd o) := by cases o <;> exact word_cond _
theorem mrs c p rd : Statement (.mrs c p rd) := word_cond _
theorem msrReg c p mask rm : Statement (.msrReg c p mask rm) := word_cond _
theorem msrImm c p mask rotate imm8 : Statement (.msrImm c p mask rotate imm8) := word_cond _
theorem mul c sf rd sbz rs rm : Statement (.mul c sf rd sbz rs rm) := word_cond _
theorem mla c sf rd rn rs rm : Statement (.mla c sf rd rn rs rm) := word_cond _
theorem umull c sf hi lo rs rm : Statement (.umull c sf hi lo rs rm) := word_cond _
theorem umlal c sf hi lo rs rm : Statement (.umlal c sf hi lo rs rm) := word_cond _
theorem smull c sf hi lo rs rm : Statement (.smull c sf hi lo rs rm) := word_cond _
theorem smlal c sf hi lo rs rm : Statement (.smlal c sf hi lo rs rm) := word_cond _
theorem ldrPre c u w rn rd off : Statement (.ldrPre c u w rn rd off) := by cases off <;> exact word_cond _
theorem ldrPost c u rn rd off : Statement (.ldrPost c u rn rd off) := by cases off <;> exact word_cond _
theorem ldrbPre c u w rn rd off : Statement (.ldrbPre c u w rn rd off) := by cases off <;> exact word_cond _
theorem ldrbPost c u rn rd off : Statement (.ldrbPost c u rn rd off) := by cases off <;> exact word_cond _
theorem strPre c u w rn rd off : Statement (.strPre c u w rn rd off) := by cases off <;> exact word_cond _
theorem strPost c u rn rd off : Statement (.strPost c u rn rd off) := by cases off <;> exact word_cond _
theorem strbPre c u w rn rd off : Statement (.strbPre c u w rn rd off) := by cases off <;> exact word_cond _
theorem strbPost c u rn rd off : Statement (.strbPost c u rn rd off) := by cases off <;> exact word_cond _
theorem ldrt c u rn rd off : Statement (.ldrt c u rn rd off) := by cases off <;> exact word_cond _
theorem ldrbt c u rn rd off : Statement (.ldrbt c u rn rd off) := by cases off <;> exact word_cond _
theorem strt c u rn rd off : Statement (.strt c u rn rd off) := by cases off <;> exact word_cond _
theorem strbt c u rn rd off : Statement (.strbt c u rn rd off) := by cases off <;> exact word_cond _
theorem ldrh c p u w rn rd off : Statement (.ldrh c p u w rn rd off) := by cases off <;> exact word_cond _
theorem strh c p u w rn rd off : Statement (.strh c p u w rn rd off) := by cases off <;> exact word_cond _
theorem ldrsb c p u w rn rd off : Statement (.ldrsb c p u w rn rd off) := by cases off <;> exact word_cond _
theorem ldrsh c p u w rn rd off : Statement (.ldrsh c p u w rn rd off) := by cases off <;> exact word_cond _
theorem signedStore c p u w h rn rd off : Statement (.signedStore c p u w h rn rd off) := by cases off <;> exact word_cond _
theorem halfSh00 c p u w l rn rd off : Statement (.halfSh00 c p u w l rn rd off) := by cases off <;> exact word_cond _
theorem swp c rn rd sbz rm : Statement (.swp c rn rd sbz rm) := word_cond _
theorem swpb c rn rd sbz rm : Statement (.swpb c rn rd sbz rm) := word_cond _
theorem ldmia c sf w rn list : Statement (.ldmia c sf w rn list) := word_cond _
theorem ldmib c sf w rn list : Statement (.ldmib c sf w rn list) := word_cond _
theorem ldmda c sf w rn list : Statement (.ldmda c sf w rn list) := word_cond _
theorem ldmdb c sf w rn list : Statement (.ldmdb c sf w rn list) := word_cond _
theorem stmia c sf w rn list : Statement (.stmia c sf w rn list) := word_cond _
theorem stmib c sf w rn list : Statement (.stmib c sf w rn list) := word_cond _
theorem stmda c sf w rn list : Statement (.stmda c sf w rn list) := word_cond _
theorem stmdb c sf w rn list : Statement (.stmdb c sf w rn list) := word_cond _
theorem b c offset24 : Statement (.b c offset24) := word_cond _
theorem bl c offset24 : Statement (.bl c offset24) := word_cond _
theorem bx c rn : Statement (.bx c rn) := word_cond _
theorem swi c comment24 : Statement (.swi c comment24) := word_cond _
theorem undefined c x20 x4 : Statement (.undefined c x20 x4) := word_cond _
theorem ldc c p u n w rn crd cp offset8 : Statement (.ldc c p u n w rn crd cp offset8) := word_cond _
theorem stc c p u n w rn crd cp offset8 : Statement (.stc c p u n w rn crd cp offset8) := word_cond _
theorem cdp c opc crn crd cp info crm : Statement (.cdp c opc crn crd cp info crm) := word_cond _
theorem mcr c opc crn rd cp info crm : Statement (.mcr c opc crn rd cp info crm) := word_cond _
theorem mrc c opc crn rd cp info crm : Statement (.mrc c opc crn rd cp info crm) := word_cond _
theorem reservedCond x28 : Statement (.reservedCond x28) := BitVec.extractLsb'_append_eq_left
theorem tLslImm offset5 rs rd : Statement (.tLslImm offset5 rs rd) := rfl
theorem tLsrImm offset5 rs rd : Statement (.tLsrImm offset5 rs rd) := rfl
theorem tAsrImm offset5 rs rd : Statement (.tAsrImm offset5 rs rd) := rfl
theorem tAddReg rn rs rd : Statement (.tAddReg rn rs rd) := rfl
theorem tSubReg rn rs rd : Statement (.tSubReg rn rs rd) := rfl
theorem tAddImm3 imm3 rs rd : Statement (.tAddImm3 imm3 rs rd) := rfl
theorem tSubImm3 imm3 rs rd : Statement (.tSubImm3 imm3 rs rd) := rfl
theorem tMovImm rd imm8 : Statement (.tMovImm rd imm8) := rfl
theorem tCmpImm rd imm8 : Statement (.tCmpImm rd imm8) := rfl
theorem tAddImm8 rd imm8 : Statement (.tAddImm8 rd imm8) := rfl
theorem tSubImm8 rd imm8 : Statement (.tSubImm8 rd imm8) := rfl
theorem tAnd rs rd : Statement (.tAnd rs rd) := rfl
theorem tEor rs rd : Statement (.tEor rs rd) := rfl
theorem tLsl rs rd : Statement (.tLsl rs rd) := rfl
theorem tLsr rs rd : Statement (.tLsr rs rd) := rfl
theorem tAsr rs rd : Statement (.tAsr rs rd) := rfl
theorem tAdc rs rd : Statement (.tAdc rs rd) := rfl
theorem tSbc rs rd : Statement (.tSbc rs rd) := rfl
theorem tRor rs rd : Statement (.tRor rs rd) := rfl
theorem tTst rs rd : Statement (.tTst rs rd) := rfl
theorem tNeg rs rd : Statement (.tNeg rs rd) := rfl
theorem tCmp rs rd : Statement (.tCmp rs rd) := rfl
theorem tCmn rs rd : Statement (.tCmn rs rd) := rfl
theorem tOrr rs rd : Statement (.tOrr rs rd) := rfl
theorem tMul rs rd : Statement (.tMul rs rd) := rfl
theorem tBic rs rd : Statement (.tBic rs rd) := rfl
theorem tMvn rs rd : Statement (.tMvn rs rd) := rfl
theorem tAddHi rs rd : Statement (.tAddHi rs rd) := rfl
theorem tCmpHi rs rd : Statement (.tCmpHi rs rd) := rfl
theorem tMovHi rs rd : Statement (.tMovHi rs rd) := rfl
theorem tBx rs sbz : Statement (.tBx rs sbz) := rfl
theorem tBxH1 rs sbz : Statement (.tBxH1 rs sbz) := rfl
theorem tLdrPc rd word8 : Statement (.tLdrPc rd word8) := rfl
theorem tStrReg ro rb rd : Statement (.tStrReg ro rb rd) := rfl
theorem tStrbReg ro rb rd : Statement (.tStrbReg ro rb rd) := rfl
theorem tLdrReg ro rb rd : Statement (.tLdrReg ro rb rd) := rfl
theorem tLdrbReg ro rb rd : Statement (.tLdrbReg ro rb rd) := rfl
theorem tStrhReg ro rb rd : Statement (.tStrhReg ro rb rd) := rfl
theorem tLdrhReg ro rb rd : Statement (.tLdrhReg ro rb rd) := rfl
theorem tLdsb ro rb rd : Statement (.tLdsb ro rb rd) := rfl
theorem tLdsh ro rb rd : Statement (.tLdsh ro rb rd) := rfl
theorem tStrImm offset5 rb rd : Statement (.tStrImm offset5 rb rd) := rfl
theorem tLdrImm offset5 rb rd : Statement (.tLdrImm offset5 rb rd) := rfl
theorem tStrbImm offset5 rb rd : Statement (.tStrbImm offset5 rb rd) := rfl
theorem tLdrbImm offset5 rb rd : Statement (.tLdrbImm offset5 rb rd) := rfl
theorem tStrhImm offset5 rb rd : Statement (.tStrhImm offset5 rb rd) := rfl
theorem tLdrhImm offset5 rb rd : Statement (.tLdrhImm offset5 rb rd) := rfl
theorem tStrSp rd word8 : Statement (.tStrSp rd word8) := rfl
theorem tLdrSp rd word8 : Statement (.tLdrSp rd word8) := rfl
theorem tAddPc rd word8 : Statement (.tAddPc rd word8) := rfl
theorem tAddSp rd word8 : Statement (.tAddSp rd word8) := rfl
theorem tIncSp sword7 : Statement (.tIncSp sword7) := rfl
theorem tDecSp sword7 : Statement (.tDecSp sword7) := rfl
theorem tPush r rlist : Statement (.tPush r rlist) := rfl
theorem tPop r rlist : Statement (.tPop r rlist) := rfl
theorem tStmia rb rlist : Statement (.tStmia rb rlist) := rfl
theorem tLdmia rb rlist : Statement (.tLdmia rb rlist) := rfl
theorem tBCond0to7 c soffset8 : Statement (.tBCond0to7 c soffset8) := rfl
theorem tBCond8to11 c soffset8 : Statement (.tBCond8to11 c soffset8) := rfl
theorem tBCond12to13 c soffset8 : Statement (.tBCond12to13 c soffset8) := rfl
theorem tBCond14 x8 : Statement (.tBCond14 x8) := rfl
theorem tSwi value8 : Statement (.tSwi value8) := rfl
theorem tB offset11 : Statement (.tB offset11) := rfl
theorem tBlHigh offset11 : Statement (.tBlHigh offset11) := rfl
theorem tBlLow offset11 : Statement (.tBlLow offset11) := rfl
theorem tUndefB1 x8 : Statement (.tUndefB1 x8) := rfl
theorem tUndefB2 x9 : Statement (.tUndefB2 x9) := rfl
theorem tUndefB6 x9 : Statement (.tUndefB6 x9) := rfl
theorem tUndefB8 x10 : Statement (.tUndefB8 x10) := rfl
theorem tUndefBE x9 : Statement (.tUndefBE x9) := rfl
theorem tUndefE8 x11 : Statement (.tUndefE8 x11) := rfl

end Sys2Proof.Laws.ConditionField
end

