-- ==== Sys2Proof/Laws/Reads.lean ====
section
/-! SUPPORT. What each shared body reads: run on two states that agree on the registers it reads as operands, it stops for the same reason or
leaves the same work (`SameResult`).  A rule about what an instruction reads cites its body's lemma and unfolds nothing. -/

namespace Sys2Proof.Machine

open Sys2Proof.Claims

/-- The states agree on everything but the values of registers. -/
structure SameBase (s s' : State) : Prop where
  cfg  : s'.cfg = s.cfg
  cpsr : s'.cpsr = s.cpsr
  mem  : s'.mem = s.mem
  pc   : s'.pc = s.pc

/-- They agree on the value of register n, and of the current mode's SPSR. -/
def SameReg (s s' : State) (n : Reg) : Prop := (s'.cell (slotOf s.cpsr.m n)).value = (s.cell (slotOf s.cpsr.m n)).value
def SameSpsr (s s' : State) : Prop := ∀ n, spsrOf s.cpsr.m = some n → (s'.spsr.get n).value = (s.spsr.get n).value

/-- Two runs, from s and s', that have done the same work. -/
structure SameWork (s s' : State) (w w' : Work) : Prop where
  cfg    : w'.st.cfg = w.st.cfg
  cpsr   : w'.st.cpsr = w.st.cpsr
  mem    : w'.st.mem = w.st.mem
  pc     : w'.st.pc = w.st.pc
  target : w'.target = w.target
  cells  : ∀ q, SameOrKept (s.cell q) (s'.cell q) (w.st.cell q) (w'.st.cell q)
  spsr   : ∀ n, SameOrKept (s.spsr.get n) (s'.spsr.get n) (w.st.spsr.get n) (w'.st.spsr.get n)

/-- Two bodies that stop for the same reason or have done the same work. -/
def SameResult (s s' : State) : Except Fault Work → Except Fault Work → Prop
  | .ok w, .ok w' => SameWork s s' w w'
  | .error f, .error f' => f' = f
  | _, _ => False

variable {s s' : State} {w w' : Work}

/-! ## Operands -/

theorem readReg_same {n : Reg} (b : SameBase s s') (h : SameReg s s' n) : readReg n s' = readReg n s := by
  simp only [readReg, readSlot, b.cpsr, show (s'.cell (slotOf s.cpsr.m n)).value = _ from h]

theorem readRegPc12_same {n : Reg} (b : SameBase s s') (h : SameReg s s' n) : readRegPc12 n s' = readRegPc12 n s := by
  simp only [readRegPc12, readSlot, b.cpsr, show (s'.cell (slotOf s.cpsr.m n)).value = _ from h]

theorem readStoreValue_same {rd : Reg} (b : SameBase s s') (h : ∀ n ∈ storeRegs rd, SameReg s s' n) :
    readStoreValue rd s' = readStoreValue rd s := by
  unfold readStoreValue
  split
  · rw [b.pc]
  · next hd => exact readReg_same b (h rd (by simp [storeRegs, hd]))

theorem operand2_same {o : Operand2} (b : SameBase s s') (h : ∀ n ∈ op2Regs o, SameReg s s' n) : operand2 o s' = operand2 o s := by
  cases o with
  | imm => simp only [operand2, b.cpsr]
  | regImm rm => simp only [operand2, b.cfg, b.cpsr, readReg_same b (h rm (by simp [op2Regs]))]
  | regReg rm _ rs =>
    simp only [operand2, b.cpsr, readRegPc12_same b (h rm (by simp [op2Regs])), readReg_same b (h rs (by simp [op2Regs]))]

theorem firstOperand_same {rn : Reg} (b : SameBase s s') (h : SameReg s s' rn) (o : Operand2) :
    firstOperand rn o s' = firstOperand rn o s := by
  cases o <;> simp only [firstOperand, readReg_same b h, readRegPc12_same b h]

theorem transferOffset_same {off : TransferOffset} (b : SameBase s s') (h : ∀ n ∈ offsetRegs off, SameReg s s' n) :
    transferOffset off s' = transferOffset off s := by
  cases off with
  | imm => rfl
  | reg rm => simp only [transferOffset, b.cfg, b.cpsr, readReg_same b (h rm (by simp [offsetRegs]))]

theorem halfOffset_same {off : HalfOffset} (b : SameBase s s') (h : ∀ n ∈ halfRegs off, SameReg s s' n) :
    halfOffset off s' = halfOffset off s := by
  cases off with
  | imm => rfl
  | reg _ rm => exact readReg_same b (h rm (by simp [halfRegs]))

theorem loadWord_same (b : SameBase s s') (a : Word) : loadWord a s' = loadWord a s := by simp only [loadWord, b.cfg, b.mem]
theorem loadByte_same (b : SameBase s s') (a : Word) : loadByte a s' = loadByte a s := by simp only [loadByte, b.mem]
theorem loadSByte_same (b : SameBase s s') (a : Word) : loadSByte a s' = loadSByte a s := by simp only [loadSByte, b.mem]
theorem checkHalf_same (b : SameBase s s') (a : Word) : checkHalf a s' = checkHalf a s := by simp only [checkHalf, b.cfg]
theorem loadHalf_same (b : SameBase s s') (a : Word) : loadHalf a s' = loadHalf a s := by
  simp only [loadHalf, checkHalf_same b, b.mem]
theorem loadSHalf_same (b : SameBase s s') (a : Word) : loadSHalf a s' = loadSHalf a s := by
  simp only [loadSHalf, checkHalf_same b, b.mem]

/-! ## Work -/

theorem SameOrKept.same {c c' d : RegCell} : SameOrKept c c' d d := .inl rfl

namespace SameWork

theorem start (b : SameBase s s') : SameWork s s' s.begin s'.begin :=
  ⟨b.cfg, b.cpsr, b.mem, b.pc, rfl, fun _ => .inr ⟨rfl, rfl⟩, fun _ => .inr ⟨rfl, rfl⟩⟩

theorem setCpsr (h : SameWork s s' w w') (c : Cpsr) : SameWork s s' (w.setCpsr c) (w'.setCpsr c) :=
  ⟨h.cfg, rfl, h.mem, h.pc, h.target, h.cells, h.spsr⟩

theorem branch (h : SameWork s s' w w') (a : Word) : SameWork s s' (w.branch a) (w'.branch a) :=
  ⟨h.cfg, h.cpsr, h.mem, h.pc, rfl, h.cells, h.spsr⟩

theorem setMem (h : SameWork s s' w w') (m : Memory) :
    SameWork s s' { w with st := w.st.setMem m } { w' with st := w'.st.setMem m } :=
  ⟨h.cfg, h.cpsr, rfl, h.pc, h.target, h.cells, h.spsr⟩

theorem setSlot (h : SameWork s s' w w') (i : Slot) (v : Word) :
    SameWork s s' { w with st := w.st.setSlot i v } { w' with st := w'.st.setSlot i v } := by
  refine ⟨h.cfg, h.cpsr, h.mem, ?_, h.target, fun q => ?_, h.spsr⟩
  · have := h.pc
    simp only [State.pc, setSlot_cell] at this ⊢
    split <;> simp [this]
  · simp only [setSlot_cell]
    split
    · exact .inl rfl
    · exact h.cells q

theorem setSpsr (h : SameWork s s' w w') (n : SpsrName) (v : Word) :
    SameWork s s' { w with st := w.st.setSpsr n v } { w' with st := w'.st.setSpsr n v } := by
  refine ⟨h.cfg, h.cpsr, h.mem, h.pc, h.target, h.cells, fun k => ?_⟩
  by_cases e : k = n
  · subst e
    exact .inl ((setSpsr_spsr_self ..).trans (setSpsr_spsr_self ..).symm)
  · simpa only [setSpsr_spsr_ne _ _ e] using h.spsr k

theorem writeIn (h : SameWork s s' w w') (m : Mode) (n : Reg) (v : Word) : SameWork s s' (w.writeIn m n v) (w'.writeIn m n v) := by
  unfold Work.writeIn
  split
  · exact h.branch v
  · exact h.setSlot ..

theorem write (h : SameWork s s' w w') (n : Reg) (v : Word) : SameWork s s' (w.write n v) (w'.write n v) := by
  unfold Work.write
  rw [h.cpsr]
  exact h.writeIn ..

theorem writeBackBase (h : SameWork s s' w w') (b : Bool) (rn : Reg) (ea : Word) :
    SameWork s s' (writeBackBase b rn ea w) (writeBackBase b rn ea w') := by
  cases b
  · exact h
  · exact h.write rn ea

theorem writeBlock (h : SameWork s s' w w') (m : Mode) (vs : List (Reg × Word)) :
    SameWork s s' (writeBlock m vs w) (writeBlock m vs w') := by
  induction vs generalizing w w' with
  | nil => exact h
  | cons q rest ih => exact ih (h.writeIn ..)

theorem setLogicalFlags (h : SameWork s s' w w') (sf : Bool) (d : Reg) (r : Word) (c : Bool) :
    SameWork s s' (setLogicalFlags sf d r c w) (setLogicalFlags sf d r c w') := by
  rw [setLogicalFlags_eq, setLogicalFlags_eq, h.cpsr]
  exact h.setCpsr _

theorem setArithmeticFlags (h : SameWork s s' w w') (sf : Bool) (d : Reg) (r : AluResult) :
    SameWork s s' (setArithmeticFlags sf d r w) (setArithmeticFlags sf d r w') := by
  rw [setArithmeticFlags_eq, setArithmeticFlags_eq, h.cpsr]
  exact h.setCpsr _

theorem setMultiplyFlags (h : SameWork s s' w w') (sf : Bool) (d : Reg) (r : Word) :
    SameWork s s' (setMultiplyFlags sf d r w) (setMultiplyFlags sf d r w') := by
  rw [setMultiplyFlags_eq, setMultiplyFlags_eq, h.cpsr]
  exact h.setCpsr _

theorem writeLong (h : SameWork s s' w w') (sf : Bool) (hi lo : Reg) (r : BitVec 64) :
    SameWork s s' (writeLong sf hi lo r w) (writeLong sf hi lo r w') := by
  have h2 := (h.write lo (r.extractLsb' 0 32)).write hi (r.extractLsb' 32 32)
  unfold Machine.writeLong setMultiplyLongFlags
  split
  · rw [h2.cpsr]; exact h2.setCpsr _
  · exact h2

theorem takeException (h : SameWork s s' w w') (k : ExceptionKind) (ret : Word) :
    SameWork s s' (takeException k ret w) (takeException k ret w') := by
  have h3 := (((h.setSpsr k.spsr w.st.cpsr.pack).setCpsr { w.st.cpsr with m := k.mode, i := true, t := false }).setSlot
    (slotOf k.mode 14) ret).branch k.vector
  unfold Machine.takeException
  rw [h.cpsr]
  exact h3

/-- Both runs store the same word, byte or words. -/
theorem storeWord (h : SameWork s s' w w') (a v : Word) :
    SameWork s s' { w with st := storeWord a v w.st } { w' with st := storeWord a v w'.st } := by
  unfold Machine.storeWord
  rw [h.cfg, h.mem]
  exact h.setMem _

theorem storeByte (h : SameWork s s' w w') (a v : Word) :
    SameWork s s' { w with st := storeByte a v w.st } { w' with st := storeByte a v w'.st } := by
  unfold Machine.storeByte
  rw [h.mem]
  exact h.setMem _

/-- The end of the step. -/
theorem finish (h : SameWork s s' w w') (t : Bool) : SameOutcome s s' (.next (endOfStep t w)) (.next (endOfStep t w')) := by
  have e (v : Word) : SameOutcome s s' (.next (w.st.setSlot 15 v)) (.next (w'.st.setSlot 15 v)) :=
    have h := h.setSlot 15 v
    ⟨h.cfg, h.cpsr, h.mem, h.pc, h.cells, h.spsr⟩
  unfold endOfStep
  rw [h.target]
  split
  · rw [h.cpsr]; exact e _
  · rw [h.pc]; exact e _

end SameWork

/-! ## Results -/

namespace SameResult

theorem ok (h : SameWork s s' w w') : SameResult s s' (.ok w) (.ok w') := h
theorem error (f : Fault) : SameResult s s' (.error f) (.error f) := rfl

/-- The same operand or check, then the same result. -/
theorem bind {α : Type} (e : Except Fault α) {f f' : α → Except Fault Work} (h : ∀ a, SameResult s s' (f a) (f' a)) :
    SameResult s s' (e >>= f) (e >>= f') := by
  cases e with
  | ok a => exact h a
  | error e => exact rfl

theorem finish {e e' : Except Fault Work} (h : SameResult s s' e e') (t : Bool) :
    SameOutcome s s' (finishStep t e) (finishStep t e') := by
  cases e <;> cases e'
  · exact h
  · exact h.elim
  · exact h.elim
  · exact SameWork.finish h t

end SameResult

theorem armStep_same {c : Cond} {body : Work → Except Fault Work} (b : SameBase s s')
    (h : conditionPassed c s.cpsr = true → SameResult s s' (body s.begin) (body s'.begin)) :
    SameOutcome s s' (armStep c body s) (armStep c body s') := by
  unfold armStep
  rw [b.cpsr]
  split
  · next hc => exact (h hc).finish false
  · exact (SameWork.start b).finish false

theorem thumbStep_same {body : Work → Except Fault Work} (h : SameResult s s' (body s.begin) (body s'.begin)) :
    SameOutcome s s' (thumbStep body s) (thumbStep body s') := h.finish true

/-- The return reads the SPSR of the mode (R635). -/
theorem restoreCpsrIf_same {b : Bool} (h : SameWork s s' w w')
    (hv : b = true → SameSpsr w.st w'.st) : SameResult s s' (restoreCpsrIf b w) (restoreCpsrIf b w') := by
  cases b with
  | false => exact h
  | true =>
    simp only [restoreCpsrIf, if_true, restoreCpsr, h.cpsr]
    split
    · exact h
    · next n hn =>
      rw [readSpsr, readSpsr, hv rfl n hn]
      exact .bind _ fun c => h.setCpsr c

theorem undefinedInstruction_same (b : SameBase s s') (k : Unimplemented) (ret : Word) :
    SameResult s s' (undefinedInstruction k ret s.begin) (undefinedInstruction k ret s'.begin) := by
  simp only [undefinedInstruction, begin_st, b.cfg]
  split
  · exact rfl
  · exact (SameWork.start b).takeException .undefinedInstruction ret

/-! ## Data processing -/

theorem writeResult_same {sf : Bool} {d : Reg} {v : Word} {c : Cpsr} (b : SameBase s s') (hm : c.m = s.cpsr.m)
    (hs : (sf && d == 15) = true → SameSpsr s s') :
    SameResult s s' (writeResult sf d v (s.begin.setCpsr c)) (writeResult sf d v (s'.begin.setCpsr c)) := by
  refine restoreCpsrIf_same (((SameWork.start b).setCpsr c).write d v) fun hb n hn => ?_
  simp only [write_spsr, write_cpsr, workSetCpsr_st, setCpsr_spsr, setCpsr_cpsr, begin_st, hm] at hn ⊢
  exact hs hb n hn

theorem logicalOp_same {f : Word → Word → Word} {sf : Bool} {rn rd : Reg} {o : Operand2} (b : SameBase s s')
    (hr : ∀ n ∈ rn :: op2Regs o, SameReg s s' n) (hs : (sf && rd == 15) = true → SameSpsr s s') :
    SameResult s s' (logicalOp f sf rn rd o s.begin) (logicalOp f sf rn rd o s'.begin) := by
  simp only [logicalOp, begin_st, operand2_same (o := o) b fun n hn => hr n (by simp [hn]), firstOperand_same b (hr rn (by simp)),
    setLogicalFlags_eq, b.cpsr]
  exact .bind _ fun v => writeResult_same b (by split <;> rfl) hs

theorem moveOp_same {f : Word → Word} {sf : Bool} {rd : Reg} {o : Operand2} (b : SameBase s s')
    (hr : ∀ n ∈ op2Regs o, SameReg s s' n) (hs : (sf && rd == 15) = true → SameSpsr s s') :
    SameResult s s' (moveOp f sf rd o s.begin) (moveOp f sf rd o s'.begin) := by
  simp only [moveOp, begin_st, operand2_same b hr, setLogicalFlags_eq, b.cpsr]
  exact .bind _ fun v => writeResult_same b (by split <;> rfl) hs

theorem arithmeticOp_same {f : AluOp} {sf : Bool} {rn rd : Reg} {o : Operand2} (b : SameBase s s')
    (hr : ∀ n ∈ rn :: op2Regs o, SameReg s s' n) (hs : (sf && rd == 15) = true → SameSpsr s s') :
    SameResult s s' (arithmeticOp f sf rn rd o s.begin) (arithmeticOp f sf rn rd o s'.begin) := by
  simp only [arithmeticOp, begin_st, operand2_same (o := o) b fun n hn => hr n (by simp [hn]), firstOperand_same b (hr rn (by simp)),
    setArithmeticFlags_eq, b.cpsr, b.cfg]
  exact .bind _ fun v => writeResult_same b (by split <;> rfl) hs

theorem logicalTest_same {f : Word → Word → Word} {rn rd : Reg} {o : Operand2} (b : SameBase s s')
    (hr : ∀ n ∈ rn :: op2Regs o, SameReg s s' n) :
    SameResult s s' (logicalTest f rn rd o s.begin) (logicalTest f rn rd o s'.begin) := by
  simp only [logicalTest, begin_st, operand2_same (o := o) b fun n hn => hr n (by simp [hn]), firstOperand_same b (hr rn (by simp))]
  exact .bind _ fun v => SameResult.ok <| (SameWork.start b).setLogicalFlags ..

theorem arithmeticTest_same {f : AluOp} {rn rd : Reg} {o : Operand2} (b : SameBase s s')
    (hr : ∀ n ∈ rn :: op2Regs o, SameReg s s' n) :
    SameResult s s' (arithmeticTest f rn rd o s.begin) (arithmeticTest f rn rd o s'.begin) := by
  simp only [arithmeticTest, begin_st, operand2_same (o := o) b fun n hn => hr n (by simp [hn]), firstOperand_same b (hr rn (by simp)), b.cfg,
    b.cpsr]
  exact .bind _ fun v => SameResult.ok <| (SameWork.start b).setArithmeticFlags ..

theorem readOnlyTest_same {o : Operand2} (b : SameBase s s') (hr : ∀ n ∈ op2Regs o, SameReg s s' n) :
    SameResult s s' (readOnlyTest o s.begin) (readOnlyTest o s'.begin) := by
  simp only [readOnlyTest, begin_st, operand2_same b hr]
  exact .bind _ fun _ => SameResult.ok <| SameWork.start b

/-! ## Multiply -/

theorem mulBody_same {sf : Bool} {rd rs rm : Reg} (b : SameBase s s') (hr : ∀ n ∈ [rm, rs], SameReg s s' n) :
    SameResult s s' (mulBody sf rd rs rm s.begin) (mulBody sf rd rs rm s'.begin) := by
  simp only [mulBody, begin_st, readReg_same b (hr rm (by simp)), readReg_same b (hr rs (by simp))]
  exact .bind _ fun _ => .bind _ fun _ => SameResult.ok <| ((SameWork.start b).write ..).setMultiplyFlags ..

theorem mlaBody_same {sf : Bool} {rd rn rs rm : Reg} (b : SameBase s s') (hr : ∀ n ∈ [rm, rs, rn], SameReg s s' n) :
    SameResult s s' (mlaBody sf rd rn rs rm s.begin) (mlaBody sf rd rn rs rm s'.begin) := by
  simp only [mlaBody, begin_st, readReg_same b (hr rm (by simp)), readReg_same b (hr rs (by simp)), readReg_same b (hr rn (by simp))]
  exact .bind _ fun _ => .bind _ fun _ => SameResult.ok <| ((SameWork.start b).write ..).setMultiplyFlags ..

theorem multiplyLong_same {product : Word → Word → BitVec 64} {sf : Bool} {hi lo rs rm : Reg} (b : SameBase s s')
    (hr : ∀ n ∈ [rm, rs], SameReg s s' n) :
    SameResult s s' (multiplyLong product sf hi lo rs rm s.begin) (multiplyLong product sf hi lo rs rm s'.begin) := by
  simp only [multiplyLong, begin_st, readReg_same b (hr rm (by simp)), readReg_same b (hr rs (by simp))]
  exact .bind _ fun _ => SameResult.ok <| (SameWork.start b).writeLong ..

theorem multiplyLongAccumulate_same {product : Word → Word → BitVec 64} {sf : Bool} {hi lo rs rm : Reg} (b : SameBase s s')
    (hr : ∀ n ∈ [rm, rs, hi, lo], SameReg s s' n) :
    SameResult s s' (multiplyLongAccumulate product sf hi lo rs rm s.begin)
      (multiplyLongAccumulate product sf hi lo rs rm s'.begin) := by
  simp only [multiplyLongAccumulate, begin_st, readReg_same b (hr rm (by simp)), readReg_same b (hr rs (by simp)),
    readReg_same b (hr hi (by simp)), readReg_same b (hr lo (by simp))]
  exact .bind _ fun _ => SameResult.ok <| (SameWork.start b).writeLong ..

/-! ## Transfers -/

theorem singleLoad_same {byte p u wb : Bool} {rn rd : Reg} {off : TransferOffset} (b : SameBase s s')
    (hr : ∀ n ∈ rn :: offsetRegs off, SameReg s s' n) :
    SameResult s s' (singleLoad byte p u wb rn rd off s.begin) (singleLoad byte p u wb rn rd off s'.begin) := by
  simp only [singleLoad, begin_st, transferOffset_same (off := off) b fun n hn => hr n (by simp [hn]), readReg_same b (hr rn (by simp)),
    loadWord_same b, loadByte_same b]
  exact .bind _ fun _ => SameResult.ok <| ((SameWork.start b).writeBackBase ..).write ..

theorem singleStore_same {byte p u wb : Bool} {rn rd : Reg} {off : TransferOffset} (b : SameBase s s')
    (hr : ∀ n ∈ rn :: (offsetRegs off ++ storeRegs rd), SameReg s s' n) :
    SameResult s s' (singleStore byte p u wb rn rd off s.begin) (singleStore byte p u wb rn rd off s'.begin) := by
  simp only [singleStore, begin_st, transferOffset_same (off := off) b fun n hn => hr n (by simp [hn]), readReg_same b (hr rn (by simp)),
    readStoreValue_same (rd := rd) b fun n hn => hr n (by simp [hn])]
  refine .bind _ fun _ => SameResult.ok <| SameWork.writeBackBase ?_ ..
  cases byte
  · exact (SameWork.start b).storeWord ..
  · exact (SameWork.start b).storeByte ..

theorem halfTransferLoad_same {load : Word → State → Except Fault Word} {p u wb : Bool} {rn rd : Reg} {off : HalfOffset}
    (b : SameBase s s') (hl : ∀ a, load a s' = load a s) (hr : ∀ n ∈ rn :: halfRegs off, SameReg s s' n) :
    SameResult s s' (halfTransferLoad load p u wb rn rd off s.begin) (halfTransferLoad load p u wb rn rd off s'.begin) := by
  simp only [halfTransferLoad, begin_st, halfOffset_same (off := off) b fun n hn => hr n (by simp [hn]), readReg_same b (hr rn (by simp)), hl]
  exact .bind _ fun _ => .bind _ fun _ => SameResult.ok <| ((SameWork.start b).writeBackBase ..).write ..

theorem halfTransferStore_same {p u wb : Bool} {rn rd : Reg} {off : HalfOffset} (b : SameBase s s')
    (hr : ∀ n ∈ rn :: (halfRegs off ++ storeRegs rd), SameReg s s' n) :
    SameResult s s' (halfTransferStore p u wb rn rd off s.begin) (halfTransferStore p u wb rn rd off s'.begin) := by
  simp only [halfTransferStore, storeHalf, begin_st, halfOffset_same (off := off) b fun n hn => hr n (by simp [hn]),
    readReg_same b (hr rn (by simp)), readStoreValue_same (rd := rd) b fun n hn => hr n (by simp [hn]), checkHalf_same b, b.mem]
  refine .bind _ fun _ => ?_
  cases checkHalf (accessAddress p (readReg rn s) (offsetBase u (readReg rn s) (halfOffset off s))) s with
  | ok _ => exact ((SameWork.start b).setMem _).writeBackBase ..
  | error f => exact rfl

theorem swapBody_same {byte : Bool} {rn rd rm : Reg} (b : SameBase s s') (hr : ∀ n ∈ [rn, rm], SameReg s s' n) :
    SameResult s s' (swapBody byte rn rd rm s.begin) (swapBody byte rn rd rm s'.begin) := by
  simp only [swapBody, begin_st, readReg_same b (hr rn (by simp)), readReg_same b (hr rm (by simp)), loadWord_same b, loadByte_same b]
  refine .bind _ fun _ => SameResult.ok <| SameWork.write ?_ ..
  cases byte
  · exact (SameWork.start b).storeWord ..
  · exact (SameWork.start b).storeByte ..

/-! ## Block transfers -/

theorem loadMultiple_same {p u sb wb : Bool} {rn : Reg} {list : BitVec 16} (b : SameBase s s') (hr : SameReg s s' rn)
    (hs : (sb && list.getLsbD 15) = true → SameSpsr s s') :
    SameResult s s' (loadMultiple p u sb wb rn list s.begin) (loadMultiple p u sb wb rn list s'.begin) := by
  simp only [loadMultiple, begin_st, readReg_same b hr, b.cfg, b.cpsr,
    show loadBlock s' = loadBlock s from funext fun as => by simp only [loadBlock, loadWord_same b]]
  refine .bind _ fun _ => restoreCpsrIf_same (((SameWork.start b).writeBackBase ..).writeBlock ..) fun hb n hn => ?_
  simp only [(writeBlock_keeps ..).2.1, (writeBlock_keeps ..).2.2.1] at hn ⊢
  cases wb
  · exact hs hb n hn
  · simp only [writeBackBase, if_true, write_spsr, write_cpsr, begin_st] at hn ⊢
    exact hs hb n hn

/-- The stores of an STM whose values agree. -/
theorem storeBlock_same {value value' : Reg → State → Word} {as : List (Reg × Word)} (h : SameWork s s' w w')
    (hv : ∀ q ∈ as, ∀ m, value' q.1 (s'.setMem m) = value q.1 (s.setMem m)) {m m' : Memory}
    (hw : w.st = s.setMem m) (hw' : w'.st = s'.setMem m') :
    SameWork s s' { w with st := storeBlock value as w.st } { w' with st := storeBlock value' as w'.st } := by
  induction as generalizing w w' m m' with
  | nil => exact h
  | cons q rest ih =>
    obtain ⟨i, a⟩ := q
    have hm : m' = m := by have := h.mem; rwa [hw, hw', setMem_mem, setMem_mem] at this
    have e : value' i w'.st = value i w.st := by rw [hw, hw', hm]; exact hv (i, a) (by simp) m
    simp only [storeBlock, e]
    exact ih (w := { w with st := storeWord a (value i w.st) w.st }) (w' := { w' with st := storeWord a (value i w.st) w'.st })
      (h.storeWord ..) (fun q hq => hv q (by simp [hq])) (m := w.st.mem.write32 (storeWordAddress w.st.cfg a) (value i w.st))
      (m' := w'.st.mem.write32 (storeWordAddress w'.st.cfg a) (value i w.st)) (by simp only [storeWord]; rw [hw]; rfl)
      (by simp only [storeWord]; rw [hw']; rfl)

/-- What an STM stores for a listed register is read from no other slot (R423, R426). -/
theorem blockStoreValue_same {sb wb : Bool} {rn : Reg} {written : Word} {list : BitVec 16} {i : Reg} (b : SameBase s s')
    (hr : ∀ q ∈ blockStoredSlots s sb wb rn list, (s'.cell q).value = (s.cell q).value) (hi : i ∈ listedRegs list) (m : Memory) :
    blockStoreValue wb (blockBank s.cfg sb false list s.cpsr.m) rn written list i (s'.setMem m) =
      blockStoreValue wb (blockBank s.cfg sb false list s.cpsr.m) rn written list i (s.setMem m) := by
  simp only [blockStoreValue, setMem_pc, setMem_cpsr, b.pc, b.cpsr, readSlot, setMem_cell]
  by_cases h15 : i = 15
  · rw [if_pos h15, if_pos h15]
  · rw [if_neg h15, if_neg h15]
    by_cases hc : (wb && firstListed list != some i && slotOf (blockBank s.cfg sb false list s.cpsr.m) i == slotOf s.cpsr.m rn) = true
    · simp only [hc, if_true]
    · simp only [hc, Bool.false_eq_true, if_false]
      refine hr _ (List.mem_map.mpr ⟨i, List.mem_filter.mpr ⟨hi, ?_⟩, rfl⟩)
      simp only [Bool.not_eq_true] at hc
      simp only [Bool.and_eq_true, bne_iff_ne, ne_eq, h15, not_false_eq_true, hc, Bool.not_false, and_self]

theorem storeMultiple_same {p u sb wb : Bool} {rn : Reg} {list : BitVec 16} (b : SameBase s s') (hn : SameReg s s' rn)
    (hr : ∀ q ∈ blockStoredSlots s sb wb rn list, (s'.cell q).value = (s.cell q).value) :
    SameResult s s' (storeMultiple p u sb wb rn list s.begin) (storeMultiple p u sb wb rn list s'.begin) := by
  simp only [storeMultiple, begin_st, readReg_same b hn, b.cfg, b.cpsr]
  refine .bind _ fun _ => SameResult.ok <| SameWork.writeBackBase ?_ ..
  refine storeBlock_same (w := s.begin) (w' := s'.begin) (SameWork.start b) (fun q hq m => ?_) (m := s.mem) (m' := s'.mem) rfl rfl
  rw [blockAddresses_eq] at hq
  obtain ⟨i, hi, rfl⟩ := List.mem_map.mp hq
  exact blockStoreValue_same b hr hi m

/-! ## PSR transfer -/

theorem requirePsrTransfer_same (b : SameBase s s') : requirePsrTransfer s'.begin = requirePsrTransfer s.begin := by
  simp only [requirePsrTransfer, begin_st, b.cfg]

theorem currentSpsr_same (b : SameBase s s') : currentSpsr s' = currentSpsr s := by simp only [currentSpsr, b.cpsr]

theorem currentSpsr_ok {n : SpsrName} (h : currentSpsr s = .ok n) : spsrOf s.cpsr.m = some n := by
  unfold currentSpsr at h
  split at h
  · next k hk => cases h; exact hk
  · cases h

theorem mrsBody_same {p : Bool} {rd : Reg} (b : SameBase s s') (hs : p = true → SameSpsr s s') :
    SameResult s s' (mrsBody p rd s.begin) (mrsBody p rd s'.begin) := by
  have hp : readPsr p s' = readPsr p s := by
    cases p with
    | false => simp only [readPsr, b.cpsr, Bool.false_eq_true, if_false]
    | true =>
      simp only [readPsr, if_true, currentSpsr_same b]
      cases hc : currentSpsr s with
      | error f => rfl
      | ok n => exact congrArg Except.ok (hs rfl n (currentSpsr_ok hc))
  simp only [mrsBody, begin_st, requirePsrTransfer_same b, hp]
  exact .bind _ fun _ => .bind _ fun _ => .bind _ fun _ => SameResult.ok <| (SameWork.start b).write ..

theorem msrWrite_same {p : Bool} {mask : BitVec 4} {op : Word} (b : SameBase s s') (hs : p = true → SameSpsr s s') :
    SameResult s s' (msrWrite p mask op s.begin) (msrWrite p mask op s'.begin) := by
  cases p with
  | true =>
    simp only [msrWrite, if_true, msrSpsr, begin_st, currentSpsr_same b]
    cases hc : currentSpsr s with
    | error f => exact rfl
    | ok n =>
      simp only [ok_bind, readSpsr, hs rfl n (currentSpsr_ok hc)]
      exact (SameWork.start b).setSpsr ..
  | false =>
    simp only [msrWrite, Bool.false_eq_true, if_false, msrCpsr, begin_st, b.cpsr]
    by_cases hw : msrWritesControl mask s.cpsr = true
    · simp only [hw, if_true]
      exact .bind _ fun _ => SameResult.ok <| (SameWork.start b).setCpsr _
    · simp only [hw, Bool.false_eq_true, if_false]
      exact (SameWork.start b).setCpsr _

theorem msrRegBody_same {p : Bool} {mask : BitVec 4} {rm : Reg} (b : SameBase s s') (hr : SameReg s s' rm)
    (hs : p = true → SameSpsr s s') : SameResult s s' (msrRegBody p mask rm s.begin) (msrRegBody p mask rm s'.begin) := by
  simp only [msrRegBody, begin_st, requirePsrTransfer_same b, readReg_same b hr]
  exact .bind _ fun _ => .bind _ fun _ => msrWrite_same b hs

theorem msrImmBody_same {p : Bool} {mask rotate : BitVec 4} {imm8 : BitVec 8} (b : SameBase s s') (hs : p = true → SameSpsr s s') :
    SameResult s s' (msrImmBody p mask rotate imm8 s.begin) (msrImmBody p mask rotate imm8 s'.begin) := by
  simp only [msrImmBody, begin_st, requirePsrTransfer_same b, b.cpsr]
  exact .bind _ fun _ => msrWrite_same b hs

/-! ## Branches and Thumb -/

theorem branchBody_same {offset24 : BitVec 24} (b : SameBase s s') :
    SameResult s s' (branchBody offset24 s.begin) (branchBody offset24 s'.begin) := by
  simp only [branchBody, begin_st, branchTarget, b.pc]
  exact (SameWork.start b).branch _

theorem branchLinkBody_same {offset24 : BitVec 24} (b : SameBase s s') :
    SameResult s s' (branchLinkBody offset24 s.begin) (branchLinkBody offset24 s'.begin) := by
  simp only [branchLinkBody, begin_st, branchTarget, b.pc]
  exact ((SameWork.start b).write ..).branch _

theorem branchExchange_same {rn : Reg} (b : SameBase s s') (hr : SameReg s s' rn) :
    SameResult s s' (branchExchange rn s.begin) (branchExchange rn s'.begin) := by
  simp only [branchExchange, begin_st, readReg_same b hr, b.cpsr]
  exact ((SameWork.start b).setCpsr _).branch _

theorem softwareInterrupt_same {ret ret' : Word} (b : SameBase s s') (h : ret' = ret) :
    SameResult s s' (.ok (takeException .softwareInterrupt ret s.begin)) (.ok (takeException .softwareInterrupt ret' s'.begin)) :=
  h ▸ (SameWork.start b).takeException _ _

theorem armReturn_same (b : SameBase s s') : armReturn s'.begin = armReturn s.begin := by simp only [armReturn, begin_st, b.pc]
theorem thumbReturn_same (b : SameBase s s') : thumbReturn s'.begin = thumbReturn s.begin := by
  simp only [thumbReturn, begin_st, b.pc]

theorem hiAdd_same {rs rd : Reg} (b : SameBase s s') (hr : ∀ n ∈ [rd, rs], SameReg s s' n) :
    SameResult s s' (hiAdd rs rd s.begin) (hiAdd rs rd s'.begin) := by
  simp only [hiAdd, begin_st, readReg_same b (hr rd (by simp)), readReg_same b (hr rs (by simp))]
  exact .bind _ fun _ => SameResult.ok <| (SameWork.start b).write ..

theorem hiCompare_same {rs rd : Reg} (b : SameBase s s') (hr : ∀ n ∈ [rd, rs], SameReg s s' n) :
    SameResult s s' (hiCompare rs rd s.begin) (hiCompare rs rd s'.begin) := by
  simp only [hiCompare, begin_st, readReg_same b (hr rd (by simp)), readReg_same b (hr rs (by simp)), b.cfg, b.cpsr]
  exact .bind _ fun _ => SameResult.ok <| (SameWork.start b).setCpsr _

theorem hiMove_same {rs rd : Reg} (b : SameBase s s') (hr : SameReg s s' rs) :
    SameResult s s' (hiMove rs rd s.begin) (hiMove rs rd s'.begin) := by
  simp only [hiMove, begin_st, readReg_same b hr]
  exact .bind _ fun _ => SameResult.ok <| (SameWork.start b).write ..

theorem pcLoad_same {rd : LowReg} {word8 : BitVec 8} (b : SameBase s s') :
    SameResult s s' (pcLoad rd word8 s.begin) (pcLoad rd word8 s'.begin) := by
  simp only [pcLoad, begin_st, thumbPcBase, b.pc, loadWord_same b]
  exact (SameWork.start b).write ..

theorem addPcBody_same {rd : LowReg} {word8 : BitVec 8} (b : SameBase s s') :
    SameResult s s' (addPcBody rd word8 s.begin) (addPcBody rd word8 s'.begin) := by
  simp only [addPcBody, begin_st, thumbPcBase, b.pc]
  exact (SameWork.start b).write ..

theorem addSpBody_same {rd : LowReg} {word8 : BitVec 8} (b : SameBase s s') (hr : SameReg s s' 13) :
    SameResult s s' (addSpBody rd word8 s.begin) (addSpBody rd word8 s'.begin) := by
  simp only [addSpBody, begin_st, readReg_same b hr]
  exact (SameWork.start b).write ..

theorem adjustSp_same {up : Bool} {sword7 : BitVec 7} (b : SameBase s s') (hr : SameReg s s' 13) :
    SameResult s s' (adjustSp up sword7 s.begin) (adjustSp up sword7 s'.begin) := by
  simp only [adjustSp, begin_st, readReg_same b hr]
  exact (SameWork.start b).write ..

theorem thumbCondBranch_same {c : Cond} {soffset8 : BitVec 8} (b : SameBase s s') :
    SameResult s s' (thumbCondBranch c soffset8 s.begin) (thumbCondBranch c soffset8 s'.begin) := by
  simp only [thumbCondBranch, begin_st, thumbBranchTarget, b.cpsr, b.pc]
  refine SameResult.ok ?_
  by_cases hc : conditionPassed c s.cpsr = true
  · simp only [hc, if_true]
    exact (SameWork.start b).branch _
  · simp only [hc, Bool.false_eq_true, if_false]
    exact SameWork.start b

theorem thumbBranch_same {offset11 : BitVec 11} (b : SameBase s s') :
    SameResult s s' (thumbBranch offset11 s.begin) (thumbBranch offset11 s'.begin) := by
  simp only [thumbBranch, begin_st, thumbBranchTarget, b.pc]
  exact (SameWork.start b).branch _

theorem thumbBlHigh_same {offset11 : BitVec 11} (b : SameBase s s') :
    SameResult s s' (thumbBlHigh offset11 s.begin) (thumbBlHigh offset11 s'.begin) := by
  simp only [thumbBlHigh, begin_st, b.pc]
  exact (SameWork.start b).write ..

theorem thumbBlLow_same {offset11 : BitVec 11} (b : SameBase s s') (hr : SameReg s s' 14) :
    SameResult s s' (thumbBlLow offset11 s.begin) (thumbBlLow offset11 s'.begin) := by
  simp only [thumbBlLow, begin_st, b.pc, readReg_same b hr]
  exact ((SameWork.start b).write ..).branch _

theorem thumbUndefinedHalf_same (b : SameBase s s') :
    SameResult s s' (thumbUndefinedHalf s.begin) (thumbUndefinedHalf s'.begin) := by
  unfold thumbUndefinedHalf
  rw [thumbReturn_same b]
  exact undefinedInstruction_same b _ _

end Sys2Proof.Machine
end

