-- ==== Sys2Proof/Tests/Slice0.lean ====
section
/-! SUPPORT. The model's own tests: ill-formed terms, decoding of words written from the spec's encodings, one step of every instruction
against the spec's test vectors, and witnesses for the statements' hypotheses. -/

set_option Elab.async false

namespace Sys2Proof.Machine

/-- A state with these SPSRs, and one with this configuration. -/
def State.saved (s : State) (l : List (SpsrName × Word)) : State := l.foldl (fun s q => s.setSpsr q.1 q.2) s
def State.under (s : State) (cfg : Config) : State := { s with cfg := cfg }

end Sys2Proof.Machine

namespace Sys2Proof.Tests

open Sys2Proof.Machine Sys2Proof.Claims

/-! ## Well-formedness: one ill-formed term for each check -/

theorem test_wf_refuses_mrs_word : (Instr.psrSpaceNop .al .tst 15 3 (.regImm 0 .lsl 0#5)).wf = false := by decide
theorem test_wf_refuses_msr_register_word : (Instr.psrSpaceNop .al .cmn 1 15 (.regImm 2 .lsl 0#5)).wf = false := by decide
theorem test_wf_refuses_msr_immediate_word : (Instr.psrSpaceNop .al .teq 8 15 (.imm 4#4 0xF0#8)).wf = false := by decide
theorem test_wf_refuses_bx_word : (Instr.psrSpaceNop .al .teq 15 15 (.regReg 1 .lsl 15)).wf = false := by decide
theorem test_wf_refuses_multiply_word : (Instr.halfSh00 .al false false false true 0 0 (.reg 0#4 0)).wf = false := by decide
theorem test_wf_refuses_multiply_long_word : (Instr.halfSh00 .al false true false true 0 0 (.imm 0#8)).wf = false := by decide
theorem test_wf_refuses_swap_word : (Instr.halfSh00 .al true false false false 1 0 (.imm 2#8)).wf = false := by decide
theorem test_wf_refuses_conditions_out_of_range :
    (Instr.tBCond0to7 .hi 0#8).wf = false ∧ (Instr.tBCond8to11 .vc 0#8).wf = false ∧ (Instr.tBCond8to11 .gt 0#8).wf = false ∧
    (Instr.tBCond12to13 .lt 0#8).wf = false ∧ (Instr.tBCond12to13 .al 0#8).wf = false := by decide

/-! ## Decoding: every constructor from a word written bit by bit from the encodings of 30_encoding.md -/

/-- R125 to R128: operand2 a register shifted by an immediate. -/
theorem test_decode_data_processing_register_shifted :
    decodeArm 0x101433A5#32 = .and .ne true 4 3 (.regImm 5 .lsr 7#5) ∧
    decodeArm 0x20281FC2#32 = .eor .cs false 8 1 (.regImm 2 .asr 31#5) ∧
    decodeArm 0x305FE0ED#32 = .sub .cc true 15 14 (.regImm 13 .ror 1#5) ∧
    decodeArm 0x40612803#32 = .rsb .mi false 1 2 (.regImm 3 .lsl 16#5) := by decide

/-- R126: operand2 shifted by a register. -/
theorem test_decode_data_processing_shifted_by_register :
    decodeArm 0x50967918#32 = .add .pl true 6 7 (.regReg 8 .lsl 9) ∧
    decodeArm 0x60AAB13C#32 = .adc .vs false 10 11 (.regReg 12 .lsr 1) ∧
    decodeArm 0x70D23F54#32 = .sbc .vc true 2 3 (.regReg 4 .asr 15) ∧
    decodeArm 0x80E56077#32 = .rsc .hi false 5 6 (.regReg 7 .ror 0) := by decide

/-- R127: the tests, and R305 with S = 0. -/
theorem test_decode_data_processing_tests :
    decodeArm 0x931304A5#32 = .tst .ls 3 0 (.imm 4#4 0xA5#8) ∧
    decodeArm 0xA139F261#32 = .teq .ge 9 15 (.regImm 1 .ror 4#5) ∧
    decodeArm 0xB15E2553#32 = .cmp .lt 14 2 (.regReg 3 .asr 5) ∧
    decodeArm 0xC3778F0F#32 = .cmn .gt 7 8 (.imm 15#4 0x0F#8) ∧
    decodeArm 0xE1000000#32 = .psrSpaceNop .al .tst 0 0 (.regImm 0 .lsl 0#5) ∧
    decodeArm 0x0321E233#32 = .psrSpaceNop .eq .teq 1 14 (.imm 2#4 0x33#8) ∧
    decodeArm 0x114F3024#32 = .psrSpaceNop .ne .cmp 15 3 (.regImm 4 .lsr 0#5) ∧
    decodeArm 0xE1626817#32 = .psrSpaceNop .al .cmn 2 6 (.regReg 7 .lsl 8) := by decide

/-- R127: the logical opcodes with immediates, the moves with any Rn field. -/
theorem test_decode_data_processing_moves :
    decodeArm 0xD39100FF#32 = .orr .le true 1 0 (.imm 0#4 0xFF#8) ∧
    decodeArm 0xE1A0F00E#32 = .mov .al false 0 15 (.regImm 14 .lsl 0#5) ∧
    decodeArm 0xE3B91801#32 = .mov .al true 9 1 (.imm 8#4 1#8) ∧
    decodeArm 0x03D34180#32 = .bic .eq true 3 4 (.imm 1#4 0x80#8) ∧
    decodeArm 0xE1E05776#32 = .mvn .al false 0 5 (.regReg 6 .ror 7) := by decide

/-- R129. -/
theorem test_decode_psr_transfer :
    decodeArm 0xE10F3000#32 = .mrs .al false 3 ∧
    decodeArm 0x114FC000#32 = .mrs .ne true 12 ∧
    decodeArm 0xE129F005#32 = .msrReg .al false 0b1001#4 5 ∧
    decodeArm 0x416FF001#32 = .msrReg .mi true 0b1111#4 1 ∧
    decodeArm 0xE328F2F0#32 = .msrImm .al false 0b1000#4 2#4 0xF0#8 := by decide

/-- R130, R131. -/
theorem test_decode_multiply :
    decodeArm 0xE0130291#32 = .mul .al true 3 0 2 1 ∧
    decodeArm 0x00245697#32 = .mla .eq false 4 5 6 7 ∧
    decodeArm 0xE0810392#32 = .umull .al false 1 0 3 2 ∧
    decodeArm 0xE0B89A9B#32 = .umlal .al true 8 9 10 11 ∧
    decodeArm 0x20D54392#32 = .smull .cs true 5 4 3 2 ∧
    decodeArm 0xE0E76E9D#32 = .smlal .al false 7 6 14 13 := by decide

/-- R136: P, U, B, W and L, the immediate offset and the shifted register. -/
theorem test_decode_single_transfer :
    decodeArm 0xE5910FFF#32 = .ldrPre .al true false 1 0 (.imm 0xFFF#12) ∧
    decodeArm 0x17323104#32 = .ldrPre .ne false true 2 3 (.reg 4 .lsl 2#5) ∧
    decodeArm 0xE49DF004#32 = .ldrPost .al true 13 15 (.imm 4#12) ∧
    decodeArm 0xE5F56001#32 = .ldrbPre .al true true 5 6 (.imm 1#12) ∧
    decodeArm 0x665781C9#32 = .ldrbPost .vs false 7 8 (.reg 9 .asr 3#5) ∧
    decodeArm 0xE50AB008#32 = .strPre .al false false 10 11 (.imm 8#12) ∧
    decodeArm 0xE68C1FE2#32 = .strPost .al true 12 1 (.reg 2 .ror 31#5) ∧
    decodeArm 0x57E340A5#32 = .strbPre .pl true true 3 4 (.reg 5 .lsr 1#5) ∧
    decodeArm 0xE4467800#32 = .strbPost .al false 6 7 (.imm 0x800#12) ∧
    decodeArm 0xE4B10004#32 = .ldrt .al true 1 0 (.imm 4#12) ∧
    decodeArm 0xE4723001#32 = .ldrbt .al false 2 3 (.imm 1#12) ∧
    decodeArm 0xE4A45000#32 = .strt .al true 4 5 (.imm 0#12) ∧
    decodeArm 0xE6E67008#32 = .strbt .al true 6 7 (.reg 8 .lsl 0#5) := by decide

/-- R134, R392, R393: S H and L, both offset forms. -/
theorem test_decode_halfword_transfer :
    decodeArm 0xE1D102BF#32 = .ldrh .al true true false 1 0 (.imm 0x2F#8) ∧
    decodeArm 0xE08230B4#32 = .strh .al false true false 2 3 (.reg 0#4 4) ∧
    decodeArm 0x113560D7#32 = .ldrsb .ne true false true 5 6 (.reg 0#4 7) ∧
    decodeArm 0xE1F89AF1#32 = .ldrsh .al true true true 8 9 (.imm 0xA1#8) ∧
    decodeArm 0xE1C100F2#32 = .signedStore .al true true false true 1 0 (.imm 2#8) ∧
    decodeArm 0xE08103D2#32 = .signedStore .al false true false false 1 0 (.reg 3#4 2) ∧
    decodeArm 0xE1D10090#32 = .halfSh00 .al true true false true 1 0 (.imm 0#8) ∧
    decodeArm 0xE0634095#32 = .halfSh00 .al false false true false 3 4 (.imm 5#8) := by decide

/-- R132. -/
theorem test_decode_swap :
    decodeArm 0xE1010092#32 = .swp .al 1 0 0#4 2 ∧
    decodeArm 0xA1434095#32 = .swpb .ge 3 4 0#4 5 := by decide

/-- R138: P, U, S, W and L. -/
theorem test_decode_block_transfer :
    decodeArm 0xE8FDC00F#32 = .ldmia .al true true 13 0xC00F#16 ∧
    decodeArm 0xE9980025#32 = .ldmib .al false false 8 0x0025#16 ∧
    decodeArm 0x08318000#32 = .ldmda .eq false true 1 0x8000#16 ∧
    decodeArm 0xE9520001#32 = .ldmdb .al true false 2 0x0001#16 ∧
    decodeArm 0xE8A3FFFF#32 = .stmia .al false true 3 0xFFFF#16 ∧
    decodeArm 0xE9C47FFE#32 = .stmib .al true false 4 0x7FFE#16 ∧
    decodeArm 0xE80500F0#32 = .stmda .al false false 5 0x00F0#16 ∧
    decodeArm 0xE92D4010#32 = .stmdb .al false true 13 0x4010#16 := by decide

/-- R133, R139, R143, R182. -/
theorem test_decode_branch_and_system :
    decodeArm 0xEAFFFFFE#32 = .b .al 0xFFFFFE#24 ∧
    decodeArm 0x1B000010#32 = .bl .ne 0x000010#24 ∧
    decodeArm 0xE12FFF1E#32 = .bx .al 14 ∧
    decodeArm 0xEF123456#32 = .swi .al 0x123456#24 ∧
    decodeArm 0xFA000000#32 = .reservedCond 0xA000000#28 := by decide

/-- R137, R140 to R142. -/
theorem test_decode_undefined_and_coprocessor :
    decodeArm 0xE700003F#32 = .undefined .al 0x80001#20 0xF#4 ∧
    decodeArm 0xED501203#32 = .ldc .al true false true false 0#4 1#4 2#4 3#8 ∧
    decodeArm 0xECA456FF#32 = .stc .al false true false true 4#4 5#4 6#4 0xFF#8 ∧
    decodeArm 0xEE1234A6#32 = .cdp .al 1#4 2#4 3#4 4#4 5#3 6#4 ∧
    decodeArm 0xEEE12395#32 = .mcr .al 7#3 1#4 2#4 3#4 4#3 5#4 ∧
    decodeArm 0xEE3FED5C#32 = .mrc .al 1#3 15#4 14#4 13#4 2#3 12#4 := by decide

/-- R160 to R162. -/
theorem test_decode_thumb_formats_1_to_3 :
    decodeThumb 0x0088#16 = .tLslImm 2#5 1 0 ∧
    decodeThumb 0x0FD3#16 = .tLsrImm 31#5 2 3 ∧
    decodeThumb 0x1025#16 = .tAsrImm 0#5 4 5 ∧
    decodeThumb 0x1888#16 = .tAddReg 2 1 0 ∧
    decodeThumb 0x1AE5#16 = .tSubReg 3 4 5 ∧
    decodeThumb 0x1DF5#16 = .tAddImm3 7#3 6 5 ∧
    decodeThumb 0x1E53#16 = .tSubImm3 1#3 2 3 ∧
    decodeThumb 0x20FF#16 = .tMovImm 0 0xFF#8 ∧
    decodeThumb 0x2980#16 = .tCmpImm 1 0x80#8 ∧
    decodeThumb 0x3601#16 = .tAddImm8 6 1#8 ∧
    decodeThumb 0x3F7F#16 = .tSubImm8 7 0x7F#8 := by decide

/-- R163. -/
theorem test_decode_thumb_format_4 :
    decodeThumb 0x4008#16 = .tAnd 1 0 ∧
    decodeThumb 0x4053#16 = .tEor 2 3 ∧
    decodeThumb 0x409E#16 = .tLsl 3 6 ∧
    decodeThumb 0x40E1#16 = .tLsr 4 1 ∧
    decodeThumb 0x412C#16 = .tAsr 5 4 ∧
    decodeThumb 0x4177#16 = .tAdc 6 7 ∧
    decodeThumb 0x41BA#16 = .tSbc 7 2 ∧
    decodeThumb 0x41C5#16 = .tRor 0 5 ∧
    decodeThumb 0x4208#16 = .tTst 1 0 ∧
    decodeThumb 0x4253#16 = .tNeg 2 3 ∧
    decodeThumb 0x429E#16 = .tCmp 3 6 ∧
    decodeThumb 0x42E1#16 = .tCmn 4 1 ∧
    decodeThumb 0x432C#16 = .tOrr 5 4 ∧
    decodeThumb 0x4377#16 = .tMul 6 7 ∧
    decodeThumb 0x43BA#16 = .tBic 7 2 ∧
    decodeThumb 0x43C5#16 = .tMvn 0 5 := by decide

/-- R164 to R167. -/
theorem test_decode_thumb_formats_5_to_8 :
    decodeThumb 0x4440#16 = .tAddHi 8 0 ∧
    decodeThumb 0x459C#16 = .tCmpHi 3 12 ∧
    decodeThumb 0x46F7#16 = .tMovHi 14 15 ∧
    decodeThumb 0x4770#16 = .tBx 14 0#3 ∧
    decodeThumb 0x478D#16 = .tBxH1 1 5#3 ∧
    decodeThumb 0x4D12#16 = .tLdrPc 5 0x12#8 ∧
    decodeThumb 0x5088#16 = .tStrReg 2 1 0 ∧
    decodeThumb 0x54E5#16 = .tStrbReg 3 4 5 ∧
    decodeThumb 0x59B9#16 = .tLdrReg 6 7 1 ∧
    decodeThumb 0x5D63#16 = .tLdrbReg 5 4 3 ∧
    decodeThumb 0x5288#16 = .tStrhReg 2 1 0 ∧
    decodeThumb 0x5AE5#16 = .tLdrhReg 3 4 5 ∧
    decodeThumb 0x57B9#16 = .tLdsb 6 7 1 ∧
    decodeThumb 0x5F63#16 = .tLdsh 5 4 3 := by decide

/-- R168 to R172. -/
theorem test_decode_thumb_formats_9_to_13 :
    decodeThumb 0x6053#16 = .tStrImm 1#5 2 3 ∧
    decodeThumb 0x6FE5#16 = .tLdrImm 31#5 4 5 ∧
    decodeThumb 0x7437#16 = .tStrbImm 16#5 6 7 ∧
    decodeThumb 0x7888#16 = .tLdrbImm 2#5 1 0 ∧
    decodeThumb 0x8053#16 = .tStrhImm 1#5 2 3 ∧
    decodeThumb 0x8FAE#16 = .tLdrhImm 30#5 5 6 ∧
    decodeThumb 0x9401#16 = .tStrSp 4 1#8 ∧
    decodeThumb 0x9BFF#16 = .tLdrSp 3 0xFF#8 ∧
    decodeThumb 0xA20F#16 = .tAddPc 2 0x0F#8 ∧
    decodeThumb 0xA9F0#16 = .tAddSp 1 0xF0#8 ∧
    decodeThumb 0xB004#16 = .tIncSp 4#7 ∧
    decodeThumb 0xB0FF#16 = .tDecSp 0x7F#7 := by decide

/-- R173 to R178. -/
theorem test_decode_thumb_formats_14_to_19 :
    decodeThumb 0xB50F#16 = .tPush true 0x0F#8 ∧
    decodeThumb 0xBC81#16 = .tPop false 0x81#8 ∧
    decodeThumb 0xC355#16 = .tStmia 3 0x55#8 ∧
    decodeThumb 0xCE01#16 = .tLdmia 6 0x01#8 ∧
    decodeThumb 0xD1FE#16 = .tBCond0to7 .ne 0xFE#8 ∧
    decodeThumb 0xDB10#16 = .tBCond8to11 .lt 0x10#8 ∧
    decodeThumb 0xDD80#16 = .tBCond12to13 .le 0x80#8 ∧
    decodeThumb 0xDF12#16 = .tSwi 0x12#8 ∧
    decodeThumb 0xE7FE#16 = .tB 0x7FE#11 ∧
    decodeThumb 0xF001#16 = .tBlHigh 0x001#11 ∧
    decodeThumb 0xFC00#16 = .tBlLow 0x400#11 := by decide

/-- R180: the first and last halfword of each range. -/
theorem test_decode_thumb_undefined :
    decodeThumb 0xB100#16 = .tUndefB1 0#8 ∧
    decodeThumb 0xB1FF#16 = .tUndefB1 0xFF#8 ∧
    decodeThumb 0xB200#16 = .tUndefB2 0#9 ∧
    decodeThumb 0xB3FF#16 = .tUndefB2 0x1FF#9 ∧
    decodeThumb 0xB600#16 = .tUndefB6 0#9 ∧
    decodeThumb 0xB7FF#16 = .tUndefB6 0x1FF#9 ∧
    decodeThumb 0xB800#16 = .tUndefB8 0#10 ∧
    decodeThumb 0xBBFF#16 = .tUndefB8 0x3FF#10 ∧
    decodeThumb 0xBE00#16 = .tUndefBE 0#9 ∧
    decodeThumb 0xBFFF#16 = .tUndefBE 0x1FF#9 ∧
    decodeThumb 0xDE00#16 = .tBCond14 0#8 ∧
    decodeThumb 0xDEFF#16 = .tBCond14 0xFF#8 ∧
    decodeThumb 0xE800#16 = .tUndefE8 0#11 ∧
    decodeThumb 0xEFFF#16 = .tUndefE8 0x7FF#11 := by decide

/-! ## One step of each instruction

The start and end states are those of spec/95_test_vectors.md (the number stands above each test), or worked by hand from the rule named. -/

/-- A state with the given status word, slots and memory words, everything else as after reset. -/
def given (status : Word) (slots : List (Slot × Word)) (mem : List (Word × Word)) : State :=
  let s := slots.foldl (fun s q => s.setSlot q.1 q.2) State.reset
  let s := s.setMem (mem.foldl (fun m q => m.write32 q.1 q.2) s.mem)
  match Cpsr.unpack status with
  | .ok c => s.setCpsr c
  | .error _ => s


/-- One step from the word at the pc ends with these slots, memory words, status word and SPSRs. -/
def ends (s : State) (nbits w : Nat) (slots : List (Slot × Word)) (mem : List (Word × Word)) (status : Word)
    (spsrs : List (SpsrName × Word)) : Bool :=
  match step (s.withFetchWord nbits w) with
  | .next t => slots.all (fun q => (t.cell q.1).value == q.2) && mem.all (fun q => t.mem.read32 q.1 == q.2) &&
      t.cpsr.pack == status && spsrs.all (fun q => t.spsr.get q.1 == ⟨q.2, true⟩)
  | _ => false

/-- One step from the word at the pc stops with this fault. -/
def stops (s : State) (nbits w : Nat) (f : Fault) : Bool :=
  match step (s.withFetchWord nbits w) with
  | .fault g => g == f
  | _ => false

-- V036, ANDS R0, R1, R2 (zero)
theorem test_and :
    ends (given 0xA00000D3#32 [(15, 0x1000#32), (1, 0xF0#32), (2, 0xF#32)] [])
      32 0xE0110002 [(0, 0x0#32), (15, 0x1004#32)] [] 0x600000D3#32 [] = true := by decide
-- V037, EORS R0, R1, R2
theorem test_eor :
    ends (given 0xD3#32 [(15, 0x1000#32), (1, 0xFFFFFFFF#32), (2, 0xF#32)] [])
      32 0xE0310002 [(0, 0xFFFFFFF0#32), (15, 0x1004#32)] [] 0x800000D3#32 [] = true := by decide
-- V040, SUBS R0, R1, R2 (3 - 5)
theorem test_sub :
    ends (given 0xD3#32 [(15, 0x1000#32), (1, 0x3#32), (2, 0x5#32)] [])
      32 0xE0510002 [(0, 0xFFFFFFFE#32), (15, 0x1004#32)] [] 0xA00000D3#32 [] = true := by decide
-- V048, RSBS R0, R1, R2 (10 - 3)
theorem test_rsb :
    ends ((given 0xD3#32 [(15, 0x1000#32), (1, 0x3#32), (2, 0xA#32)] []).under { Config.standard with subCarry := .notBorrow })
      32 0xE0710002 [(0, 0x7#32), (15, 0x1004#32)] [] 0x200000D3#32 [] = true := by decide
-- V050, ADDS R0, R1, R2 (0x7FFFFFFF + 1)
theorem test_add :
    ends (given 0xD3#32 [(15, 0x1000#32), (1, 0x7FFFFFFF#32), (2, 0x1#32)] [])
      32 0xE0910002 [(0, 0x80000000#32), (15, 0x1004#32)] [] 0x900000D3#32 [] = true := by decide
-- V054, ADCS R0, R1, R2 (0xFFFFFFFF + 0 + 1)
theorem test_adc :
    ends (given 0x200000D3#32 [(15, 0x1000#32), (1, 0xFFFFFFFF#32), (2, 0x0#32)] [])
      32 0xE0B10002 [(0, 0x0#32), (15, 0x1004#32)] [] 0x600000D3#32 [] = true := by decide
-- V057, SBCS R0, R1, R2 (10 - 3, C = 1)
theorem test_sbc :
    ends (given 0x200000D3#32 [(15, 0x1000#32), (1, 0xA#32), (2, 0x3#32)] [])
      32 0xE0D10002 [(0, 0x7#32), (15, 0x1004#32)] [] 0xD3#32 [] = true := by decide
-- V061, RSCS R0, R1, R2 (10 - 3, C = 1)
theorem test_rsc :
    ends (given 0x200000D3#32 [(15, 0x1000#32), (1, 0x3#32), (2, 0xA#32)] [])
      32 0xE0F10002 [(0, 0x7#32), (15, 0x1004#32)] [] 0xD3#32 [] = true := by decide
-- V063, TST R1, R2
theorem test_tst :
    ends (given 0xD3#32 [(15, 0x1000#32), (1, 0xF0#32), (2, 0xF#32)] [])
      32 0xE1110002 [(0, 0x0#32), (15, 0x1004#32)] [] 0x400000D3#32 [] = true := by decide
-- V064, TEQ R1, R2
theorem test_teq :
    ends (given 0x800000D3#32 [(15, 0x1000#32), (1, 0x80000000#32), (2, 0x80000000#32)] [])
      32 0xE1310002 [(0, 0x0#32), (15, 0x1004#32)] [] 0x400000D3#32 [] = true := by decide
-- V066, CMP R1, R2 (equal)
theorem test_cmp :
    ends (given 0xD3#32 [(15, 0x1000#32), (1, 0x5#32), (2, 0x5#32)] [])
      32 0xE1510002 [(0, 0x0#32), (15, 0x1004#32)] [] 0x400000D3#32 [] = true := by decide
-- V070, CMN R1, R2 (0xFFFFFFFF + 1)
theorem test_cmn :
    ends (given 0xD3#32 [(15, 0x1000#32), (1, 0xFFFFFFFF#32), (2, 0x1#32)] [])
      32 0xE1710002 [(0, 0x0#32), (15, 0x1004#32)] [] 0x600000D3#32 [] = true := by decide
-- V071, ORRS R0, R1, R2
theorem test_orr :
    ends (given 0xD3#32 [(15, 0x1000#32), (1, 0x80000000#32), (2, 0xF#32)] [])
      32 0xE1910002 [(0, 0x8000000F#32), (15, 0x1004#32)] [] 0x800000D3#32 [] = true := by decide
-- V010, MOVS R0, R1, LSL #1
theorem test_mov :
    ends (given 0xD3#32 [(15, 0x1000#32), (1, 0x80000001#32)] [])
      32 0xE1B00081 [(0, 0x2#32), (15, 0x1004#32)] [] 0x200000D3#32 [] = true := by decide
-- V074, BICS R0, R1, R2
theorem test_bic :
    ends (given 0xD3#32 [(15, 0x1000#32), (1, 0xFF#32), (2, 0xF#32)] [])
      32 0xE1D10002 [(0, 0xF0#32), (15, 0x1004#32)] [] 0xD3#32 [] = true := by decide
-- V075, MVNS R0, R1
theorem test_mvn :
    ends (given 0xD3#32 [(15, 0x1000#32), (1, 0x0#32)] [])
      32 0xE1F00001 [(0, 0xFFFFFFFF#32), (15, 0x1004#32)] [] 0x800000D3#32 [] = true := by decide
-- V085, TST R0, R0 with S = 0 (PSR space, no-op)
theorem test_psrSpaceNop :
    ends (given 0x800000D3#32 [(15, 0x1000#32)] []) 32 0xE1000000 [(0, 0x0#32), (15, 0x1004#32)] [] 0x800000D3#32 [] = true := by decide
-- V088, MRS R0, CPSR
theorem test_mrs :
    ends ((given 0x600000D3#32 [(15, 0x1000#32)] []).under { Config.standard with psrTransfer := .implemented })
      32 0xE10F0000 [(0, 0x600000D3#32), (15, 0x1004#32)] [] 0x600000D3#32 [] = true := by decide
-- V092, MSR CPSR_f, R1
theorem test_msrReg :
    ends ((given 0xD3#32 [(15, 0x1000#32), (1, 0xF0000000#32)] []).under { Config.standard with psrTransfer := .implemented })
      32 0xE128F001 [(0, 0x0#32), (15, 0x1004#32)] [] 0xF00000D3#32 [] = true := by decide
-- V097, MSR CPSR_f, #0xF0000000
theorem test_msrImm :
    ends ((given 0xD3#32 [(15, 0x1000#32)] []).under { Config.standard with psrTransfer := .implemented })
      32 0xE328F20F [(0, 0x0#32), (15, 0x1004#32)] [] 0xF00000D3#32 [] = true := by decide
-- V103, MULS R0, R1, R2 (negative)
theorem test_mul :
    ends (given 0xD3#32 [(15, 0x1000#32), (1, 0xFFFFFFFF#32), (2, 0x2#32)] [])
      32 0xE0100291 [(0, 0xFFFFFFFE#32), (15, 0x1004#32)] [] 0x800000D3#32 [] = true := by decide
-- V105, MLAS R0, R1, R2, R3 (wraps to 0)
theorem test_mla :
    ends (given 0xD3#32 [(15, 0x1000#32), (1, 0xFFFFFFFF#32), (2, 0x1#32), (3, 0x1#32)] [])
      32 0xE0303291 [(0, 0x0#32), (15, 0x1004#32)] [] 0x400000D3#32 [] = true := by decide
-- V107, UMULLS R0, R1, R2, R3 (zero; V cleared)
theorem test_umull :
    ends (given 0xB00000D3#32 [(15, 0x1000#32), (2, 0x0#32), (3, 0x5#32)] [])
      32 0xE0910392 [(0, 0x0#32), (15, 0x1004#32)] [] 0x400000D3#32 [] = true := by decide
-- V108, UMLAL R0, R1, R2, R3
theorem test_umlal :
    ends (given 0xD3#32 [(15, 0x1000#32), (0, 0x1#32), (1, 0x0#32), (2, 0x80000000#32), (3, 0x80000000#32)] [])
      32 0xE0A10392 [(0, 0x1#32), (1, 0x40000000#32), (15, 0x1004#32)] [] 0xD3#32 [] = true := by decide
-- V109, SMULL R0, R1, R2, R3 (-1 * 2)
theorem test_smull :
    ends (given 0xD3#32 [(15, 0x1000#32), (2, 0xFFFFFFFF#32), (3, 0x2#32)] [])
      32 0xE0C10392 [(0, 0xFFFFFFFE#32), (1, 0xFFFFFFFF#32), (15, 0x1004#32)] [] 0xD3#32 [] = true := by decide
-- V111, SMLALS R0, R1, R2, R3 (2 + -1 * 2 = 0)
theorem test_smlal :
    ends (given 0xD3#32 [(15, 0x1000#32), (0, 0x2#32), (1, 0x0#32), (2, 0xFFFFFFFF#32), (3, 0x2#32)] [])
      32 0xE0F10392 [(0, 0x0#32), (15, 0x1004#32)] [] 0x400000D3#32 [] = true := by decide
-- V118, LDR R0, [R1, #4]!
theorem test_ldrPre :
    ends (given 0xD3#32 [(15, 0x1000#32), (1, 0x2000#32)] [(0x2000#32, 0x11223344#32), (0x2004#32, 0x55667788#32)])
      32 0xE5B10004 [(0, 0x55667788#32), (1, 0x2004#32), (15, 0x1004#32)] [] 0xD3#32 [] = true := by decide
-- V119, LDR R0, [R1], #4
theorem test_ldrPost :
    ends (given 0xD3#32 [(15, 0x1000#32), (1, 0x2000#32)] [(0x2000#32, 0x11223344#32), (0x2004#32, 0x55667788#32)])
      32 0xE4910004 [(0, 0x11223344#32), (1, 0x2004#32), (15, 0x1004#32)] [] 0xD3#32 [] = true := by decide
-- V126, LDRB R0, [R1, #3]
theorem test_ldrbPre :
    ends (given 0xD3#32 [(15, 0x1000#32), (1, 0x2000#32)] [(0x2000#32, 0x11223344#32), (0x2004#32, 0x55667788#32)])
      32 0xE5D10003 [(0, 0x11#32), (15, 0x1004#32)] [] 0xD3#32 [] = true := by decide
-- hand: R377 (post-indexed, U = 0)
theorem test_ldrbPost :
    ends (given 0xD3#32 [(15, 0x1000#32), (1, 0x2001#32)] [(0x2000#32, 0x8000F081#32)])
      32 0xE4510001 [(0, 0xF0#32), (1, 0x2000#32), (15, 0x1004#32)] [] 0xD3#32 [] = true := by decide
-- V128, STR R0, [R1, #4]!
theorem test_strPre :
    ends (given 0xD3#32 [(15, 0x1000#32), (0, 0x7#32), (1, 0x2000#32)] [])
      32 0xE5A10004 [(0, 0x7#32), (1, 0x2004#32), (15, 0x1004#32)] [(0x2004#32, 0x7#32)] 0xD3#32 [] = true := by decide
-- V129, STR R0, [R1], #-4
theorem test_strPost :
    ends (given 0xD3#32 [(15, 0x1000#32), (0, 0x7#32), (1, 0x2000#32)] [])
      32 0xE4010004 [(0, 0x7#32), (1, 0x1FFC#32), (15, 0x1004#32)] [(0x2000#32, 0x7#32)] 0xD3#32 [] = true := by decide
-- V133, STRB R0, [R1, #1]
theorem test_strbPre :
    ends (given 0xD3#32 [(15, 0x1000#32), (0, 0x1FF#32), (1, 0x2000#32)] [(0x2000#32, 0x11223344#32), (0x2004#32, 0x55667788#32)])
      32 0xE5C10001 [(0, 0x1FF#32), (15, 0x1004#32)] [(0x2000#32, 0x1122FF44#32)] 0xD3#32 [] = true := by decide
-- hand: R379 (post-indexed)
theorem test_strbPost :
    ends (given 0xD3#32 [(15, 0x1000#32), (0, 0x1AB#32), (1, 0x2001#32)] [(0x2000#32, 0x8000F081#32)])
      32 0xE4C10002 [(0, 0x1AB#32), (1, 0x2003#32), (15, 0x1004#32)] [(0x2000#32, 0x8000AB81#32)] 0xD3#32 [] = true := by decide
-- V134, LDRT R0, [R1], #4
theorem test_ldrt :
    ends (given 0xD3#32 [(15, 0x1000#32), (1, 0x2000#32)] [(0x2000#32, 0x11223344#32), (0x2004#32, 0x55667788#32)])
      32 0xE4B10004 [(0, 0x11223344#32), (1, 0x2004#32), (15, 0x1004#32)] [] 0xD3#32 [] = true := by decide
-- V135, LDRBT R0, [R1], #1
theorem test_ldrbt :
    ends (given 0xD3#32 [(15, 0x1000#32), (1, 0x2000#32)] [(0x2000#32, 0x11223344#32), (0x2004#32, 0x55667788#32)])
      32 0xE4F10001 [(0, 0x44#32), (1, 0x2001#32), (15, 0x1004#32)] [] 0xD3#32 [] = true := by decide
-- V136, STRT R0, [R1], #4
theorem test_strt :
    ends (given 0xD3#32 [(15, 0x1000#32), (0, 0x9#32), (1, 0x2000#32)] [])
      32 0xE4A10004 [(0, 0x9#32), (1, 0x2004#32), (15, 0x1004#32)] [(0x2000#32, 0x9#32)] 0xD3#32 [] = true := by decide
-- V137, STRBT R0, [R1], #1
theorem test_strbt :
    ends (given 0xD3#32 [(15, 0x1000#32), (0, 0x1AB#32), (1, 0x2000#32)] [])
      32 0xE4E10001 [(0, 0x1AB#32), (1, 0x2001#32), (15, 0x1004#32)] [(0x2000#32, 0xAB#32)] 0xD3#32 [] = true := by decide
-- V145, LDRH R0, [R1], #2
theorem test_ldrh :
    ends (given 0xD3#32 [(15, 0x1000#32), (1, 0x2000#32)] [(0x2000#32, 0x8000F081#32), (0x2004#32, 0x11223344#32)])
      32 0xE0D100B2 [(0, 0xF081#32), (1, 0x2002#32), (15, 0x1004#32)] [] 0xD3#32 [] = true := by decide
-- V150, STRH R0, [R1, #2]
theorem test_strh :
    ends (given 0xD3#32 [(15, 0x1000#32), (0, 0x1ABCD#32), (1, 0x2000#32)] [(0x2000#32, 0x8000F081#32), (0x2004#32, 0x11223344#32)])
      32 0xE1C100B2 [(0, 0x1ABCD#32), (15, 0x1004#32)] [(0x2000#32, 0xABCDF081#32)] 0xD3#32 [] = true := by decide
-- V151, LDRSB R0, [R1]
theorem test_ldrsb :
    ends (given 0xD3#32 [(15, 0x1000#32), (1, 0x2000#32)] [(0x2000#32, 0x8000F081#32), (0x2004#32, 0x11223344#32)])
      32 0xE1D100D0 [(0, 0xFFFFFF81#32), (15, 0x1004#32)] [] 0xD3#32 [] = true := by decide
-- V153, LDRSH R0, [R1]
theorem test_ldrsh :
    ends (given 0xD3#32 [(15, 0x1000#32), (1, 0x2000#32)] [(0x2000#32, 0x8000F081#32), (0x2004#32, 0x11223344#32)])
      32 0xE1D100F0 [(0, 0xFFFFF081#32), (15, 0x1004#32)] [] 0xD3#32 [] = true := by decide
-- V156, STRSH (store with S = 1)
theorem test_signedStore :
    stops (given 0xD3#32 [(15, 0x1000#32), (1, 0x2000#32)] []) 32 0xE1C100F0 (.unpredictable .signedStore) = true := by decide
-- V155, SH = 00 in the halfword space (reserved)
theorem test_halfSh00 :
    stops (given 0xD3#32 [(15, 0x1000#32), (1, 0x2000#32)] []) 32 0xE1D10090 (.unpredictable .halfwordSH00) = true := by decide
-- V159, SWP R0, R2, [R1]
theorem test_swp :
    ends (given 0xD3#32 [(15, 0x1000#32), (1, 0x2000#32), (2, 0xDEADBEEF#32)] [(0x2000#32, 0x8000F081#32)])
      32 0xE1010092 [(0, 0x8000F081#32), (15, 0x1004#32)] [(0x2000#32, 0xDEADBEEF#32)] 0xD3#32 [] = true := by decide
-- hand: R411
theorem test_swpb :
    ends (given 0xD3#32 [(15, 0x1000#32), (1, 0x2001#32), (2, 0x1EE#32)] [(0x2000#32, 0x8000F081#32)])
      32 0xE1410092 [(0, 0xF0#32), (1, 0x2001#32), (15, 0x1004#32)] [(0x2000#32, 0x8000EE81#32)] 0xD3#32 [] = true := by decide
-- V189, LDMIA R8!, {R14, PC}^ (restore)
theorem test_ldmia :
    ends ((given 0xD3#32 [(15, 0x1000#32), (8, 0x2000#32), (14, 0x222#32)] [(0x2000#32, 0xAA#32), (0x2004#32, 0x3000#32)]).saved [(.svc,
      0x10#32)]) 32 0xE8F8C000 [(8, 0x2008#32), (14, 0xAA#32), (15, 0x3000#32)] [] 0x10#32 [] = true := by decide
-- V174, LDMIB R8, {R0, R2, R5}
theorem test_ldmib :
    ends (given 0xD3#32 [(15, 0x1000#32), (8, 0x2000#32)] [(0x1FF4#32, 0xA#32), (0x1FF8#32, 0xB#32), (0x1FFC#32, 0xC#32), (0x2000#32, 0xD#32),
      (0x2004#32, 0xE#32), (0x2008#32, 0xF#32), (0x200C#32, 0x10#32)])
      32 0xE9980025 [(0, 0xE#32), (2, 0xF#32), (5, 0x10#32), (15, 0x1004#32)] [] 0xD3#32 [] = true := by decide
-- V176, LDMDA R8!, {R0, R2, R5}
theorem test_ldmda :
    ends (given 0xD3#32 [(15, 0x1000#32), (8, 0x2000#32)] [(0x1FF4#32, 0xA#32), (0x1FF8#32, 0xB#32), (0x1FFC#32, 0xC#32), (0x2000#32, 0xD#32),
      (0x2004#32, 0xE#32), (0x2008#32, 0xF#32), (0x200C#32, 0x10#32)])
      32 0xE8380025 [(0, 0xD#32), (2, 0xC#32), (5, 0xB#32), (8, 0x1FF4#32), (15, 0x1004#32)] [] 0xD3#32 [] = true := by decide
-- V178, LDMDB R8!, {R0, R2, R5}
theorem test_ldmdb :
    ends (given 0xD3#32 [(15, 0x1000#32), (8, 0x2000#32)] [(0x1FF4#32, 0xA#32), (0x1FF8#32, 0xB#32), (0x1FFC#32, 0xC#32), (0x2000#32, 0xD#32),
      (0x2004#32, 0xE#32), (0x2008#32, 0xF#32), (0x200C#32, 0x10#32)])
      32 0xE9380025 [(0, 0xC#32), (2, 0xB#32), (5, 0xA#32), (8, 0x1FF4#32), (15, 0x1004#32)] [] 0xD3#32 [] = true := by decide
-- V166, STMIA R8!, {R0, R2, R5}
theorem test_stmia :
    ends (given 0xD3#32 [(15, 0x1000#32), (0, 0x1#32), (2, 0x2#32), (5, 0x5#32), (8, 0x2000#32)] [])
      32 0xE8A80025 [(8, 0x200C#32), (15, 0x1004#32)] [(0x2000#32, 0x1#32), (0x2004#32, 0x2#32), (0x2008#32, 0x5#32)] 0xD3#32 [] = true := by
      decide
-- V167, STMIB R8!, {R0, R2, R5}
theorem test_stmib :
    ends (given 0xD3#32 [(15, 0x1000#32), (0, 0x1#32), (2, 0x2#32), (5, 0x5#32), (8, 0x2000#32)] [])
      32 0xE9A80025 [(8, 0x200C#32), (15, 0x1004#32)] [(0x2004#32, 0x1#32), (0x2008#32, 0x2#32), (0x200C#32, 0x5#32)] 0xD3#32 [] = true := by
      decide
-- V169, STMDA R8!, {R0, R2, R5}
theorem test_stmda :
    ends (given 0xD3#32 [(15, 0x1000#32), (0, 0x1#32), (2, 0x2#32), (5, 0x5#32), (8, 0x2000#32)] [])
      32 0xE8280025 [(8, 0x1FF4#32), (15, 0x1004#32)] [(0x1FF8#32, 0x5#32), (0x1FFC#32, 0x2#32), (0x2000#32, 0x1#32)] 0xD3#32 [] = true := by
      decide
-- V171, STMDB R8!, {R0, R2, R5}
theorem test_stmdb :
    ends (given 0xD3#32 [(15, 0x1000#32), (0, 0x1#32), (2, 0x2#32), (5, 0x5#32), (8, 0x2000#32)] [])
      32 0xE9280025 [(8, 0x1FF4#32), (15, 0x1004#32)] [(0x1FF4#32, 0x5#32), (0x1FF8#32, 0x2#32), (0x1FFC#32, 0x1#32)] 0xD3#32 [] = true := by
      decide
-- V194, B +8 (0xEA000002)
theorem test_b :
    ends (given 0xD3#32 [(15, 0x1000#32)] []) 32 0xEA000002 [(15, 0x1010#32)] [] 0xD3#32 [] = true := by decide
-- V198, BL +0x40
theorem test_bl :
    ends (given 0xD3#32 [(15, 0x1000#32)] []) 32 0xEB000010 [(24, 0x1004#32), (15, 0x1048#32)] [] 0xD3#32 [] = true := by decide
-- V201, BX R1 (Thumb target)
theorem test_bx :
    ends (given 0xD3#32 [(15, 0x1000#32), (1, 0x2003#32)] []) 32 0xE12FFF11 [(15, 0x2002#32)] [] 0xF3#32 [] = true := by decide
-- V204, SWI 0x123456 in User mode
theorem test_swi :
    ends (given 0x600000D0#32 [(15, 0x1000#32)] [])
      32 0xEF123456 [(24, 0x1004#32), (15, 0x8#32)] [] 0x600000D3#32 [(.svc, 0x600000D0#32)] = true := by decide
-- V207, Undefined 0xE7F000F0 (Trap)
theorem test_undefined :
    ends ((given 0x800000D0#32 [(15, 0x1000#32)] []).under { Config.standard with undefined := .trap })
      32 0xE7F000F0 [(30, 0x1004#32), (15, 0x4#32)] [] 0x800000DB#32 [(.und, 0x800000D0#32)] = true := by decide
-- V209, LDC p1, c0, [R0] (0xED900100)
theorem test_ldc :
    ends ((given 0xD3#32 [(15, 0x1000#32)] []).under { Config.standard with undefined := .trap })
      32 0xED900100 [(30, 0x1004#32), (15, 0x4#32)] [] 0xDB#32 [(.und, 0xD3#32)] = true := by decide
-- V210, STC p1, c0, [R0] (0xED800100)
theorem test_stc :
    ends ((given 0xD3#32 [(15, 0x1000#32)] []).under { Config.standard with undefined := .trap })
      32 0xED800100 [(30, 0x1004#32), (15, 0x4#32)] [] 0xDB#32 [(.und, 0xD3#32)] = true := by decide
-- V212, CDP p1 (0xEE000100)
theorem test_cdp :
    ends ((given 0xD3#32 [(15, 0x1000#32)] []).under { Config.standard with undefined := .trap })
      32 0xEE000100 [(30, 0x1004#32), (15, 0x4#32)] [] 0xDB#32 [(.und, 0xD3#32)] = true := by decide
-- V213, MCR p1 (0xEE000110)
theorem test_mcr :
    ends ((given 0xD3#32 [(15, 0x1000#32)] []).under { Config.standard with undefined := .trap })
      32 0xEE000110 [(30, 0x1004#32), (15, 0x4#32)] [] 0xDB#32 [(.und, 0xD3#32)] = true := by decide
-- V214, MRC p1 (0xEE100110)
theorem test_mrc :
    ends ((given 0xD3#32 [(15, 0x1000#32)] []).under { Config.standard with undefined := .trap })
      32 0xEE100110 [(30, 0x1004#32), (15, 0x4#32)] [] 0xDB#32 [(.und, 0xD3#32)] = true := by decide
-- hand: R182, R202
theorem test_reservedCond :
    stops (given 0xD3#32 [(15, 0x1000#32)] []) 32 0xF3A00001 .reservedCondition = true := by decide
-- V216, LSL R0, R1, #2
theorem test_tLslImm :
    ends (given 0xF3#32 [(15, 0x1000#32), (1, 0x40000001#32)] [])
      16 0x0088 [(0, 0x4#32), (15, 0x1002#32)] [] 0x200000F3#32 [] = true := by decide
-- V218, LSR R0, R1, #0
theorem test_tLsrImm :
    ends (given 0xF3#32 [(15, 0x1000#32), (1, 0x80000000#32)] [])
      16 0x0808 [(0, 0x80000000#32), (15, 0x1002#32)] [] 0x800000F3#32 [] = true := by decide
-- V221, ASR R0, R1, #1
theorem test_tAsrImm :
    ends (given 0xF3#32 [(15, 0x1000#32), (1, 0x80000001#32)] [])
      16 0x1048 [(0, 0xC0000000#32), (15, 0x1002#32)] [] 0xA00000F3#32 [] = true := by decide
-- V224, ADD R0, R1, R2
theorem test_tAddReg :
    ends (given 0xF3#32 [(15, 0x1000#32), (1, 0xFFFFFFFF#32), (2, 0x1#32)] [])
      16 0x1888 [(0, 0x0#32), (15, 0x1002#32)] [] 0x600000F3#32 [] = true := by decide
-- V225, SUB R0, R1, R2 (1 - 2)
theorem test_tSubReg :
    ends (given 0xF3#32 [(15, 0x1000#32), (1, 0x1#32), (2, 0x2#32)] [])
      16 0x1A88 [(0, 0xFFFFFFFF#32), (15, 0x1002#32)] [] 0xA00000F3#32 [] = true := by decide
-- V227, ADD R0, R1, #1
theorem test_tAddImm3 :
    ends (given 0xF3#32 [(15, 0x1000#32), (1, 0x7FFFFFFF#32)] [])
      16 0x1C48 [(0, 0x80000000#32), (15, 0x1002#32)] [] 0x900000F3#32 [] = true := by decide
-- V228, SUB R0, R1, #1
theorem test_tSubImm3 :
    ends (given 0xF3#32 [(15, 0x1000#32), (1, 0x1#32)] []) 16 0x1E48 [(0, 0x0#32), (15, 0x1002#32)] [] 0x400000F3#32 [] = true := by decide
-- V230, MOV R0, #0
theorem test_tMovImm :
    ends (given 0xA00000F3#32 [(15, 0x1000#32), (0, 0x5#32)] [])
      16 0x2000 [(0, 0x0#32), (15, 0x1002#32)] [] 0x600000F3#32 [] = true := by decide
-- V232, CMP R0, #5 (equal)
theorem test_tCmpImm :
    ends (given 0xF3#32 [(15, 0x1000#32), (0, 0x5#32)] []) 16 0x2805 [(0, 0x5#32), (15, 0x1002#32)] [] 0x400000F3#32 [] = true := by decide
-- V234, ADD R0, #0xFF
theorem test_tAddImm8 :
    ends (given 0xF3#32 [(15, 0x1000#32), (0, 0x1#32)] []) 16 0x30FF [(0, 0x100#32), (15, 0x1002#32)] [] 0xF3#32 [] = true := by decide
-- V235, SUB R0, #1 (0 - 1)
theorem test_tSubImm8 :
    ends (given 0xF3#32 [(15, 0x1000#32), (0, 0x0#32)] [])
      16 0x3801 [(0, 0xFFFFFFFF#32), (15, 0x1002#32)] [] 0xA00000F3#32 [] = true := by decide
-- V237, AND R0, R1
theorem test_tAnd :
    ends (given 0xF3#32 [(15, 0x1000#32), (0, 0xFF#32), (1, 0xF#32)] [])
      16 0x4008 [(0, 0xF#32), (15, 0x1002#32)] [] 0xF3#32 [] = true := by decide
-- V238, EOR R0, R1
theorem test_tEor :
    ends (given 0xF3#32 [(15, 0x1000#32), (0, 0xFF#32), (1, 0xFF#32)] [])
      16 0x4048 [(0, 0x0#32), (15, 0x1002#32)] [] 0x400000F3#32 [] = true := by decide
-- V239, LSL R0, R1 (R1 = 32)
theorem test_tLsl :
    ends (given 0xF3#32 [(15, 0x1000#32), (0, 0x1#32), (1, 0x20#32)] [])
      16 0x4088 [(0, 0x0#32), (15, 0x1002#32)] [] 0x600000F3#32 [] = true := by decide
-- V242, LSR R0, R1 (R1 = 33)
theorem test_tLsr :
    ends (given 0xF3#32 [(15, 0x1000#32), (0, 0x80000000#32), (1, 0x21#32)] [])
      16 0x40C8 [(0, 0x0#32), (15, 0x1002#32)] [] 0x400000F3#32 [] = true := by decide
-- V243, ASR R0, R1 (R1 = 40)
theorem test_tAsr :
    ends (given 0xF3#32 [(15, 0x1000#32), (0, 0x80000000#32), (1, 0x28#32)] [])
      16 0x4108 [(0, 0xFFFFFFFF#32), (15, 0x1002#32)] [] 0xA00000F3#32 [] = true := by decide
-- V244, ADC R0, R1 (C = 1)
theorem test_tAdc :
    ends (given 0x200000F3#32 [(15, 0x1000#32), (0, 0xFFFFFFFF#32), (1, 0x0#32)] [])
      16 0x4148 [(0, 0x0#32), (15, 0x1002#32)] [] 0x600000F3#32 [] = true := by decide
-- V246, SBC R0, R1 (5 - 3, C = 0)
theorem test_tSbc :
    ends ((given 0xF3#32 [(15, 0x1000#32), (0, 0x5#32), (1, 0x3#32)] []).under { Config.standard with subCarry := .notBorrow })
      16 0x4188 [(0, 0x1#32), (15, 0x1002#32)] [] 0x200000F3#32 [] = true := by decide
-- V248, ROR R0, R1 (R1 = 32)
theorem test_tRor :
    ends (given 0xF3#32 [(15, 0x1000#32), (0, 0x80000001#32), (1, 0x20#32)] [])
      16 0x41C8 [(0, 0x80000001#32), (15, 0x1002#32)] [] 0xA00000F3#32 [] = true := by decide
-- V249, TST R0, R1
theorem test_tTst :
    ends (given 0xF3#32 [(15, 0x1000#32), (0, 0xF0#32), (1, 0xF#32)] [])
      16 0x4208 [(0, 0xF0#32), (15, 0x1002#32)] [] 0x400000F3#32 [] = true := by decide
-- V250, NEG R0, R1
theorem test_tNeg :
    ends (given 0xF3#32 [(15, 0x1000#32), (1, 0x1#32)] [])
      16 0x4248 [(0, 0xFFFFFFFF#32), (15, 0x1002#32)] [] 0xA00000F3#32 [] = true := by decide
-- V256, CMP R0, R1 (3 vs 5)
theorem test_tCmp :
    ends (given 0xF3#32 [(15, 0x1000#32), (0, 0x3#32), (1, 0x5#32)] [])
      16 0x4288 [(0, 0x3#32), (15, 0x1002#32)] [] 0xA00000F3#32 [] = true := by decide
-- V258, CMN R0, R1
theorem test_tCmn :
    ends (given 0xF3#32 [(15, 0x1000#32), (0, 0xFFFFFFFF#32), (1, 0x1#32)] [])
      16 0x42C8 [(0, 0xFFFFFFFF#32), (15, 0x1002#32)] [] 0x600000F3#32 [] = true := by decide
-- V259, ORR R0, R1
theorem test_tOrr :
    ends (given 0xF3#32 [(15, 0x1000#32), (0, 0xF0#32), (1, 0xF#32)] [])
      16 0x4308 [(0, 0xFF#32), (15, 0x1002#32)] [] 0xF3#32 [] = true := by decide
-- V260, MUL R0, R1
theorem test_tMul :
    ends (given 0x300000F3#32 [(15, 0x1000#32), (0, 0x6#32), (1, 0x7#32)] [])
      16 0x4348 [(0, 0x2A#32), (15, 0x1002#32)] [] 0x100000F3#32 [] = true := by decide
-- V262, BIC R0, R1
theorem test_tBic :
    ends (given 0xF3#32 [(15, 0x1000#32), (0, 0xFF#32), (1, 0xF#32)] [])
      16 0x4388 [(0, 0xF0#32), (15, 0x1002#32)] [] 0xF3#32 [] = true := by decide
-- V263, MVN R0, R1
theorem test_tMvn :
    ends (given 0xF3#32 [(15, 0x1000#32), (1, 0x0#32)] [])
      16 0x43C8 [(0, 0xFFFFFFFF#32), (15, 0x1002#32)] [] 0x800000F3#32 [] = true := by decide
-- V264, ADD R0, R8
theorem test_tAddHi :
    ends (given 0xF3#32 [(15, 0x1000#32), (0, 0x1#32), (8, 0xFFFFFFFF#32)] [])
      16 0x4440 [(0, 0x0#32), (15, 0x1002#32)] [] 0xF3#32 [] = true := by decide
-- V268, CMP R8, R0
theorem test_tCmpHi :
    ends (given 0xF3#32 [(15, 0x1000#32), (0, 0x5#32), (8, 0x5#32)] [])
      16 0x4580 [(0, 0x5#32), (15, 0x1002#32)] [] 0x400000F3#32 [] = true := by decide
-- V270, MOV R8, R0
theorem test_tMovHi :
    ends (given 0xF3#32 [(15, 0x1000#32), (0, 0x1234#32)] [])
      16 0x4680 [(0, 0x1234#32), (8, 0x1234#32), (15, 0x1002#32)] [] 0xF3#32 [] = true := by decide
-- V274, BX R1 (to ARM)
theorem test_tBx :
    ends (given 0xF3#32 [(15, 0x1000#32), (1, 0x2002#32)] []) 16 0x4708 [(0, 0x0#32), (15, 0x2000#32)] [] 0xD3#32 [] = true := by decide
-- V277, BX with H1 = 1
theorem test_tBxH1 :
    stops (given 0xF3#32 [(15, 0x1000#32), (1, 0x2001#32)] []) 16 0x4788 (.unpredictable .thumbBxH1) = true := by decide
-- V278, LDR R0, [PC, #4] (at 0x1000)
theorem test_tLdrPc :
    ends (given 0xF3#32 [(15, 0x1000#32)] [(0x1008#32, 0x12345678#32)])
      16 0x4801 [(0, 0x12345678#32), (15, 0x1002#32)] [] 0xF3#32 [] = true := by decide
-- V280, STR R0, [R1, R2]
theorem test_tStrReg :
    ends (given 0xF3#32 [(15, 0x1000#32), (0, 0xCAFE#32), (1, 0x2000#32), (2, 0x4#32)] [(0x2000#32, 0x8000F081#32), (0x2004#32, 0x11223344#32),
      (0x2008#32, 0xAABBCCDD#32)]) 16 0x5088 [(0, 0xCAFE#32), (15, 0x1002#32)] [(0x2004#32, 0xCAFE#32)] 0xF3#32 [] = true := by decide
-- V281, STRB R0, [R1, R2]
theorem test_tStrbReg :
    ends (given 0xF3#32 [(15, 0x1000#32), (0, 0x1AB#32), (1, 0x2000#32), (2, 0x1#32)] [(0x2000#32, 0x8000F081#32), (0x2004#32, 0x11223344#32),
      (0x2008#32, 0xAABBCCDD#32)]) 16 0x5488 [(0, 0x1AB#32), (15, 0x1002#32)] [(0x2000#32, 0x8000AB81#32)] 0xF3#32 [] = true := by decide
-- V282, LDR R0, [R1, R2]
theorem test_tLdrReg :
    ends (given 0xF3#32 [(15, 0x1000#32), (1, 0x2000#32), (2, 0x8#32)] [(0x2000#32, 0x8000F081#32), (0x2004#32, 0x11223344#32), (0x2008#32,
      0xAABBCCDD#32)]) 16 0x5888 [(0, 0xAABBCCDD#32), (15, 0x1002#32)] [] 0xF3#32 [] = true := by decide
-- V283, LDRB R0, [R1, R2]
theorem test_tLdrbReg :
    ends (given 0xF3#32 [(15, 0x1000#32), (1, 0x2000#32), (2, 0x1#32)] [(0x2000#32, 0x8000F081#32), (0x2004#32, 0x11223344#32), (0x2008#32,
      0xAABBCCDD#32)]) 16 0x5C88 [(0, 0xF0#32), (15, 0x1002#32)] [] 0xF3#32 [] = true := by decide
-- V284, STRH R0, [R1, R2]
theorem test_tStrhReg :
    ends (given 0xF3#32 [(15, 0x1000#32), (0, 0x12345#32), (1, 0x2000#32), (2, 0x2#32)] [(0x2000#32, 0x8000F081#32), (0x2004#32,
      0x11223344#32), (0x2008#32, 0xAABBCCDD#32)])
      16 0x5288 [(0, 0x12345#32), (15, 0x1002#32)] [(0x2000#32, 0x2345F081#32)] 0xF3#32 [] = true := by decide
-- V285, LDRH R0, [R1, R2]
theorem test_tLdrhReg :
    ends (given 0xF3#32 [(15, 0x1000#32), (1, 0x2000#32), (2, 0x2#32)] [(0x2000#32, 0x8000F081#32), (0x2004#32, 0x11223344#32), (0x2008#32,
      0xAABBCCDD#32)]) 16 0x5A88 [(0, 0x8000#32), (15, 0x1002#32)] [] 0xF3#32 [] = true := by decide
-- V286, LDSB R0, [R1, R2]
theorem test_tLdsb :
    ends (given 0xF3#32 [(15, 0x1000#32), (1, 0x2000#32), (2, 0x0#32)] [(0x2000#32, 0x8000F081#32), (0x2004#32, 0x11223344#32), (0x2008#32,
      0xAABBCCDD#32)]) 16 0x5688 [(0, 0xFFFFFF81#32), (15, 0x1002#32)] [] 0xF3#32 [] = true := by decide
-- V287, LDSH R0, [R1, R2]
theorem test_tLdsh :
    ends (given 0xF3#32 [(15, 0x1000#32), (1, 0x2000#32), (2, 0x0#32)] [(0x2000#32, 0x8000F081#32), (0x2004#32, 0x11223344#32), (0x2008#32,
      0xAABBCCDD#32)]) 16 0x5E88 [(0, 0xFFFFF081#32), (15, 0x1002#32)] [] 0xF3#32 [] = true := by decide
-- V290, STR R0, [R1, #4]
theorem test_tStrImm :
    ends (given 0xF3#32 [(15, 0x1000#32), (0, 0x77#32), (1, 0x2000#32)] [(0x2000#32, 0x8000F081#32), (0x2004#32, 0x11223344#32), (0x2008#32,
      0xAABBCCDD#32)]) 16 0x6048 [(0, 0x77#32), (15, 0x1002#32)] [(0x2004#32, 0x77#32)] 0xF3#32 [] = true := by decide
-- V291, LDR R0, [R1, #4]
theorem test_tLdrImm :
    ends (given 0xF3#32 [(15, 0x1000#32), (1, 0x2000#32)] [(0x2000#32, 0x8000F081#32), (0x2004#32, 0x11223344#32), (0x2008#32, 0xAABBCCDD#32)])
      16 0x6848 [(0, 0x11223344#32), (15, 0x1002#32)] [] 0xF3#32 [] = true := by decide
-- V293, STRB R0, [R1, #1]
theorem test_tStrbImm :
    ends (given 0xF3#32 [(15, 0x1000#32), (0, 0xEE#32), (1, 0x2000#32)] [(0x2000#32, 0x8000F081#32), (0x2004#32, 0x11223344#32), (0x2008#32,
      0xAABBCCDD#32)]) 16 0x7048 [(0, 0xEE#32), (15, 0x1002#32)] [(0x2000#32, 0x8000EE81#32)] 0xF3#32 [] = true := by decide
-- V294, LDRB R0, [R1, #1]
theorem test_tLdrbImm :
    ends (given 0xF3#32 [(15, 0x1000#32), (1, 0x2000#32)] [(0x2000#32, 0x8000F081#32), (0x2004#32, 0x11223344#32), (0x2008#32, 0xAABBCCDD#32)])
      16 0x7848 [(0, 0xF0#32), (15, 0x1002#32)] [] 0xF3#32 [] = true := by decide
-- V295, STRH R0, [R1, #2]
theorem test_tStrhImm :
    ends (given 0xF3#32 [(15, 0x1000#32), (0, 0xBEEF#32), (1, 0x2000#32)] [(0x2000#32, 0x8000F081#32), (0x2004#32, 0x11223344#32), (0x2008#32,
      0xAABBCCDD#32)]) 16 0x8048 [(0, 0xBEEF#32), (15, 0x1002#32)] [(0x2000#32, 0xBEEFF081#32)] 0xF3#32 [] = true := by decide
-- V296, LDRH R0, [R1, #2]
theorem test_tLdrhImm :
    ends (given 0xF3#32 [(15, 0x1000#32), (1, 0x2000#32)] [(0x2000#32, 0x8000F081#32), (0x2004#32, 0x11223344#32), (0x2008#32, 0xAABBCCDD#32)])
      16 0x8848 [(0, 0x8000#32), (15, 0x1002#32)] [] 0xF3#32 [] = true := by decide
-- V297, STR R0, [SP, #4]
theorem test_tStrSp :
    ends (given 0xF3#32 [(15, 0x1000#32), (0, 0x99#32), (23, 0x2000#32)] [(0x2000#32, 0x8000F081#32), (0x2004#32, 0x11223344#32), (0x2008#32,
      0xAABBCCDD#32)]) 16 0x9001 [(0, 0x99#32), (15, 0x1002#32)] [(0x2004#32, 0x99#32)] 0xF3#32 [] = true := by decide
-- V298, LDR R0, [SP, #4]
theorem test_tLdrSp :
    ends (given 0xF3#32 [(15, 0x1000#32), (23, 0x2000#32)] [(0x2000#32, 0x8000F081#32), (0x2004#32, 0x11223344#32), (0x2008#32,
      0xAABBCCDD#32)]) 16 0x9801 [(0, 0x11223344#32), (15, 0x1002#32)] [] 0xF3#32 [] = true := by decide
-- V299, ADD R0, PC, #4 (at 0x1002)
theorem test_tAddPc :
    ends (given 0xF3#32 [(15, 0x1002#32)] []) 16 0xA001 [(0, 0x1008#32), (15, 0x1004#32)] [] 0xF3#32 [] = true := by decide
-- V300, ADD R0, SP, #4
theorem test_tAddSp :
    ends (given 0xF3#32 [(15, 0x1000#32), (23, 0x3000#32)] []) 16 0xA801 [(0, 0x3004#32), (15, 0x1002#32)] [] 0xF3#32 [] = true := by decide
-- V301, ADD SP, #16
theorem test_tIncSp :
    ends (given 0xF3#32 [(15, 0x1000#32), (23, 0x3000#32)] [])
      16 0xB004 [(0, 0x0#32), (23, 0x3010#32), (15, 0x1002#32)] [] 0xF3#32 [] = true := by decide
-- V302, SUB SP, #16
theorem test_tDecSp :
    ends (given 0xF3#32 [(15, 0x1000#32), (23, 0x3000#32)] [])
      16 0xB084 [(0, 0x0#32), (23, 0x2FF0#32), (15, 0x1002#32)] [] 0xF3#32 [] = true := by decide
-- V303, PUSH {R0, R1}
theorem test_tPush :
    ends (given 0xF3#32 [(15, 0x1000#32), (0, 0x1#32), (1, 0x2#32), (23, 0x3000#32)] [])
      16 0xB403 [(0, 0x1#32), (23, 0x2FF8#32), (15, 0x1002#32)] [(0x2FF8#32, 0x2#32), (0x2FFC#32, 0x1#32)] 0xF3#32 [] = true := by decide
-- V307, POP {R0, R1}
theorem test_tPop :
    ends (given 0xF3#32 [(15, 0x1000#32), (23, 0x2FF8#32)] [(0x2FF8#32, 0xA#32), (0x2FFC#32, 0xB#32)])
      16 0xBC03 [(0, 0xA#32), (1, 0xB#32), (23, 0x3000#32), (15, 0x1002#32)] [] 0xF3#32 [] = true := by decide
-- V311, STMIA R1!, {R0, R2}
theorem test_tStmia :
    ends (given 0xF3#32 [(15, 0x1000#32), (0, 0x1#32), (1, 0x2000#32), (2, 0x2#32)] [])
      16 0xC105 [(0, 0x1#32), (1, 0x2008#32), (15, 0x1002#32)] [(0x2000#32, 0x1#32), (0x2004#32, 0x2#32)] 0xF3#32 [] = true := by decide
-- V312, LDMIA R1!, {R0, R2}
theorem test_tLdmia :
    ends (given 0xF3#32 [(15, 0x1000#32), (1, 0x2000#32)] [(0x2000#32, 0x8000F081#32), (0x2004#32, 0x11223344#32), (0x2008#32, 0xAABBCCDD#32)])
      16 0xC905 [(0, 0x8000F081#32), (1, 0x2008#32), (2, 0x11223344#32), (15, 0x1002#32)] [] 0xF3#32 [] = true := by decide
-- V314, BEQ +4 (Z = 1)
theorem test_tBCond0to7 :
    ends (given 0x400000F3#32 [(15, 0x1000#32)] []) 16 0xD002 [(0, 0x0#32), (15, 0x1008#32)] [] 0x400000F3#32 [] = true := by decide
-- hand: R600, BGE -4 with N = V
theorem test_tBCond8to11 :
    ends (given 0x900000F3#32 [(15, 0x1000#32)] []) 16 0xDAFC [(15, 0xFFC#32)] [] 0x900000F3#32 [] = true := by decide
-- hand: R600, BLE +4 with Z = 1
theorem test_tBCond12to13 :
    ends (given 0x400000F3#32 [(15, 0x1000#32)] []) 16 0xDD02 [(15, 0x1008#32)] [] 0x400000F3#32 [] = true := by decide
-- V318, B<cond> with cond 1110
theorem test_tBCond14 :
    ends ((given 0xF3#32 [(15, 0x1000#32)] []).under { Config.standard with undefined := .trap })
      16 0xDE00 [(0, 0x0#32), (30, 0x1002#32), (15, 0x4#32)] [] 0xDB#32 [(.und, 0xF3#32)] = true := by decide
-- V319, B<cond> with cond 1111 is SWI
theorem test_tSwi :
    ends (given 0xC00000F3#32 [(15, 0x1000#32)] [])
      16 0xDF12 [(0, 0x0#32), (24, 0x1002#32), (15, 0x8#32)] [] 0xC00000D3#32 [(.svc, 0xC00000F3#32)] = true := by decide
-- V320, B +8 (0xE002)
theorem test_tB :
    ends (given 0xF3#32 [(15, 0x1000#32)] []) 16 0xE002 [(0, 0x0#32), (15, 0x1008#32)] [] 0xF3#32 [] = true := by decide
-- V323, BL first half (0xF000)
theorem test_tBlHigh :
    ends (given 0xF3#32 [(15, 0x1000#32)] []) 16 0xF000 [(0, 0x0#32), (24, 0x1004#32), (15, 0x1002#32)] [] 0xF3#32 [] = true := by decide
-- V325, BL second half (0xF801) with LR = 0x2000
theorem test_tBlLow :
    ends (given 0xF3#32 [(15, 0x1000#32), (24, 0x2000#32)] [])
      16 0xF801 [(0, 0x0#32), (24, 0x1003#32), (15, 0x2002#32)] [] 0xF3#32 [] = true := by decide
-- V329, undefined 0xB100
theorem test_tUndefB1 :
    ends ((given 0xF3#32 [(15, 0x1000#32)] []).under { Config.standard with undefined := .trap })
      16 0xB100 [(0, 0x0#32), (30, 0x1002#32), (15, 0x4#32)] [] 0xDB#32 [(.und, 0xF3#32)] = true := by decide
-- hand: R615, R640 in User mode
theorem test_tUndefB2 :
    ends ((given 0xF0#32 [(15, 0x1000#32)] []).under { Config.standard with undefined := .trap })
      16 0xB300 [(30, 0x1002#32), (15, 0x4#32)] [] 0xDB#32 [(.und, 0xF0#32)] = true := by decide
-- hand: R615, R640 in User mode
theorem test_tUndefB6 :
    ends ((given 0xF0#32 [(15, 0x1000#32)] []).under { Config.standard with undefined := .trap })
      16 0xB700 [(30, 0x1002#32), (15, 0x4#32)] [] 0xDB#32 [(.und, 0xF0#32)] = true := by decide
-- hand: R615, R640 in User mode
theorem test_tUndefB8 :
    ends ((given 0xF0#32 [(15, 0x1000#32)] []).under { Config.standard with undefined := .trap })
      16 0xBAFF [(30, 0x1002#32), (15, 0x4#32)] [] 0xDB#32 [(.und, 0xF0#32)] = true := by decide
-- hand: R615, R640 with C = 1
theorem test_tUndefBE :
    ends ((given 0x200000F3#32 [(15, 0x1000#32)] []).under { Config.standard with undefined := .trap })
      16 0xBF00 [(30, 0x1002#32), (15, 0x4#32)] [] 0x200000DB#32 [(.und, 0x200000F3#32)] = true := by decide
-- V330, undefined 0xE800
theorem test_tUndefE8 :
    ends ((given 0xF3#32 [(15, 0x1000#32)] []).under { Config.standard with undefined := .trap })
      16 0xE800 [(0, 0x0#32), (30, 0x1002#32), (15, 0x4#32)] [] 0xDB#32 [(.und, 0xF3#32)] = true := by decide

/-! ## Witnesses: states and operands that meet the hypotheses of the statements -/

/-- The alternative of every switch. -/
def alternative : Config := ⟨.notBorrow, .arm, .lowestAtLowest, .currentBank, .arm7tdmi, .implemented, .trap⟩

/-- A state in mode m, instruction set t, with PSR transfers and the undefined trap on. -/
def inMode (m : Mode) (t : Bool) : State :=
  (State.reset.setCpsr { Cpsr.atReset with m := m, t := t }).under { Config.standard with psrTransfer := .implemented, undefined := .trap }

theorem witness_DecodeOfEncode :
    (Instr.psrSpaceNop .al .cmn 15 14 (.imm 15#4 255#8)).wf = true ∧ (Instr.halfSh00 .al true false false true 0 0 (.reg 0#4 0)).wf = true ∧
    (Instr.tBCond0to7 .vc 0#8).wf = true ∧ (Instr.tBCond8to11 .hi 0#8).wf = true ∧ (Instr.tBCond8to11 .lt 0#8).wf = true ∧
    (Instr.tBCond12to13 .gt 0#8).wf = true ∧ (Instr.tBCond12to13 .le 0#8).wf = true ∧ (Instr.mov .al true 15 15 (.imm 15#4 255#8)).wf = true := by
  decide

theorem witness_StepRunsDecoded :
    (let s := State.reset.withFetchWord 32 0xE0810002
     decodeBytes s.cpsr.t [s.mem.read8 s.pc, s.mem.read8 (s.pc + 1#32), s.mem.read8 (s.pc + 2#32), s.mem.read8 (s.pc + 3#32)]
      = .ok (.add .al false 1 0 (.regImm 2 .lsl 0#5), [])) ∧
    (let s := State.reset.withFetchWord 16 0x1888
     ∃ rest, decodeBytes s.cpsr.t [s.mem.read8 s.pc, s.mem.read8 (s.pc + 1#32), s.mem.read8 (s.pc + 2#32), s.mem.read8 (s.pc + 3#32)]
      = .ok (.tAddReg 2 1 0, rest)) := ⟨rfl, _, rfl⟩

theorem witness_FailingConditionSkips :
    armCond (.swi .eq 0#24) = some .eq ∧ conditionPassed .eq State.reset.cpsr = false ∧
    armCond (.mul .cs true 1 0 1 15) = some .cs ∧ conditionPassed .cs State.reset.cpsr = false := by decide

theorem witness_ShifterResult : (1 ≤ 1 ∧ 1 ≤ 31) ∧ (1 ≤ 31 ∧ 31 ≤ 31) ∧ 32 ≤ 32 ∧ 32 ≤ 33 ∧ 32 ≤ 64 ∧ 32 ≤ 255 := by decide

theorem witness_ImmediateOperandForms :
    (1 : Nat) ≠ 0 ∧ Config.standard.immShiftZero = .literal ∧ alternative.immShiftZero = .arm := by decide

/-- The operand forms of data processing, R15 as an operand included, with a destination below R15. -/
theorem witness_DataProcessing :
    conditionPassed .al State.reset.cpsr = true ∧ (14 : Reg) ≠ 15 ∧ Op2Ready (.imm 15#4 255#8) ∧
    Op2Ready (.regImm 15 .ror 0#5) ∧ Op2Ready (.regReg 15 .asr 14) :=
  ⟨by decide, by decide, trivial, trivial, by unfold Op2Ready; decide⟩

theorem witness_DataProcessingToPc :
    spsrOf (inMode .user false).cpsr.m = none ∧ spsrOf (inMode .system false).cpsr.m = none ∧ spsrOf State.reset.cpsr.m = some .svc ∧
    Cpsr.unpack ((State.reset.setSpsr .svc 0xF00000FF#32).spsr.get .svc).value = .ok ⟨true, true, true, true, true, true, true, .system⟩ ∧
    modeOf (((State.reset.setSpsr .svc 0#32).spsr.get .svc).value.extractLsb' 0 5) = none :=
  ⟨rfl, rfl, rfl, rfl, rfl⟩

theorem witness_PackUnpack : (0xF7FFFF13#32 : Word) &&& 0xF00000FF#32 = (⟨true, true, true, true, false, false, false, .supervisor⟩ : Cpsr).pack := by
  decide

theorem witness_MrsResult :
    State.reset.cfg.psrTransfer = .fatal ∧ (inMode .fiq false).cfg.psrTransfer = .implemented ∧
    conditionPassed .al (inMode .fiq false).cpsr = true ∧ spsrOf (inMode .fiq false).cpsr.m = some .fiq ∧
    spsrOf (inMode .user false).cpsr.m = none :=
  ⟨rfl, rfl, rfl, rfl, rfl⟩

theorem witness_MsrResult :
    (inMode .user false).cpsr.m = .user ∧ (0b1000#4).getLsbD 0 = false ∧
    ((inMode .irq false).cpsr.m ≠ .user ∧ (0b0001#4).getLsbD 0 = true ∧ (0x1F#32).getLsbD 5 = (inMode .irq false).cpsr.t ∧
      modeOf ((0x1F#32).extractLsb' 0 5) = some .system) ∧
    (0x3F#32).getLsbD 5 ≠ (inMode .irq false).cpsr.t ∧ modeOf ((0x1E#32).extractLsb' 0 5) = none ∧
    spsrOf (inMode .irq false).cpsr.m = some .irq ∧ spsrOf (inMode .system false).cpsr.m = none ∧ (14 : Reg) ≠ 15 := by decide

theorem witness_Multiply :
    conditionPassed .al State.reset.cpsr = true ∧ ((1 : Reg) ≠ 15 ∧ (2 : Reg) ≠ 15 ∧ (15 : Reg) ≠ 1) ∧
    ((3 : Reg) ≠ 15 ∧ (2 : Reg) ≠ 15 ∧ (15 : Reg) ≠ 0 ∧ (15 : Reg) ≠ 3 ∧ (0 : Reg) ≠ 3) := by decide

/-- One choice of registers for each test of R349, each meeting the premises of its own clause only. -/
theorem witness_MultiplyRestrictions :
    (15 : Reg) = 15 ∧ ((1 : Reg) ≠ 15 ∧ (2 : Reg) ≠ 15 ∧ (1 : Reg) = 1 ∧ (0 : Reg) ≠ 15) ∧
    ((1 : Reg) ≠ 15 ∧ (2 : Reg) ≠ 15 ∧ (4 : Reg) = 4 ∧ (4 : Reg) ≠ 15) ∧ ((0 : Reg) ≠ 15 ∧ (15 : Reg) ≠ 0 ∧ (0 : Reg) = 0) := by decide

theorem witness_SingleTransfers :
    ¬ offsetRegIsPc (.imm 0xFFF#12) ∧ ¬ offsetRegIsPc (.reg 14 .ror 31#5) ∧ (true = true → (1 : Reg) ≠ 15 ∧ (1 : Reg) ≠ 15 ∧ (1 : Reg) ≠ 0) ∧
    offsetRegIsPc (.reg 15 .lsl 0#5) :=
  ⟨by simp [offsetRegIsPc], by simp [offsetRegIsPc], by decide, rfl⟩

theorem witness_HalfTransfers :
    ¬ (false = false ∧ false = true) ∧ ¬ (true = false ∧ true = true) ∧ ¬ halfRegIsPc (.imm 255#8) ∧ ¬ halfRegIsPc (.reg 0#4 14) ∧
    HalfReady 1#32 State.reset ∧ HalfReady 2#32 (State.reset.under alternative) ∧
    halfRegIsPc (.reg 0#4 15) ∧ ((State.reset.under alternative).cfg.misaligned = .arm7tdmi ∧
      (address true true 15 (halfOff (.imm 1#8) (State.reset.under alternative)) (State.reset.under alternative)).getLsbD 0 = true) :=
  ⟨by decide, by decide, by simp [halfRegIsPc], by simp [halfRegIsPc], .inl rfl, .inr rfl, rfl, rfl, by decide⟩

theorem witness_SwapResult :
    ((1 : Reg) ≠ 15 ∧ (0 : Reg) ≠ 15 ∧ (2 : Reg) ≠ 15 ∧ (1 : Reg) ≠ 0 ∧ (1 : Reg) ≠ 2) ∧ ((1 : Reg) = 1 ∨ (1 : Reg) = 2) ∧
    State.reset.mem.wf = true := by decide

/-- R0, R1 and R15 are listed; the SPSR of the mode holds a mode. -/
theorem witness_LoadMultipleResult :
    Listed 0x8003#16 0 ∧ Listed 0x8003#16 15 ∧ ¬ Listed 0x8003#16 14 ∧ spsrOf State.reset.cpsr.m = some .svc ∧
    (modeOf (((State.reset.setSpsr .svc 0x10#32).spsr.get .svc).value.extractLsb' 0 5)).isSome = true ∧ (14 : Reg) ≠ 15 :=
  ⟨by unfold Listed; decide, by unfold Listed; decide, by unfold Listed; decide, rfl, rfl, by decide⟩

/-- The store and the load of the round trip both complete, in each of the four modes. -/
theorem witness_StoreLoadRoundTrip :
    let s := given 0xD3#32 [(15, 0x1000#32), (0, 5#32), (8, 0x2000#32)] []
    (∃ t v, exec (.stmia .al false false 8 0x0101#16) s = .next t ∧ exec (.ldmia .al false false 8 0x0101#16) t = .next v ∧
      t.cpsr = s.cpsr ∧ reg 8 t = reg 8 s) ∧
    (∃ t v, exec (.stmib .al false false 8 0x0001#16) s = .next t ∧ exec (.ldmib .al false false 8 0x0001#16) t = .next v) ∧
    (∃ t v, exec (.stmda .al false false 8 0x0001#16) s = .next t ∧ exec (.ldmda .al false false 8 0x0001#16) t = .next v) ∧
    (∃ t v, exec (.stmdb .al false false 8 0x0001#16) s = .next t ∧ exec (.ldmdb .al false false 8 0x0001#16) t = .next v) :=
  ⟨⟨_, _, rfl, rfl, rfl, rfl⟩, ⟨_, _, rfl, rfl⟩, ⟨_, _, rfl, rfl⟩, ⟨_, _, rfl, rfl⟩⟩

theorem witness_UndefinedInstructions :
    (inMode .user true).cfg.undefined = .trap ∧ State.reset.cfg.undefined = .fatal ∧ conditionPassed .al State.reset.cpsr = true := by decide

theorem witness_SoftwareInterruptReturn :
    (State.reset.pcAligned = true ∧ State.reset.cpsr.t = false) ∧ ((inMode .user true).pcAligned = true ∧ (inMode .user true).cpsr.t = true) := by
  decide

theorem witness_Thumb :
    ((8 : Reg).val ≥ 8 ∨ (0 : Reg).val ≥ 8) ∧ ((7 : Reg).val < 8 ∧ (0 : Reg).val < 8) ∧ (6 : LowReg) ≠ 7 ∧
    ¬ HalfReady (low 1 (given 0xF3#32 [(1, 1#32)] [])) ((given 0xF3#32 [(1, 1#32)] []).under alternative) ∧
    HalfReady 2#32 ((given 0xF3#32 [(1, 1#32)] []).under alternative) ∧
    ¬ HalfReady (low 1 (given 0xF3#32 [(1, 1#32)] []) + ((31#5 ++ 0b0#1).zeroExtend 32))
      ((given 0xF3#32 [(1, 1#32)] []).under alternative) :=
  ⟨by decide, by decide, by decide, by unfold HalfReady; decide, .inr rfl,
    by unfold HalfReady; decide⟩

theorem witness_InvariantKept : State.reset.inv = true ∧ (∃ t, step State.reset = .next t) ∧ (inMode .user true).inv = true ∧
    (∃ t, step ((inMode .user true).withFetchWord 16 0x1888) = .next t) := ⟨by decide, ⟨_, rfl⟩, by decide, ⟨_, rfl⟩⟩

theorem witness_ResetState : (State.reset.cell 15).written = true ∧ ((State.powerOn Config.standard []).cell 15).written = false ∧
    ((inMode .user true).cell 15).written = true ∧
    (0 : Slot) ≠ 15 ∧ (30 : Slot) ≠ 24 ∧ SpsrName.und ≠ .svc := by decide

/-- An instruction that writes a register; two states that differ in R2 agree on what MOV R0, R1 reads, and both runs complete; so do
two that differ in SPSR_irq, for a return in Supervisor mode, and two that differ in R8 of the User bank, for an STM of the FIQ bank. -/
theorem witness_WrittenFlagRules :
    (∃ t, exec (.mov .al false 0 1 (.imm 0#4 5#8)) State.reset = .next t ∧ t.cell 1 ≠ State.reset.cell 1) ∧
    (let i := Instr.mov .al false 0 0 (.regImm 1 .lsl 0#5)
     AgreeOnReads i State.reset (State.reset.setSlot 2 7#32) ∧ (∃ t, exec i State.reset = .next t) ∧
      ∃ t, exec i (State.reset.setSlot 2 7#32) = .next t) ∧
    (let i := Instr.mov .al true 0 15 (.imm 0#4 0#8)
     let s := State.reset.setSpsr .svc 0x10#32
     AgreeOnReads i s (s.setSpsr .irq 0x1F#32) ∧ ∃ t, exec i s = .next t) ∧
    (let i := Instr.stmia .al false false 9 0x0100#16
     AgreeOnReads i (inMode .fiq false) ((inMode .fiq false).setSlot 8 7#32) ∧ ∃ t, exec i (inMode .fiq false) = .next t) := by
  refine ⟨⟨_, rfl, by decide⟩, ⟨?_, ⟨_, rfl⟩, _, rfl⟩, ⟨?_, _, rfl⟩, ?_, _, rfl⟩ <;> unfold AgreeOnReads <;> decide

/-- R684: MOV R0, R1 in the launch state reads a register that nothing has written; with R1 written, and MOV R0, #5, it does not. -/
theorem test_reads_unwritten :
    readsUnwritten (.mov .al false 0 0 (.regImm 1 .lsl 0#5)) State.reset = true ∧
    readsUnwritten (.mov .al false 0 0 (.regImm 1 .lsl 0#5)) (State.reset.setSlot 1 5#32) = false ∧
    readsUnwritten (.mov .al false 0 0 (.imm 0#4 5#8)) State.reset = false := by decide

/-- R428: STM with S = 1 in a privileged mode reads the User slots; V082: the SPSR of the mode is read by a return. -/
theorem test_reads_unwritten_bank :
    readsUnwritten (.stmia .al true false 13 0x2000#16) (State.reset.setSlot 23 0x2000#32) = true ∧
    readsUnwritten (.stmia .al false false 13 0x2000#16) (State.reset.setSlot 23 0x2000#32) = false ∧
    readsUnwritten (.mov .al true 0 15 (.imm 0#4 0#8)) State.reset = true ∧
    readsUnwritten (.mov .eq true 0 15 (.imm 0#4 0#8)) State.reset = false := by decide

/-- A read of a register that nothing has written is no stop (assumption log 1). -/
theorem test_unwritten_read_completes :
    (∃ t, exec (.mov .al false 0 0 (.regImm 1 .lsl 0#5)) State.reset = .next t) ∧
    (∃ t, exec (.stmdb .al false true 13 0x4001#16) State.reset = .next t) := ⟨⟨_, rfl⟩, _, rfl⟩

/-- Each way the mode changes (R652): SWI, the undefined trap, a return, an MSR. -/
theorem witness_ModeChangesComplete :
    (∃ t, exec (.swi .al 0#24) (inMode .user false) = .next t ∧ t.cpsr.m ≠ .user) ∧
    (∃ t, exec (.cdp .al 0#4 0#4 0#4 0#4 0#3 0#4) (inMode .user false) = .next t ∧ t.cpsr.m ≠ .user) ∧
    (∃ t, exec (.mov .al true 0 15 (.imm 0#4 0#8)) ((inMode .irq false).setSpsr .irq 0x10#32) = .next t ∧ t.cpsr.m ≠ .irq) ∧
    (∃ t, exec (.msrImm .al false 1#4 0#4 0x1F#8) (inMode .irq false) = .next t ∧ t.cpsr.m ≠ .irq) :=
  ⟨⟨_, rfl, by decide⟩, ⟨_, rfl, by decide⟩, ⟨_, rfl, by decide⟩, ⟨_, rfl, by decide⟩⟩

/-- I, F and T change: an entry from Thumb state, a return, BX. -/
theorem witness_ControlBitWriters :
    (∃ t, exec (.tSwi 0#8) ((inMode .user true).setCpsr ⟨false, false, false, false, false, false, true, .user⟩) = .next t ∧
      t.cpsr.i ≠ false ∧ t.cpsr.t ≠ true) ∧
    (∃ t, exec (.mov .al true 0 15 (.imm 0#4 0#8)) ((inMode .irq false).setSpsr .irq 0x30#32) = .next t ∧ t.cpsr.f ≠ true ∧ t.cpsr.t ≠ false) ∧
    (∃ t, exec (.bx .al 15) ((inMode .user false).setSlot 15 1#32) = .next t ∧ t.cpsr.t ≠ false) :=
  ⟨⟨_, rfl, by decide, by decide⟩, ⟨_, rfl, by decide, by decide⟩, ⟨_, rfl, by decide⟩⟩

theorem witness_FlagWriters :
    (∃ t, exec (.cmp .al 0 0 (.imm 0#4 0#8)) State.reset = .next t ∧ t.cpsr.z ≠ State.reset.cpsr.z) ∧
    (∃ t, exec (.msrImm .al false 8#4 4#4 0xF0#8) (inMode .irq false) = .next t ∧ t.cpsr.v ≠ (inMode .irq false).cpsr.v) :=
  ⟨⟨_, rfl, by decide⟩, ⟨_, rfl, by decide⟩⟩

theorem witness_SpsrWriters :
    (∃ t, exec (.swi .al 0#24) State.reset = .next t ∧ t.spsr.get .svc ≠ State.reset.spsr.get .svc) ∧
    (∃ t, exec (.tUndefB1 0#8) (inMode .user true) = .next t ∧ t.spsr.get .und ≠ (inMode .user true).spsr.get .und) ∧
    (∃ t, exec (.msrImm .al true 15#4 0#4 0x1F#8) (inMode .irq false) = .next t ∧ t.spsr.get .irq ≠ (inMode .irq false).spsr.get .irq) :=
  ⟨⟨_, rfl, by decide⟩, ⟨_, rfl, by decide⟩, ⟨_, rfl, by decide⟩⟩

theorem witness_RegisterFrame :
    (∃ t, exec (.mov .al false 0 1 (.imm 0#4 5#8)) State.reset = .next t) ∧ (2 : Slot) ≠ 15 ∧
    (2 : Slot) ∉ writtenSlots (.mov .al false 0 1 (.imm 0#4 5#8)) State.reset := ⟨⟨_, rfl⟩, by decide, by decide⟩

theorem witness_MemoryFrame :
    let i := Instr.strPre .al true false 1 0 (.imm 0#12)
    let s := given 0xD3#32 [(15, 0x1000#32), (0, 5#32), (1, 0x2000#32)] []
    s.mem.wf = true ∧ (∃ t, exec i s = .next t) ∧ (∀ q ∈ storedBytes i s, inBytes q.1 q.2 0x2004#32 = false) ∧
    ¬ (∀ q ∈ storedBytes i s, inBytes q.1 q.2 0x2003#32 = false) := ⟨by decide, ⟨_, rfl⟩, by decide, by decide⟩

theorem witness_UserModeConfined :
    (inMode .user false).cpsr.m = .user ∧ (∃ t, step (inMode .user false) = .next t) ∧
    (∃ t, step ((inMode .user false).withFetchWord 32 0xEF000000) = .next t ∧ t.cpsr.m = .supervisor) ∧
    (∃ t, step ((inMode .user false).withFetchWord 32 0xEE000100) = .next t ∧ t.cpsr.m = .undefined) :=
  ⟨rfl, ⟨_, rfl⟩, ⟨_, rfl, rfl⟩, ⟨_, rfl, rfl⟩⟩

theorem witness_BankingExact :
    ((7 : Reg).val ≤ 7 ∧ (15 : Reg) = 15) ∧ (13 ≤ (13 : Reg).val ∧ (14 : Reg).val ≤ 14) ∧ (8 ≤ (8 : Reg).val ∧ (12 : Reg).val ≤ 12) ∧
    16 ≤ 16 ∧ modeOf 0b11110#5 = none ∧ modeOf 0b10000#5 = some .user ∧ modeOf 0b11111#5 = some .system := by decide

theorem witness_ReadAfterWrite : Memory.wf [(0x2000, 1#8), (0xFFFFFFFF, 2#8)] = true := by decide

/-- R84: the halfword 0xBEEF stored at the top of memory puts EF there and BE at address 0. -/
theorem test_write16_little_endian : Memory.write16 [] 0xFFFFFFFF#32 0xBEEF#16 = [(0, 0xBE#8), (0xFFFFFFFF, 0xEF#8)] := by decide

/-! ## Reset, and the facts the host asks for -/

theorem test_reset_state :
    State.reset.cpsr.pack = 0x000000D3#32 ∧ State.reset.pc = 0#32 ∧ State.reset.mem = [] ∧ State.reset.mem.wf = true := by decide

theorem test_table_words :
    decodeTableWord 32 0xE0810002 = some (.add .al false 1 0 (.regImm 2 .lsl 0#5)) ∧ decodeTableWord 16 0x1888 = some (.tAddReg 2 1 0) ∧
    decodeTableWord 8 0 = none := by decide

/-- Memory keeps its canonical form: writing zero back removes the entry (assumption log 3). -/
theorem test_memory_canonical :
    (Memory.write32 [] 0x2000#32 0x00110000#32) = [(0x2002, 0x11#8)] ∧
    (Memory.write32 (Memory.write32 [] 0x2000#32 0x00110000#32) 0x2000#32 0#32) = [] ∧
    (Memory.write32 [] 0xFFFFFFFE#32 0x44332211#32) = [(0, 0x33#8), (1, 0x44#8), (0xFFFFFFFE, 0x11#8), (0xFFFFFFFF, 0x22#8)] := by decide

end Sys2Proof.Tests
end

section
/-! The 10_state.md statements, part 1: which instruction set a decoder answers in, and the invariant (O47, O48). -/

namespace Sys2Proof.Machine

open Sys2Proof.Claims

/-! ## A decoder answers in its own instruction set -/

theorem decodeDataProcessing_isArm (c : Cond) (f : ArmFields) : (encode (decodeDataProcessing c f)).isThumb = false := by
  unfold decodeDataProcessing
  cases f.bit20 <;> split <;> exact dataProcessing_isArm ..

theorem decodeSingleTransfer_isArm (c : Cond) (f : ArmFields) : (encode (decodeSingleTransfer c f)).isThumb = false := by
  simp only [decodeSingleTransfer]
  split <;> exact singleTransfer_isArm ..

theorem decodeHalfTransfer_isArm (c : Cond) (f : ArmFields) : (encode (decodeHalfTransfer c f)).isThumb = false := by
  simp only [decodeHalfTransfer]
  split <;> exact halfTransfer_isArm ..

theorem decodeCategory_isArm (c : Cond) (f : ArmFields) (k : ArmCategory) : (encode (decodeCategory c f k)).isThumb = false := by
  cases k with
  | dataProcessing => exact decodeDataProcessing_isArm c f
  | singleDataTransfer => exact decodeSingleTransfer_isArm c f
  | halfwordTransferRegister | halfwordTransferImmediate => exact decodeHalfTransfer_isArm c f
  | blockDataTransfer => simp only [decodeCategory, decodeBlockTransfer]; split <;> rfl
  | multiplyLong => simp only [decodeCategory, decodeMultiplyLong]; split <;> rfl
  | branch => simp only [decodeCategory, decodeBranch]; split <;> rfl
  | singleDataSwap => simp only [decodeCategory, decodeSwap]; split <;> rfl
  | multiply => simp only [decodeCategory, decodeMultiply]; split <;> rfl
  | coprocessorDataTransfer => simp only [decodeCategory, decodeCoprocessorTransfer]; split <;> rfl
  | coprocessorRegisterTransfer => simp only [decodeCategory, decodeCoprocessorRegister]; split <;> rfl
  | branchAndExchange | softwareInterrupt | undefined | psrTransferMrs | psrTransferMsrRegister | psrTransferMsrImmediate
  | coprocessorDataOperation => rfl

theorem decodeArm_isArm (w : BitVec 32) : (encode (decodeArm w)).isThumb = false := by
  simp only [decodeArm]
  split
  · rfl
  · exact decodeCategory_isArm ..

theorem decodeFormat_isThumb (h : Half) (k : ThumbFormat) : (encode (decodeFormat h k)).isThumb = true := by
  cases k with
  | moveShiftedRegister => simp only [decodeFormat, decodeThumbShift]; split <;> rfl
  | addSubtract => simp only [decodeFormat, decodeThumbAddSub]; split <;> rfl
  | moveCompareAddSubtractImmediate => simp only [decodeFormat, decodeThumbImm8]; split <;> rfl
  | aluOperations => simp only [decodeFormat, decodeThumbAlu]; split <;> rfl
  | hiRegisterOperationsBranchExchange =>
    simp only [decodeFormat, decodeThumbHi]
    cases h.getLsbD 7 <;> split <;> rfl
  | loadStoreRegisterOffset => simp only [decodeFormat, decodeThumbRegOffset]; split <;> rfl
  | loadStoreSignExtended => simp only [decodeFormat, decodeThumbSignExtended]; split <;> rfl
  | loadStoreImmediateOffset => simp only [decodeFormat, decodeThumbImmOffset]; split <;> rfl
  | conditionalBranch =>
    simp only [decodeFormat, decodeThumbCondBranch]
    split
    · split
      · rfl
      · split <;> rfl
    · rfl
  | thumbUndefined =>
    simp only [decodeFormat, decodeThumbUndefined]
    split_ifs <;> rfl
  | loadStoreHalfword | spRelativeLoadStore | loadAddress | addOffsetToStackPointer | pushPopRegisters | multipleLoadStore
  | longBranchWithLink => simp only [decodeFormat]; split <;> rfl
  | pcRelativeLoad | softwareInterrupt | unconditionalBranch => rfl

/-- A code decodes to an instruction of its own set. -/
theorem decode_isThumb (k : Code) : (encode k.decode).isThumb = k.isThumb := by
  cases k with
  | arm w => exact decodeArm_isArm w
  | thumb h => exact decodeFormat_isThumb h _

/-- A step fetches from the set that T selects (R200). -/
theorem fetchCode_isThumb (s : State) : (fetchCode s).isThumb = s.cpsr.t := by
  unfold fetchCode
  cases s.cpsr.t <;> rfl

/-- Everything a step that completes has done, its end taken in the instruction set that T selected before it. -/
theorem step_effect {s t : State} (h : step s = .next t) :
    ∃ w', BodyEffect (fetchCode s).decode s w' ∧ t = endOfStep s.cpsr.t w' := by
  obtain ⟨w', hw, ht⟩ := exec_effect _ s t h
  rw [decode_isThumb, fetchCode_isThumb] at ht
  exact ⟨w', hw, ht⟩

/-! ## The invariant -/

/-- No body moves T without a branch: a BX, an exception entry and a return all record a target (R206). -/
theorem StatusEffect.t_kept {i : Instr} {w w' : Work} (h : StatusEffect i w w') (hn : w'.target = none) :
    w'.st.cpsr.t = w.st.cpsr.t := by
  cases h with
  | skipped hw => rw [hw]
  | plain h _ =>
    cases h with
    | kept hc _ => rw [hc]
    | set _ _ _ _ _ _ hc _ => rw [hc]
    | returned _ _ _ _ _ ht => simp [hn] at ht
  | bx _ _ _ _ ht => simp [hn] at ht
  | entry k ret _ hw => simp [hw, takeException_target] at hn
  | msr _ _ _ _ hc => exact hc.t

/-- The end of a step leaves an aligned pc (R207): a target is aligned to the new T, and without one an aligned pc advances by one
instruction of a set that the step has kept. -/
theorem endOfStep_pcAligned {t0 : Bool} {w : Work} (ha : alignTarget t0 w.st.pc = w.st.pc)
    (ht : w.target = none → w.st.cpsr.t = t0) : (endOfStep t0 w).pcAligned = true := by
  unfold State.pcAligned
  rw [beq_iff_eq, endOfStep_cpsr]
  cases hw : w.target with
  | none => rw [endOfStep_pc_none w hw, ht hw, alignTarget_next ha]
  | some a => rw [endOfStep_pc_target w hw, alignTarget_idem]

theorem inv_iff {s : State} :
    s.inv = true ↔ s.mem.wf = true ∧ alignTarget s.cpsr.t s.pc = s.pc ∧ (s.cell 15).written = true := by
  simp [State.inv, State.pcAligned, and_assoc]

/-- Settles O47: memory's form is kept by the body (`Effect.wf`), the pc's alignment and its flag by the end of the step. -/
theorem invariantKept : Obligations.InvariantKept := by
  intro s t hinv hstep
  obtain ⟨hmem, hpc, -⟩ := inv_iff.mp hinv
  obtain ⟨w', ⟨heff, hst⟩, rfl⟩ := step_effect hstep
  have hpc' : w'.st.pc = s.pc := congrArg RegCell.value heff.pc
  have haligned : (endOfStep s.cpsr.t w').pcAligned = true :=
    endOfStep_pcAligned (by rw [hpc', hpc]) fun hn => hst.t_kept hn
  refine inv_iff.mpr ⟨?_, beq_iff_eq.mp haligned, endOfStep_written ..⟩
  rw [endOfStep_mem]
  exact heff.wf hmem

/-- Settles O48: memory lists nothing, the pc is 0 and slot 15 is the one slot written (R681). -/
theorem invariantAtReset : Obligations.InvariantAtReset := inv_iff.mpr ⟨rfl, by decide, by decide⟩

end Sys2Proof.Machine
end

section
/-! The 10_state.md statements, part 2: the CPSR's layout (O17) and the register bank (O59). -/

namespace Sys2Proof.Machine

open Sys2Proof.Claims

/-! ## The CPSR's layout (R44, R45) -/

/-- `unpack` reads none of bits 27:8. -/
theorem unpack_and_mask (w : Word) : Cpsr.unpack (w &&& 0xF00000FF#32) = Cpsr.unpack w := by
  have hm : (w &&& 0xF00000FF#32).extractLsb' 0 5 = w.extractLsb' 0 5 := by
    ext k hk
    interval_cases k <;> simp
  simp [Cpsr.unpack, hm]

/-- The mode lies in bits 4:0 of a packed status. -/
theorem pack_mode (c : Cpsr) : c.pack.extractLsb' 0 5 = modeBits c.m := BitVec.extractLsb'_append_eq_right

/-- A bit of a packed status: N, Z, C, V, twenty zeros, I, F, T and the five bits of the mode, from bit 31 down. -/
theorem pack_getLsbD (c : Cpsr) {k : Nat} (hk : k < 32) : c.pack.getLsbD k =
    if k < 5 then (modeBits c.m).getLsbD k else if k = 5 then c.t else if k = 6 then c.f else if k = 7 then c.i
    else if k < 28 then false else if k = 28 then c.v else if k = 29 then c.c else if k = 30 then c.z else c.n := by
  simp only [Cpsr.pack, BitVec.getLsbD_append, BitVec.getLsbD_ofBool, BitVec.getLsbD_zero]
  interval_cases k <;> simp

theorem pack_n (c : Cpsr) : c.pack.getLsbD 31 = c.n := pack_getLsbD c (by decide)
theorem pack_z (c : Cpsr) : c.pack.getLsbD 30 = c.z := pack_getLsbD c (by decide)
theorem pack_c (c : Cpsr) : c.pack.getLsbD 29 = c.c := pack_getLsbD c (by decide)
theorem pack_v (c : Cpsr) : c.pack.getLsbD 28 = c.v := pack_getLsbD c (by decide)
theorem pack_i (c : Cpsr) : c.pack.getLsbD 7 = c.i := pack_getLsbD c (by decide)
theorem pack_f (c : Cpsr) : c.pack.getLsbD 6 = c.f := pack_getLsbD c (by decide)
theorem pack_t (c : Cpsr) : c.pack.getLsbD 5 = c.t := pack_getLsbD c (by decide)

/-- Bits 27:8 have no storage (R44). -/
theorem pack_reserved (c : Cpsr) {k : Nat} (hlo : 8 ≤ k) (hhi : k ≤ 27) : c.pack.getLsbD k = false := by
  rw [pack_getLsbD c (by omega), if_neg (by omega), if_neg (by omega), if_neg (by omega), if_neg (by omega), if_pos (by omega)]

theorem unpack_pack (c : Cpsr) : Cpsr.unpack c.pack = .ok c := by
  simp only [Cpsr.unpack, pack_mode, requireMode_some (modeOf_modeBits c.m), pack_n, pack_z, pack_c, pack_v, pack_i, pack_f, pack_t]

/-- Settles O17: each bit from its place in `pack`, the round trip from `unpack_pack`, and bits 27:8 from `unpack_and_mask`. -/
theorem packUnpack : Obligations.PackUnpack := by
  intro c
  refine ⟨pack_n c, pack_z c, pack_c c, pack_v c, fun _ => pack_reserved c, pack_i c, pack_f c, pack_t c, pack_mode c, unpack_pack c,
    fun w hw => ?_⟩
  rw [← unpack_and_mask, hw, unpack_pack]

/-! ## The register bank (R34 to R41) -/

/-- R0 to R7 and R15 have one slot (R31, R37). -/
theorem slotOf_unbanked (m m' : Mode) (n : Reg) (h : n.val ≤ 7 ∨ n = 15) : slotOf m n = slotOf m' n := by
  have hn : n.val ≤ 7 ∨ n.val = 15 := h.imp_right (congrArg Fin.val)
  simp [slotOf, slotNumber, hn]

/-- R13 and R14 have a slot for each of the six banks (R35). -/
theorem slotOf_sp_lr (m m' : Mode) (n : Reg) (h : 13 ≤ n.val) (h' : n.val ≤ 14) :
    slotOf m n = slotOf m' n ↔ bankOf m = bankOf m' := by
  have hn : n = 13 ∨ n = 14 := by rw [Fin.ext_iff, Fin.ext_iff]; exact (show n.val = 13 ∨ n.val = 14 by omega)
  rcases hn with rfl | rfl <;> cases m <;> cases m' <;> decide

/-- R8 to R12 have two slots, FIQ's and the other modes' (R35). -/
theorem slotNumber_fiqBanked (m : Mode) {n : Nat} (h : 8 ≤ n) (h' : n ≤ 12) :
    slotNumber m n = if bankOf m = .fiq then 8 + n else n := by
  simp only [slotNumber, show ¬ (n ≤ 7 ∨ n = 15) by omega, h', if_false, if_true, show 16 + (n - 8) = 8 + n by omega]

theorem slotOf_fiqBanked (m m' : Mode) (n : Reg) (h : 8 ≤ n.val) (h' : n.val ≤ 12) :
    slotOf m n = slotOf m' n ↔ (bankOf m = .fiq ↔ bankOf m' = .fiq) := by
  rw [Fin.ext_iff]
  simp only [slotOf, slotNumber_fiqBanked _ h h']
  by_cases hm : bankOf m = .fiq <;> by_cases hm' : bankOf m' = .fiq <;> simp [hm, hm']

/-- A mode and a name that reach a slot (R37). -/
def slotOwner (q : Slot) : Mode × Reg :=
  if q.val ≤ 15 then (.user, Fin.ofNat 16 q.val)
  else if q.val ≤ 22 then (.fiq, Fin.ofNat 16 (q.val - 8))
  else if q.val ≤ 24 then (.supervisor, Fin.ofNat 16 (q.val - 10))
  else if q.val ≤ 26 then (.abort, Fin.ofNat 16 (q.val - 12))
  else if q.val ≤ 28 then (.irq, Fin.ofNat 16 (q.val - 14))
  else (.undefined, Fin.ofNat 16 (q.val - 16))

theorem slotOf_slotOwner : ∀ q : Slot, slotOf (slotOwner q).1 (slotOwner q).2 = q := by decide

theorem requireIndex_reg (n : Reg) : requireIndex n.val = .ok n := by simp [requireIndex]
theorem requireIndex_above {n : Nat} (h : 16 ≤ n) : requireIndex n = .error .registerIndex := by
  simp [requireIndex, show ¬ n < 16 by omega]

/-- Settles O59: the slots by the modes' finite table, each bank operation from its two checks. -/
theorem bankingExact : Obligations.BankingExact := by
  refine ⟨slotOf_injective, fun m m' n hn => ?_, fun m m' n h1 h2 => ?_, fun m m' n h1 h2 => ?_, fun q => ?_, fun b m n v s hn hm => ?_,
    fun b n v s hm => ?_, fun b m n v s hm => ?_⟩
  · exact slotOf_unbanked m m' n hn
  · exact slotOf_sp_lr m m' n h1 h2
  · exact slotOf_fiqBanked m m' n h1 h2
  · exact ⟨_, _, slotOf_slotOwner q⟩
  · simp [bankRead, bankWrite, readBanked, writeBanked, requireIndex_above hn, requireMode_some hm]
  · simp [readBanked, writeBanked, setMode, requireMode_none hm]
  · simp [bankRead, bankWrite, readBanked, writeBanked, setMode, requireIndex_reg, requireMode_some hm, readSlot, reg]

end Sys2Proof.Machine
end

section
/-! The 10_state.md statements, part 3: what an instruction that completes may have changed, read off `exec_effect` (O53 to O56, and the
first half of O50). -/

namespace Sys2Proof.Machine

open Sys2Proof.Claims

/-! ## Registers -/

/-- Settles O56: the body keeps the slots outside its footprint, and the end of the step writes slot 15 only. -/
theorem registerFrame : Obligations.RegisterFrame := by
  intro i s t q hex h15 hq
  obtain ⟨w', ⟨heff, -⟩, rfl⟩ := exec_effect i s t hex
  exact (endOfStep_cell w' _ h15).trans (heff.cells q h15 hq)

/-- A slot an instruction changes has its written flag set (R56). -/
theorem exec_cell_kept_or_written {i : Instr} {s t : State} (hex : exec i s = .next t) (q : Slot) :
    t.cell q = s.cell q ∨ (t.cell q).written = true := by
  obtain ⟨w', ⟨heff, -⟩, rfl⟩ := exec_effect i s t hex
  by_cases h15 : q = 15
  · exact .inr (h15 ▸ endOfStep_written w' _)
  · rw [endOfStep_cell w' _ h15]
    exact heff.changed q

/-! ## The saved status registers -/

theorem StatusChange.spsr_kept {flags overflow ret : Bool} {w w' : Work} (h : StatusChange flags overflow ret w w') :
    w'.st.spsr = w.st.spsr := by
  cases h with
  | kept _ hs => exact hs
  | set _ _ _ _ _ _ _ hs => exact hs
  | returned _ _ _ _ hs _ => exact hs

/-- Settles O55: among the status effects only an exception entry and an MSR to the SPSR write one, each its own. -/
theorem spsrWriters : Obligations.SpsrWriters := by
  intro i s t n hex hne
  obtain ⟨w', ⟨-, hst⟩, rfl⟩ := exec_effect i s t hex
  rw [endOfStep_spsr] at hne
  cases hst with
  | skipped hw => exact absurd (by rw [hw, begin_st]) hne
  | plain h _ => exact absurd (by rw [h.spsr_kept, begin_st]) hne
  | bx _ _ _ hs _ => exact absurd (by rw [hs, begin_st]) hne
  | entry k ret hk hw =>
    subst hw
    have hn : n = k.spsr := by_contra fun h => hne (setSpsr_spsr_ne s _ h)
    rcases hk with ⟨hi, rfl⟩ | ⟨hi, hu, rfl⟩
    · exact .inl ⟨hi, hn⟩
    · exact .inr (.inl ⟨hi, hu, hn⟩)
  | msr p mask hm hp hc =>
    obtain ⟨hp1, hn⟩ := not_or.mp fun h => hne (hc.spsr n h)
    rw [Bool.not_eq_false] at hp1
    subst hp1
    exact .inr (.inr ⟨hp, not_not.mp hn, mask, hm⟩)

/-- An SPSR an instruction changes has its written flag set (R56). -/
theorem exec_spsr_kept_or_written {i : Instr} {s t : State} (hex : exec i s = .next t) (n : SpsrName) :
    t.spsr.get n = s.spsr.get n ∨ (t.spsr.get n).written = true := by
  obtain ⟨w', ⟨-, hst⟩, rfl⟩ := exec_effect i s t hex
  rw [endOfStep_spsr]
  cases hst with
  | skipped hw => exact .inl (by rw [hw, begin_st])
  | plain h _ => exact .inl (by rw [h.spsr_kept, begin_st])
  | bx _ _ _ hs _ => exact .inl (by rw [hs, begin_st])
  | entry k ret _ hw =>
    subst hw
    by_cases hn : n = k.spsr
    · exact .inr (hn ▸ congrArg RegCell.written (setSpsr_spsr_self s k.spsr _))
    · exact .inl (setSpsr_spsr_ne s _ hn)
  | msr _ _ _ _ hc => exact hc.changed n

/-! ## The current status register -/

/-- The flags a change of the status leaves: all of them unless it sets flags or returns, V also where it computes none. -/
theorem StatusChange.flags_kept {flags overflow ret : Bool} {w w' : Work} (h : StatusChange flags overflow ret w w')
    (hr : ¬ (ret = true ∧ (spsrOf w.st.cpsr.m).isSome)) :
    (flags = false → w'.st.cpsr.n = w.st.cpsr.n ∧ w'.st.cpsr.z = w.st.cpsr.z ∧ w'.st.cpsr.c = w.st.cpsr.c) ∧
    (overflow = false → w'.st.cpsr.v = w.st.cpsr.v) := by
  cases h with
  | kept hc _ => simp [hc]
  | set hf n z c v hv hc _ => exact ⟨fun h => (by simp [hf] at h), fun h => by simp [hc, hv h]⟩
  | returned h k hk _ _ _ => exact absurd ⟨h, by simp [hk]⟩ hr

/-- The control bits a change of the status leaves: all of them unless it returns (R43). -/
theorem StatusChange.control_kept {flags overflow ret : Bool} {w w' : Work} (h : StatusChange flags overflow ret w w')
    (hr : ¬ (ret = true ∧ (spsrOf w.st.cpsr.m).isSome)) :
    w'.st.cpsr.i = w.st.cpsr.i ∧ w'.st.cpsr.f = w.st.cpsr.f ∧ w'.st.cpsr.t = w.st.cpsr.t := by
  cases h with
  | kept hc _ => simp [hc]
  | set _ _ _ _ _ _ hc _ => simp [hc]
  | returned h k hk _ _ _ => exact absurd ⟨h, by simp [hk]⟩ hr

/-- An MSR that moves a flag is one to the CPSR with the f field (R320). -/
theorem MsrChange.of_flags_moved {p : Bool} {mask : BitVec 4} {w w' : Work} (h : MsrChange p mask w w')
    (hne : ¬ (w'.st.cpsr.n = w.st.cpsr.n ∧ w'.st.cpsr.z = w.st.cpsr.z ∧ w'.st.cpsr.c = w.st.cpsr.c ∧ w'.st.cpsr.v = w.st.cpsr.v)) :
    p = false ∧ mask.getLsbD 3 = true := by
  simpa using mt h.flags hne

/-- An MSR that moves I, F or the mode is one to the CPSR with the c field in a privileged mode (R320, R321). -/
theorem MsrChange.of_control_moved {p : Bool} {mask : BitVec 4} {w w' : Work} (h : MsrChange p mask w w')
    (hne : ¬ (w'.st.cpsr.i = w.st.cpsr.i ∧ w'.st.cpsr.f = w.st.cpsr.f ∧ w'.st.cpsr.m = w.st.cpsr.m)) :
    p = false ∧ mask.getLsbD 0 = true ∧ w.st.cpsr.m ≠ .user := by
  simpa using mt h.control hne

/-- Settles O54: the status effects that move a flag are the flag setters', the return and the MSR with the f field. -/
theorem flagWriters : Obligations.FlagWriters := by
  intro i s t hex msr return'
  obtain ⟨w', ⟨-, hst⟩, rfl⟩ := exec_effect i s t hex
  rw [endOfStep_cpsr]
  cases hst with
  | skipped hw => simp [hw]
  | plain h _ =>
    by_cases hr : return'
    · exact ⟨fun _ => .inr (.inl hr), fun _ => .inr (.inl hr)⟩
    · obtain ⟨hnzc, hv⟩ := h.flags_kept hr
      refine ⟨fun hne => .inl ?_, fun hne => .inl ?_⟩
      · by_contra hf
        obtain ⟨h1, h2, h3⟩ := hnzc (Bool.not_eq_true _ ▸ hf)
        simp [h1, h2, h3] at hne
      · by_contra hf
        exact hne (hv (Bool.not_eq_true _ ▸ hf))
  | bx _ t hc _ _ => simp [hc]
  | entry k ret _ hw => simp [hw, takeException_cpsr]
  | msr p mask hm hp hc =>
    have hmsr (hne : ¬ (w'.st.cpsr.n = s.cpsr.n ∧ w'.st.cpsr.z = s.cpsr.z ∧ w'.st.cpsr.c = s.cpsr.c ∧ w'.st.cpsr.v = s.cpsr.v)) :
        msr := by
      obtain ⟨rfl, h3⟩ := hc.of_flags_moved hne
      exact ⟨hp, mask, hm, h3⟩
    exact ⟨fun hne => .inr (.inr (hmsr (by tauto))), fun hne => .inr (.inr (hmsr (by tauto)))⟩

/-- Settles O53: I, F and T move together in a return only; an entry sets I and clears T, BX sets T, an MSR moves I and F. -/
theorem controlBitWriters : Obligations.ControlBitWriters := by
  intro i s t hex msr entry return'
  obtain ⟨w', ⟨-, hst⟩, rfl⟩ := exec_effect i s t hex
  rw [endOfStep_cpsr]
  cases hst with
  | skipped hw => simp [hw]
  | plain h _ =>
    by_cases hr : return'
    · exact ⟨fun _ => .inr (.inl hr), fun _ => .inl hr, fun _ => .inr (.inr hr)⟩
    · obtain ⟨h1, h2, h3⟩ := h.control_kept hr
      simp [h1, h2, h3]
  | bx hi t hc _ _ => simp [hc, hi]
  | entry k ret hk hw =>
    have hentry : entry := by
      rcases hk with ⟨hi, -⟩ | ⟨hi, hu, -⟩
      · exact .inl hi
      · exact .inr ⟨hi, hu⟩
    subst hw
    exact ⟨fun _ => .inl ⟨hentry, rfl⟩, fun hne => absurd rfl hne, fun _ => .inr (.inl ⟨hentry, rfl⟩)⟩
  | msr p mask hm hp hc =>
    have hmsr (hne : ¬ (w'.st.cpsr.i = s.cpsr.i ∧ w'.st.cpsr.f = s.cpsr.f ∧ w'.st.cpsr.m = s.cpsr.m)) : msr := by
      obtain ⟨rfl, h0, hu⟩ := hc.of_control_moved hne
      exact ⟨hp, hu, mask, hm, h0⟩
    exact ⟨fun hne => .inr (.inr (hmsr fun h => hne h.1)), fun hne => .inr (hmsr fun h => hne h.2.1), fun hne => absurd hc.t hne⟩

end Sys2Proof.Machine
end


section
/-! The 10_state.md statements, part 4: what an instruction reads, completely (O50). -/

namespace Sys2Proof.Machine

open Sys2Proof.Claims

/-- Two states that agree on everything instruction `i` reads, in the words of its body's lemma. -/
structure SameReads (i : Instr) (s s' : State) : Prop where
  base   : SameBase s s'
  regs   : ∀ n ∈ operandRegs i, SameReg s s' n
  stored : ∀ q ∈ storedSlots i s, (s'.cell q).value = (s.cell q).value
  spsr   : readsSpsr i = true → SameSpsr s s'

theorem sameReads_of_agreeOnReads {i : Instr} {s s' : State} (h : AgreeOnReads i s s') : SameReads i s s' := by
  obtain ⟨hcfg, hcpsr, hmem, hpc, hcells, hspsr⟩ := h
  refine ⟨⟨hcfg, hcpsr, hmem, hpc⟩, fun n hn => hcells _ ?_, fun q hq => hcells q ?_, fun hr n hn => hspsr n ?_⟩
  · exact List.mem_append_left _ (List.mem_map_of_mem hn)
  · exact List.mem_append_right _ hq
  · simp [readSpsrs, hr, hn]

variable {s s' : State}

/-- A Thumb destination is never R15, so nothing returns through it. -/
theorem low_not_return {rd : LowReg} (h : (true && lowReg rd == 15) = true) : SameSpsr s s' := by
  simp [lowReg_beq_pc] at h

/-- A Thumb store reads the register it stores. -/
theorem lowStore {rn : Reg} {l : List Reg} (rd : LowReg) (hr : ∀ n ∈ rn :: (l ++ [lowReg rd]), SameReg s s' n) :
    ∀ n ∈ rn :: (l ++ storeRegs (lowReg rd)), SameReg s s' n := by
  rwa [storeRegs, if_neg (lowReg_ne_pc rd)]

theorem armUndefined_same (b : SameBase s s') (k : Unimplemented) :
    SameResult s s' (undefinedInstruction k (armReturn s.begin) s.begin) (undefinedInstruction k (armReturn s'.begin) s'.begin) := by
  rw [armReturn_same b]
  exact undefinedInstruction_same b k _

/-- Every instruction's outcome depends only on what `readSlots` and `readSpsrs` list for it: each body's own lemma, with the registers of
the instruction's row. -/
theorem exec_same {i : Instr} (h : SameReads i s s') : SameOutcome s s' (exec i s) (exec i s') := by
  obtain ⟨b, hr, hq, hs⟩ := h
  cases i with
  | and | eor | orr | bic => exact armStep_same b fun _ => logicalOp_same b hr hs
  | sub | rsb | add | adc | sbc | rsc => exact armStep_same b fun _ => arithmeticOp_same b hr hs
  | mov | mvn => exact armStep_same b fun _ => moveOp_same b hr hs
  | tst | teq => exact armStep_same b fun _ => logicalTest_same b hr
  | cmp | cmn => exact armStep_same b fun _ => arithmeticTest_same b hr
  | psrSpaceNop => exact armStep_same b fun _ => readOnlyTest_same b fun n hn => hr n (List.mem_cons_of_mem _ hn)
  | mrs => exact armStep_same b fun _ => mrsBody_same b hs
  | msrReg _ _ _ rm => exact armStep_same b fun _ => msrRegBody_same b (hr rm (by simp [operandRegs])) hs
  | msrImm => exact armStep_same b fun _ => msrImmBody_same b hs
  | mul => exact armStep_same b fun _ => mulBody_same b hr
  | mla => exact armStep_same b fun _ => mlaBody_same b hr
  | umull | smull => exact armStep_same b fun _ => multiplyLong_same b hr
  | umlal | smlal => exact armStep_same b fun _ => multiplyLongAccumulate_same b hr
  | ldrPre | ldrPost | ldrbPre | ldrbPost | ldrt | ldrbt => exact armStep_same b fun _ => singleLoad_same b hr
  | strPre | strPost | strbPre | strbPost | strt | strbt => exact armStep_same b fun _ => singleStore_same b hr
  | ldrh => exact armStep_same b fun _ => halfTransferLoad_same b (loadHalf_same b) hr
  | ldrsb => exact armStep_same b fun _ => halfTransferLoad_same b (fun a => congrArg Except.ok (loadSByte_same b a)) hr
  | ldrsh => exact armStep_same b fun _ => halfTransferLoad_same b (loadSHalf_same b) hr
  | strh => exact armStep_same b fun _ => halfTransferStore_same b hr
  | signedStore | halfSh00 => exact armStep_same (body := fun _ => .error _) b fun _ => SameResult.error _
  | swp | swpb => exact armStep_same b fun _ => swapBody_same b hr
  | ldmia _ _ _ rn | ldmib _ _ _ rn | ldmda _ _ _ rn | ldmdb _ _ _ rn =>
    exact armStep_same b fun _ => loadMultiple_same b (hr rn (by simp [operandRegs])) hs
  | stmia _ _ _ rn | stmib _ _ _ rn | stmda _ _ _ rn | stmdb _ _ _ rn =>
    exact armStep_same b fun _ => storeMultiple_same b (hr rn (by simp [operandRegs])) hq
  | b => exact armStep_same b fun _ => branchBody_same b
  | bl => exact armStep_same b fun _ => branchLinkBody_same b
  | bx _ rn => exact armStep_same b fun _ => branchExchange_same b (hr rn (by simp [operandRegs]))
  | swi =>
    exact armStep_same (body := fun w => .ok (takeException .softwareInterrupt (armReturn w) w)) b fun _ =>
      softwareInterrupt_same b (armReturn_same b)
  | undefined | ldc | stc | cdp | mcr | mrc =>
    exact armStep_same (body := fun w => undefinedInstruction _ (armReturn w) w) b fun _ => armUndefined_same b _
  | reservedCond => exact rfl
  | tLslImm | tLsrImm | tAsrImm | tMovImm | tMvn => exact thumbStep_same (moveOp_same b hr low_not_return)
  | tLsl | tLsr | tAsr | tRor => exact thumbStep_same (moveOp_same b hr low_not_return)
  | tAddReg | tSubReg | tAddImm3 | tSubImm3 | tAddImm8 | tSubImm8 | tAdc | tSbc | tNeg =>
    exact thumbStep_same (arithmeticOp_same b hr low_not_return)
  | tAnd | tEor | tOrr | tBic => exact thumbStep_same (logicalOp_same b hr low_not_return)
  | tTst rs rd => exact thumbStep_same (body := logicalTest _ (lowReg rd) (lowReg rd) (plainReg rs)) (logicalTest_same b hr)
  | tCmpImm rd imm8 => exact thumbStep_same (body := arithmeticTest _ (lowReg rd) (lowReg rd) (plainImm imm8)) (arithmeticTest_same b hr)
  | tCmp rs rd | tCmn rs rd =>
    exact thumbStep_same (body := arithmeticTest _ (lowReg rd) (lowReg rd) (plainReg rs)) (arithmeticTest_same b hr)
  | tMul => exact thumbStep_same (mulBody_same b fun n hn => hr n (List.mem_reverse.mp hn))
  | tAddHi => exact thumbStep_same (hiAdd_same b hr)
  | tCmpHi => exact thumbStep_same (hiCompare_same b hr)
  | tMovHi rs => exact thumbStep_same (hiMove_same b (hr rs (by simp [operandRegs])))
  | tBx rs => exact thumbStep_same (branchExchange_same b (hr rs (by simp [operandRegs])))
  | tBxH1 => exact thumbStep_same (body := fun _ => .error _) (SameResult.error _)
  | tLdrPc => exact thumbStep_same (pcLoad_same b)
  | tLdrReg | tLdrbReg => exact thumbStep_same (singleLoad_same b hr)
  | tLdrImm offset5 rb rd =>
    exact thumbStep_same (body := singleLoad false true true false (lowReg rb) (lowReg rd) (immWordOffset offset5)) (singleLoad_same b hr)
  | tLdrbImm offset5 rb rd =>
    exact thumbStep_same (body := singleLoad true true true false (lowReg rb) (lowReg rd) (immByteOffset offset5)) (singleLoad_same b hr)
  | tLdrSp rd word8 =>
    exact thumbStep_same (body := singleLoad false true true false 13 (lowReg rd) (spOffset word8)) (singleLoad_same b hr)
  | tStrReg ro rb rd | tStrbReg ro rb rd => exact thumbStep_same (singleStore_same (off := regOffset ro) b (lowStore rd hr))
  | tStrImm offset5 rb rd =>
    exact thumbStep_same (body := singleStore false true true false (lowReg rb) (lowReg rd) (immWordOffset offset5))
      (singleStore_same b (lowStore rd hr))
  | tStrbImm offset5 rb rd =>
    exact thumbStep_same (body := singleStore true true true false (lowReg rb) (lowReg rd) (immByteOffset offset5))
      (singleStore_same b (lowStore rd hr))
  | tStrSp rd word8 =>
    exact thumbStep_same (body := singleStore false true true false 13 (lowReg rd) (spOffset word8)) (singleStore_same b (lowStore rd hr))
  | tStrhReg ro rb rd => exact thumbStep_same (halfTransferStore_same (off := halfRegOffset ro) b (lowStore rd hr))
  | tStrhImm offset5 rb rd => exact thumbStep_same (halfTransferStore_same (off := immHalfOffset offset5) b (lowStore rd hr))
  | tLdrhReg | tLdrhImm => exact thumbStep_same (halfTransferLoad_same b (loadHalf_same b) hr)
  | tLdsb => exact thumbStep_same (halfTransferLoad_same b (fun a => congrArg Except.ok (loadSByte_same b a)) hr)
  | tLdsh => exact thumbStep_same (halfTransferLoad_same b (loadSHalf_same b) hr)
  | tAddPc => exact thumbStep_same (addPcBody_same b)
  | tAddSp => exact thumbStep_same (addSpBody_same b (hr 13 (by simp [operandRegs])))
  | tIncSp | tDecSp => exact thumbStep_same (adjustSp_same b (hr 13 (by simp [operandRegs])))
  | tPush => exact thumbStep_same (storeMultiple_same b (hr 13 (by simp [operandRegs])) hq)
  | tPop r rlist =>
    exact thumbStep_same (loadMultiple_same (list := popList r rlist) (sb := false) b (hr 13 (by simp [operandRegs])) (by simp))
  | tStmia rb => exact thumbStep_same (storeMultiple_same b (hr (lowReg rb) (by simp [operandRegs])) hq)
  | tLdmia rb => exact thumbStep_same (loadMultiple_same b (hr (lowReg rb) (by simp [operandRegs])) (by simp))
  | tBCond0to7 | tBCond8to11 | tBCond12to13 => exact thumbStep_same (thumbCondBranch_same b)
  | tSwi =>
    exact thumbStep_same (body := fun w => .ok (takeException .softwareInterrupt (thumbReturn w) w))
      (softwareInterrupt_same b (thumbReturn_same b))
  | tB => exact thumbStep_same (thumbBranch_same b)
  | tBlHigh => exact thumbStep_same (thumbBlHigh_same b)
  | tBlLow => exact thumbStep_same (thumbBlLow_same b (hr 14 (by simp [operandRegs])))
  | tBCond14 | tUndefB1 | tUndefB2 | tUndefB6 | tUndefB8 | tUndefBE | tUndefE8 =>
    exact thumbStep_same (thumbUndefinedHalf_same b)

/-- Settles O50: a changed cell is a written one, and an instruction reads only what `readSlots` and `readSpsrs` list. -/
theorem writtenFlagRules : Obligations.WrittenFlagRules :=
  ⟨fun _ _ _ hex => ⟨exec_cell_kept_or_written hex, exec_spsr_kept_or_written hex⟩,
    fun _ _ _ h => exec_same (sameReads_of_agreeOnReads h)⟩

end Sys2Proof.Machine
end

section
/-! The 20_memory.md statements: the memory frame of every instruction (O57), and reads after writes (O60). -/

namespace Sys2Proof.Machine

open Sys2Proof.Claims

/-- Settles O57: the body keeps the bytes outside its stores (`Effect.bytes`), and the end of the step writes no byte. -/
theorem memoryFrame : Obligations.MemoryFrame := by
  intro i s t b hmem hex hb
  obtain ⟨w', ⟨heff, -⟩, rfl⟩ := exec_effect i s t hex
  rw [endOfStep_mem]
  exact heff.bytes hmem b hb

/-- The two halfwords of a written word, and the one across them (R83, R84). -/
theorem read16_write32 {m : Memory} (h : m.wf = true) (a v : Word) {k : Nat} (hk : k < 3) :
    (m.write32 a v).read16 (a + BitVec.ofNat 32 k) = v.extractLsb' (8 * k) 16 := by
  have hnext : a + BitVec.ofNat 32 k + 1#32 = a + BitVec.ofNat 32 (k + 1) := by rw [BitVec.add_assoc, BitVec.ofNat_add]
  rw [Memory.read16, hnext, read8_write32 h a v (by omega), read8_write32 h a v (by omega)]
  exact BitVec.extractLsb'_append_extractLsb'_eq_extractLsb' (by omega)

/-- Settles O60: each width's own read-after-write laws; a word's two halfwords are `read16_write32` at 0 and at 2. -/
theorem readAfterWrite : Obligations.ReadAfterWrite := by
  refine ⟨fun m b => ⟨rfl, rfl⟩, fun m a h => ⟨fun v => ?word, fun v => ?half, fun d => ?byte⟩⟩
  case word =>
    have hlow := read16_write32 h a v (k := 0) (by decide)
    rw [BitVec.add_zero] at hlow
    exact ⟨write32_wf h a v, read32_write32 h a v, hlow, read16_write32 h a v (k := 2) (by decide),
      fun k hk => read8_write32 h a v hk, fun b hb => read8_write32_outside h v hb⟩
  case half =>
    exact ⟨write16_wf h a v, read16_write16 h a v, fun k hk => read8_write16 h a v hk, fun b hb => read8_write16_outside h v hb⟩
  case byte =>
    exact ⟨write8_wf h a d, by rw [read8_write8 h, if_pos rfl], fun b hb => read8_write8_ne h d hb⟩

end Sys2Proof.Machine
end

section
/-! The 30_encoding.md statements, part 1: slices of a bit vector, and the category of an ARM word (R145) read off its fields. -/

namespace Sys2Proof

/-! ## Slices -/

section
variable {m n v w s t : Nat}

theorem extract_extract (x : BitVec n) {l s' l' : Nat} (h : s' + l' ≤ l) :
    (x.extractLsb' s l).extractLsb' s' l' = x.extractLsb' (s + s') l' := by
  ext i hi
  simp [Nat.add_assoc, show s' + i < l by omega]

/-- Two fields fill a slice exactly when each fills its part of it. -/
theorem append_eq_extract_iff {a : BitVec v} {b : BitVec w} {x : BitVec n} :
    a ++ b = x.extractLsb' s (v + w) ↔ a = x.extractLsb' (s + w) v ∧ b = x.extractLsb' s w := by
  constructor
  · intro h
    constructor
    · rw [← extract_extract x (Nat.le_of_eq (Nat.add_comm w v)), ← h, BitVec.extractLsb'_append_eq_left]
    · change b = x.extractLsb' (s + 0) w
      rw [← extract_extract x (l := v + w) (by omega), ← h, BitVec.extractLsb'_append_eq_right]
  · rintro ⟨rfl, rfl⟩
    exact BitVec.extractLsb'_append_extractLsb'_eq_extractLsb' rfl

theorem append_eq_iff {a : BitVec v} {b : BitVec w} {x : BitVec (v + w)} :
    a ++ b = x ↔ a = x.extractLsb' w v ∧ b = x.extractLsb' 0 w := by
  have h := append_eq_extract_iff (a := a) (b := b) (x := x) (s := 0)
  rwa [BitVec.extractLsb'_eq_self, Nat.zero_add] at h

variable {x : BitVec m} {y : BitVec n}

/-- Two slices are equal exactly when their parts are. -/
theorem extract_eq_extract_iff : x.extractLsb' s (v + w) = y.extractLsb' t (v + w) ↔
    x.extractLsb' (s + w) v = y.extractLsb' (t + w) v ∧ x.extractLsb' s w = y.extractLsb' t w := by
  rw [← append_eq_extract_iff]
  exact ⟨(append_eq_extract_iff.mpr ⟨rfl, rfl⟩).trans, (append_eq_extract_iff.mpr ⟨rfl, rfl⟩).symm.trans⟩

theorem eq_iff_parts {x y : BitVec (v + w)} :
    x = y ↔ x.extractLsb' w v = y.extractLsb' w v ∧ x.extractLsb' 0 w = y.extractLsb' 0 w := by
  have h := extract_eq_extract_iff (v := v) (w := w) (x := x) (y := y) (s := 0) (t := 0)
  rwa [BitVec.extractLsb'_eq_self, BitVec.extractLsb'_eq_self, Nat.zero_add] at h

theorem flagBit_inj {a b : Bool} : flagBit a = flagBit b ↔ a = b := by revert a b; decide

theorem flagBit_getLsbD_eq (x : BitVec n) (s : Nat) : flagBit (x.getLsbD s) = x.extractLsb' s 1 := by
  ext i hi
  obtain rfl : i = 0 := by omega
  simp [flagBit]

/-- Two slices are equal exactly when their lowest bits and the slices above are. -/
theorem extract_succ_eq_iff {l : Nat} : x.extractLsb' s (l + 1) = y.extractLsb' t (l + 1) ↔
    x.extractLsb' (s + 1) l = y.extractLsb' (t + 1) l ∧ x.getLsbD s = y.getLsbD t := by
  rw [extract_eq_extract_iff, ← flagBit_getLsbD_eq, ← flagBit_getLsbD_eq, flagBit_inj]

theorem extract_two (x : BitVec n) (s : Nat) : x.extractLsb' s 2 = flagBit (x.getLsbD (s + 1)) ++ flagBit (x.getLsbD s) := by
  rw [flagBit_getLsbD_eq, flagBit_getLsbD_eq, append_eq_extract_iff.mpr ⟨rfl, rfl⟩]

end

theorem bits2_cases : ∀ b : BitVec 2, b = 0#2 ∨ b = 1#2 ∨ b = 2#2 ∨ b = 3#2 := by decide
theorem bits3_cases : ∀ b : BitVec 3, b = 0#3 ∨ b = 1#3 ∨ b = 2#3 ∨ b = 3#3 ∨ b = 4#3 ∨ b = 5#3 ∨ b = 6#3 ∨ b = 7#3 := by decide
theorem bits4_cases : ∀ b : BitVec 4, b = 0#4 ∨ b = 1#4 ∨ b = 2#4 ∨ b = 3#4 ∨ b = 4#4 ∨ b = 5#4 ∨ b = 6#4 ∨ b = 7#4 ∨
    b = 8#4 ∨ b = 9#4 ∨ b = 10#4 ∨ b = 11#4 ∨ b = 12#4 ∨ b = 13#4 ∨ b = 14#4 ∨ b = 15#4 := by decide

/-! ## A mask test, field by field -/

/-- Bits 27:25 of the word: the space it belongs to. -/
def ArmFields.bits27to25 (f : ArmFields) : BitVec 3 := f.op.extractLsb' 5 3

/-- Bits 24:20 of the word. -/
def ArmFields.bits24to20 (f : ArmFields) : BitVec 5 := f.op.extractLsb' 0 5

/-- Bits 7 and 4 of the word. -/
def ArmFields.bit7 (f : ArmFields) : Bool := f.lo.getLsbD 3
def ArmFields.bit4 (f : ArmFields) : Bool := f.lo.getLsbD 0

/-- A mask test on a word of fields is a mask test on each field, bits 27:25 and 24:20 apart. -/
theorem word_and_eq_iff (f : ArmFields) (m p : BitVec 32) : f.word &&& m = p ↔
    f.cond &&& m.extractLsb' 28 4 = p.extractLsb' 28 4 ∧
      (f.bits27to25 &&& m.extractLsb' 25 3 = p.extractLsb' 25 3 ∧ f.bits24to20 &&& m.extractLsb' 20 5 = p.extractLsb' 20 5) ∧
      f.rn &&& m.extractLsb' 16 4 = p.extractLsb' 16 4 ∧ f.rd &&& m.extractLsb' 12 4 = p.extractLsb' 12 4 ∧
      f.rs &&& m.extractLsb' 8 4 = p.extractLsb' 8 4 ∧ f.lo &&& m.extractLsb' 4 4 = p.extractLsb' 4 4 ∧
      f.rm &&& m.extractLsb' 0 4 = p.extractLsb' 0 4 := by
  have hop (x : BitVec 32) : x.extractLsb' 25 3 = (x.extractLsb' 20 8).extractLsb' 5 3 ∧
      x.extractLsb' 20 5 = (x.extractLsb' 20 8).extractLsb' 0 5 := by
    simp only [extract_extract x (show 5 + 3 ≤ 8 by decide), extract_extract x (show 0 + 5 ≤ 8 by decide), and_self]
  have hparts (x y : BitVec 8) : x = y ↔ _ := eq_iff_parts (v := 3) (w := 5)
  have hword := word_and f (armFields m)
  rw [word_armFields] at hword
  simp only [ArmFields.bits27to25, ArmFields.bits24to20, hop, ← BitVec.extractLsb'_and, ← hparts, ← ArmFields.mk.injEq]
  rw [hword]
  constructor
  · intro h
    rw [← word_armFields p] at h
    exact word_injective h
  · exact fun h => (congrArg ArmFields.word h).trans (word_armFields p)

/-! ## The category of a word of fields -/

/-- The category of the first of some rows that matches. -/
def firstCategory (w : BitVec 32) : List ArmRow → ArmCategory
  | [] => .undefined
  | r :: rows => if w &&& r.mask = r.pattern then r.category else firstCategory w rows

theorem classifyArm_eq_firstCategory (w : BitVec 32) : classifyArm w = firstCategory w armRows := by
  unfold classifyArm
  induction armRows with
  | nil => rfl
  | cons r rows ih =>
    by_cases h : w &&& r.mask = r.pattern
    · simp [firstCategory, h]
    · simpa [firstCategory, h] using ih

/-- The category of a halfword transfer, by bit 22. -/
def ArmFields.halfCategory (f : ArmFields) : ArmCategory :=
  if f.bit22 then .halfwordTransferImmediate else .halfwordTransferRegister

/-- Bits 27:25 = 000 with bits 7 and 4 set: the multiplies, the swap and the halfword transfers. -/
def ArmFields.extensionCategory (f : ArmFields) : ArmCategory :=
  if (f.bit24 = true ∧ f.bit23 = false ∧ f.bit21 = false ∧ f.bit20 = false) ∧ f.lo = 0b1001#4 then .singleDataSwap
  else if (f.bit24 = false ∧ f.bit23 = false ∧ f.bit22 = false) ∧ f.lo = 0b1001#4 then .multiply
  else if (f.bit24 = false ∧ f.bit23 = true) ∧ f.lo = 0b1001#4 then .multiplyLong
  else f.halfCategory

/-- The other words with bits 27:25 = 000: data processing with a register operand, MRS, MSR and BX. -/
def ArmFields.registerCategory (f : ArmFields) : ArmCategory :=
  if (f.bit24 = true ∧ f.bit23 = false ∧ f.bit22 = false ∧ f.bit21 = true ∧ f.bit20 = false) ∧
      f.rn = 15#4 ∧ f.rd = 15#4 ∧ f.rs = 15#4 ∧ f.lo = 1#4 then .branchAndExchange
  else if (f.bit24 = true ∧ f.bit23 = false ∧ f.bit21 = false ∧ f.bit20 = false) ∧
      f.rn = 15#4 ∧ f.rs = 0#4 ∧ f.lo = 0#4 ∧ f.rm = 0#4 then .psrTransferMrs
  else if (f.bit24 = true ∧ f.bit23 = false ∧ f.bit21 = true ∧ f.bit20 = false) ∧
      f.rd = 15#4 ∧ f.rs = 0#4 ∧ f.lo = 0#4 then .psrTransferMsrRegister
  else .dataProcessing

/-- The category of a word, by its bits 27:25. -/
def ArmFields.category (f : ArmFields) : ArmCategory :=
  match f.bits27to25.toNat with
  | 0 => if f.bit7 = true ∧ f.bit4 = true then f.extensionCategory else f.registerCategory
  | 1 =>
    if (f.bit24 = true ∧ f.bit23 = false ∧ f.bit21 = true ∧ f.bit20 = false) ∧ f.rd = 15#4 then .psrTransferMsrImmediate
    else .dataProcessing
  | 2 => .singleDataTransfer
  | 3 => if f.bit4 then .undefined else .singleDataTransfer
  | 4 => .blockDataTransfer
  | 5 => .branch
  | 6 => .coprocessorDataTransfer
  | _ =>
    if f.bit24 then .softwareInterrupt
    else if f.bit4 then .coprocessorRegisterTransfer
    else .coprocessorDataOperation

section
variable {f : ArmFields}

theorem category_of_000 (h : f.bits27to25 = 0#3) :
    f.category = if f.bit7 = true ∧ f.bit4 = true then f.extensionCategory else f.registerCategory := by
  rw [ArmFields.category, h]; rfl
theorem category_of_001 (h : f.bits27to25 = 1#3) : f.category =
    if (f.bit24 = true ∧ f.bit23 = false ∧ f.bit21 = true ∧ f.bit20 = false) ∧ f.rd = 15#4 then .psrTransferMsrImmediate
    else .dataProcessing := by
  rw [ArmFields.category, h]; rfl
theorem category_of_010 (h : f.bits27to25 = 2#3) : f.category = .singleDataTransfer := by rw [ArmFields.category, h]; rfl
theorem category_of_011 (h : f.bits27to25 = 3#3) : f.category = if f.bit4 then .undefined else .singleDataTransfer := by
  rw [ArmFields.category, h]; rfl
theorem category_of_100 (h : f.bits27to25 = 4#3) : f.category = .blockDataTransfer := by rw [ArmFields.category, h]; rfl
theorem category_of_101 (h : f.bits27to25 = 5#3) : f.category = .branch := by rw [ArmFields.category, h]; rfl
theorem category_of_110 (h : f.bits27to25 = 6#3) : f.category = .coprocessorDataTransfer := by rw [ArmFields.category, h]; rfl
theorem category_of_111 (h : f.bits27to25 = 7#3) : f.category =
    if f.bit24 then .softwareInterrupt else if f.bit4 then .coprocessorRegisterTransfer else .coprocessorDataOperation := by
  rw [ArmFields.category, h]; rfl

end

/-- The table's masks on bits 24:20 as tests of single bits. -/
theorem bits24to20_masks (f : ArmFields) :
    (f.bits24to20 = 18#5 ↔ f.bit24 = true ∧ f.bit23 = false ∧ f.bit22 = false ∧ f.bit21 = true ∧ f.bit20 = false) ∧
    (f.bits24to20 &&& 27#5 = 16#5 ↔ f.bit24 = true ∧ f.bit23 = false ∧ f.bit21 = false ∧ f.bit20 = false) ∧
    (f.bits24to20 &&& 27#5 = 18#5 ↔ f.bit24 = true ∧ f.bit23 = false ∧ f.bit21 = true ∧ f.bit20 = false) ∧
    (f.bits24to20 &&& 28#5 = 0#5 ↔ f.bit24 = false ∧ f.bit23 = false ∧ f.bit22 = false) ∧
    (f.bits24to20 &&& 24#5 = 8#5 ↔ f.bit24 = false ∧ f.bit23 = true) ∧
    (f.bits24to20 &&& 4#5 = 0#5 ↔ f.bit22 = false) ∧ (f.bits24to20 &&& 4#5 = 4#5 ↔ f.bit22 = true) ∧
    (f.bits24to20 &&& 16#5 = 16#5 ↔ f.bit24 = true) ∧ (f.bits24to20 &&& 16#5 = 0#5 ↔ f.bit24 = false) := by
  simp only [ArmFields.bits24to20, ArmFields.bit24, ArmFields.bit23, ArmFields.bit22, ArmFields.bit21, ArmFields.bit20]
  generalize f.op = op
  revert op
  decide

/-- The table's masks on bits 7:4 as tests of single bits. -/
theorem lo_masks (f : ArmFields) : (f.lo &&& 9#4 = 9#4 ↔ f.bit7 = true ∧ f.bit4 = true) ∧
    (f.lo &&& 1#4 = 1#4 ↔ f.bit4 = true) ∧ (f.lo &&& 1#4 = 0#4 ↔ f.bit4 = false) := by
  simp only [ArmFields.bit7, ArmFields.bit4]
  generalize f.lo = lo
  revert lo
  decide

/-- What the values of bits 7:4 in the table say of bits 7 and 4. -/
theorem lo_values (f : ArmFields) : (f.lo = 9#4 → f.bit7 = true ∧ f.bit4 = true) ∧ (f.lo = 0#4 → f.bit7 = false) ∧
    (f.lo = 1#4 → f.bit7 = false) := by
  simp only [ArmFields.bit7, ArmFields.bit4]
  generalize f.lo = lo
  revert lo
  decide

/-- The decoder's table on a word of fields: bits 27:25 leave the rows of one space, whose masks are tests of single bits. -/
theorem classifyArm_word (f : ArmFields) : classifyArm f.word = f.category := by
  have hand4 (x : BitVec 4) : x &&& 15#4 = x := BitVec.and_allOnes
  have hand5 (x : BitVec 5) : x &&& 31#5 = x := BitVec.and_allOnes
  obtain ⟨h9, h0, h1⟩ := lo_values f
  rw [classifyArm_eq_firstCategory]
  simp only [firstCategory, armRows, word_and_eq_iff, ArmFields.category]
  obtain h | h | h | h | h | h | h | h := bits3_cases f.bits27to25 <;>
    simp [h, hand4, hand5, bits24to20_masks, lo_masks]
  case inl =>
    by_cases h74 : f.bit7 = true ∧ f.bit4 = true
    · have hlo : f.lo ≠ 0#4 ∧ f.lo ≠ 1#4 := ⟨fun h => by simp [h0 h] at h74, fun h => by simp [h1 h] at h74⟩
      cases hb : f.bit22 <;> simp [h74, hlo, hb, ArmFields.extensionCategory, ArmFields.halfCategory]
    · have hlo : f.lo ≠ 9#4 := fun h => h74 (h9 h)
      simp [h74, hlo, ArmFields.registerCategory]
  case inr.inr.inr.inr.inr.inr.inr => cases f.bit24 <;> cases f.bit4 <;> rfl

end Sys2Proof
end

section
/-! The 30_encoding.md statements, part 2: which ARM words a layout of encode is the code of, field by field (R125 to R143). -/

namespace Sys2Proof

section
variable {f : ArmFields}

/-! ## A slice of the word, field by field -/

theorem low8_eq_iff {x : BitVec 8} : f.low8 = x ↔ f.lo = x.extractLsb' 4 4 ∧ f.rm = x.extractLsb' 0 4 := append_eq_iff

theorem low12_eq_iff {x : BitVec 12} :
    f.low12 = x ↔ (f.rs = x.extractLsb' 8 4 ∧ f.lo = x.extractLsb' 4 4) ∧ f.rm = x.extractLsb' 0 4 :=
  append_eq_iff.trans (and_congr_left' append_eq_extract_iff)

theorem low16_eq_iff {x : BitVec 16} : f.low16 = x ↔
    ((f.rd = x.extractLsb' 12 4 ∧ f.rs = x.extractLsb' 8 4) ∧ f.lo = x.extractLsb' 4 4) ∧ f.rm = x.extractLsb' 0 4 :=
  append_eq_iff.trans (and_congr_left' (append_eq_extract_iff.trans (and_congr_left' append_eq_extract_iff)))

theorem low24_eq_iff {x : BitVec 24} : f.low24 = x ↔
    ((((f.op.extractLsb' 0 4 = x.extractLsb' 20 4 ∧ f.rn = x.extractLsb' 16 4) ∧ f.rd = x.extractLsb' 12 4) ∧
      f.rs = x.extractLsb' 8 4) ∧ f.lo = x.extractLsb' 4 4) ∧ f.rm = x.extractLsb' 0 4 :=
  append_eq_iff.trans (and_congr_left' (append_eq_extract_iff.trans (and_congr_left' (append_eq_extract_iff.trans
    (and_congr_left' (append_eq_extract_iff.trans (and_congr_left' append_eq_extract_iff)))))))

theorem shiftAmount_eq_iff {x : BitVec 5} :
    f.shiftAmount = x ↔ f.rs = x.extractLsb' 1 4 ∧ f.lo.extractLsb' 3 1 = x.extractLsb' 0 1 :=
  append_eq_iff

theorem regOf_eq_iff {b : BitVec 4} {r : Reg} : regOf b = r ↔ b = regBits r :=
  ⟨fun h => by rw [← h, regBits_regOf], fun h => by rw [h, regOf_regBits]⟩

theorem shiftType_eq_iff {t : ShiftType} : f.shiftType = t ↔ f.lo.extractLsb' 1 2 = shiftTypeBits t :=
  ⟨fun h => h ▸ (shiftTypeBits_shiftTypeOf _).symm, fun h => by rw [ArmFields.shiftType, h, shiftTypeOf_shiftTypeBits]⟩

/-- A code of fields is a word of the same fields. -/
theorem arm_eq_iff {cd : BitVec 4} {op : BitVec 8} {rn rd rs lo rm : BitVec 4} :
    Code.arm (ArmFields.mk cd op rn rd rs lo rm).word = .arm f.word ↔
      f.cond = cd ∧ f.op = op ∧ f.rn = rn ∧ f.rd = rd ∧ f.rs = rs ∧ f.lo = lo ∧ f.rm = rm := by
  refine ⟨fun h => ?_, ?_⟩
  · have h := word_injective (Code.arm.inj h)
    simp [← h]
  · rintro ⟨rfl, rfl, rfl, rfl, rfl, rfl, rfl⟩
    rfl

/-! ## Bits 27:20 and 7:4, as the layouts cut them -/

/-- Bits 27:20 are bits 27:25 and the five single bits below. -/
theorem op_eq_iff {y : BitVec 8} (x : BitVec 3) (p u b w l : Bool)
    (hy : y = x ++ flagBit p ++ flagBit u ++ flagBit b ++ flagBit w ++ flagBit l) :
    f.op = y ↔ f.bits27to25 = x ∧ f.bit24 = p ∧ f.bit23 = u ∧ f.bit22 = b ∧ f.bit21 = w ∧ f.bit20 = l := by
  subst hy
  simp only [ArmFields.bits27to25, ArmFields.bit24, ArmFields.bit23, ArmFields.bit22, ArmFields.bit21, ArmFields.bit20]
  generalize f.op = op
  constructor
  · rintro rfl
    revert x p u b w l
    decide
  · rintro ⟨rfl, rfl, rfl, rfl, rfl, rfl⟩
    revert op
    decide

/-- Bits 27:20 are bits 27:25, the opcode of R127 and S. -/
theorem op_eq_opcode_iff {x : BitVec 3} {opcode : BitVec 4} {s : Bool} :
    f.op = x ++ opcode ++ flagBit s ↔ f.bits27to25 = x ∧ f.op.extractLsb' 1 4 = opcode ∧ f.bit20 = s := by
  simp only [ArmFields.bits27to25, ArmFields.bit20]
  generalize f.op = op
  constructor
  · rintro rfl
    revert x opcode s
    decide
  · rintro ⟨rfl, rfl, rfl⟩
    revert op
    decide

/-- Bits 27:20 are bits 27:24 and the four below. -/
theorem op_eq_nibbles_iff {op4 y : BitVec 4} : f.op = op4 ++ y ↔
    f.bits27to25 = op4.extractLsb' 1 3 ∧ f.bit24 = op4.getLsbD 0 ∧ f.op.extractLsb' 0 4 = y := by
  simp only [ArmFields.bits27to25, ArmFields.bit24]
  generalize f.op = op
  constructor
  · rintro rfl
    revert op4 y
    decide
  · rintro ⟨h27, h24, rfl⟩
    rw [show op4 = op4.extractLsb' 1 3 ++ flagBit (op4.getLsbD 0) by clear h27 h24; revert op4; decide, ← h27, ← h24]
    clear h27 h24
    revert op
    decide

/-- Bits 27:20 of MCR and MRC are 1110, a three-bit opcode and L (R142). -/
theorem op_coprocessorRegister_iff {opc : BitVec 3} {z : BitVec 1} (l : Bool) (hz : z = flagBit l) :
    f.op = 0b1110#4 ++ opc ++ z ↔ f.bits27to25 = 7#3 ∧ f.bit24 = false ∧ f.op.extractLsb' 1 3 = opc ∧ f.bit20 = l := by
  subst hz
  simp only [ArmFields.bits27to25, ArmFields.bit24, ArmFields.bit20]
  generalize f.op = op
  constructor
  · rintro rfl
    revert opc l
    decide
  · rintro ⟨h, hb, rfl, rfl⟩
    revert op
    decide

/-- Bits 7:4 are the three-bit field above bit 4, and bit 4. -/
theorem lo_eq_iff {y : BitVec 3} {z : BitVec 1} (b : Bool) (hz : z = flagBit b) :
    f.lo = y ++ z ↔ f.lo.extractLsb' 1 3 = y ∧ f.bit4 = b := by
  subst hz
  unfold ArmFields.bit4
  generalize f.lo = lo
  revert lo y b
  decide

theorem lo_regImm_iff {a : BitVec 1} {t : BitVec 2} : f.lo = a ++ t ++ 0b0#1 ↔
    f.lo.extractLsb' 3 1 = a ∧ f.lo.extractLsb' 1 2 = t ∧ f.bit4 = false := by
  unfold ArmFields.bit4
  generalize f.lo = lo
  revert lo a t
  decide

theorem lo_regReg_iff {a : BitVec 1} {t : BitVec 2} : f.lo = a ++ t ++ 0b1#1 ↔
    f.lo.extractLsb' 3 1 = a ∧ f.lo.extractLsb' 1 2 = t ∧ f.bit4 = true := by
  unfold ArmFields.bit4
  generalize f.lo = lo
  revert lo a t
  decide

theorem lo_bit7 : (f.lo.extractLsb' 3 1 = 0#1 ↔ f.bit7 = false) ∧ (f.lo.extractLsb' 3 1 = 1#1 ↔ f.bit7 = true) := by
  unfold ArmFields.bit7
  generalize f.lo = lo
  revert lo
  decide

theorem lo_half_iff {sh : BitVec 2} : f.lo = 0b1#1 ++ sh ++ 0b1#1 ↔ f.bit7 = true ∧ f.lo.extractLsb' 1 2 = sh ∧ f.bit4 = true := by
  rw [lo_regReg_iff, lo_bit7.2]

/-- Bit 25 (I of R125 and R136) in the spaces that read it. -/
theorem bit25_of_space (f : ArmFields) : (f.bits27to25 = 0#3 → f.bit25 = false) ∧ (f.bits27to25 = 1#3 → f.bit25 = true) ∧
    (f.bits27to25 = 2#3 → f.bit25 = false) ∧ (f.bits27to25 = 3#3 → f.bit25 = true) := by
  unfold ArmFields.bit25 ArmFields.bits27to25
  generalize f.op = op
  revert op
  decide

/-! ## The layouts -/

variable {c : Cond}

theorem encodeBlockTransfer_eq_iff {p u l s w : Bool} {rn : Reg} {list : BitVec 16} :
    encodeBlockTransfer p u l c s w rn list = .arm f.word ↔
      f.cond = condBits c ∧ (f.bits27to25 = 4#3 ∧ f.bit24 = p ∧ f.bit23 = u ∧ f.bit22 = s ∧ f.bit21 = w ∧ f.bit20 = l) ∧
      regOf f.rn = rn ∧ f.low16 = list := by
  rw [encodeBlockTransfer, arm_eq_iff, op_eq_iff _ _ _ _ _ _ rfl, regOf_eq_iff, low16_eq_iff]
  simp only [and_assoc]

/-- Bits 27:21 of a multiply are 0000 and the three that choose it (R130, R131). -/
theorem encodeMultiply_eq_iff {x : BitVec 7} {s : Bool} {r19 r15 rs rm : Reg} (hx : x.extractLsb' 3 4 = 0#4) :
    encodeMultiply (x ++ flagBit s) c r19 r15 rs rm = .arm f.word ↔
      f.cond = condBits c ∧ (f.bits27to25 = 0#3 ∧ f.bit24 = false ∧ f.bit23 = x.getLsbD 2 ∧ f.bit22 = x.getLsbD 1 ∧
        f.bit21 = x.getLsbD 0 ∧ f.bit20 = s) ∧
      regOf f.rn = r19 ∧ regOf f.rd = r15 ∧ regOf f.rs = rs ∧ f.lo = 9#4 ∧ regOf f.rm = rm := by
  have hop : x ++ flagBit s =
      0b000#3 ++ flagBit false ++ flagBit (x.getLsbD 2) ++ flagBit (x.getLsbD 1) ++ flagBit (x.getLsbD 0) ++ flagBit s := by
    revert x s
    decide
  rw [encodeMultiply, arm_eq_iff, op_eq_iff _ _ _ _ _ _ hop, regOf_eq_iff, regOf_eq_iff, regOf_eq_iff, regOf_eq_iff]

theorem encodeCoprocessorTransfer_eq_iff {l p u n w : Bool} {rn crd cp : BitVec 4} {offset8 : BitVec 8} :
    encodeCoprocessorTransfer l c p u n w rn crd cp offset8 = .arm f.word ↔
      f.cond = condBits c ∧ (f.bits27to25 = 6#3 ∧ f.bit24 = p ∧ f.bit23 = u ∧ f.bit22 = n ∧ f.bit21 = w ∧ f.bit20 = l) ∧
      f.rn = rn ∧ f.rd = crd ∧ f.rs = cp ∧ f.low8 = offset8 := by
  rw [encodeCoprocessorTransfer, arm_eq_iff, op_eq_iff _ _ _ _ _ _ rfl, low8_eq_iff]

theorem transferOffset_eq_imm_iff {x : BitVec 12} : f.transferOffset = .imm x ↔ f.bit25 = false ∧ f.low12 = x := by
  unfold ArmFields.transferOffset
  split <;> simp [*]

theorem transferOffset_eq_reg_iff {rm : Reg} {t : ShiftType} {a : BitVec 5} :
    f.transferOffset = .reg rm t a ↔ f.bit25 = true ∧ regOf f.rm = rm ∧ f.shiftType = t ∧ f.shiftAmount = a := by
  unfold ArmFields.transferOffset
  split <;> simp [*]

theorem encodeSingleTransfer_eq_iff {p b w l u : Bool} {rn rd : Reg} {off : TransferOffset} :
    encodeSingleTransfer p b w l c u rn rd off = .arm f.word ↔
      f.cond = condBits c ∧ (f.bits27to25 = 2#3 ∨ f.bits27to25 = 3#3 ∧ f.bit4 = false) ∧
      (f.bit24 = p ∧ f.bit23 = u ∧ f.bit22 = b ∧ f.bit21 = w ∧ f.bit20 = l) ∧
      regOf f.rn = rn ∧ regOf f.rd = rd ∧ f.transferOffset = off := by
  obtain ⟨-, -, h2, h3⟩ := bit25_of_space f
  cases off with
  | imm imm12 =>
    rw [encodeSingleTransfer, arm_eq_iff, op_eq_iff _ _ _ _ _ _ rfl, transferOffset_eq_imm_iff, low12_eq_iff,
      regOf_eq_iff, regOf_eq_iff]
    grind
  | reg rm type amount =>
    rw [encodeSingleTransfer, arm_eq_iff, op_eq_iff _ _ _ _ _ _ rfl, transferOffset_eq_reg_iff, shiftAmount_eq_iff,
      shiftType_eq_iff, lo_regImm_iff, regOf_eq_iff, regOf_eq_iff, regOf_eq_iff]
    grind

theorem halfOffset_eq_imm_iff {x : BitVec 8} :
    f.halfOffset = .imm x ↔ f.bit22 = true ∧ f.rs = x.extractLsb' 4 4 ∧ f.rm = x.extractLsb' 0 4 := by
  rw [← append_eq_iff]
  unfold ArmFields.halfOffset
  split <;> simp [*]

theorem halfOffset_eq_reg_iff {sbz : BitVec 4} {rm : Reg} :
    f.halfOffset = .reg sbz rm ↔ f.bit22 = false ∧ f.rs = sbz ∧ regOf f.rm = rm := by
  unfold ArmFields.halfOffset
  split <;> simp [*]

theorem encodeHalfTransfer_eq_iff {sh : BitVec 2} {l p u w : Bool} {rn rd : Reg} {off : HalfOffset} :
    encodeHalfTransfer sh l c p u w rn rd off = .arm f.word ↔
      f.cond = condBits c ∧ (f.bits27to25 = 0#3 ∧ f.bit7 = true ∧ f.bit4 = true) ∧ f.lo.extractLsb' 1 2 = sh ∧
      (f.bit24 = p ∧ f.bit23 = u ∧ f.bit21 = w ∧ f.bit20 = l) ∧ regOf f.rn = rn ∧ regOf f.rd = rd ∧ f.halfOffset = off := by
  cases off with
  | imm imm8 =>
    rw [encodeHalfTransfer, arm_eq_iff, op_eq_iff 0#3 p u true w l (by rfl), halfOffset_eq_imm_iff, lo_half_iff,
      regOf_eq_iff, regOf_eq_iff]
    grind
  | reg sbz rm =>
    rw [encodeHalfTransfer, arm_eq_iff, op_eq_iff 0#3 p u false w l (by rfl), halfOffset_eq_reg_iff, lo_half_iff,
      regOf_eq_iff, regOf_eq_iff, regOf_eq_iff]
    grind

theorem operand2_eq_ite : f.operand2 = if f.bit25 then .imm f.rs f.low8
    else if f.bit4 then .regReg (regOf f.rm) f.shiftType (regOf f.rs) else .regImm (regOf f.rm) f.shiftType f.shiftAmount := rfl

theorem operand2_eq_imm_iff {r : BitVec 4} {x : BitVec 8} : f.operand2 = .imm r x ↔ f.bit25 = true ∧ f.rs = r ∧ f.low8 = x := by
  rw [operand2_eq_ite]
  split_ifs <;> simp [*]

theorem operand2_eq_regImm_iff {rm : Reg} {t : ShiftType} {a : BitVec 5} : f.operand2 = .regImm rm t a ↔
    f.bit25 = false ∧ f.bit4 = false ∧ regOf f.rm = rm ∧ f.shiftType = t ∧ f.shiftAmount = a := by
  rw [operand2_eq_ite]
  split_ifs <;> simp [*]

theorem operand2_eq_regReg_iff {rm rs : Reg} {t : ShiftType} : f.operand2 = .regReg rm t rs ↔
    f.bit25 = false ∧ f.bit4 = true ∧ regOf f.rm = rm ∧ f.shiftType = t ∧ regOf f.rs = rs := by
  rw [operand2_eq_ite]
  split_ifs <;> simp [*]

/-- Bits 27:25, 7 and 4 of the words that data processing shares with MRS, MSR and BX (R125, R145). -/
def ArmFields.inDataSpace (f : ArmFields) : Prop :=
  f.bits27to25 = 1#3 ∨ f.bits27to25 = 0#3 ∧ ¬ (f.bit7 = true ∧ f.bit4 = true)

theorem encodeDataProcessing_eq_iff {opcode : BitVec 4} {s : Bool} {rn rd : Reg} {o : Operand2} :
    encodeDataProcessing opcode c s rn rd o = .arm f.word ↔
      f.cond = condBits c ∧ f.inDataSpace ∧ f.op.extractLsb' 1 4 = opcode ∧ f.bit20 = s ∧
        regOf f.rn = rn ∧ regOf f.rd = rd ∧ f.operand2 = o := by
  unfold ArmFields.inDataSpace
  obtain ⟨h0, h1, -, -⟩ := bit25_of_space f
  cases o with
  | imm rotate imm8 =>
    rw [encodeDataProcessing, arm_eq_iff, op_eq_opcode_iff, operand2_eq_imm_iff, low8_eq_iff, regOf_eq_iff, regOf_eq_iff]
    grind
  | regImm rm type amount =>
    rw [encodeDataProcessing, arm_eq_iff, op_eq_opcode_iff, operand2_eq_regImm_iff, shiftAmount_eq_iff, shiftType_eq_iff,
      lo_regImm_iff, regOf_eq_iff, regOf_eq_iff, regOf_eq_iff]
    grind
  | regReg rm type rs =>
    rw [encodeDataProcessing, arm_eq_iff, op_eq_opcode_iff, operand2_eq_regReg_iff, shiftType_eq_iff, lo_regReg_iff, lo_bit7.1,
      regOf_eq_iff, regOf_eq_iff, regOf_eq_iff, regOf_eq_iff]
    grind

theorem encodeLow24_eq_iff {op4 : BitVec 4} {x : BitVec 24} : encodeLow24 op4 c x = .arm f.word ↔
    f.cond = condBits c ∧ f.bits27to25 = op4.extractLsb' 1 3 ∧ f.bit24 = op4.getLsbD 0 ∧ f.low24 = x := by
  rw [encodeLow24, arm_eq_iff, op_eq_nibbles_iff, low24_eq_iff]
  grind

theorem encode_bx_eq_iff {rn : Reg} : encode (.bx c rn) = .arm f.word ↔
    f.cond = condBits c ∧
      (f.bits27to25 = 0#3 ∧ f.bit24 = true ∧ f.bit23 = false ∧ f.bit22 = false ∧ f.bit21 = true ∧ f.bit20 = false) ∧
      f.rn = 15#4 ∧ f.rd = 15#4 ∧ f.rs = 15#4 ∧ f.lo = 1#4 ∧ regOf f.rm = rn := by
  rw [encode, arm_eq_iff, op_eq_iff 0#3 true false false true false (by rfl), regOf_eq_iff]

theorem encode_mrs_eq_iff {p : Bool} {rd : Reg} : encode (.mrs c p rd) = .arm f.word ↔
    f.cond = condBits c ∧
      (f.bits27to25 = 0#3 ∧ f.bit24 = true ∧ f.bit23 = false ∧ f.bit22 = p ∧ f.bit21 = false ∧ f.bit20 = false) ∧
      f.rn = 15#4 ∧ regOf f.rd = rd ∧ f.rs = 0#4 ∧ f.lo = 0#4 ∧ f.rm = 0#4 := by
  rw [encode, arm_eq_iff, op_eq_iff 0#3 true false p false false (by cases p <;> rfl), regOf_eq_iff]

theorem encode_msrReg_eq_iff {p : Bool} {mask : BitVec 4} {rm : Reg} : encode (.msrReg c p mask rm) = .arm f.word ↔
    f.cond = condBits c ∧
      (f.bits27to25 = 0#3 ∧ f.bit24 = true ∧ f.bit23 = false ∧ f.bit22 = p ∧ f.bit21 = true ∧ f.bit20 = false) ∧
      f.rn = mask ∧ f.rd = 15#4 ∧ f.rs = 0#4 ∧ f.lo = 0#4 ∧ regOf f.rm = rm := by
  rw [encode, arm_eq_iff, op_eq_iff 0#3 true false p true false (by cases p <;> rfl), regOf_eq_iff]

theorem encode_msrImm_eq_iff {p : Bool} {mask rotate : BitVec 4} {imm8 : BitVec 8} :
    encode (.msrImm c p mask rotate imm8) = .arm f.word ↔ f.cond = condBits c ∧
      (f.bits27to25 = 1#3 ∧ f.bit24 = true ∧ f.bit23 = false ∧ f.bit22 = p ∧ f.bit21 = true ∧ f.bit20 = false) ∧
      f.rn = mask ∧ f.rd = 15#4 ∧ f.rs = rotate ∧ f.low8 = imm8 := by
  rw [encode, arm_eq_iff, op_eq_iff 1#3 true false p true false (by cases p <;> rfl), low8_eq_iff]

theorem encode_swp_eq_iff {rn rd rm : Reg} {sbz : BitVec 4} : encode (.swp c rn rd sbz rm) = .arm f.word ↔
    f.cond = condBits c ∧
      (f.bits27to25 = 0#3 ∧ f.bit24 = true ∧ f.bit23 = false ∧ f.bit22 = false ∧ f.bit21 = false ∧ f.bit20 = false) ∧
      regOf f.rn = rn ∧ regOf f.rd = rd ∧ f.rs = sbz ∧ f.lo = 9#4 ∧ regOf f.rm = rm := by
  rw [encode, arm_eq_iff, op_eq_iff 0#3 true false false false false (by rfl), regOf_eq_iff, regOf_eq_iff, regOf_eq_iff]

theorem encode_swpb_eq_iff {rn rd rm : Reg} {sbz : BitVec 4} : encode (.swpb c rn rd sbz rm) = .arm f.word ↔
    f.cond = condBits c ∧
      (f.bits27to25 = 0#3 ∧ f.bit24 = true ∧ f.bit23 = false ∧ f.bit22 = true ∧ f.bit21 = false ∧ f.bit20 = false) ∧
      regOf f.rn = rn ∧ regOf f.rd = rd ∧ f.rs = sbz ∧ f.lo = 9#4 ∧ regOf f.rm = rm := by
  rw [encode, arm_eq_iff, op_eq_iff 0#3 true false true false false (by rfl), regOf_eq_iff, regOf_eq_iff, regOf_eq_iff]

/-- The first operand of an undefined word (R137): bits 24:5. -/
theorem undefinedBits_eq_iff {x : BitVec 20} : f.op.extractLsb' 0 5 ++ f.rn ++ f.rd ++ f.rs ++ f.lo.extractLsb' 1 3 = x ↔
    (((f.op.extractLsb' 0 5 = x.extractLsb' 15 5 ∧ f.rn = x.extractLsb' 11 4) ∧ f.rd = x.extractLsb' 7 4) ∧
      f.rs = x.extractLsb' 3 4) ∧ f.lo.extractLsb' 1 3 = x.extractLsb' 0 3 :=
  append_eq_iff.trans (and_congr_left' (append_eq_extract_iff.trans (and_congr_left' (append_eq_extract_iff.trans
    (and_congr_left' append_eq_extract_iff)))))

theorem encode_undefined_eq_iff {x20 : BitVec 20} {x4 : BitVec 4} : encode (.undefined c x20 x4) = .arm f.word ↔
    f.cond = condBits c ∧ f.bits27to25 = 3#3 ∧ f.bit4 = true ∧
      f.op.extractLsb' 0 5 ++ f.rn ++ f.rd ++ f.rs ++ f.lo.extractLsb' 1 3 = x20 ∧ f.rm = x4 := by
  have hop : f.op = 0b011#3 ++ x20.extractLsb' 15 5 ↔ f.bits27to25 = 3#3 ∧ f.op.extractLsb' 0 5 = x20.extractLsb' 15 5 := by
    rw [eq_comm, append_eq_iff, eq_comm, eq_comm (b := f.op.extractLsb' 0 5)]
    rfl
  rw [encode, arm_eq_iff, hop, undefinedBits_eq_iff, lo_eq_iff true (by rfl)]
  grind

theorem encode_cdp_eq_iff {opc crn crd cp crm : BitVec 4} {info : BitVec 3} :
    encode (.cdp c opc crn crd cp info crm) = .arm f.word ↔
    f.cond = condBits c ∧ (f.bits27to25 = 7#3 ∧ f.bit24 = false ∧ f.op.extractLsb' 0 4 = opc) ∧
      f.rn = crn ∧ f.rd = crd ∧ f.rs = cp ∧ (f.lo.extractLsb' 1 3 = info ∧ f.bit4 = false) ∧ f.rm = crm := by
  rw [encode, arm_eq_iff, op_eq_nibbles_iff, lo_eq_iff false (by rfl)]
  rfl

theorem encode_mcr_eq_iff {opc info : BitVec 3} {crn rd cp crm : BitVec 4} :
    encode (.mcr c opc crn rd cp info crm) = .arm f.word ↔
    f.cond = condBits c ∧ (f.bits27to25 = 7#3 ∧ f.bit24 = false ∧ f.op.extractLsb' 1 3 = opc ∧ f.bit20 = false) ∧
      f.rn = crn ∧ f.rd = rd ∧ f.rs = cp ∧ (f.lo.extractLsb' 1 3 = info ∧ f.bit4 = true) ∧ f.rm = crm := by
  rw [encode, arm_eq_iff, op_coprocessorRegister_iff false (by rfl), lo_eq_iff true (by rfl)]

theorem encode_mrc_eq_iff {opc info : BitVec 3} {crn rd cp crm : BitVec 4} :
    encode (.mrc c opc crn rd cp info crm) = .arm f.word ↔
    f.cond = condBits c ∧ (f.bits27to25 = 7#3 ∧ f.bit24 = false ∧ f.op.extractLsb' 1 3 = opc ∧ f.bit20 = true) ∧
      f.rn = crn ∧ f.rd = rd ∧ f.rs = cp ∧ (f.lo.extractLsb' 1 3 = info ∧ f.bit4 = true) ∧ f.rm = crm := by
  rw [encode, arm_eq_iff, op_coprocessorRegister_iff true (by rfl), lo_eq_iff true (by rfl)]

end

end Sys2Proof
end

section
/-! The 30_encoding.md statements, part 3: every ARM word decodes to a well-formed instruction whose code it is (R145). -/

namespace Sys2Proof

/-- The instruction is well-formed and this is its code. -/
def Instr.StandsFor (i : Instr) (k : Code) : Prop := i.wf = true ∧ encode i = k

variable {c : Cond} {f : ArmFields}

theorem decodeArm_reserved {w : BitVec 32} (hw : w.extractLsb' 28 4 = 15#4) :
    decodeArm w = .reservedCond (w.extractLsb' 0 28) := by
  simp only [decodeArm, condOf_eq_none.mpr (show (armFields w).cond = 15#4 from hw)]

theorem decodeArm_word (hc : f.cond = condBits c) : decodeArm f.word = decodeCategory c f f.category := by
  simp only [decodeArm, armFields_word, hc, condOf_condBits, classifyArm_word]

/-! ## Single and block transfers -/

theorem encode_decodeBlockTransfer (c : Cond) (f : ArmFields) : encode (decodeBlockTransfer c f) =
    encodeBlockTransfer f.bit24 f.bit23 f.bit20 c f.bit22 f.bit21 (regOf f.rn) f.low16 := by
  unfold decodeBlockTransfer
  cases f.bit20 <;> cases f.bit24 <;> cases f.bit23 <;> rfl

theorem blockTransfer_standsFor (hc : f.cond = condBits c) (h : f.bits27to25 = 4#3) :
    (decodeBlockTransfer c f).StandsFor (.arm f.word) := by
  refine ⟨?_, (encode_decodeBlockTransfer c f).trans ?_⟩
  · simp only [decodeBlockTransfer]
    split <;> rfl
  · exact encodeBlockTransfer_eq_iff.mpr ⟨hc, ⟨h, rfl, rfl, rfl, rfl, rfl⟩, rfl, rfl⟩

theorem encode_decodeSingleTransfer (c : Cond) (f : ArmFields) : encode (decodeSingleTransfer c f) =
    encodeSingleTransfer f.bit24 f.bit22 f.bit21 f.bit20 c f.bit23 (regOf f.rn) (regOf f.rd) f.transferOffset := by
  unfold decodeSingleTransfer
  cases f.bit20 <;> cases f.bit22 <;> cases f.bit24 <;> cases f.bit21 <;> rfl

theorem singleTransfer_standsFor (hc : f.cond = condBits c) (h : f.bits27to25 = 2#3 ∨ f.bits27to25 = 3#3 ∧ f.bit4 = false) :
    (decodeSingleTransfer c f).StandsFor (.arm f.word) := by
  refine ⟨?_, (encode_decodeSingleTransfer c f).trans ?_⟩
  · simp only [decodeSingleTransfer]
    split <;> rfl
  · exact encodeSingleTransfer_eq_iff.mpr ⟨hc, h, ⟨rfl, rfl, rfl, rfl, rfl⟩, rfl, rfl, rfl⟩

/-! ## Data processing -/

theorem encode_decodeDataProcessing (c : Cond) (f : ArmFields) : encode (decodeDataProcessing c f) =
    encodeDataProcessing (f.op.extractLsb' 1 4) c f.bit20 (regOf f.rn) (regOf f.rd) f.operand2 := by
  unfold decodeDataProcessing
  obtain h | h | h | h | h | h | h | h | h | h | h | h | h | h | h | h := bits4_cases (f.op.extractLsb' 1 4) <;>
    rw [h] <;> cases f.bit20 <;> rfl

theorem opcode_bits (f : ArmFields) :
    f.op.extractLsb' 1 4 = flagBit f.bit24 ++ flagBit f.bit23 ++ flagBit f.bit22 ++ flagBit f.bit21 := by
  simp only [ArmFields.bit24, ArmFields.bit23, ArmFields.bit22, ArmFields.bit21]
  generalize f.op = op
  revert op
  decide

theorem lo_eq_zero_iff : f.lo = 0#4 ↔ f.bit4 = false ∧ f.shiftType = .lsl ∧ f.lo.extractLsb' 3 1 = 0#1 := by
  simp only [ArmFields.bit4, ArmFields.shiftType]
  generalize f.lo = lo
  revert lo
  decide
theorem lo_eq_one_iff : f.lo = 1#4 ↔ f.bit4 = true ∧ f.shiftType = .lsl ∧ f.bit7 = false := by
  simp only [ArmFields.bit4, ArmFields.bit7, ArmFields.shiftType]
  generalize f.lo = lo
  revert lo
  decide

/-- The test whose opcode has these bits 22 and 21 (R127). -/
def testOpOf : Bool → Bool → TestOp
  | false, false => .tst
  | false, true => .teq
  | true, false => .cmp
  | true, true => .cmn

theorem testOpBits_iff {op : TestOp} :
    f.op.extractLsb' 1 4 = testOpBits op ↔ (f.bit24 = true ∧ f.bit23 = false) ∧ op = testOpOf f.bit22 f.bit21 := by
  rw [opcode_bits]
  generalize f.bit24 = p, f.bit23 = u, f.bit22 = b, f.bit21 = w
  revert p u b w
  cases op <;> decide

theorem regOf_eq_zero_iff {b : BitVec 4} : regOf b = 0 ↔ b = 0#4 := regOf_eq_iff
theorem regOf_eq_pc_iff {b : BitVec 4} : regOf b = 15 ↔ b = 15#4 := regOf_eq_iff
theorem shiftAmount_eq_zero_iff : f.shiftAmount = 0#5 ↔ f.rs = 0#4 ∧ f.lo.extractLsb' 3 1 = 0#1 := shiftAmount_eq_iff

/-- In the immediate form, the test opcodes with S = 0 that are data processing are those that are no MSR (R129, R305). -/
theorem psrSpaceNopOk_immediate_iff (hp : f.bit24 = true) (hu : f.bit23 = false) (hs : f.bit20 = false) (h : f.bits27to25 = 1#3) :
    psrSpaceNopOk (testOpOf f.bit22 f.bit21) (regOf f.rn) (regOf f.rd) (.imm f.rs f.low8) = true ↔ f.category = .dataProcessing := by
  rw [category_of_001 h]
  cases f.bit22 <;> cases hw : f.bit21 <;> simp [hp, hu, hs, testOpOf, psrSpaceNopOk, regOf_eq_pc_iff]

/-- In the register forms they are those that are no MRS, MSR or BX (R129, R133, R305). -/
theorem psrSpaceNopOk_register_iff (hp : f.bit24 = true) (hu : f.bit23 = false) (hs : f.bit20 = false)
    (h74 : ¬ (f.bit7 = true ∧ f.bit4 = true)) :
    psrSpaceNopOk (testOpOf f.bit22 f.bit21) (regOf f.rn) (regOf f.rd)
      (if f.bit4 then .regReg (regOf f.rm) f.shiftType (regOf f.rs) else .regImm (regOf f.rm) f.shiftType f.shiftAmount) = true ↔
      f.registerCategory = .dataProcessing := by
  unfold ArmFields.registerCategory
  cases h4 : f.bit4
  · cases f.bit22 <;> cases f.bit21 <;> cases ht : f.shiftType <;>
      simp [h4, hp, hu, hs, ht, testOpOf, psrSpaceNopOk, regOf_eq_pc_iff, regOf_eq_zero_iff, shiftAmount_eq_zero_iff,
        lo_eq_zero_iff, lo_eq_one_iff, not_and_or, or_assoc, or_comm, or_left_comm, -not_and]
  · have h7 : f.bit7 = false := by simpa [h4] using h74
    cases f.bit22 <;> cases f.bit21 <;> cases ht : f.shiftType <;>
      simp [h4, h7, hp, hu, hs, ht, testOpOf, psrSpaceNopOk, regOf_eq_pc_iff, lo_eq_zero_iff, lo_eq_one_iff,
        not_and_or, or_assoc, -not_and]

theorem psrSpaceNopOk_iff {op : TestOp} (hop : f.op.extractLsb' 1 4 = testOpBits op) (hs : f.bit20 = false)
    (h : f.inDataSpace) :
    psrSpaceNopOk op (regOf f.rn) (regOf f.rd) f.operand2 = true ↔ f.category = .dataProcessing := by
  obtain ⟨⟨hp, hu⟩, rfl⟩ := testOpBits_iff.mp hop
  obtain ⟨h0, h1, -, -⟩ := bit25_of_space f
  rw [operand2_eq_ite]
  obtain h | ⟨h, h74⟩ := h
  · rw [h1 h, if_pos rfl, psrSpaceNopOk_immediate_iff hp hu hs h]
  · rw [h0 h, if_neg Bool.false_ne_true, psrSpaceNopOk_register_iff hp hu hs h74, category_of_000 h, if_neg h74]

theorem decodeDataProcessing_wf (h : f.inDataSpace) (hk : f.category = .dataProcessing) : (decodeDataProcessing c f).wf = true := by
  have hok {op : TestOp} (hop : f.op.extractLsb' 1 4 = testOpBits op) (hs : f.bit20 = false) :=
    (psrSpaceNopOk_iff hop hs h).mpr hk
  simp only [decodeDataProcessing]
  split
  case h_9 h | h_10 h | h_11 h | h_12 h =>
    split
    · rfl
    · next hs => exact hok (BitVec.eq_of_toNat_eq h) (Bool.eq_false_iff.mpr hs)
  all_goals rfl

theorem dataProcessing_standsFor (hc : f.cond = condBits c)
    (h : f.inDataSpace) (hk : f.category = .dataProcessing) : (decodeDataProcessing c f).StandsFor (.arm f.word) :=
  ⟨decodeDataProcessing_wf h hk,
   (encode_decodeDataProcessing c f).trans (encodeDataProcessing_eq_iff.mpr ⟨hc, h, rfl, rfl, rfl, rfl, rfl⟩)⟩

/-! ## The words with bits 7 and 4 set: multiplies, swap and halfword transfers -/

theorem extensionCategory_of_lo_ne (h : f.lo ≠ 9#4) : f.extensionCategory = f.halfCategory := by
  simp [ArmFields.extensionCategory, h]

theorem lo_eq_nine_iff : f.lo = 9#4 ↔ f.bit7 = true ∧ f.lo.extractLsb' 1 2 = 0#2 ∧ f.bit4 = true :=
  lo_half_iff (sh := 0#2)

theorem decodeCategory_halfCategory (c : Cond) (f : ArmFields) :
    decodeCategory c f f.halfCategory = decodeHalfTransfer c f := by
  unfold ArmFields.halfCategory
  split <;> rfl

theorem halfSh00Ok_iff (h : f.lo = 9#4) :
    halfSh00Ok f.bit24 f.bit23 f.bit21 f.bit20 f.halfOffset = true ↔ f.extensionCategory = f.halfCategory := by
  unfold ArmFields.halfOffset ArmFields.extensionCategory ArmFields.halfCategory
  simp only [h]
  cases f.bit24 <;> cases f.bit23 <;> cases f.bit22 <;> cases f.bit21 <;> cases f.bit20 <;> simp [halfSh00Ok]

theorem encode_decodeHalfTransfer (c : Cond) (f : ArmFields) : encode (decodeHalfTransfer c f) =
    encodeHalfTransfer (f.lo.extractLsb' 1 2) f.bit20 c f.bit24 f.bit23 f.bit21 (regOf f.rn) (regOf f.rd) f.halfOffset := by
  have hsh : f.lo.extractLsb' 1 2 = flagBit (f.lo.getLsbD 2) ++ flagBit (f.lo.getLsbD 1) := by
    generalize f.lo = lo
    revert lo
    decide
  rw [hsh]
  unfold decodeHalfTransfer
  cases f.lo.getLsbD 2 <;> cases f.lo.getLsbD 1 <;> cases f.bit20 <;> rfl

theorem decodeHalfTransfer_wf (h : f.bit7 = true ∧ f.bit4 = true) (hk : f.extensionCategory = f.halfCategory) :
    (decodeHalfTransfer c f).wf = true := by
  have hlo : f.lo.getLsbD 2 = false → f.lo.getLsbD 1 = false → f.lo = 9#4 := by
    revert h
    unfold ArmFields.bit7 ArmFields.bit4
    generalize f.lo = lo
    revert lo
    decide
  unfold decodeHalfTransfer
  cases h2 : f.lo.getLsbD 2 <;> cases h1 : f.lo.getLsbD 1
  case false.false => exact (halfSh00Ok_iff (hlo h2 h1)).mpr hk
  all_goals cases f.bit20 <;> rfl

theorem halfTransfer_standsFor (hc : f.cond = condBits c) (h : f.bits27to25 = 0#3 ∧ f.bit7 = true ∧ f.bit4 = true)
    (hk : f.extensionCategory = f.halfCategory) : (decodeHalfTransfer c f).StandsFor (.arm f.word) :=
  ⟨decodeHalfTransfer_wf h.2 hk,
   (encode_decodeHalfTransfer c f).trans (encodeHalfTransfer_eq_iff.mpr ⟨hc, h, rfl, ⟨rfl, rfl, rfl, rfl⟩, rfl, rfl, rfl⟩)⟩

theorem multiply_standsFor (hc : f.cond = condBits c) (h : f.bits27to25 = 0#3)
    (hb : f.bit24 = false ∧ f.bit23 = false ∧ f.bit22 = false) (hlo : f.lo = 9#4) :
    (decodeMultiply c f).StandsFor (.arm f.word) := by
  obtain ⟨h24, h23, h22⟩ := hb
  unfold decodeMultiply
  cases h21 : f.bit21
  · exact ⟨rfl, (encodeMultiply_eq_iff (by rfl)).mpr ⟨hc, ⟨h, h24, h23, h22, h21, rfl⟩, rfl, rfl, rfl, hlo, rfl⟩⟩
  · exact ⟨rfl, (encodeMultiply_eq_iff (by rfl)).mpr ⟨hc, ⟨h, h24, h23, h22, h21, rfl⟩, rfl, rfl, rfl, hlo, rfl⟩⟩

theorem multiplyLong_standsFor (hc : f.cond = condBits c) (h : f.bits27to25 = 0#3)
    (hb : f.bit24 = false ∧ f.bit23 = true) (hlo : f.lo = 9#4) : (decodeMultiplyLong c f).StandsFor (.arm f.word) := by
  obtain ⟨h24, h23⟩ := hb
  unfold decodeMultiplyLong
  cases h22 : f.bit22 <;> cases h21 : f.bit21 <;>
    exact ⟨rfl, (encodeMultiply_eq_iff (by rfl)).mpr ⟨hc, ⟨h, h24, h23, h22, h21, rfl⟩, rfl, rfl, rfl, hlo, rfl⟩⟩

theorem swap_standsFor (hc : f.cond = condBits c) (h : f.bits27to25 = 0#3)
    (hb : f.bit24 = true ∧ f.bit23 = false ∧ f.bit21 = false ∧ f.bit20 = false) (hlo : f.lo = 9#4) :
    (decodeSwap c f).StandsFor (.arm f.word) := by
  obtain ⟨h24, h23, h21, h20⟩ := hb
  unfold decodeSwap
  cases h22 : f.bit22
  · exact ⟨rfl, encode_swp_eq_iff.mpr ⟨hc, ⟨h, h24, h23, h22, h21, h20⟩, rfl, rfl, rfl, hlo, rfl⟩⟩
  · exact ⟨rfl, encode_swpb_eq_iff.mpr ⟨hc, ⟨h, h24, h23, h22, h21, h20⟩, rfl, rfl, rfl, hlo, rfl⟩⟩

theorem extension_standsFor (hc : f.cond = condBits c) (h : f.bits27to25 = 0#3) (h74 : f.bit7 = true ∧ f.bit4 = true) :
    (decodeCategory c f f.extensionCategory).StandsFor (.arm f.word) := by
  have hhalf := halfTransfer_standsFor (c := c) hc ⟨h, h74⟩
  unfold ArmFields.extensionCategory at hhalf ⊢
  split_ifs at hhalf ⊢ with hswap hmul hlong
  · exact swap_standsFor hc h hswap.1 hswap.2
  · exact multiply_standsFor hc h hmul.1 hmul.2
  · exact multiplyLong_standsFor hc h hlong.1 hlong.2
  · rw [decodeCategory_halfCategory]
    exact hhalf rfl

/-! ## Every word -/

theorem register_standsFor (hc : f.cond = condBits c) (h : f.bits27to25 = 0#3) (h74 : ¬ (f.bit7 = true ∧ f.bit4 = true)) :
    (decodeCategory c f f.registerCategory).StandsFor (.arm f.word) := by
  have hcat : f.category = f.registerCategory := (category_of_000 h).trans (if_neg h74)
  have hdata := dataProcessing_standsFor hc (.inr ⟨h, h74⟩)
  rw [hcat] at hdata
  unfold ArmFields.registerCategory at hdata ⊢
  split_ifs at hdata ⊢ with hbx hmrs hmsr
  · obtain ⟨⟨h24, h23, h22, h21, h20⟩, hrn, hrd, hrs, hlo⟩ := hbx
    exact ⟨rfl, encode_bx_eq_iff.mpr ⟨hc, ⟨h, h24, h23, h22, h21, h20⟩, hrn, hrd, hrs, hlo, rfl⟩⟩
  · obtain ⟨⟨h24, h23, h21, h20⟩, hrn, hrs, hlo, hrm⟩ := hmrs
    exact ⟨rfl, encode_mrs_eq_iff.mpr ⟨hc, ⟨h, h24, h23, rfl, h21, h20⟩, hrn, rfl, hrs, hlo, hrm⟩⟩
  · obtain ⟨⟨h24, h23, h21, h20⟩, hrd, hrs, hlo⟩ := hmsr
    exact ⟨rfl, encode_msrReg_eq_iff.mpr ⟨hc, ⟨h, h24, h23, rfl, h21, h20⟩, rfl, hrd, hrs, hlo, rfl⟩⟩
  · exact hdata rfl

theorem branch_standsFor (hc : f.cond = condBits c) (h : f.bits27to25 = 5#3) : (decodeBranch c f).StandsFor (.arm f.word) := by
  unfold decodeBranch
  cases hb : f.bit24
  · exact ⟨rfl, encodeLow24_eq_iff.mpr ⟨hc, h, hb, rfl⟩⟩
  · exact ⟨rfl, encodeLow24_eq_iff.mpr ⟨hc, h, hb, rfl⟩⟩

theorem coprocessorTransfer_standsFor (hc : f.cond = condBits c) (h : f.bits27to25 = 6#3) :
    (decodeCoprocessorTransfer c f).StandsFor (.arm f.word) := by
  unfold decodeCoprocessorTransfer
  cases hl : f.bit20
  · exact ⟨rfl, encodeCoprocessorTransfer_eq_iff.mpr ⟨hc, ⟨h, rfl, rfl, rfl, rfl, hl⟩, rfl, rfl, rfl, rfl⟩⟩
  · exact ⟨rfl, encodeCoprocessorTransfer_eq_iff.mpr ⟨hc, ⟨h, rfl, rfl, rfl, rfl, hl⟩, rfl, rfl, rfl, rfl⟩⟩

theorem coprocessorRegister_standsFor (hc : f.cond = condBits c) (h : f.bits27to25 = 7#3) (hb : f.bit24 = false)
    (h4 : f.bit4 = true) : (decodeCoprocessorRegister c f).StandsFor (.arm f.word) := by
  unfold decodeCoprocessorRegister
  cases hl : f.bit20
  · exact ⟨rfl, encode_mcr_eq_iff.mpr ⟨hc, ⟨h, hb, rfl, hl⟩, rfl, rfl, rfl, ⟨rfl, h4⟩, rfl⟩⟩
  · exact ⟨rfl, encode_mrc_eq_iff.mpr ⟨hc, ⟨h, hb, rfl, hl⟩, rfl, rfl, rfl, ⟨rfl, h4⟩, rfl⟩⟩

theorem decodeCategory_standsFor (hc : f.cond = condBits c) : (decodeCategory c f f.category).StandsFor (.arm f.word) := by
  obtain h | h | h | h | h | h | h | h := bits3_cases f.bits27to25
  · rw [category_of_000 h]
    split_ifs with h74
    · exact extension_standsFor hc h h74
    · exact register_standsFor hc h h74
  · rw [category_of_001 h]
    split_ifs with hmsr
    · obtain ⟨⟨h24, h23, h21, h20⟩, hrd⟩ := hmsr
      exact ⟨rfl, encode_msrImm_eq_iff.mpr ⟨hc, ⟨h, h24, h23, rfl, h21, h20⟩, rfl, hrd, rfl, rfl⟩⟩
    · exact dataProcessing_standsFor hc (.inl h) ((category_of_001 h).trans (if_neg hmsr))
  · rw [category_of_010 h]
    exact singleTransfer_standsFor hc (.inl h)
  · rw [category_of_011 h]
    split_ifs with h4
    · exact ⟨rfl, encode_undefined_eq_iff.mpr ⟨hc, h, h4, rfl, rfl⟩⟩
    · exact singleTransfer_standsFor hc (.inr ⟨h, by simpa using h4⟩)
  · rw [category_of_100 h]
    exact blockTransfer_standsFor hc h
  · rw [category_of_101 h]
    exact branch_standsFor hc h
  · rw [category_of_110 h]
    exact coprocessorTransfer_standsFor hc h
  · rw [category_of_111 h]
    split_ifs with hb h4
    · exact ⟨rfl, encodeLow24_eq_iff.mpr ⟨hc, h, hb, rfl⟩⟩
    · exact coprocessorRegister_standsFor hc h (by simpa using hb) h4
    · exact ⟨rfl, encode_cdp_eq_iff.mpr ⟨hc, ⟨h, by simpa using hb, rfl⟩, rfl, rfl, rfl, ⟨rfl, by simpa using h4⟩, rfl⟩⟩

theorem encode_reservedCond_eq_iff {x28 : BitVec 28} {w : BitVec 32} : encode (.reservedCond x28) = .arm w ↔
    w.extractLsb' 28 4 = 15#4 ∧ w.extractLsb' 0 28 = x28 := by
  rw [encode, Code.arm.injEq, append_eq_iff, eq_comm, eq_comm (a := x28)]

theorem decodeArm_standsFor (w : BitVec 32) : (decodeArm w).StandsFor (.arm w) := by
  cases hc : condOf (armFields w).cond with
  | none =>
    have hw : w.extractLsb' 28 4 = 15#4 := condOf_eq_none.mp hc
    rw [decodeArm_reserved hw]
    exact ⟨rfl, encode_reservedCond_eq_iff.mpr ⟨hw, rfl⟩⟩
  | some c =>
    have hc := (condOf_eq_some hc).symm
    rw [← word_armFields w, decodeArm_word hc]
    exact decodeCategory_standsFor hc

end Sys2Proof
end

section
/-! The 30_encoding.md statements, part 4: an ARM word that is the code of a well-formed instruction decodes to it. -/

namespace Sys2Proof

section
variable {c : Cond} {f : ArmFields}

/-- A word in the data-processing space whose opcode is no test with S = 0 is data processing. -/
theorem category_of_opcode (hsp : f.inDataSpace) (h : f.op.extractLsb' 1 4 &&& 0b1100#4 = 0b1000#4 → f.bit20 = true) :
    f.category = .dataProcessing := by
  have hno : ¬ (f.bit24 = true ∧ f.bit23 = false ∧ f.bit20 = false) := by
    rintro ⟨h24, h23, h20⟩
    rw [opcode_bits, h24, h23, h20] at h
    revert h
    generalize f.bit22 = b, f.bit21 = w
    revert b w
    decide
  obtain hsp | ⟨hsp, h74⟩ := hsp
  · rw [category_of_001 hsp, if_neg (by tauto)]
  · rw [category_of_000 hsp, if_neg h74, ArmFields.registerCategory, if_neg (by tauto), if_neg (by tauto), if_neg (by tauto)]

theorem decodeArm_dataProcessing (hc : f.cond = condBits c) (hk : f.category = .dataProcessing) :
    decodeArm f.word = decodeDataProcessing c f := by
  rw [decodeArm_word hc, hk]
  rfl

theorem decodeArm_singleTransfer (hc : f.cond = condBits c) (hsp : f.bits27to25 = 2#3 ∨ f.bits27to25 = 3#3 ∧ f.bit4 = false) :
    decodeArm f.word = decodeSingleTransfer c f := by
  rw [decodeArm_word hc]
  obtain hsp | ⟨hsp, h4⟩ := hsp
  · rw [category_of_010 hsp]; rfl
  · rw [category_of_011 hsp, if_neg (by simp [h4])]; rfl

theorem bits74_of_lo (h : f.lo = 9#4) : f.bit7 = true ∧ f.bit4 = true := (lo_values f).1 h

/-- Bits 6:5 (S H of R135) one by one. -/
theorem bits65 (f : ArmFields) : f.lo.getLsbD 2 = (f.lo.extractLsb' 1 2).getLsbD 1 ∧
    f.lo.getLsbD 1 = (f.lo.extractLsb' 1 2).getLsbD 0 := by
  simp

theorem extensionCategory_of_sh (hsh : f.lo.extractLsb' 1 2 ≠ 0#2) : f.extensionCategory = f.halfCategory :=
  extensionCategory_of_lo_ne fun h => hsh (lo_eq_nine_iff.mp h).2.1

theorem decodeArm_multiply (hc : f.cond = condBits c) (hsp : f.bits27to25 = 0#3) (h24 : f.bit24 = false)
    (h23 : f.bit23 = false) (h22 : f.bit22 = false) (hlo : f.lo = 9#4) : decodeArm f.word = decodeMultiply c f := by
  rw [decodeArm_word hc, category_of_000 hsp, if_pos (bits74_of_lo hlo), ArmFields.extensionCategory, if_neg (by simp [h24]),
    if_pos (by simp [h24, h23, h22, hlo])]
  rfl

theorem decodeArm_multiplyLong (hc : f.cond = condBits c) (hsp : f.bits27to25 = 0#3) (h24 : f.bit24 = false)
    (h23 : f.bit23 = true) (hlo : f.lo = 9#4) : decodeArm f.word = decodeMultiplyLong c f := by
  rw [decodeArm_word hc, category_of_000 hsp, if_pos (bits74_of_lo hlo), ArmFields.extensionCategory, if_neg (by simp [h24]),
    if_neg (by simp [h23]), if_pos (by simp [h24, h23, hlo])]
  rfl

theorem decodeArm_swap (hc : f.cond = condBits c) (hsp : f.bits27to25 = 0#3) (h24 : f.bit24 = true) (h23 : f.bit23 = false)
    (h21 : f.bit21 = false) (h20 : f.bit20 = false) (hlo : f.lo = 9#4) : decodeArm f.word = decodeSwap c f := by
  rw [decodeArm_word hc, category_of_000 hsp, if_pos (bits74_of_lo hlo), ArmFields.extensionCategory,
    if_pos (by simp [h24, h23, h21, h20, hlo])]
  rfl

theorem decodeArm_half (hc : f.cond = condBits c) (hsp : f.bits27to25 = 0#3 ∧ f.bit7 = true ∧ f.bit4 = true)
    (hk : f.extensionCategory = f.halfCategory) :
    decodeArm f.word = decodeHalfTransfer c f := by
  rw [decodeArm_word hc, category_of_000 hsp.1, if_pos hsp.2, hk, decodeCategory_halfCategory]

end

theorem decodeArm_of_encode {i : Instr} (hwf : i.wf = true) {f : ArmFields} (h : encode i = .arm f.word) :
    decodeArm f.word = i := by
  cases i with
  | and | eor | sub | rsb | add | adc | sbc | rsc | orr | mov | bic | mvn =>
    obtain ⟨hc, hsp, hop, rfl, rfl, rfl, rfl⟩ := encodeDataProcessing_eq_iff.mp h
    rw [decodeArm_dataProcessing hc (category_of_opcode hsp (by simp [hop])), decodeDataProcessing, hop]
    rfl
  | tst | teq | cmp | cmn =>
    obtain ⟨hc, hsp, hop, hs, rfl, rfl, rfl⟩ := encodeDataProcessing_eq_iff.mp h
    rw [decodeArm_dataProcessing hc (category_of_opcode hsp fun _ => hs), decodeDataProcessing, hop, hs]
    rfl
  | psrSpaceNop c op =>
    obtain ⟨hc, hsp, hop, hs, rfl, rfl, rfl⟩ := encodeDataProcessing_eq_iff.mp h
    rw [decodeArm_dataProcessing hc ((psrSpaceNopOk_iff hop hs hsp).mp hwf), decodeDataProcessing, hop, hs]
    cases op <;> rfl
  | ldrPre | ldrbPre | strPre | strbPre =>
    obtain ⟨hc, hsp, ⟨h24, rfl, h22, rfl, h20⟩, rfl, rfl, rfl⟩ := encodeSingleTransfer_eq_iff.mp h
    rw [decodeArm_singleTransfer hc hsp, decodeSingleTransfer, h20, h22, h24]
  | ldrPost | ldrbPost | strPost | strbPost | ldrt | ldrbt | strt | strbt =>
    obtain ⟨hc, hsp, ⟨h24, rfl, h22, h21, h20⟩, rfl, rfl, rfl⟩ := encodeSingleTransfer_eq_iff.mp h
    rw [decodeArm_singleTransfer hc hsp, decodeSingleTransfer, h20, h22, h24, h21]
  | ldrh | strh | ldrsb | ldrsh =>
    obtain ⟨hc, hsp, hsh, ⟨rfl, rfl, rfl, h20⟩, rfl, rfl, rfl⟩ := encodeHalfTransfer_eq_iff.mp h
    rw [decodeArm_half hc hsp (extensionCategory_of_sh (by simp [hsh])), decodeHalfTransfer, (bits65 f).1, (bits65 f).2,
      hsh, h20]
    rfl
  | signedStore c p u w b =>
    obtain ⟨hc, hsp, hsh, ⟨rfl, rfl, rfl, h20⟩, rfl, rfl, rfl⟩ := encodeHalfTransfer_eq_iff.mp h
    have hne : f.lo.extractLsb' 1 2 ≠ 0#2 := by rw [hsh]; cases b <;> decide
    rw [decodeArm_half hc hsp (extensionCategory_of_sh hne), decodeHalfTransfer, (bits65 f).1, (bits65 f).2, hsh, h20]
    cases b <;> rfl
  | halfSh00 =>
    obtain ⟨hc, hsp, hsh, ⟨rfl, rfl, rfl, rfl⟩, rfl, rfl, rfl⟩ := encodeHalfTransfer_eq_iff.mp h
    have hlo : f.lo = 9#4 := lo_eq_nine_iff.mpr ⟨hsp.2.1, hsh, hsp.2.2⟩
    rw [decodeArm_half hc hsp ((halfSh00Ok_iff hlo).mp hwf), decodeHalfTransfer, (bits65 f).1, (bits65 f).2, hsh]
    rfl
  | mul | mla =>
    obtain ⟨hc, ⟨hsp, h24, h23, h22, h21, rfl⟩, rfl, rfl, rfl, hlo, rfl⟩ := (encodeMultiply_eq_iff (by rfl)).mp h
    rw [decodeArm_multiply hc hsp h24 h23 h22 hlo, decodeMultiply, h21]
    rfl
  | umull | umlal | smull | smlal =>
    obtain ⟨hc, ⟨hsp, h24, h23, h22, h21, rfl⟩, rfl, rfl, rfl, hlo, rfl⟩ := (encodeMultiply_eq_iff (by rfl)).mp h
    rw [decodeArm_multiplyLong hc hsp h24 h23 hlo, decodeMultiplyLong, h22, h21]
    rfl
  | swp =>
    obtain ⟨hc, ⟨hsp, h24, h23, h22, h21, h20⟩, rfl, rfl, rfl, hlo, rfl⟩ := encode_swp_eq_iff.mp h
    rw [decodeArm_swap hc hsp h24 h23 h21 h20 hlo, decodeSwap, h22]
    rfl
  | swpb =>
    obtain ⟨hc, ⟨hsp, h24, h23, h22, h21, h20⟩, rfl, rfl, rfl, hlo, rfl⟩ := encode_swpb_eq_iff.mp h
    rw [decodeArm_swap hc hsp h24 h23 h21 h20 hlo, decodeSwap, h22]
    rfl
  | mrs =>
    obtain ⟨hc, ⟨hsp, h24, h23, rfl, h21, h20⟩, hrn, rfl, hrs, hlo, hrm⟩ := encode_mrs_eq_iff.mp h
    rw [decodeArm_word hc, category_of_000 hsp, if_neg (by simp [(lo_values f).2.1 hlo]), ArmFields.registerCategory,
      if_neg (by simp [h21]), if_pos ⟨⟨h24, h23, h21, h20⟩, hrn, hrs, hlo, hrm⟩]
    rfl
  | msrReg =>
    obtain ⟨hc, ⟨hsp, h24, h23, rfl, h21, h20⟩, rfl, hrd, hrs, hlo, rfl⟩ := encode_msrReg_eq_iff.mp h
    rw [decodeArm_word hc, category_of_000 hsp, if_neg (by simp [(lo_values f).2.1 hlo]), ArmFields.registerCategory,
      if_neg (by simp [hlo]), if_neg (by simp [h21]), if_pos ⟨⟨h24, h23, h21, h20⟩, hrd, hrs, hlo⟩]
    rfl
  | msrImm =>
    obtain ⟨hc, ⟨hsp, h24, h23, rfl, h21, h20⟩, rfl, hrd, rfl, rfl⟩ := encode_msrImm_eq_iff.mp h
    rw [decodeArm_word hc, category_of_001 hsp, if_pos ⟨⟨h24, h23, h21, h20⟩, hrd⟩]
    rfl
  | bx =>
    obtain ⟨hc, ⟨hsp, h24, h23, h22, h21, h20⟩, hrn, hrd, hrs, hlo, rfl⟩ := encode_bx_eq_iff.mp h
    rw [decodeArm_word hc, category_of_000 hsp, if_neg (by simp [(lo_values f).2.2 hlo]), ArmFields.registerCategory,
      if_pos ⟨⟨h24, h23, h22, h21, h20⟩, hrn, hrd, hrs, hlo⟩]
    rfl
  | ldmia | ldmib | ldmda | ldmdb | stmia | stmib | stmda | stmdb =>
    obtain ⟨hc, ⟨hsp, h24, h23, rfl, rfl, h20⟩, rfl, rfl⟩ := encodeBlockTransfer_eq_iff.mp h
    rw [decodeArm_word hc, category_of_100 hsp, decodeCategory, decodeBlockTransfer, h20, h24, h23]
  | b | bl =>
    obtain ⟨hc, hsp, h24, rfl⟩ := encodeLow24_eq_iff.mp h
    rw [decodeArm_word hc, category_of_101 hsp, decodeCategory, decodeBranch, h24]
    rfl
  | swi =>
    obtain ⟨hc, hsp, h24, rfl⟩ := encodeLow24_eq_iff.mp h
    rw [decodeArm_word hc, category_of_111 hsp, h24]
    rfl
  | undefined =>
    obtain ⟨hc, hsp, h4, rfl, rfl⟩ := encode_undefined_eq_iff.mp h
    rw [decodeArm_word hc, category_of_011 hsp, if_pos h4]
    rfl
  | ldc | stc =>
    obtain ⟨hc, ⟨hsp, rfl, rfl, rfl, rfl, h20⟩, rfl, rfl, rfl, rfl⟩ := encodeCoprocessorTransfer_eq_iff.mp h
    rw [decodeArm_word hc, category_of_110 hsp, decodeCategory, decodeCoprocessorTransfer, h20]
    rfl
  | cdp =>
    obtain ⟨hc, ⟨hsp, h24, rfl⟩, rfl, rfl, rfl, ⟨rfl, h4⟩, rfl⟩ := encode_cdp_eq_iff.mp h
    rw [decodeArm_word hc, category_of_111 hsp, h24, h4]
    rfl
  | mcr c =>
    obtain ⟨hc, ⟨hsp, h24, rfl, h20⟩, rfl, rfl, rfl, ⟨rfl, h4⟩, rfl⟩ := encode_mcr_eq_iff.mp h
    rw [decodeArm_word hc, category_of_111 hsp, h24, h4]
    change decodeCoprocessorRegister c f = _
    rw [decodeCoprocessorRegister, h20]
    rfl
  | mrc c =>
    obtain ⟨hc, ⟨hsp, h24, rfl, h20⟩, rfl, rfl, rfl, ⟨rfl, h4⟩, rfl⟩ := encode_mrc_eq_iff.mp h
    rw [decodeArm_word hc, category_of_111 hsp, h24, h4]
    change decodeCoprocessorRegister c f = _
    rw [decodeCoprocessorRegister, h20]
    rfl
  | reservedCond =>
    obtain ⟨hc, rfl⟩ := encode_reservedCond_eq_iff.mp h
    exact decodeArm_reserved hc
  | _ => exact nomatch h

end Sys2Proof
end

section
/-! The 30_encoding.md statements, part 5: the format of a Thumb halfword (R179) read off its bits 15:12, and which halfwords a
layout is the code of (R160 to R178, R180). -/

namespace Sys2Proof

/-! ## The format of a halfword -/

/-- The format of a halfword, by its bits 15:12. -/
def thumbFormat (h : Half) : ThumbFormat :=
  match (h.extractLsb' 12 4).toNat with
  | 0 => .moveShiftedRegister
  | 1 => if h.getLsbD 11 then .addSubtract else .moveShiftedRegister
  | 2 | 3 => .moveCompareAddSubtractImmediate
  | 4 =>
    if h.getLsbD 11 then .pcRelativeLoad
    else if h.getLsbD 10 then .hiRegisterOperationsBranchExchange
    else .aluOperations
  | 5 => if h.getLsbD 9 then .loadStoreSignExtended else .loadStoreRegisterOffset
  | 6 | 7 => .loadStoreImmediateOffset
  | 8 => .loadStoreHalfword
  | 9 => .spRelativeLoadStore
  | 10 => .loadAddress
  | 11 =>
    if h.getLsbD 10 && !h.getLsbD 9 then .pushPopRegisters
    else if h.extractLsb' 8 4 = 0#4 then .addOffsetToStackPointer
    else .thumbUndefined
  | 12 => .multipleLoadStore
  | 13 =>
    if h.extractLsb' 8 4 = 15#4 then .softwareInterrupt
    else if h.extractLsb' 8 4 = 14#4 then .thumbUndefined
    else .conditionalBranch
  | 14 => if h.getLsbD 11 then .thumbUndefined else .unconditionalBranch
  | _ => .longBranchWithLink

theorem half_and_eq_iff (h m p : Half) : h &&& m = p ↔
    h.extractLsb' 8 8 &&& m.extractLsb' 8 8 = p.extractLsb' 8 8 ∧ h.extractLsb' 0 8 &&& m.extractLsb' 0 8 = p.extractLsb' 0 8 := by
  rw [← BitVec.extractLsb'_and, ← BitVec.extractLsb'_and]
  exact eq_iff_parts (v := 8) (w := 8)

/-- What the classification reads of a halfword, read off its high byte. -/
theorem highByte_slices (h : Half) : h.extractLsb' 12 4 = (h.extractLsb' 8 8).extractLsb' 4 4 ∧
    h.extractLsb' 11 5 = (h.extractLsb' 8 8).extractLsb' 3 5 ∧ h.extractLsb' 10 6 = (h.extractLsb' 8 8).extractLsb' 2 6 ∧
    h.extractLsb' 9 7 = (h.extractLsb' 8 8).extractLsb' 1 7 ∧ h.extractLsb' 8 4 = (h.extractLsb' 8 8).extractLsb' 0 4 ∧
    h.getLsbD 11 = (h.extractLsb' 8 8).getLsbD 3 ∧ h.getLsbD 10 = (h.extractLsb' 8 8).getLsbD 2 ∧
    h.getLsbD 9 = (h.extractLsb' 8 8).getLsbD 1 := by
  simp [extract_extract]

theorem classifyThumb_eq (h : Half) : classifyThumb h = thumbFormat h := by
  obtain ⟨h12, -, -, -, h8, hb11, hb10, hb9⟩ := highByte_slices h
  simp only [classifyThumb, thumbRows, List.find?_cons, List.find?_nil, beq_eq_decide, half_and_eq_iff, thumbFormat,
    h12, h8, hb11, hb10, hb9, BitVec.reduceExtractLsb', BitVec.and_zero, and_true]
  generalize h.extractLsb' 8 8 = hi
  revert hi
  decide

/-- The undefined halfwords are the six rows of R180 and condition 1110 (R601). -/
theorem thumbFormat_eq_undefined_iff (h : Half) : thumbFormat h = .thumbUndefined ↔
    h.extractLsb' 11 5 = 0b11101#5 ∨ h.extractLsb' 8 8 = 0xDE#8 ∨ h.extractLsb' 8 8 = 0xB1#8 ∨ h.extractLsb' 9 7 = 0b1011001#7 ∨
      h.extractLsb' 9 7 = 0b1011011#7 ∨ h.extractLsb' 10 6 = 0b101110#6 ∨ h.extractLsb' 9 7 = 0b1011111#7 := by
  obtain ⟨h12, h11, h10, h9, h8, hb11, hb10, hb9⟩ := highByte_slices h
  simp only [thumbFormat, h12, h11, h10, h9, h8, hb11, hb10, hb9]
  generalize h.extractLsb' 8 8 = hi
  revert hi
  decide

/-- A row of the undefined halfwords leaves the rows before it unmatched. -/
theorem undefinedRows_disjoint (h : Half) :
    (h.extractLsb' 8 8 = 0xDE#8 → h.extractLsb' 11 5 ≠ 0b11101#5) ∧
    (h.extractLsb' 8 8 = 0xB1#8 → h.extractLsb' 11 5 ≠ 0b11101#5) ∧
    (h.extractLsb' 9 7 = 0b1011001#7 → h.extractLsb' 11 5 ≠ 0b11101#5 ∧ h.extractLsb' 8 8 ≠ 0xDE#8 ∧ h.extractLsb' 8 8 ≠ 0xB1#8) ∧
    (h.extractLsb' 9 7 = 0b1011011#7 → h.extractLsb' 11 5 ≠ 0b11101#5 ∧ h.extractLsb' 8 8 ≠ 0xDE#8 ∧ h.extractLsb' 8 8 ≠ 0xB1#8) ∧
    (h.extractLsb' 10 6 = 0b101110#6 → h.extractLsb' 11 5 ≠ 0b11101#5 ∧ h.extractLsb' 8 8 ≠ 0xDE#8 ∧ h.extractLsb' 8 8 ≠ 0xB1#8 ∧
      h.extractLsb' 9 7 ≠ 0b1011001#7 ∧ h.extractLsb' 9 7 ≠ 0b1011011#7) ∧
    (h.extractLsb' 9 7 = 0b1011111#7 → h.extractLsb' 11 5 ≠ 0b11101#5 ∧ h.extractLsb' 8 8 ≠ 0xDE#8 ∧ h.extractLsb' 8 8 ≠ 0xB1#8 ∧
      h.extractLsb' 10 6 ≠ 0b101110#6) := by
  obtain ⟨-, h11, h10, h9, -⟩ := highByte_slices h
  simp only [h11, h10, h9]
  generalize h.extractLsb' 8 8 = hi
  revert hi
  decide

theorem decodeThumb_eq (h : Half) : decodeThumb h = decodeFormat h (thumbFormat h) := by rw [decodeThumb, classifyThumb_eq]

/-! ## The leading bits of a halfword, split as the decoder reads them -/

section
variable {h : Half}

/-- The operation field of formats 1, 3 and 9 lies across bits 15:12 and bit 11. -/
theorem bits12to11 (h : Half) : h.extractLsb' 11 2 = (h.extractLsb' 12 4).extractLsb' 0 1 ++ flagBit (h.getLsbD 11) := by
  rw [extract_extract (h := by decide), flagBit_getLsbD_eq]
  exact (append_eq_extract_iff (v := 1) (w := 1).mpr ⟨rfl, rfl⟩).symm

theorem leading5_iff {op : BitVec 5} :
    h.extractLsb' 11 5 = op ↔ h.extractLsb' 12 4 = op.extractLsb' 1 4 ∧ h.getLsbD 11 = op.getLsbD 0 := by
  rw [← extract_succ_eq_iff, BitVec.extractLsb'_eq_self]

theorem leading7_iff {op : BitVec 7} : h.extractLsb' 9 7 = op ↔ h.extractLsb' 12 4 = op.extractLsb' 3 4 ∧
    h.getLsbD 11 = op.getLsbD 2 ∧ h.getLsbD 10 = op.getLsbD 1 ∧ h.getLsbD 9 = op.getLsbD 0 := by
  simp only [← and_assoc, ← extract_succ_eq_iff, BitVec.extractLsb'_eq_self]

theorem leading8_iff {op : BitVec 8} : h.extractLsb' 8 8 = op ↔
    h.extractLsb' 12 4 = op.extractLsb' 4 4 ∧ h.extractLsb' 8 4 = op.extractLsb' 0 4 := by
  conv_lhs => rw [← BitVec.extractLsb'_eq_self (x := op)]
  exact extract_eq_extract_iff (v := 4) (w := 4)

theorem leading9_iff {op : BitVec 9} : h.extractLsb' 7 9 = op ↔
    (h.extractLsb' 12 4 = op.extractLsb' 5 4 ∧ h.extractLsb' 8 4 = op.extractLsb' 1 4) ∧ h.getLsbD 7 = op.getLsbD 0 := by
  conv_lhs => rw [← BitVec.extractLsb'_eq_self (x := op)]
  exact extract_succ_eq_iff.trans (and_congr_left' (extract_eq_extract_iff (v := 4) (w := 4)))

/-- Bits 15:10, the ones above the operation fields of formats 4 and 5. -/
theorem leading6_iff {n t : Nat} {op : BitVec n} : h.extractLsb' 10 6 = op.extractLsb' t 6 ↔
    h.extractLsb' 12 4 = op.extractLsb' (t + 2) 4 ∧ h.getLsbD 11 = op.getLsbD (t + 1) ∧ h.getLsbD 10 = op.getLsbD t := by
  simp only [← and_assoc, ← extract_succ_eq_iff]

theorem leading10_iff {op : BitVec 10} : h.extractLsb' 6 10 = op ↔ (h.extractLsb' 12 4 = op.extractLsb' 6 4 ∧
    h.getLsbD 11 = op.getLsbD 5 ∧ h.getLsbD 10 = op.getLsbD 4) ∧ h.extractLsb' 6 4 = op.extractLsb' 0 4 := by
  conv_lhs => rw [← BitVec.extractLsb'_eq_self (x := op)]
  exact (extract_eq_extract_iff (v := 6) (w := 4)).trans (and_congr_left' leading6_iff)

/-- The high byte as format 5 reads it: bits 15:10, then the operation in bits 9:8. -/
theorem leading8Hi_iff {op : BitVec 8} : h.extractLsb' 8 8 = op ↔ (h.extractLsb' 12 4 = op.extractLsb' 4 4 ∧
    h.getLsbD 11 = op.getLsbD 3 ∧ h.getLsbD 10 = op.getLsbD 2) ∧ h.extractLsb' 8 2 = op.extractLsb' 0 2 := by
  conv_lhs => rw [← BitVec.extractLsb'_eq_self (x := op)]
  exact (extract_eq_extract_iff (v := 6) (w := 2)).trans (and_congr_left' leading6_iff)

/-! ## Which halfwords a layout is the code of -/

theorem lowRegOf_eq_iff {b : BitVec 3} {r : LowReg} : lowRegOf b = r ↔ b = lowRegBits r :=
  ⟨fun h => by rw [← h, lowRegBits_lowRegOf], fun h => by rw [h, lowRegOf_lowRegBits]⟩

theorem thumb5533_eq_iff {op x : BitVec 5} {r2 r1 : LowReg} :
    thumb5533 op x (lowRegBits r2) (lowRegBits r1) = .thumb h ↔
    (h.extractLsb' 12 4 = op.extractLsb' 1 4 ∧ h.getLsbD 11 = op.getLsbD 0) ∧
      h.extractLsb' 6 5 = x ∧ lowRegOf (h.extractLsb' 3 3) = r2 ∧ lowRegOf (h.extractLsb' 0 3) = r1 := by
  rw [thumb5533, Code.thumb.injEq, lowRegOf_eq_iff, lowRegOf_eq_iff, ← leading5_iff]
  refine (append_eq_iff.trans (and_congr_left' (append_eq_extract_iff.trans (and_congr_left' append_eq_extract_iff)))).trans ?_
  grind

theorem thumb7333_eq_iff {op : BitVec 7} {x : BitVec 3} {r2 r1 : LowReg} :
    thumb7333 op x (lowRegBits r2) (lowRegBits r1) = .thumb h ↔
    (h.extractLsb' 12 4 = op.extractLsb' 3 4 ∧
      h.getLsbD 11 = op.getLsbD 2 ∧ h.getLsbD 10 = op.getLsbD 1 ∧ h.getLsbD 9 = op.getLsbD 0) ∧
      h.extractLsb' 6 3 = x ∧ lowRegOf (h.extractLsb' 3 3) = r2 ∧ lowRegOf (h.extractLsb' 0 3) = r1 := by
  rw [thumb7333, Code.thumb.injEq, lowRegOf_eq_iff, lowRegOf_eq_iff, ← leading7_iff]
  refine (append_eq_iff.trans (and_congr_left' (append_eq_extract_iff.trans (and_congr_left' append_eq_extract_iff)))).trans ?_
  grind

theorem thumbA33_eq_iff {op : BitVec 10} {r2 r1 : LowReg} : thumbA33 op (lowRegBits r2) (lowRegBits r1) = .thumb h ↔
    ((h.extractLsb' 12 4 = op.extractLsb' 6 4 ∧ h.getLsbD 11 = op.getLsbD 5 ∧ h.getLsbD 10 = op.getLsbD 4) ∧
      h.extractLsb' 6 4 = op.extractLsb' 0 4) ∧ lowRegOf (h.extractLsb' 3 3) = r2 ∧ lowRegOf (h.extractLsb' 0 3) = r1 := by
  rw [thumbA33, Code.thumb.injEq, lowRegOf_eq_iff, lowRegOf_eq_iff, ← leading10_iff]
  refine (append_eq_iff.trans (and_congr_left' append_eq_extract_iff)).trans ?_
  grind

theorem thumb538_eq_iff {op : BitVec 5} {r : LowReg} {x : BitVec 8} : thumb538 op (lowRegBits r) x = .thumb h ↔
    (h.extractLsb' 12 4 = op.extractLsb' 1 4 ∧ h.getLsbD 11 = op.getLsbD 0) ∧
      lowRegOf (h.extractLsb' 8 3) = r ∧ h.extractLsb' 0 8 = x := by
  rw [thumb538, Code.thumb.injEq, lowRegOf_eq_iff, ← leading5_iff]
  refine (append_eq_iff.trans (and_congr_left' append_eq_extract_iff)).trans ?_
  grind

theorem thumb5B_eq_iff {op : BitVec 5} {x : BitVec 11} :
    thumb5B op x = .thumb h ↔ h.extractLsb' 11 5 = op ∧ h.extractLsb' 0 11 = x := by
  rw [thumb5B, Code.thumb.injEq, append_eq_iff, eq_comm, eq_comm (a := x)]

theorem thumb88_eq_iff {op x : BitVec 8} :
    thumb88 op x = .thumb h ↔ h.extractLsb' 8 8 = op ∧ h.extractLsb' 0 8 = x := by
  rw [thumb88, Code.thumb.injEq, append_eq_iff, eq_comm, eq_comm (a := x)]

theorem thumb97_eq_iff {op : BitVec 9} {x : BitVec 7} :
    thumb97 op x = .thumb h ↔ h.extractLsb' 7 9 = op ∧ h.extractLsb' 0 7 = x := by
  rw [thumb97, Code.thumb.injEq, append_eq_iff, eq_comm, eq_comm (a := x)]

theorem thumb79_eq_iff {op : BitVec 7} {x : BitVec 9} :
    thumb79 op x = .thumb h ↔ h.extractLsb' 9 7 = op ∧ h.extractLsb' 0 9 = x := by
  rw [thumb79, Code.thumb.injEq, append_eq_iff, eq_comm, eq_comm (a := x)]

theorem thumb6A_eq_iff {op : BitVec 6} {x : BitVec 10} :
    thumb6A op x = .thumb h ↔ h.extractLsb' 10 6 = op ∧ h.extractLsb' 0 10 = x := by
  rw [thumb6A, Code.thumb.injEq, append_eq_iff, eq_comm, eq_comm (a := x)]

theorem thumb88_flag_eq_iff {op : BitVec 7} {r : Bool} {x : BitVec 8} : thumb88 (op ++ flagBit r) x = .thumb h ↔
    h.extractLsb' 9 7 = op ∧ h.getLsbD 8 = r ∧ h.extractLsb' 0 8 = x := by
  rw [thumb88_eq_iff, eq_comm, append_eq_extract_iff, ← flagBit_getLsbD_eq, flagBit_inj]
  grind

theorem thumb88_cond_eq_iff {op : BitVec 4} {c : Cond} {x : BitVec 8} : thumb88 (op ++ condBits c) x = .thumb h ↔
    h.extractLsb' 12 4 = op ∧ h.extractLsb' 8 4 = condBits c ∧ h.extractLsb' 0 8 = x := by
  rw [thumb88_eq_iff, eq_comm, append_eq_extract_iff]
  grind

theorem thumbHi_eq_iff {op : BitVec 8} {rs rd : BitVec 4} : thumbHi op rs rd = .thumb h ↔
    ((h.extractLsb' 12 4 = op.extractLsb' 4 4 ∧ h.getLsbD 11 = op.getLsbD 3 ∧ h.getLsbD 10 = op.getLsbD 2) ∧
      h.extractLsb' 8 2 = op.extractLsb' 0 2) ∧
      h.extractLsb' 6 1 ++ h.extractLsb' 3 3 = rs ∧ h.extractLsb' 7 1 ++ h.extractLsb' 0 3 = rd := by
  rw [thumbHi, Code.thumb.injEq, ← leading8Hi_iff]
  refine (append_eq_iff.trans (and_congr_left' (append_eq_extract_iff.trans (and_congr_left' (append_eq_extract_iff.trans
    (and_congr_left' append_eq_extract_iff)))))).trans ?_
  rw [append_eq_iff (v := 1) (w := 3) (x := rs), append_eq_iff (v := 1) (w := 3) (x := rd)]
  grind

end

end Sys2Proof
end

section
/-! The 30_encoding.md statements, part 6: a halfword decodes to the instruction it is the code of, and every halfword is the
code of one. -/

namespace Sys2Proof

theorem bit7_eq (h : Half) : h.getLsbD 7 = (h.extractLsb' 7 1).getLsbD 0 := by simp
theorem bit10_eq (h : Half) : h.getLsbD 10 = (h.extractLsb' 8 4).getLsbD 2 := by simp

/-- Format 16 (R175): the constructor is chosen by the range of the condition. -/
theorem decodeFormat_condBranch {h : Half} {c : Cond} (htop : h.extractLsb' 12 4 = 13#4) (h8 : h.extractLsb' 8 4 = condBits c)
    (hc : c.toNat < 14) : decodeFormat h (thumbFormat h) =
      if c.toNat < 8 then .tBCond0to7 c (h.extractLsb' 0 8)
      else if c.toNat < 12 then .tBCond8to11 c (h.extractLsb' 0 8)
      else .tBCond12to13 c (h.extractLsb' 0 8) := by
  have hne : condBits c ≠ 15#4 ∧ condBits c ≠ 14#4 := by
    revert hc
    cases c <;> decide
  have hk : thumbFormat h = .conditionalBranch := by
    rw [thumbFormat, htop, h8]
    exact (if_neg hne.1).trans (if_neg hne.2)
  rw [hk, decodeFormat, decodeThumbCondBranch, h8, condOf_condBits]

/-- A halfword that is the code of a well-formed instruction decodes to it. -/
theorem decodeThumb_of_encode {i : Instr} (hwf : i.wf = true) {h : Half} (he : encode i = .thumb h) : decodeThumb h = i := by
  rw [decodeThumb_eq]
  cases i with
  | tLslImm | tLsrImm | tAsrImm =>
    obtain ⟨⟨htop, h11⟩, rfl, rfl, rfl⟩ := thumb5533_eq_iff.mp he
    rw [thumbFormat, htop, h11]
    change decodeThumbShift h = _
    rw [decodeThumbShift, bits12to11, htop, h11]
    rfl
  | tAddReg | tSubReg =>
    obtain ⟨⟨htop, h11, h10, h9⟩, hr, rfl, rfl⟩ := thumb7333_eq_iff.mp he
    obtain rfl := lowRegOf_eq_iff.mpr hr
    rw [thumbFormat, htop, h11]
    change decodeThumbAddSub h = _
    rw [decodeThumbAddSub, extract_two h 9, h10, h9]
    rfl
  | tAddImm3 | tSubImm3 =>
    obtain ⟨⟨htop, h11, h10, h9⟩, rfl, rfl, rfl⟩ := thumb7333_eq_iff.mp he
    rw [thumbFormat, htop, h11]
    change decodeThumbAddSub h = _
    rw [decodeThumbAddSub, extract_two h 9, h10, h9]
    rfl
  | tMovImm | tCmpImm | tAddImm8 | tSubImm8 =>
    obtain ⟨⟨htop, h11⟩, rfl, rfl⟩ := thumb538_eq_iff.mp he
    rw [thumbFormat, htop]
    change decodeThumbImm8 h = _
    rw [decodeThumbImm8, bits12to11, htop, h11]
    rfl
  | tAnd | tEor | tLsl | tLsr | tAsr | tAdc | tSbc | tRor | tTst | tNeg | tCmp | tCmn | tOrr | tMul | tBic | tMvn =>
    obtain ⟨⟨⟨htop, h11, h10⟩, hop⟩, rfl, rfl⟩ := thumbA33_eq_iff.mp he
    rw [thumbFormat, htop, h11, h10]
    change decodeThumbAlu h = _
    rw [decodeThumbAlu, hop]
    rfl
  | tAddHi | tCmpHi | tMovHi =>
    obtain ⟨⟨⟨htop, h11, h10⟩, hop⟩, hrs, hrd⟩ := thumbHi_eq_iff.mp he
    rw [thumbFormat, htop, h11, h10]
    change decodeThumbHi h = _
    rw [decodeThumbHi, hop, hrs, hrd, regOf_regBits, regOf_regBits]
    rfl
  | tBx | tBxH1 =>
    obtain ⟨⟨⟨htop, h11, h10⟩, hop⟩, hrs, hrd⟩ := thumbHi_eq_iff.mp he
    obtain ⟨h7, h0⟩ := append_eq_iff.mp hrd
    rw [BitVec.extractLsb'_append_eq_left] at h7
    rw [BitVec.extractLsb'_append_eq_right] at h0
    rw [thumbFormat, htop, h11, h10]
    change decodeThumbHi h = _
    rw [decodeThumbHi, hop, hrs, regOf_regBits, bit7_eq h, h7, h0]
    rfl
  | tLdrPc =>
    obtain ⟨⟨htop, h11⟩, rfl, rfl⟩ := thumb538_eq_iff.mp he
    rw [thumbFormat, htop, h11]
    rfl
  | tStrReg | tStrbReg | tLdrReg | tLdrbReg =>
    obtain ⟨⟨htop, h11, h10, h9⟩, hr, rfl, rfl⟩ := thumb7333_eq_iff.mp he
    obtain rfl := lowRegOf_eq_iff.mpr hr
    rw [thumbFormat, htop, h9]
    change decodeThumbRegOffset h = _
    rw [decodeThumbRegOffset, extract_two h 10, h11, h10]
    rfl
  | tStrhReg | tLdsb | tLdrhReg | tLdsh =>
    obtain ⟨⟨htop, h11, h10, h9⟩, hr, rfl, rfl⟩ := thumb7333_eq_iff.mp he
    obtain rfl := lowRegOf_eq_iff.mpr hr
    rw [thumbFormat, htop, h9]
    change decodeThumbSignExtended h = _
    rw [decodeThumbSignExtended, extract_two h 10, h11, h10]
    rfl
  | tStrImm | tLdrImm | tStrbImm | tLdrbImm =>
    obtain ⟨⟨htop, h11⟩, rfl, rfl, rfl⟩ := thumb5533_eq_iff.mp he
    rw [thumbFormat, htop]
    change decodeThumbImmOffset h = _
    rw [decodeThumbImmOffset, bits12to11, htop, h11]
    rfl
  | tStrhImm | tLdrhImm =>
    obtain ⟨⟨htop, h11⟩, rfl, rfl, rfl⟩ := thumb5533_eq_iff.mp he
    rw [thumbFormat, htop]
    change (if h.getLsbD 11 then _ else _) = _
    rw [h11]
    rfl
  | tStrSp | tLdrSp | tAddPc | tAddSp | tStmia | tLdmia =>
    obtain ⟨⟨htop, h11⟩, rfl, rfl⟩ := thumb538_eq_iff.mp he
    rw [thumbFormat, htop]
    change (if h.getLsbD 11 then _ else _) = _
    rw [h11]
    rfl
  | tIncSp | tDecSp =>
    obtain ⟨hop, rfl⟩ := thumb97_eq_iff.mp he
    obtain ⟨⟨htop, h8⟩, h7⟩ := leading9_iff.mp hop
    rw [thumbFormat, htop, bit10_eq h, h8]
    change (if h.getLsbD 7 then _ else _) = _
    rw [h7]
    rfl
  | tPush | tPop =>
    obtain ⟨hop, rfl, rfl⟩ := thumb88_flag_eq_iff.mp he
    obtain ⟨htop, h11, h10, h9⟩ := leading7_iff.mp hop
    rw [thumbFormat, htop, h10, h9]
    change (if h.getLsbD 11 then _ else _) = _
    rw [h11]
    rfl
  | tBCond0to7 c =>
    obtain ⟨htop, h8, rfl⟩ := thumb88_cond_eq_iff.mp he
    have hc : c.toNat < 8 := of_decide_eq_true hwf
    rw [decodeFormat_condBranch htop h8 (by omega), if_pos hc]
  | tBCond8to11 c =>
    obtain ⟨htop, h8, rfl⟩ := thumb88_cond_eq_iff.mp he
    have hc : 8 ≤ c.toNat ∧ c.toNat < 12 := by simpa [Instr.wf] using hwf
    rw [decodeFormat_condBranch htop h8 (by omega), if_neg (by omega), if_pos hc.2]
  | tBCond12to13 c =>
    obtain ⟨htop, h8, rfl⟩ := thumb88_cond_eq_iff.mp he
    have hc : 12 ≤ c.toNat ∧ c.toNat < 14 := by simpa [Instr.wf] using hwf
    rw [decodeFormat_condBranch htop h8 hc.2, if_neg (by omega), if_neg (by omega)]
  | tSwi =>
    obtain ⟨hop, rfl⟩ := thumb88_eq_iff.mp he
    obtain ⟨htop, h8⟩ := leading8_iff.mp hop
    rw [thumbFormat, htop, h8]
    rfl
  | tB =>
    obtain ⟨hop, rfl⟩ := thumb5B_eq_iff.mp he
    obtain ⟨htop, h11⟩ := leading5_iff.mp hop
    rw [thumbFormat, htop, h11]
    rfl
  | tBlHigh | tBlLow =>
    obtain ⟨hop, rfl⟩ := thumb5B_eq_iff.mp he
    obtain ⟨htop, h11⟩ := leading5_iff.mp hop
    rw [thumbFormat, htop]
    change (if h.getLsbD 11 then _ else _) = _
    rw [h11]
    rfl
  | tUndefE8 =>
    obtain ⟨hop, rfl⟩ := thumb5B_eq_iff.mp he
    rw [(thumbFormat_eq_undefined_iff h).mpr (by simp [hop])]
    simp [decodeFormat, decodeThumbUndefined, hop]
  | tBCond14 | tUndefB1 =>
    obtain ⟨hop, rfl⟩ := thumb88_eq_iff.mp he
    rw [(thumbFormat_eq_undefined_iff h).mpr (by simp [hop])]
    simp [decodeFormat, decodeThumbUndefined, undefinedRows_disjoint h, hop]
  | tUndefB2 | tUndefB6 | tUndefBE =>
    obtain ⟨hop, rfl⟩ := thumb79_eq_iff.mp he
    rw [(thumbFormat_eq_undefined_iff h).mpr (by simp [hop])]
    simp [decodeFormat, decodeThumbUndefined, undefinedRows_disjoint h, hop]
  | tUndefB8 =>
    obtain ⟨hop, rfl⟩ := thumb6A_eq_iff.mp he
    rw [(thumbFormat_eq_undefined_iff h).mpr (by simp [hop])]
    simp [decodeFormat, decodeThumbUndefined, undefinedRows_disjoint h, hop]
  | and | eor | sub | rsb | add | adc | sbc | rsc | tst | teq | cmp | cmn | orr | mov | bic | mvn | psrSpaceNop =>
    exact nomatch (congrArg Code.isThumb he).symm.trans (Machine.dataProcessing_isArm ..)
  | ldrPre | ldrPost | ldrbPre | ldrbPost | strPre | strPost | strbPre | strbPost | ldrt | ldrbt | strt | strbt =>
    exact nomatch (congrArg Code.isThumb he).symm.trans (Machine.singleTransfer_isArm ..)
  | ldrh | strh | ldrsb | ldrsh | signedStore | halfSh00 =>
    exact nomatch (congrArg Code.isThumb he).symm.trans (Machine.halfTransfer_isArm ..)
  | _ => exact nomatch he

/-! ## Every halfword is the code of an instruction -/

section
variable {h : Half}

/-- Format 4 (R163): bits 9:6 choose the operation. -/
theorem exists_aluOperation (hpre : h.extractLsb' 12 4 = 4#4 ∧ h.getLsbD 11 = false ∧ h.getLsbD 10 = false) :
    ∃ i : Instr, i.StandsFor (.thumb h) := by
  obtain hop | hop | hop | hop | hop | hop | hop | hop | hop | hop | hop | hop | hop | hop | hop | hop :=
    bits4_cases (h.extractLsb' 6 4)
  · exact ⟨.tAnd .., rfl, thumbA33_eq_iff.mpr ⟨⟨hpre, hop⟩, rfl, rfl⟩⟩
  · exact ⟨.tEor .., rfl, thumbA33_eq_iff.mpr ⟨⟨hpre, hop⟩, rfl, rfl⟩⟩
  · exact ⟨.tLsl .., rfl, thumbA33_eq_iff.mpr ⟨⟨hpre, hop⟩, rfl, rfl⟩⟩
  · exact ⟨.tLsr .., rfl, thumbA33_eq_iff.mpr ⟨⟨hpre, hop⟩, rfl, rfl⟩⟩
  · exact ⟨.tAsr .., rfl, thumbA33_eq_iff.mpr ⟨⟨hpre, hop⟩, rfl, rfl⟩⟩
  · exact ⟨.tAdc .., rfl, thumbA33_eq_iff.mpr ⟨⟨hpre, hop⟩, rfl, rfl⟩⟩
  · exact ⟨.tSbc .., rfl, thumbA33_eq_iff.mpr ⟨⟨hpre, hop⟩, rfl, rfl⟩⟩
  · exact ⟨.tRor .., rfl, thumbA33_eq_iff.mpr ⟨⟨hpre, hop⟩, rfl, rfl⟩⟩
  · exact ⟨.tTst .., rfl, thumbA33_eq_iff.mpr ⟨⟨hpre, hop⟩, rfl, rfl⟩⟩
  · exact ⟨.tNeg .., rfl, thumbA33_eq_iff.mpr ⟨⟨hpre, hop⟩, rfl, rfl⟩⟩
  · exact ⟨.tCmp .., rfl, thumbA33_eq_iff.mpr ⟨⟨hpre, hop⟩, rfl, rfl⟩⟩
  · exact ⟨.tCmn .., rfl, thumbA33_eq_iff.mpr ⟨⟨hpre, hop⟩, rfl, rfl⟩⟩
  · exact ⟨.tOrr .., rfl, thumbA33_eq_iff.mpr ⟨⟨hpre, hop⟩, rfl, rfl⟩⟩
  · exact ⟨.tMul .., rfl, thumbA33_eq_iff.mpr ⟨⟨hpre, hop⟩, rfl, rfl⟩⟩
  · exact ⟨.tBic .., rfl, thumbA33_eq_iff.mpr ⟨⟨hpre, hop⟩, rfl, rfl⟩⟩
  · exact ⟨.tMvn .., rfl, thumbA33_eq_iff.mpr ⟨⟨hpre, hop⟩, rfl, rfl⟩⟩

/-- Format 5 (R164): bits 9:8 choose the operation. -/
theorem exists_hiRegister (hpre : h.extractLsb' 12 4 = 4#4 ∧ h.getLsbD 11 = false ∧ h.getLsbD 10 = true) :
    ∃ i : Instr, i.StandsFor (.thumb h) := by
  have hreg {x : BitVec 4} := (regBits_regOf x).symm
  have h7 : h.extractLsb' 7 1 = flagBit (h.getLsbD 7) := (flagBit_getLsbD_eq h 7).symm
  obtain hop | hop | hop | hop := bits2_cases (h.extractLsb' 8 2)
  · exact ⟨.tAddHi (regOf _) (regOf _), rfl, thumbHi_eq_iff.mpr ⟨⟨hpre, hop⟩, hreg, hreg⟩⟩
  · exact ⟨.tCmpHi (regOf _) (regOf _), rfl, thumbHi_eq_iff.mpr ⟨⟨hpre, hop⟩, hreg, hreg⟩⟩
  · exact ⟨.tMovHi (regOf _) (regOf _), rfl, thumbHi_eq_iff.mpr ⟨⟨hpre, hop⟩, hreg, hreg⟩⟩
  · cases hb : h.getLsbD 7 <;> rw [hb] at h7
    · exact ⟨.tBx (regOf _) _, rfl, thumbHi_eq_iff.mpr ⟨⟨hpre, hop⟩, hreg, by rw [h7]; rfl⟩⟩
    · exact ⟨.tBxH1 (regOf _) _, rfl, thumbHi_eq_iff.mpr ⟨⟨hpre, hop⟩, hreg, by rw [h7]; rfl⟩⟩

/-- Formats 7 and 8 (R166, R167). -/
theorem exists_registerOffset (htop : h.extractLsb' 12 4 = 5#4) : ∃ i : Instr, i.StandsFor (.thumb h) := by
  have hro := (lowRegBits_lowRegOf (h.extractLsb' 6 3)).symm
  cases h11 : h.getLsbD 11 <;> cases h10 : h.getLsbD 10 <;> cases h9 : h.getLsbD 9
  · exact ⟨.tStrReg (lowRegOf _) _ _, rfl, thumb7333_eq_iff.mpr ⟨⟨htop, h11, h10, h9⟩, hro, rfl, rfl⟩⟩
  · exact ⟨.tStrhReg (lowRegOf _) _ _, rfl, thumb7333_eq_iff.mpr ⟨⟨htop, h11, h10, h9⟩, hro, rfl, rfl⟩⟩
  · exact ⟨.tStrbReg (lowRegOf _) _ _, rfl, thumb7333_eq_iff.mpr ⟨⟨htop, h11, h10, h9⟩, hro, rfl, rfl⟩⟩
  · exact ⟨.tLdsb (lowRegOf _) _ _, rfl, thumb7333_eq_iff.mpr ⟨⟨htop, h11, h10, h9⟩, hro, rfl, rfl⟩⟩
  · exact ⟨.tLdrReg (lowRegOf _) _ _, rfl, thumb7333_eq_iff.mpr ⟨⟨htop, h11, h10, h9⟩, hro, rfl, rfl⟩⟩
  · exact ⟨.tLdrhReg (lowRegOf _) _ _, rfl, thumb7333_eq_iff.mpr ⟨⟨htop, h11, h10, h9⟩, hro, rfl, rfl⟩⟩
  · exact ⟨.tLdrbReg (lowRegOf _) _ _, rfl, thumb7333_eq_iff.mpr ⟨⟨htop, h11, h10, h9⟩, hro, rfl, rfl⟩⟩
  · exact ⟨.tLdsh (lowRegOf _) _ _, rfl, thumb7333_eq_iff.mpr ⟨⟨htop, h11, h10, h9⟩, hro, rfl, rfl⟩⟩

/-- Format 2 (R161): bits 10:9 are I Op. -/
theorem exists_addSubtract (htop : h.extractLsb' 12 4 = 1#4) (h11 : h.getLsbD 11 = true) :
    ∃ i : Instr, i.StandsFor (.thumb h) := by
  have hrn := (lowRegBits_lowRegOf (h.extractLsb' 6 3)).symm
  cases h10 : h.getLsbD 10 <;> cases h9 : h.getLsbD 9
  · exact ⟨.tAddReg (lowRegOf _) _ _, rfl, thumb7333_eq_iff.mpr ⟨⟨htop, h11, h10, h9⟩, hrn, rfl, rfl⟩⟩
  · exact ⟨.tSubReg (lowRegOf _) _ _, rfl, thumb7333_eq_iff.mpr ⟨⟨htop, h11, h10, h9⟩, hrn, rfl, rfl⟩⟩
  · exact ⟨.tAddImm3 .., rfl, thumb7333_eq_iff.mpr ⟨⟨htop, h11, h10, h9⟩, rfl, rfl, rfl⟩⟩
  · exact ⟨.tSubImm3 .., rfl, thumb7333_eq_iff.mpr ⟨⟨htop, h11, h10, h9⟩, rfl, rfl, rfl⟩⟩

theorem bits11to8 (h : Half) : h.extractLsb' 8 4 =
    (flagBit (h.getLsbD 11) ++ flagBit (h.getLsbD 10)) ++ (flagBit (h.getLsbD 9) ++ flagBit (h.getLsbD 8)) := by
  rw [← extract_two h 10, ← extract_two h 8]
  exact (append_eq_extract_iff (v := 2) (w := 2).mpr ⟨rfl, rfl⟩).symm

/-- Formats 13 and 14 and the undefined halfwords among them (R172, R173, R180). -/
theorem exists_miscellaneous (htop : h.extractLsb' 12 4 = 11#4) : ∃ i : Instr, i.StandsFor (.thumb h) := by
  cases h11 : h.getLsbD 11 <;> cases h10 : h.getLsbD 10 <;> cases h9 : h.getLsbD 9
  case false.false.false =>
    have h8 : h.extractLsb' 8 4 = 0b000#3 ++ flagBit (h.getLsbD 8) := by
      rw [bits11to8, h11, h10, h9]
      cases h.getLsbD 8 <;> rfl
    cases hb : h.getLsbD 8 <;> rw [hb] at h8
    · cases h7 : h.getLsbD 7
      · exact ⟨.tIncSp _, rfl, thumb97_eq_iff.mpr ⟨leading9_iff.mpr ⟨⟨htop, h8⟩, h7⟩, rfl⟩⟩
      · exact ⟨.tDecSp _, rfl, thumb97_eq_iff.mpr ⟨leading9_iff.mpr ⟨⟨htop, h8⟩, h7⟩, rfl⟩⟩
    · exact ⟨.tUndefB1 _, rfl, thumb88_eq_iff.mpr ⟨leading8_iff.mpr ⟨htop, h8⟩, rfl⟩⟩
  case false.false.true => exact ⟨.tUndefB2 _, rfl, thumb79_eq_iff.mpr ⟨leading7_iff.mpr ⟨htop, h11, h10, h9⟩, rfl⟩⟩
  case false.true.false => exact ⟨.tPush _ _, rfl, thumb88_flag_eq_iff.mpr ⟨leading7_iff.mpr ⟨htop, h11, h10, h9⟩, rfl, rfl⟩⟩
  case false.true.true => exact ⟨.tUndefB6 _, rfl, thumb79_eq_iff.mpr ⟨leading7_iff.mpr ⟨htop, h11, h10, h9⟩, rfl⟩⟩
  case true.true.false => exact ⟨.tPop _ _, rfl, thumb88_flag_eq_iff.mpr ⟨leading7_iff.mpr ⟨htop, h11, h10, h9⟩, rfl, rfl⟩⟩
  case true.true.true => exact ⟨.tUndefBE _, rfl, thumb79_eq_iff.mpr ⟨leading7_iff.mpr ⟨htop, h11, h10, h9⟩, rfl⟩⟩
  all_goals
    have hop : h.extractLsb' 10 6 = (0b101110#6).extractLsb' 0 6 := leading6_iff.mpr ⟨htop, h11, h10⟩
    exact ⟨.tUndefB8 _, rfl, thumb6A_eq_iff.mpr ⟨hop, rfl⟩⟩

/-- Formats 16 and 17 (R175, R176), with the undefined condition 1110 (R601). -/
theorem exists_conditional (htop : h.extractLsb' 12 4 = 13#4) : ∃ i : Instr, i.StandsFor (.thumb h) := by
  cases hc : condOf (h.extractLsb' 8 4) with
  | none => exact ⟨.tSwi _, rfl, thumb88_eq_iff.mpr ⟨leading8_iff.mpr ⟨htop, condOf_eq_none.mp hc⟩, rfl⟩⟩
  | some c =>
    have h8 := (condOf_eq_some hc).symm
    have hcode := thumb88_cond_eq_iff.mpr ⟨htop, h8, rfl⟩
    by_cases h14 : c = .al
    · subst h14
      exact ⟨.tBCond14 _, rfl, hcode⟩
    · have hlt : c.toNat < 14 := by
        revert h14
        cases c <;> decide
      by_cases hlow : c.toNat < 8
      · exact ⟨.tBCond0to7 c _, by simp [Instr.wf, hlow], hcode⟩
      · by_cases hmid : c.toNat < 12
        · exact ⟨.tBCond8to11 c _, by simp [Instr.wf, hmid]; omega, hcode⟩
        · exact ⟨.tBCond12to13 c _, by simp [Instr.wf, hlt]; omega, hcode⟩

/-- Every halfword is the code of a well-formed instruction. -/
theorem exists_standsFor_thumb (h : Half) : ∃ i : Instr, i.StandsFor (.thumb h) := by
  obtain htop | htop | htop | htop | htop | htop | htop | htop | htop | htop | htop | htop | htop | htop | htop | htop :=
    bits4_cases (h.extractLsb' 12 4)
  case inr.inr.inr.inr.inr.inl => exact exists_registerOffset htop
  case inr.inr.inr.inr.inr.inr.inr.inr.inr.inr.inr.inl => exact exists_miscellaneous htop
  case inr.inr.inr.inr.inr.inr.inr.inr.inr.inr.inr.inr.inr.inl => exact exists_conditional htop
  all_goals cases h11 : h.getLsbD 11
  · exact ⟨.tLslImm .., rfl, thumb5533_eq_iff.mpr ⟨⟨htop, h11⟩, rfl, rfl, rfl⟩⟩
  · exact ⟨.tLsrImm .., rfl, thumb5533_eq_iff.mpr ⟨⟨htop, h11⟩, rfl, rfl, rfl⟩⟩
  · exact ⟨.tAsrImm .., rfl, thumb5533_eq_iff.mpr ⟨⟨htop, h11⟩, rfl, rfl, rfl⟩⟩
  · exact exists_addSubtract htop h11
  · exact ⟨.tMovImm .., rfl, thumb538_eq_iff.mpr ⟨⟨htop, h11⟩, rfl, rfl⟩⟩
  · exact ⟨.tCmpImm .., rfl, thumb538_eq_iff.mpr ⟨⟨htop, h11⟩, rfl, rfl⟩⟩
  · exact ⟨.tAddImm8 .., rfl, thumb538_eq_iff.mpr ⟨⟨htop, h11⟩, rfl, rfl⟩⟩
  · exact ⟨.tSubImm8 .., rfl, thumb538_eq_iff.mpr ⟨⟨htop, h11⟩, rfl, rfl⟩⟩
  · cases h10 : h.getLsbD 10
    · exact exists_aluOperation ⟨htop, h11, h10⟩
    · exact exists_hiRegister ⟨htop, h11, h10⟩
  · exact ⟨.tLdrPc .., rfl, thumb538_eq_iff.mpr ⟨⟨htop, h11⟩, rfl, rfl⟩⟩
  · exact ⟨.tStrImm .., rfl, thumb5533_eq_iff.mpr ⟨⟨htop, h11⟩, rfl, rfl, rfl⟩⟩
  · exact ⟨.tLdrImm .., rfl, thumb5533_eq_iff.mpr ⟨⟨htop, h11⟩, rfl, rfl, rfl⟩⟩
  · exact ⟨.tStrbImm .., rfl, thumb5533_eq_iff.mpr ⟨⟨htop, h11⟩, rfl, rfl, rfl⟩⟩
  · exact ⟨.tLdrbImm .., rfl, thumb5533_eq_iff.mpr ⟨⟨htop, h11⟩, rfl, rfl, rfl⟩⟩
  · exact ⟨.tStrhImm .., rfl, thumb5533_eq_iff.mpr ⟨⟨htop, h11⟩, rfl, rfl, rfl⟩⟩
  · exact ⟨.tLdrhImm .., rfl, thumb5533_eq_iff.mpr ⟨⟨htop, h11⟩, rfl, rfl, rfl⟩⟩
  · exact ⟨.tStrSp .., rfl, thumb538_eq_iff.mpr ⟨⟨htop, h11⟩, rfl, rfl⟩⟩
  · exact ⟨.tLdrSp .., rfl, thumb538_eq_iff.mpr ⟨⟨htop, h11⟩, rfl, rfl⟩⟩
  · exact ⟨.tAddPc .., rfl, thumb538_eq_iff.mpr ⟨⟨htop, h11⟩, rfl, rfl⟩⟩
  · exact ⟨.tAddSp .., rfl, thumb538_eq_iff.mpr ⟨⟨htop, h11⟩, rfl, rfl⟩⟩
  · exact ⟨.tStmia .., rfl, thumb538_eq_iff.mpr ⟨⟨htop, h11⟩, rfl, rfl⟩⟩
  · exact ⟨.tLdmia .., rfl, thumb538_eq_iff.mpr ⟨⟨htop, h11⟩, rfl, rfl⟩⟩
  · exact ⟨.tB _, rfl, thumb5B_eq_iff.mpr ⟨leading5_iff.mpr ⟨htop, h11⟩, rfl⟩⟩
  · exact ⟨.tUndefE8 _, rfl, thumb5B_eq_iff.mpr ⟨leading5_iff.mpr ⟨htop, h11⟩, rfl⟩⟩
  · exact ⟨.tBlHigh _, rfl, thumb5B_eq_iff.mpr ⟨leading5_iff.mpr ⟨htop, h11⟩, rfl⟩⟩
  · exact ⟨.tBlLow _, rfl, thumb5B_eq_iff.mpr ⟨leading5_iff.mpr ⟨htop, h11⟩, rfl⟩⟩
end

end Sys2Proof
end

section
/-! The 30_encoding.md statements O1, O2, O3 and O27. -/

namespace Sys2Proof

/-- Settles O2: encode is an ARM layout, read off the fields of the word, or a Thumb layout, read off the bits of the halfword. -/
theorem decodeOfEncode : Obligations.DecodeOfEncode := by
  intro i hwf
  cases hcode : encode i with
  | arm w =>
    rw [← word_armFields w] at hcode ⊢
    exact decodeArm_of_encode hwf hcode
  | thumb h => exact decodeThumb_of_encode hwf hcode

/-- Settles O3: an ARM word by the category of its fields; a halfword is the code of some well-formed instruction, to which it then
decodes. -/
theorem encodeOfDecode : Obligations.EncodeOfDecode := by
  intro code
  cases code with
  | arm w => exact decodeArm_standsFor w
  | thumb h =>
    obtain ⟨i, hwf, hcode⟩ := exists_standsFor_thumb h
    rw [Code.decode, decodeThumb_of_encode hwf hcode]
    exact ⟨hwf, hcode⟩

/-- Settles O1 by running the decoder on the words. -/
theorem specWordsDecode : Obligations.SpecWordsDecode := by
  unfold Obligations.SpecWordsDecode
  decide

/-- Settles O27: the reserved forms are faults of the instruction's body. -/
theorem reservedFormsStop : Obligations.ReservedFormsStop := by
  intro c p u w h rn rd off x28 rs x3 s
  have hstop (f : Machine.Fault) (hc : Machine.conditionPassed c s.cpsr = true) :
      Machine.armStep c (fun _ => .error f) s = .fault f :=
    Machine.armStep_error hc rfl
  exact ⟨fun hc => ⟨hstop _ hc, hstop _ hc⟩, fun _ hw => decodeArm_reserved hw, rfl, rfl⟩

end Sys2Proof
end

section
/-! The 40_execution_cycle.md statements: what a step decodes (O4), the frame around every instruction's body (O5), and the outcomes of a
step (O51). -/

namespace Sys2Proof.Machine

/-! ## The fetch -/

/-- The four bytes from the stored pc, of which Thumb state decodes the first two. -/
def fetchedBytes (s : State) : List Byte :=
  [s.mem.read8 s.pc, s.mem.read8 (s.pc + 1#32), s.mem.read8 (s.pc + 2#32), s.mem.read8 (s.pc + 3#32)]

/-- The byte decoder reads from memory the code that `fetchCode` names (R81, R200). -/
theorem decodeBytes_fetchedBytes (s : State) : decodeBytes s.cpsr.t (fetchedBytes s) =
    .ok ((fetchCode s).decode, if s.cpsr.t then (fetchedBytes s).drop 2 else []) := by
  unfold fetchCode
  cases s.cpsr.t <;> rfl

/-- Settles O4: the bytes decode to the fetched code's instruction and to no other, and that is the one a step runs. -/
theorem stepRunsDecoded : Obligations.StepRunsDecoded := by
  intro s i rest hdecode
  obtain ⟨rfl, -⟩ := Prod.mk.inj (Except.ok.inj ((decodeBytes_fetchedBytes s).symm.trans hdecode))
  rfl

/-! ## The frame around a body -/

/-- What stands around an instruction's body: the test of its condition (R200), none in Thumb state (R210), or the reserved condition's
fault in place of a body (R202). -/
inductive ExecFrame (i : Instr) : Prop
  | arm (c : Cond) (body : Work → Except Fault Work) (hc : armCond i = some c) (hex : ∀ s, exec i s = armStep c body s)
  | thumb (body : Work → Except Fault Work) (hc : armCond i = none) (hex : ∀ s, exec i s = thumbStep body s)
  | reserved (hc : armCond i = none) (hex : ∀ s, exec i s = .fault .reservedCondition)

/-- By the constructors of an instruction.  `exec` is unfolded by itself first, so that each meaning's body is read off its own
definition as it stands. -/
theorem exec_frame (i : Instr) : ExecFrame i := by
  cases i with
  | and | eor | sub | rsb | add | adc | sbc | rsc | tst | teq | cmp | cmn | orr | mov | bic | mvn | psrSpaceNop
  | mrs | msrReg | msrImm | mul | mla | umull | umlal | smull | smlal
  | ldrPre | ldrPost | ldrbPre | ldrbPost | strPre | strPost | strbPre | strbPost | ldrt | ldrbt | strt | strbt
  | ldrh | strh | ldrsb | ldrsh | signedStore | halfSh00 | swp | swpb
  | ldmia | ldmib | ldmda | ldmdb | stmia | stmib | stmda | stmdb
  | b | bl | bx | swi | undefined | ldc | stc | cdp | mcr | mrc => exact .arm _ _ rfl fun _ => by unfold exec; rfl
  | reservedCond => exact .reserved rfl fun _ => rfl
  | tLslImm | tLsrImm | tAsrImm | tAddReg | tSubReg | tAddImm3 | tSubImm3 | tMovImm | tCmpImm | tAddImm8 | tSubImm8
  | tAnd | tEor | tLsl | tLsr | tAsr | tAdc | tSbc | tRor | tTst | tNeg | tCmp | tCmn | tOrr | tMul | tBic | tMvn
  | tAddHi | tCmpHi | tMovHi | tBx | tBxH1
  | tLdrPc | tStrReg | tStrbReg | tLdrReg | tLdrbReg | tStrhReg | tLdrhReg | tLdsb | tLdsh | tStrImm | tLdrImm | tStrbImm
  | tLdrbImm | tStrhImm | tLdrhImm | tStrSp | tLdrSp | tAddPc | tAddSp | tIncSp | tDecSp | tPush | tPop | tStmia | tLdmia
  | tBCond0to7 | tBCond8to11 | tBCond12to13 | tBCond14 | tSwi | tB | tBlHigh | tBlLow
  | tUndefB1 | tUndefB2 | tUndefB6 | tUndefB8 | tUndefBE | tUndefE8 => exact .thumb _ rfl fun _ => by unfold exec; rfl

/-- Settles O5: an instruction with a condition is its frame's test of that condition, which fails before the body runs. -/
theorem failingConditionSkips : Obligations.FailingConditionSkips := by
  refine ⟨fun _ _ => rfl, fun i c s hc hfail => ?_⟩
  cases exec_frame i with
  | arm c' body hc' hex =>
    obtain rfl : c' = c := Option.some.inj (hc'.symm.trans hc)
    rw [hex, armStep_fail hfail]
  | thumb _ hnone _ => exact nomatch hnone.symm.trans hc
  | reserved hnone _ => exact nomatch hnone.symm.trans hc

/-! ## The outcomes of a step -/

theorem armStep_not_refused (c : Cond) (body : Work → Except Fault Work) (s : State) (q : Refusal) : armStep c body s ≠ .refused q := by
  cases hc : conditionPassed c s.cpsr with
  | true => rw [armStep_pass hc]; exact finishStep_not_refused _ _ q
  | false => rw [armStep_fail hc]; exact nofun

theorem exec_not_refused (i : Instr) (s : State) (q : Refusal) : exec i s ≠ .refused q := by
  cases exec_frame i with
  | arm c body _ hex => rw [hex]; exact armStep_not_refused c body s q
  | thumb body _ hex => rw [hex]; exact finishStep_not_refused _ _ q
  | reserved _ hex => rw [hex]; exact nofun

/-- Nothing a step does writes the configuration (R61). -/
theorem step_cfg {s t : State} (h : step s = .next t) : t.cfg = s.cfg := by
  obtain ⟨w', ⟨heff, -⟩, rfl⟩ := step_effect h
  exact (endOfStep_cfg w' _).trans heff.cfg

/-- Settles O51: of the three outcomes, no frame answers the third, and a next state keeps the configuration. -/
theorem stepNeverRefuses : Obligations.StepNeverRefuses := by
  intro s
  cases hstep : step s with
  | next t => exact .inl ⟨t, rfl, step_cfg hstep⟩
  | fault f => exact .inr ⟨f, rfl⟩
  | refused q => exact absurd hstep (exec_not_refused _ s q)

end Sys2Proof.Machine
end

section
/-! The 41_condition_shifter.md statements: the shifter and the immediate operands (O7, O8), the adder (O9), the condition table (O6) and
a shift by R15 (O16). -/

namespace Sys2Proof.Machine

/-! ## The shifter -/

theorem word_msb (v : Word) : v.msb = v.getLsbD 31 := BitVec.msb_eq_getLsbD_last v

theorem shift_zero (cin : Bool) (v : Word) (type : ShiftType) : shift cin v 0 type = ⟨v, cin⟩ := rfl

theorem shift_inRange (cin : Bool) (v : Word) {n : Nat} (h1 : 1 ≤ n) (h31 : n ≤ 31) (type : ShiftType) :
    shift cin v n type = shiftInRange v n type := by
  rw [shift, if_neg (by omega), if_pos (by omega)]

theorem shift_beyond (cin : Bool) (v : Word) {n : Nat} (h : 32 ≤ n) (type : ShiftType) :
    shift cin v n type = shiftBeyond v n type := by
  rw [shift, if_neg (by omega), if_neg (by omega)]

/-- A right rotation moves bit (k + n) mod 32 to bit k. -/
theorem rotateRight_getLsbD (v : Word) {n k : Nat} (hn : n < 32) (hk : k < 32) :
    (v.rotateRight n).getLsbD k = v.getLsbD ((k + n) % 32) := by
  rw [BitVec.getLsbD_rotateRight, Nat.mod_eq_of_lt hn]
  by_cases hwrap : k + n < 32
  · rw [Nat.mod_eq_of_lt hwrap, decide_eq_true (by omega), cond_true, Nat.add_comm]
  · rw [Nat.mod_eq_sub_mod (by omega), Nat.mod_eq_of_lt (by omega), decide_eq_false (by omega), decide_eq_true hk, cond_false,
      Bool.true_and, show k - (32 - n) = k + n - 32 by omega]

/-- Below bit 32 an arithmetic right shift fills with the sign. -/
theorem sshiftRight_getLsbD (v : Word) (n : Nat) {k : Nat} (hk : k < 32) :
    (v.sshiftRight n).getLsbD k = if k + n < 32 then v.getLsbD (k + n) else v.getLsbD 31 := by
  rw [BitVec.getLsbD_sshiftRight, decide_eq_false (by omega), Nat.add_comm n k, word_msb]
  rfl

/-- An arithmetic right shift by the whole width leaves the sign in every bit. -/
theorem sshiftRight_width (v : Word) : v.sshiftRight 32 = if v.getLsbD 31 then 0xFFFFFFFF#32 else 0#32 := by
  refine BitVec.eq_of_getLsbD_eq fun k hk => ?_
  rw [sshiftRight_getLsbD v 32 hk, if_neg (by omega)]
  cases v.getLsbD 31 with
  | true => exact (BitVec.getLsbD_allOnes.trans (decide_eq_true hk)).symm
  | false => exact BitVec.getLsbD_zero.symm

theorem shift_ror_ge (cin : Bool) (v : Word) {n : Nat} (h : 32 ≤ n) :
    shift cin v n .ror = if n % 32 = 0 then ⟨v, v.getLsbD 31⟩ else shift cin v (n % 32) .ror := by
  rw [shift_beyond cin v h, shiftBeyond, word_msb]
  split
  · rfl
  · rw [shift_inRange cin v (by omega) (by omega)]

/-- Settles O7: `shiftBeyond` from 32 up, and below it each type's bits from the library's formula for its operation. -/
theorem shifterResult : Obligations.ShifterResult := by
  refine ⟨shift_zero, fun cin v n h => ⟨?_, ?_, ?_, shift_ror_ge cin v h⟩, fun cin v n h1 h31 => ?_⟩
  · rw [shift_beyond cin v h, shiftBeyond, Bool.if_false_right, beq_eq_decide]
  · rw [shift_beyond cin v h, shiftBeyond, Bool.if_false_right, beq_eq_decide, word_msb]
  · rw [shift_beyond cin v h, shiftBeyond, sshiftRight_width, word_msb]
  · simp only [shift_inRange cin v h1 h31, shiftInRange]
    refine ⟨⟨fun k hk => ?lsl, trivial⟩, ⟨fun k _ => ?lsr, trivial⟩, ⟨fun k hk => sshiftRight_getLsbD v n hk, trivial⟩,
      ⟨fun k hk => rotateRight_getLsbD v (by omega) hk, trivial⟩⟩
    case lsl => simp only [BitVec.getLsbD_shiftLeft, hk, decide_true, Bool.true_and, ← decide_not, Nat.not_lt]
    case lsr => rw [BitVec.getLsbD_ushiftRight, Nat.add_comm]

/-! ## The immediate operands -/

/-- The carry of a rotated immediate is the bit its rotation brings to bit 31. -/
theorem rotatedImm_carry (cin : Bool) (rotate : BitVec 4) (imm8 : BitVec 8) :
    (rotatedImm cin rotate imm8).carry = if rotate = 0#4 then cin else (rotatedImm cin rotate imm8).value.getLsbD 31 := by
  by_cases h0 : rotate = 0#4
  · rw [if_pos h0, h0]
    rfl
  · have hpos : rotate.toNat ≠ 0 := fun e => h0 (BitVec.eq_of_toNat_eq e)
    have hlt := rotate.isLt
    rw [if_neg h0, rotatedImm_value, rotateRight_getLsbD _ (by omega) (by omega), rotatedImm,
      shift_inRange _ _ (by omega) (by omega), show (31 + 2 * rotate.toNat) % 32 = 2 * rotate.toNat - 1 by omega]
    rfl

theorem shiftImm_nonzero (cfg : Config) (cin : Bool) (v : Word) {n : Nat} (h : n ≠ 0) (type : ShiftType) :
    shiftImm cfg cin v n type = shift cin v n type := if_neg h

theorem shiftImm_zero_literal {cfg : Config} (h : cfg.immShiftZero = .literal) (cin : Bool) (v : Word) (type : ShiftType) :
    shiftImm cfg cin v 0 type = ⟨v, cin⟩ := by
  rw [shiftImm, if_pos rfl, h, shift_zero]

theorem shiftImm_zero_arm {cfg : Config} (h : cfg.immShiftZero = .arm) (cin : Bool) (v : Word) (type : ShiftType) :
    shiftImm cfg cin v 0 type = armShiftZero cin v type := by
  rw [shiftImm, if_pos rfl, h]

/-- RRX moves bits 31:1 down and takes C into bit 31. -/
theorem rrx_getLsbD (cin : Bool) (v : Word) {k : Nat} (hk : k < 32) :
    (rrx cin v).value.getLsbD k = if k = 31 then cin else v.getLsbD (k + 1) := by
  rw [rrx, BitVec.getLsbD_append]
  by_cases h31 : k = 31
  · subst h31
    simp
  · rw [if_pos (by omega), if_neg h31, BitVec.getLsbD_extractLsb', decide_eq_true (by omega), Nat.add_comm, Bool.true_and]

/-- Settles O8: a zero amount under `Arm` is the shift by 32 of O7, or RRX. -/
theorem immediateOperandForms : Obligations.ImmediateOperandForms := by
  refine ⟨fun cin rotate imm8 => ⟨rotatedImm_value cin rotate imm8, rotatedImm_carry cin rotate imm8⟩,
    fun cfg cin v n type h => shiftImm_nonzero cfg cin v h type, fun cfg cin v type h => shiftImm_zero_literal h cin v type,
    fun cfg cin v h => ?_⟩
  obtain ⟨-, hlsr, hasr, -⟩ := shifterResult.2.1 cin v 32 le_rfl
  simp only [shiftImm_zero_arm h]
  exact ⟨rfl, hlsr, hasr, rfl, fun k hk => rrx_getLsbD cin v hk⟩

/-! ## The adder -/

theorem word_toInt_bounds (x : Word) : -(2 ^ 31) ≤ x.toInt ∧ x.toInt < 2 ^ 31 := ⟨BitVec.le_toInt x, BitVec.toInt_lt⟩

/-- The two readings of a word differ by a multiple of 2^32. -/
theorem dvd_toInt_sub_toNat (x : Word) : (2 ^ 32 : Int) ∣ x.toInt - x.toNat := by
  rw [BitVec.toInt_eq_toNat_cond]
  split <;> omega

theorem word_toInt_not (x : Word) : (~~~x).toInt = -1 - x.toInt := by
  have hlt := x.isLt
  rw [BitVec.toInt_eq_toNat_cond, BitVec.toInt_eq_toNat_cond, BitVec.toNat_not]
  split <;> split <;> omega

/-- R265: two operands of one sign, and a wrapped sum of the other, exactly when the exact signed sum does not fit. -/
theorem sumSigns_iff_overflow {a b r : Word} {k : Int} (hk : 0 ≤ k ∧ k ≤ 1)
    (hr : (2 ^ 32 : Int) ∣ r.toInt - (a.toInt + b.toInt + k)) :
    (a.msb == b.msb && r.msb != a.msb) = true ↔ a.toInt + b.toInt + k < -(2 ^ 31) ∨ 2 ^ 31 - 1 < a.toInt + b.toInt + k := by
  have ha := word_toInt_bounds a
  have hb := word_toInt_bounds b
  have hr' := word_toInt_bounds r
  simp only [BitVec.msb_eq_toInt, Bool.and_eq_true, beq_iff_eq, bne_iff_ne, ne_eq, decide_eq_decide]
  omega

theorem addWithCarry_v_iff (a b : Word) (cin : Bool) : (addWithCarry a b cin).v = true ↔
    a.toInt + b.toInt + (cin.toNat : Int) < -(2 ^ 31) ∨ 2 ^ 31 - 1 < a.toInt + b.toInt + (cin.toNat : Int) := by
  have hcin := Bool.toNat_le cin
  refine sumSigns_iff_overflow (by omega) ?_
  have hr := dvd_toInt_sub_toNat (BitVec.ofNat 32 (a.toNat + b.toNat + cin.toNat))
  have ha := dvd_toInt_sub_toNat a
  have hb := dvd_toInt_sub_toNat b
  rw [BitVec.toNat_ofNat] at hr
  omega

theorem subWithBorrow_c_iff (cfg : Config) (a b : Word) (bin : Bool) : (subWithBorrow cfg a b bin).c = true ↔
    if cfg.subCarry = .borrow then a.toNat < b.toNat + bin.toNat else b.toNat + bin.toNat ≤ a.toNat := by
  simp only [subWithBorrow, carryOfBorrow]
  cases cfg.subCarry with
  | borrow => simp only [decide_eq_true_eq, if_true]; omega
  | notBorrow => simp only [Bool.not_eq_true', decide_eq_false_iff_not, reduceCtorEq, if_false]; omega

/-- A subtraction's V is that of the sum of `a`, the complement of `b` and the complement of the borrow. -/
theorem subWithBorrow_v_iff (cfg : Config) (a b : Word) (bin : Bool) : (subWithBorrow cfg a b bin).v = true ↔
    a.toInt - b.toInt - (bin.toNat : Int) < -(2 ^ 31) ∨ 2 ^ 31 - 1 < a.toInt - b.toInt - (bin.toNat : Int) := by
  have hbin := Bool.toNat_le bin
  have hexact : a.toInt + (~~~b).toInt + (1 - (bin.toNat : Int)) = a.toInt - b.toInt - (bin.toNat : Int) := by
    rw [word_toInt_not]
    omega
  have hsigns : (a.msb != b.msb) = (a.msb == (~~~b).msb) := by
    rw [BitVec.msb_not]
    cases a.msb <;> cases b.msb <;> rfl
  rw [← hexact, subWithBorrow, hsigns]
  refine sumSigns_iff_overflow (by omega) ?_
  have hr := dvd_toInt_sub_toNat (BitVec.ofInt 32 ((a.toNat : Int) - (b.toNat : Int) - (bin.toNat : Int)))
  have ha := dvd_toInt_sub_toNat a
  have hb := dvd_toInt_sub_toNat b
  rw [BitVec.toNat_ofInt] at hr
  rw [hexact]
  omega

/-- Settles O9: the values are the wrapped ones, C compares the exact naturals, V is `sumSigns_iff_overflow`. -/
theorem adderFlagsExact : Obligations.AdderFlagsExact :=
  ⟨fun a b cin => ⟨addWithCarry_value a b cin, decide_eq_true_iff, addWithCarry_v_iff a b cin⟩,
    fun cfg a b bin => ⟨subWithBorrow_value cfg a b bin, subWithBorrow_c_iff cfg a b bin, subWithBorrow_v_iff cfg a b bin⟩⟩

/-! ## The condition table -/

/-- Settles O6: each row is `conditionPassed` at its condition, a Boolean formula in the flags it names. -/
theorem conditionTable : Obligations.ConditionTable := by
  intro f
  simp only [conditionPassed, Bool.and_eq_true, Bool.or_eq_true, Bool.not_eq_true', beq_iff_eq, bne_iff_ne, ne_eq, and_self]

/-! ## A shift by R15 -/

section
variable {o : Operand2} {w : Work} {e : Fault} (ho : operand2 o w.st = .error e)
include ho

/-! A stop in the second operand is the operation's. -/

theorem logicalOp_error (f : Word → Word → Word) (s : Bool) (rn rd : Reg) : logicalOp f s rn rd o w = .error e := by
  rw [logicalOp, ho, error_bind]

theorem moveOp_error (f : Word → Word) (s : Bool) (rd : Reg) : moveOp f s rd o w = .error e := by
  rw [moveOp, ho, error_bind]

theorem arithmeticOp_error (f : AluOp) (s : Bool) (rn rd : Reg) : arithmeticOp f s rn rd o w = .error e := by
  rw [arithmeticOp, ho, error_bind]

theorem logicalTest_error (f : Word → Word → Word) (rn rd : Reg) : logicalTest f rn rd o w = .error e := by
  rw [logicalTest, ho, error_bind]

theorem arithmeticTest_error (f : AluOp) (rn rd : Reg) : arithmeticTest f rn rd o w = .error e := by
  rw [arithmeticTest, ho, error_bind]

theorem readOnlyTest_error : readOnlyTest o w = .error e := by
  rw [readOnlyTest, ho, error_bind]

end

/-- Settles O16: the second operand stops (`operand2_shiftByPc`), and with it each opcode's operation. -/
theorem shiftByPcStops : Obligations.ShiftByPcStops := by
  intro c sf op rn rd rm type s hc
  have ho : operand2 (.regReg rm type 15) s.begin.st = .error (.unpredictable .shiftByPc) := operand2_shiftByPc rm type s
  have logical (f) := armStep_error hc (logicalOp_error ho f sf rn rd)
  have arithmetic (f) := armStep_error hc (arithmeticOp_error ho f sf rn rd)
  have move (f) := armStep_error hc (moveOp_error ho f sf rd)
  have ltest (f) := armStep_error hc (logicalTest_error ho f rn rd)
  have atest (f) := armStep_error hc (arithmeticTest_error ho f rn rd)
  have readOnly := armStep_error hc (readOnlyTest_error ho)
  simp only [List.forall_mem_cons, List.not_mem_nil, false_imp_iff, implies_true, and_true]
  exact ⟨logical _, logical _, arithmetic _, arithmetic _, arithmetic _, arithmetic _, arithmetic _, arithmetic _, ltest _, ltest _,
    atest _, atest _, logical _, move _, logical _, move _, readOnly⟩

end Sys2Proof.Machine
end

section
/-! The 42_arm_data_processing.md statements: the sixteen opcodes (O10 to O15), MRS (O18) and MSR (O19). -/

namespace Sys2Proof.Machine

open Sys2Proof.Claims

/-! ## A destination below R15

An opcode runs an operation under its condition (`hexec`); what it answers is said once for each of the three operations. -/

/-- The end of a step that wrote a register below R15 and, when S = 1, its flags. -/
theorem finish_writeResult_flags (sf : Bool) {rd : Reg} (hrd : rd ≠ 15) (v : Word) (s : State) {f : Cpsr} (hmode : f.m = s.cpsr.m) :
    finishStep false (writeResult sf rd v (s.begin.setCpsr (if sf && rd != 15 then f else s.cpsr))) =
      .next (((s.setCpsr (if sf then f else s.cpsr)).setSlot (slotOf s.cpsr.m rd) v).setSlot 15 (s.pc + 4#32)) := by
  have hkept : (if sf then f else s.cpsr).m = s.cpsr.m := by cases sf <;> simp [hmode]
  rw [finish_writeResult_reg false sf hrd, bne_iff_ne.mpr hrd, Bool.and_true, hkept]
  rfl

theorem logicalOpcode_of_exec {mk : Cond → Bool → Reg → Reg → Operand2 → Instr} {f : Word → Word → Word}
    (hexec : ∀ c sf rn rd o s, exec (mk c sf rn rd o) s = armStep c (logicalOp f sf rn rd o) s) : LogicalOpcode mk f := by
  intro c sf rn rd o s hc hrd ho
  rw [hexec, armStep_pass hc, logicalOp_ok ho]
  exact finish_writeResult_flags sf hrd _ s rfl

theorem moveOpcode_of_exec {mk : Cond → Bool → Reg → Reg → Operand2 → Instr} {f : Word → Word}
    (hexec : ∀ c sf sbz rd o s, exec (mk c sf sbz rd o) s = armStep c (moveOp f sf rd o) s) : MoveOpcode mk f := by
  intro c sf sbz rd o s hc hrd ho
  rw [hexec, armStep_pass hc, moveOp_ok ho]
  exact finish_writeResult_flags sf hrd _ s rfl

theorem arithmeticOpcode_of_exec {mk : Cond → Bool → Reg → Reg → Operand2 → Instr} {f : AluOp}
    (hexec : ∀ c sf rn rd o s, exec (mk c sf rn rd o) s = armStep c (arithmeticOp f sf rn rd o) s) : ArithmeticOpcode mk f := by
  intro c sf rn rd o s hc hrd ho
  rw [hexec, armStep_pass hc, arithmeticOp_ok ho]
  exact finish_writeResult_flags sf hrd _ s rfl

/-- Settles O10: each opcode is `logicalOp` at its own function. -/
theorem logicalOpcodesResult : Obligations.LogicalOpcodesResult :=
  ⟨logicalOpcode_of_exec fun _ _ _ _ _ _ => rfl, logicalOpcode_of_exec fun _ _ _ _ _ _ => rfl,
    logicalOpcode_of_exec fun _ _ _ _ _ _ => rfl, logicalOpcode_of_exec fun _ _ _ _ _ _ => rfl⟩

/-- Settles O11: each opcode is `moveOp` at its own function, which takes no Rn. -/
theorem moveOpcodesResult : Obligations.MoveOpcodesResult :=
  ⟨moveOpcode_of_exec fun _ _ _ _ _ _ => rfl, moveOpcode_of_exec fun _ _ _ _ _ _ => rfl⟩

/-- Settles O12: each opcode is `arithmeticOp` at its own adder, operand order and carry-in. -/
theorem arithmeticOpcodesResult : Obligations.ArithmeticOpcodesResult :=
  ⟨arithmeticOpcode_of_exec fun _ _ _ _ _ _ => rfl, arithmeticOpcode_of_exec fun _ _ _ _ _ _ => rfl,
    arithmeticOpcode_of_exec fun _ _ _ _ _ _ => rfl, arithmeticOpcode_of_exec fun _ _ _ _ _ _ => rfl,
    arithmeticOpcode_of_exec fun _ _ _ _ _ _ => rfl, arithmeticOpcode_of_exec fun _ _ _ _ _ _ => rfl⟩

/-! ## R15 as the destination (R298, R299) -/

/-- An operation that writes R15 sets no flag: it branches, and with S = 1 returns. -/
theorem writeResult_pc_flags (sf : Bool) (v : Word) (s : State) (f : Cpsr) :
    writeResult sf 15 v (s.begin.setCpsr (if sf && (15 : Reg) != 15 then f else s.cpsr)) = restoreCpsrIf sf (s.begin.branch v) := by
  rw [bne_self_eq_false, Bool.and_false, writeResult_pc]
  rfl

section
variable {o : Operand2} (ho : Op2Ready o) (sf : Bool) (rn : Reg) (s : State)
include ho

theorem logicalOp_pc (f : Word → Word → Word) :
    logicalOp f sf rn 15 o s.begin = restoreCpsrIf sf (s.begin.branch (f (op1 rn o s) (op2 o s).value)) :=
  (logicalOp_ok ho rn f sf 15).trans (writeResult_pc_flags sf _ s _)

theorem moveOp_pc (f : Word → Word) :
    moveOp f sf 15 o s.begin = restoreCpsrIf sf (s.begin.branch (f (op2 o s).value)) :=
  (moveOp_ok ho f sf 15).trans (writeResult_pc_flags sf _ s _)

theorem arithmeticOp_pc (f : AluOp) :
    arithmeticOp f sf rn 15 o s.begin =
      restoreCpsrIf sf (s.begin.branch (f s.cfg (op1 rn o s) (op2 o s).value s.cpsr.c).value) :=
  (arithmeticOp_ok ho rn f sf 15).trans (writeResult_pc_flags sf _ s _)

end

/-- A branch, and with S = 1 the return after it, is what a writing opcode with Rd = 15 is to answer. -/
theorem writesPc_of_exec {mk : Bool → Instr} {r : Word} {s : State}
    (hexec : ∀ sf, exec (mk sf) s = finishStep false (restoreCpsrIf sf (s.begin.branch r))) : WritesPc mk r s := by
  have hplain : exec (mk false) s = finishStep false (.ok (s.begin.branch r)) := hexec false
  have hreturn : exec (mk true) s = finishStep false (restoreCpsr (s.begin.branch r)) := hexec true
  refine ⟨?plain, fun hnone => ?none, fun n hn => ⟨fun saved hsaved => ?restored, fun hbad => ?invalid⟩⟩
  case plain => rw [hplain, finishStep_branch]; rfl
  case none => rw [hreturn, restoreCpsr_none (w := s.begin.branch r) hnone, finishStep_branch]; rfl
  case restored => rw [hreturn, restoreCpsr_some (w := s.begin.branch r) hn hsaved, finishStep_branch_setCpsr]; rfl
  case invalid => rw [hreturn, restoreCpsr_invalid (w := s.begin.branch r) hn hbad, finishStep_error]

/-- Settles O13: each opcode's operation branches to its result (`logicalOp_pc`, `arithmeticOp_pc`, `moveOp_pc`); the adder's results
are the wrapped sums and differences. -/
theorem dataProcessingToPc : Obligations.DataProcessingToPc := by
  intro c rn o s hc ho
  have branches {mk : Bool → Instr} {body : Bool → Work → Except Fault Work} {r r' : Word}
      (hbody : ∀ sf, body sf s.begin = restoreCpsrIf sf (s.begin.branch r)) (hr : r = r')
      (hexec : ∀ sf, exec (mk sf) s = armStep c (body sf) s) : WritesPc mk r' s :=
    writesPc_of_exec fun sf => by rw [hexec, armStep_pass hc, hbody, hr]
  have logical (f) := fun sf => logicalOp_pc ho sf rn s f
  have arithmetic (f) := fun sf => arithmeticOp_pc ho sf rn s f
  have move (f) := fun sf => moveOp_pc ho sf s f
  have add (a b : Word) : (addWithCarry a b false).value = a + b := by simp [addWithCarry_value]
  have sub (a b : Word) : (subWithBorrow s.cfg a b false).value = a - b := by simp [subWithBorrow_value]
  have sbc (a b : Word) : (subWithBorrow s.cfg a b (!s.cpsr.c)).value = a - b - (if s.cpsr.c then 0#32 else 1#32) := by
    rw [subWithBorrow_value]; cases s.cpsr.c <;> rfl
  exact ⟨branches (logical _) rfl fun _ => rfl, branches (logical _) rfl fun _ => rfl, branches (logical _) rfl fun _ => rfl,
    branches (logical _) rfl fun _ => rfl, branches (arithmetic _) (sub _ _) fun _ => rfl,
    branches (arithmetic _) (sub _ _) fun _ => rfl, branches (arithmetic _) (add _ _) fun _ => rfl,
    branches (arithmetic _) (addWithCarry_value _ _ _) fun _ => rfl, branches (arithmetic _) (sbc _ _) fun _ => rfl,
    branches (arithmetic _) (sbc _ _) fun _ => rfl, branches (move _) rfl fun _ => rfl, branches (move _) rfl fun _ => rfl⟩

/-! ## The tests -/

/-- The end of an ARM step that only wrote the status. -/
theorem finishStep_setCpsr (s : State) (f : Cpsr) :
    finishStep false (.ok (s.begin.setCpsr f)) = .next (advance (s.setCpsr f) 4#32) := finishStep_plain false (s.setCpsr f)

/-- Settles O14: a test's operation only writes the status (`logicalTest_ok`, `arithmeticTest_ok`), and with Rd = 15 writes it back. -/
theorem testOpcodesResult : Obligations.TestOpcodesResult := by
  intro c rn rd o s hc ho after
  have ends (f : Cpsr) : finishStep false (.ok (s.begin.setCpsr (if rd != 15 then f else s.cpsr))) = .next (after f) := by
    have hflags : (if rd != 15 then f else s.cpsr) = if rd = 15 then s.cpsr else f := by
      by_cases hrd : rd = 15 <;> simp [hrd]
    rw [hflags]
    exact finishStep_setCpsr s _
  have logical (f : Word → Word → Word) : armStep c (logicalTest f rn rd o) s =
      .next (after (nzc s.cpsr (f (op1 rn o s) (op2 o s).value) (op2 o s).carry)) := by
    rw [armStep_pass hc, logicalTest_ok ho]
    exact ends _
  have arithmetic (f : AluOp) : armStep c (arithmeticTest f rn rd o) s =
      .next (after (nzcv s.cpsr (f s.cfg (op1 rn o s) (op2 o s).value s.cpsr.c))) := by
    rw [armStep_pass hc, arithmeticTest_ok ho]
    exact ends _
  exact ⟨logical _, logical _, arithmetic aluSub, arithmetic aluAdd⟩

/-- Settles O15: the body leaves the step's work as it found it (`readOnlyTest_ok`). -/
theorem testWithoutFlagsIsNoOp : Obligations.TestWithoutFlagsIsNoOp :=
  fun _ _ _ _ _ s hc ho => armStep_ok hc (readOnlyTest_ok ho s.begin)

/-! ## The gate and the SPSR (R310, R51) -/

theorem requirePsrTransfer_fatal {w : Work} (h : w.st.cfg.psrTransfer = .fatal) :
    requirePsrTransfer w = .error (.unimplemented .psrTransfer) := by simp only [requirePsrTransfer, h]

theorem requirePsrTransfer_implemented {w : Work} (h : w.st.cfg.psrTransfer = .implemented) : requirePsrTransfer w = .ok () := by
  simp only [requirePsrTransfer, h]

theorem currentSpsr_some {s : State} {n : SpsrName} (h : spsrOf s.cpsr.m = some n) : currentSpsr s = .ok n := by
  simp only [currentSpsr, h]

theorem currentSpsr_none {s : State} (h : spsrOf s.cpsr.m = none) : currentSpsr s = .error (.unpredictable .noSpsr) := by
  simp only [currentSpsr, h]

/-! ## MRS (R311) -/

theorem readPsr_cpsr (s : State) : readPsr false s = .ok s.cpsr.pack := rfl

theorem readPsr_spsr {s : State} {n : SpsrName} (h : spsrOf s.cpsr.m = some n) : readPsr true s = .ok (s.spsr.get n).value := by
  rw [readPsr, if_pos rfl, currentSpsr_some h]; rfl

theorem readPsr_noSpsr {s : State} (h : spsrOf s.cpsr.m = none) : readPsr true s = .error (.unpredictable .noSpsr) := by
  rw [readPsr, if_pos rfl, currentSpsr_none h]; rfl

theorem mrsBody_implemented {w : Work} (h : w.st.cfg.psrTransfer = .implemented) (p : Bool) {rd : Reg} (hrd : rd ≠ 15) :
    mrsBody p rd w = readPsr p w.st >>= fun v => .ok (w.write rd v) := by
  simp only [mrsBody, requirePsrTransfer_implemented h, ok_bind, beq_false_of_ne hrd, faultWhen_false]

theorem mrsBody_pc {w : Work} (h : w.st.cfg.psrTransfer = .implemented) (p : Bool) :
    mrsBody p 15 w = .error (.unpredictable .psrToPc) := by
  rw [mrsBody, requirePsrTransfer_implemented h]; rfl

/-- MRS writes Rd with whatever it reads, or stops with the read. -/
theorem exec_mrs {c : Cond} {rd : Reg} {s : State} (hc : conditionPassed c s.cpsr = true) (h : s.cfg.psrTransfer = .implemented)
    (hrd : rd ≠ 15) (p : Bool) :
    exec (.mrs c p rd) s = finishStep false (readPsr p s >>= fun v => .ok (s.begin.write rd v)) :=
  (armStep_pass hc _).trans (congrArg _ (mrsBody_implemented h p hrd))

/-- Settles O18: under `Fatal` the gate stops each body before anything else; under `Implemented` MRS is `exec_mrs`, and what it reads
is `readPsr`'s. -/
theorem mrsResult : Obligations.MrsResult := by
  refine ⟨fun c p rd rm mask rotate imm8 s hc hfatal => ?gate, fun c rd s hc himpl => ?mrs⟩
  case gate =>
    have gated (k : Unit → Except Fault Work) : requirePsrTransfer s.begin >>= k = .error (.unimplemented .psrTransfer) := by
      rw [requirePsrTransfer_fatal (w := s.begin) hfatal, error_bind]
    exact ⟨armStep_error hc (gated _), armStep_error hc (gated _), armStep_error hc (gated _)⟩
  case mrs =>
    refine ⟨fun hrd => ?_, fun hrd n hn => ?_, fun hrd hnone => ?_, fun p => armStep_error hc (mrsBody_pc himpl p)⟩
    · rw [exec_mrs hc himpl hrd, readPsr_cpsr, ok_bind]
      exact finishStep_write_reg false hrd _ s
    · rw [exec_mrs hc himpl hrd, readPsr_spsr hn, ok_bind]
      exact finishStep_write_reg false hrd _ s
    · rw [exec_mrs hc himpl hrd, readPsr_noSpsr hnone, error_bind, finishStep_error]

/-! ## MSR (R320 to R324) -/

theorem msrRegBody_implemented {w : Work} (h : w.st.cfg.psrTransfer = .implemented) (p : Bool) (mask : BitVec 4) {rm : Reg}
    (hrm : rm ≠ 15) : msrRegBody p mask rm w = msrWrite p mask (reg rm w.st) w := by
  simp only [msrRegBody, requirePsrTransfer_implemented h, ok_bind, beq_false_of_ne hrm, faultWhen_false, readReg_eq, x_ne_pc hrm]

theorem msrRegBody_pc {w : Work} (h : w.st.cfg.psrTransfer = .implemented) (p : Bool) (mask : BitVec 4) :
    msrRegBody p mask 15 w = .error (.unpredictable .psrFromPc) := by
  rw [msrRegBody, requirePsrTransfer_implemented h]; rfl

theorem msrImmBody_implemented {w : Work} (h : w.st.cfg.psrTransfer = .implemented) (p : Bool) (mask rotate : BitVec 4)
    (imm8 : BitVec 8) :
    msrImmBody p mask rotate imm8 w = msrWrite p mask ((imm8.zeroExtend 32).rotateRight (2 * rotate.toNat)) w := by
  rw [msrImmBody, requirePsrTransfer_implemented h, ok_bind, rotatedImm_value]

theorem privileged_iff {m : Mode} : m.privileged = true ↔ m ≠ .user := by cases m <;> simp [Mode.privileged]

theorem msrWritesControl_iff {mask : BitVec 4} {c : Cpsr} :
    msrWritesControl mask c = true ↔ mask.getLsbD 0 = true ∧ c.m ≠ .user := by
  rw [msrWritesControl, Bool.and_eq_true, privileged_iff]

theorem msrMode_keeps_t {op : Word} {c : Cpsr} (ht : op.getLsbD 5 = c.t) : msrMode op c = requireMode (op.extractLsb' 0 5) := by
  rw [msrMode, ht, bne_self_eq_false, faultWhen_false, ok_bind]

theorem msrMode_changes_t {op : Word} {c : Cpsr} (ht : op.getLsbD 5 ≠ c.t) : msrMode op c = .error (.unpredictable .msrChangesT) := by
  rw [msrMode, bne_iff_ne.mpr ht, faultWhen_true, error_bind]

/-- Without the c field, or in User mode, only the f field counts. -/
theorem msrCpsr_flags {mask : BitVec 4} {w : Work} (h : w.st.cpsr.m = .user ∨ mask.getLsbD 0 = false) (op : Word) :
    msrCpsr mask op w = .ok (w.setCpsr (msrFlags (mask.getLsbD 3) op w.st.cpsr)) := by
  refine if_neg fun hw => ?_
  obtain ⟨hbit, hmode⟩ := msrWritesControl_iff.mp hw
  rcases h with h | h
  · exact hmode h
  · exact Bool.false_ne_true (h.symm.trans hbit)

/-- With the c field, outside User mode, the mode it names decides. -/
theorem msrCpsr_control {mask : BitVec 4} {w : Work} (hbit : mask.getLsbD 0 = true) (hmode : w.st.cpsr.m ≠ .user) (op : Word) :
    msrCpsr mask op w = msrMode op w.st.cpsr >>= fun m =>
      .ok (w.setCpsr (msrControl op m (msrFlags (mask.getLsbD 3) op w.st.cpsr))) :=
  if_pos (msrWritesControl_iff.mpr ⟨hbit, hmode⟩)

/-- Byte k of a word put together from its four bytes. -/
theorem append_four_bytes (byte : Nat → Byte) {k : Nat} (hk : k < 4) :
    (byte 3 ++ byte 2 ++ byte 1 ++ byte 0).extractLsb' (8 * k) 8 = byte k := by
  have skip {n : Nat} (hi : BitVec n) (lo : Byte) (j : Nat) : (hi ++ lo).extractLsb' (8 + j) 8 = hi.extractLsb' j 8 := by
    rw [BitVec.extractLsb'_append_eq_of_le (Nat.le_add_right 8 j), Nat.add_sub_cancel_left]
  interval_cases k
  · exact BitVec.extractLsb'_append_eq_right
  · exact (skip _ _ 0).trans BitVec.extractLsb'_append_eq_right
  · exact (skip _ _ 8).trans ((skip _ _ 0).trans BitVec.extractLsb'_append_eq_right)
  · exact (skip _ _ 16).trans ((skip _ _ 8).trans BitVec.extractLsb'_append_eq_left)

theorem replaceBytes_byte (mask : BitVec 4) (old op : Word) {k : Nat} (hk : k < 4) :
    (replaceBytes mask old op).extractLsb' (8 * k) 8 =
      if mask.getLsbD k then op.extractLsb' (8 * k) 8 else old.extractLsb' (8 * k) 8 :=
  append_four_bytes (fun k => if mask.getLsbD k then op.extractLsb' (8 * k) 8 else old.extractLsb' (8 * k) 8) hk

theorem msrCpsr_of_exec {i : Instr} {mask : BitVec 4} {op : Word} {s : State}
    (hexec : exec i s = finishStep false (msrWrite false mask op s.begin)) : MsrCpsr i mask op s := by
  replace hexec : exec i s = finishStep false (msrCpsr mask op s.begin) := hexec
  refine ⟨fun h => ?flags, fun hmode hbit ht m hm => ?control, fun hmode hbit ht => ?changesT, fun hmode hbit ht hm => ?noMode⟩
  case flags => rw [hexec, msrCpsr_flags (w := s.begin) h, finishStep_setCpsr]; rfl
  all_goals rw [hexec, msrCpsr_control (w := s.begin) hbit hmode]
  case control => rw [msrMode_keeps_t (c := s.begin.st.cpsr) ht, requireMode_some hm, ok_bind, finishStep_setCpsr]; rfl
  case changesT => rw [msrMode_changes_t (c := s.begin.st.cpsr) ht, error_bind, finishStep_error]
  case noMode => rw [msrMode_keeps_t (c := s.begin.st.cpsr) ht, requireMode_none hm, error_bind, finishStep_error]

theorem msrSpsr_of_exec {i : Instr} {mask : BitVec 4} {op : Word} {s : State}
    (hexec : exec i s = finishStep false (msrWrite true mask op s.begin)) : MsrSpsr i mask op s := by
  replace hexec : exec i s = finishStep false (currentSpsr s >>= fun n =>
    .ok { s.begin with st := s.setSpsr n (replaceBytes mask (readSpsr n s) op) }) := hexec
  refine ⟨fun n hn => ⟨replaceBytes mask (s.spsr.get n).value op, ?_, fun k hk => replaceBytes_byte mask _ op hk⟩, fun hnone => ?_⟩
  · rw [hexec, currentSpsr_some hn, ok_bind, finishStep_plain_st]; rfl
  · rw [hexec, currentSpsr_none hnone, error_bind, finishStep_error]

/-- Settles O19: both forms are `msrWrite` at their operand, which writes the CPSR (`msrCpsr_of_exec`) or the SPSR
(`msrSpsr_of_exec`). -/
theorem msrResult : Obligations.MsrResult := by
  intro c mask s hc himpl
  refine ⟨fun rm hrm => ?register, fun rotate imm8 => ?immediate, fun p => armStep_error hc (msrRegBody_pc himpl p mask)⟩
  case register =>
    have hexec (p : Bool) : exec (.msrReg c p mask rm) s = finishStep false (msrWrite p mask (reg rm s) s.begin) :=
      (armStep_pass hc _).trans (congrArg _ (msrRegBody_implemented himpl p mask hrm))
    exact ⟨msrCpsr_of_exec (hexec false), msrSpsr_of_exec (hexec true)⟩
  case immediate =>
    have hexec (p : Bool) : exec (.msrImm c p mask rotate imm8) s =
        finishStep false (msrWrite p mask ((imm8.zeroExtend 32).rotateRight (2 * rotate.toNat)) s.begin) :=
      (armStep_pass hc _).trans (congrArg _ (msrImmBody_implemented himpl p mask rotate imm8))
    exact ⟨msrCpsr_of_exec (hexec false), msrSpsr_of_exec (hexec true)⟩

end Sys2Proof.Machine
end

section
/-! The 43_arm_multiply.md statements: MUL and MLA (O20), the long multiplies (O21) and the register restrictions (O22). -/

namespace Sys2Proof.Machine

open Sys2Proof.Claims

/-! ## Products and accumulators -/

/-- `BitVec`'s product is the exact one, reduced (R341). -/
theorem word_mul_eq_ofNat (a b : Word) : a * b = BitVec.ofNat 32 (a.toNat * b.toNat) := rfl

theorem word_mul_add_eq_ofNat (a b n : Word) : a * b + n = BitVec.ofNat 32 (a.toNat * b.toNat + n.toNat) := by
  rw [BitVec.ofNat_add, BitVec.ofNat_toNat, BitVec.setWidth_eq, word_mul_eq_ofNat]

/-- RdHi ++ RdLo as a number (R343). -/
theorem accumulator_eq_ofNat (h l : Word) : (h ++ l : BitVec 64) = BitVec.ofNat 64 (h.toNat * 2 ^ 32 + l.toNat) := by
  have htoNat : (h ++ l).toNat = h.toNat * 2 ^ 32 + l.toNat := by
    rw [BitVec.toNat_append, ← Nat.shiftLeft_add_eq_or_of_lt l.isLt, Nat.shiftLeft_eq]
  rw [← htoNat, BitVec.ofNat_toNat, BitVec.setWidth_eq]

theorem unsignedProduct_accumulate (a b h l : Word) : unsignedProduct a b + (h ++ l : BitVec 64) =
    BitVec.ofNat 64 (a.toNat * b.toNat + (h.toNat * 2 ^ 32 + l.toNat)) := by
  rw [unsignedProduct_eq, accumulator_eq_ofNat, ← BitVec.ofNat_add]

theorem signedProduct_accumulate (a b h l : Word) : signedProduct a b + (h ++ l : BitVec 64) =
    BitVec.ofInt 64 (a.toInt * b.toInt + ((h.toNat * 2 ^ 32 + l.toNat : Nat) : Int)) := by
  rw [signedProduct_eq, accumulator_eq_ofNat, BitVec.ofInt_add, BitVec.ofInt_natCast]

/-! ## The register checks (R349) -/

theorem faultWhen_of {b : Bool} (h : b = true) (f : Fault) : faultWhen b f = .error f := by rw [h, faultWhen_true]
theorem faultWhen_of_not {b : Bool} (h : b = false) (f : Fault) : faultWhen b f = .ok () := faultWhen_eq_ok.mpr h

section
variable {rd rn rs rm : Reg} (sf : Bool) (w : Work)

theorem mulBody_pcOperand (h : rm = 15 ∨ rs = 15) : mulBody sf rd rs rm w = .error (.unpredictable .multiplyPcOperand) := by
  rw [mulBody, faultWhen_of (by simpa using h), error_bind]

theorem mulBody_rdEqualsRm (hm : rm ≠ 15) (hs : rs ≠ 15) (h : rd = rm) :
    mulBody sf rd rs rm w = .error (.unpredictable .multiplyRdEqualsRm) := by
  rw [mulBody, faultWhen_of_not (by simp [hm, hs]), ok_bind, faultWhen_of (by simpa using h), error_bind]

theorem mulBody_ok (hm : rm ≠ 15) (hs : rs ≠ 15) (hd : rd ≠ rm) :
    mulBody sf rd rs rm w =
      .ok (setMultiplyFlags sf rd (reg rm w.st * reg rs w.st) (w.write rd (reg rm w.st * reg rs w.st))) := by
  simp only [mulBody, beq_false_of_ne hm, beq_false_of_ne hs, beq_false_of_ne hd, Bool.or_self, faultWhen_false, ok_bind,
    readReg_eq, x_ne_pc hm, x_ne_pc hs]

theorem mlaBody_pcOperand (h : (rm = 15 ∨ rs = 15) ∨ rn = 15) :
    mlaBody sf rd rn rs rm w = .error (.unpredictable .multiplyPcOperand) := by
  rw [mlaBody, faultWhen_of (by simpa using h), error_bind]

theorem mlaBody_rdEqualsRm (hm : rm ≠ 15) (hs : rs ≠ 15) (hn : rn ≠ 15) (h : rd = rm) :
    mlaBody sf rd rn rs rm w = .error (.unpredictable .multiplyRdEqualsRm) := by
  rw [mlaBody, faultWhen_of_not (by simp [hm, hs, hn]), ok_bind, faultWhen_of (by simpa using h), error_bind]

theorem mlaBody_ok (hm : rm ≠ 15) (hs : rs ≠ 15) (hn : rn ≠ 15) (hd : rd ≠ rm) :
    mlaBody sf rd rn rs rm w =
      .ok (setMultiplyFlags sf rd (reg rm w.st * reg rs w.st + reg rn w.st)
        (w.write rd (reg rm w.st * reg rs w.st + reg rn w.st))) := by
  simp only [mlaBody, beq_false_of_ne hm, beq_false_of_ne hs, beq_false_of_ne hn, beq_false_of_ne hd, Bool.or_self,
    faultWhen_false, ok_bind, readReg_eq, x_ne_pc hm, x_ne_pc hs, x_ne_pc hn]

end

section
variable {hi lo rs rm : Reg} {acc : Bool}

theorem multiplyLongChecks_pcOperand (h : (rm = 15 ∨ rs = 15) ∨ (acc = true ∧ (hi = 15 ∨ lo = 15))) :
    multiplyLongChecks acc hi lo rs rm = .error (.unpredictable .multiplyPcOperand) := by
  rw [multiplyLongChecks, faultWhen_of (by simpa using h), error_bind]

/-- The first test passes: no operand is R15, an accumulator among them. -/
theorem multiplyLongChecks_noPc (hm : rm ≠ 15) (hs : rs ≠ 15) (hacc : acc = true → hi ≠ 15 ∧ lo ≠ 15) :
    multiplyLongChecks acc hi lo rs rm =
      faultWhen (hi == lo || hi == rm || lo == rm) (.unpredictable .multiplyLongRegisters) := by
  rw [multiplyLongChecks, faultWhen_of_not (by simpa [hm, hs] using hacc), ok_bind]

theorem multiplyLongChecks_registers (hm : rm ≠ 15) (hs : rs ≠ 15) (hacc : acc = true → hi ≠ 15 ∧ lo ≠ 15)
    (h : hi = lo ∨ hi = rm ∨ lo = rm) :
    multiplyLongChecks acc hi lo rs rm = .error (.unpredictable .multiplyLongRegisters) := by
  rw [multiplyLongChecks_noPc hm hs hacc, faultWhen_of (by simpa [or_assoc] using h)]

theorem multiplyLongChecks_ok (hm : rm ≠ 15) (hs : rs ≠ 15) (hacc : acc = true → hi ≠ 15 ∧ lo ≠ 15)
    (hhl : hi ≠ lo) (hhm : hi ≠ rm) (hlm : lo ≠ rm) : multiplyLongChecks acc hi lo rs rm = .ok () := by
  rw [multiplyLongChecks_noPc hm hs hacc, faultWhen_of_not (by simp [hhl, hhm, hlm])]

variable (product : Word → Word → BitVec 64) (sf : Bool) (w : Work)

theorem multiplyLong_error {e : Fault} (h : multiplyLongChecks false hi lo rs rm = .error e) :
    multiplyLong product sf hi lo rs rm w = .error e := by
  rw [multiplyLong, h, error_bind]

theorem multiplyLongAccumulate_error {e : Fault} (h : multiplyLongChecks true hi lo rs rm = .error e) :
    multiplyLongAccumulate product sf hi lo rs rm w = .error e := by
  rw [multiplyLongAccumulate, h, error_bind]

theorem multiplyLong_ok (hm : rm ≠ 15) (hs : rs ≠ 15) (h : multiplyLongChecks false hi lo rs rm = .ok ()) :
    multiplyLong product sf hi lo rs rm w = .ok (writeLong sf hi lo (product (reg rm w.st) (reg rs w.st)) w) := by
  simp only [multiplyLong, h, ok_bind, readReg_eq, x_ne_pc hm, x_ne_pc hs]

theorem multiplyLongAccumulate_ok (hm : rm ≠ 15) (hs : rs ≠ 15) (hhi : hi ≠ 15) (hlo : lo ≠ 15)
    (h : multiplyLongChecks true hi lo rs rm = .ok ()) :
    multiplyLongAccumulate product sf hi lo rs rm w =
      .ok (writeLong sf hi lo (product (reg rm w.st) (reg rs w.st) + (reg hi w.st ++ reg lo w.st : BitVec 64)) w) := by
  simp only [multiplyLongAccumulate, h, ok_bind, readReg_eq, x_ne_pc hm, x_ne_pc hs, x_ne_pc hhi, x_ne_pc hlo]

end

/-! ## The end of MUL and MLA -/

/-- The end of a multiply that wrote a register below R15; a Thumb MUL ends so too. -/
theorem finish_setMultiplyFlags_reg (t sf : Bool) {rd : Reg} (h : rd ≠ 15) (r : Word) (s : State) :
    finishStep t (.ok (setMultiplyFlags sf rd r (s.begin.write rd r))) =
      .next (((s.setCpsr (if sf then nzc s.cpsr r false else s.cpsr)).setSlot (slotOf s.cpsr.m rd) r).setSlot 15
        (s.pc + if t then 2#32 else 4#32)) := by
  have hpc : (s.setSlot (slotOf s.cpsr.m rd) r).pc = s.pc := setSlot_pc_ne s r (slotOf_ne_pc h)
  rw [setMultiplyFlags_eq, write_reg _ r h, bne_iff_ne.mpr h, Bool.and_true, ← hpc]
  exact finishStep_plain_st t s _

/-- With Rd = 15 it branches to the product and sets no flag (R348). -/
theorem finish_setMultiplyFlags_pc (t sf : Bool) (r : Word) (s : State) :
    finishStep t (.ok (setMultiplyFlags sf 15 r (s.begin.write 15 r))) = .next (s.setSlot 15 (jump s.cpsr.t r)) := by
  rw [setMultiplyFlags_eq, bne_self_eq_false, Bool.and_false]
  exact finishStep_branch t s.begin r

theorem finish_setMultiplyFlags (sf : Bool) (rd : Reg) (r : Word) (s : State) :
    finishStep false (.ok (setMultiplyFlags sf rd r (s.begin.write rd r))) = .next (afterMultiply s sf rd r) := by
  by_cases h : rd = 15
  · rw [h, finish_setMultiplyFlags_pc, afterMultiply, if_pos rfl]
  · rw [finish_setMultiplyFlags_reg false sf h, afterMultiply, if_neg h]
    rfl

/-- Settles O20: the checks pass (`mulBody_ok`, `mlaBody_ok`), the value is the exact one modulo 2^32, and the step ends with it in Rd
(`finish_setMultiplyFlags`). -/
theorem multiplyResult : Obligations.MultiplyResult := by
  intro c sf rd rn rs rm s hc hm hs hd
  refine ⟨(armStep_pass hc _).trans ?mul, fun hn => (armStep_pass hc _).trans ?mla⟩
  case mul => rw [mulBody_ok sf _ hm hs hd, finish_setMultiplyFlags, word_mul_eq_ofNat, begin_st]
  case mla => rw [mlaBody_ok sf _ hm hs hn hd, finish_setMultiplyFlags, word_mul_add_eq_ofNat, begin_st]

/-! ## The end of a long multiply -/

theorem setMultiplyLongFlags_pc {hi lo : Reg} (h : hi = 15 ∨ lo = 15) (sf : Bool) (r : BitVec 64) (w : Work) :
    setMultiplyLongFlags sf hi lo r w = w := by
  refine if_neg fun hset => ?_
  simp only [Bool.and_eq_true, bne_iff_ne] at hset
  obtain ⟨⟨-, hhi⟩, hlo⟩ := hset
  exact h.elim hhi hlo

theorem setMultiplyLongFlags_reg {hi lo : Reg} (hhi : hi ≠ 15) (hlo : lo ≠ 15) (sf : Bool) (r : BitVec 64) (w : Work) :
    setMultiplyLongFlags sf hi lo r w = w.setCpsr
      (if sf then { w.st.cpsr with n := r.getLsbD 63, z := decide (r = 0#64), c := false, v := false } else w.st.cpsr) := by
  rw [setMultiplyLongFlags, bne_iff_ne.mpr hhi, bne_iff_ne.mpr hlo, Bool.and_true, Bool.and_true]
  cases sf with
  | false => rfl
  | true => simp only [if_true, Cpsr.withNZ64, BitVec.msb_eq_getLsbD_last, beq_eq_decide]

/-- The two writes, RdLo first: at most one of them is a branch, and then no flag is set. -/
theorem finish_writeLong (sf : Bool) {hi lo : Reg} (hne : hi ≠ lo) (r : BitVec 64) (s : State) :
    finishStep false (.ok (writeLong sf hi lo r s.begin)) = .next (afterLong s sf hi lo r) := by
  unfold writeLong afterLong
  by_cases hhi : hi = 15
  · have hlo : lo ≠ 15 := fun h => hne (hhi.trans h.symm)
    rw [setMultiplyLongFlags_pc (.inl hhi), if_pos hhi, hhi, write_pc, write_reg _ _ hlo]
    exact finishStep_branch false { s.begin with st := s.setSlot (slotOf s.cpsr.m lo) (r.extractLsb' 0 32) } _
  by_cases hlo : lo = 15
  · rw [setMultiplyLongFlags_pc (.inr hlo), if_neg hhi, if_pos hlo, hlo, write_pc, write_reg _ _ hhi]
    exact finishStep_branch false { s.begin with st := s.setSlot (slotOf s.cpsr.m hi) (r.extractLsb' 32 32) } _
  · have hpc : ((s.setSlot (slotOf s.cpsr.m lo) (r.extractLsb' 0 32)).setSlot (slotOf s.cpsr.m hi) (r.extractLsb' 32 32)).pc = s.pc :=
      (setSlot_pc_ne _ _ (slotOf_ne_pc hhi)).trans (setSlot_pc_ne s _ (slotOf_ne_pc hlo))
    rw [setMultiplyLongFlags_reg hhi hlo, if_neg hhi, if_neg hlo, write_reg _ _ hlo, write_reg _ _ hhi, ← hpc]
    exact finishStep_plain_st false s _

/-- Settles O21: the checks pass, the product with its accumulator is the exact one modulo 2^64 (`unsignedProduct_accumulate`,
`signedProduct_accumulate`), and the step ends with its two halves written (`finish_writeLong`). -/
theorem multiplyLongResult : Obligations.MultiplyLongResult := by
  intro c sf hi lo rs rm s hc hm hs hhl hhm hlm
  have plain (product : Word → Word → BitVec 64) : armStep c (multiplyLong product sf hi lo rs rm) s =
      .next (afterLong s sf hi lo (product (reg rm s) (reg rs s))) := by
    rw [armStep_pass hc, multiplyLong_ok product sf _ hm hs (multiplyLongChecks_ok hm hs nofun hhl hhm hlm)]
    exact finish_writeLong sf hhl _ s
  have accumulate (product : Word → Word → BitVec 64) (hhi : hi ≠ 15) (hlo : lo ≠ 15) :
      armStep c (multiplyLongAccumulate product sf hi lo rs rm) s =
        .next (afterLong s sf hi lo (product (reg rm s) (reg rs s) + (reg hi s ++ reg lo s : BitVec 64))) := by
    rw [armStep_pass hc, multiplyLongAccumulate_ok product sf _ hm hs hhi hlo
      (multiplyLongChecks_ok hm hs (fun _ => ⟨hhi, hlo⟩) hhl hhm hlm)]
    exact finish_writeLong sf hhl _ s
  intro up sp acc
  refine ⟨(plain unsignedProduct).trans ?_, (plain signedProduct).trans ?_, fun hhi hlo =>
    ⟨(accumulate unsignedProduct hhi hlo).trans ?_, (accumulate signedProduct hhi hlo).trans ?_⟩⟩
  · rw [unsignedProduct_eq]
  · rw [signedProduct_eq]
  · rw [unsignedProduct_accumulate]
  · rw [signedProduct_accumulate]

/-- Settles O22: each clause is a stop of the checks, which come before any read. -/
theorem multiplyRestrictions : Obligations.MultiplyRestrictions := by
  intro c sf a b rs rm s hc
  have long {e : Fault} (h : multiplyLongChecks false a b rs rm = .error e) (product : Word → Word → BitVec 64) :
      armStep c (multiplyLong product sf a b rs rm) s = .fault e := armStep_error hc (multiplyLong_error product sf _ h)
  have accumulate {e : Fault} (h : multiplyLongChecks true a b rs rm = .error e) (product : Word → Word → BitVec 64) :
      armStep c (multiplyLongAccumulate product sf a b rs rm) s = .fault e :=
    armStep_error hc (multiplyLongAccumulate_error product sf _ h)
  refine ⟨fun h => ?operand, fun hn => ?addend, fun h => ?accumulator, fun hm hs h => ?rdEqualsRm, fun hm hs h => ?longRegisters⟩
  case operand =>
    have hlong := long (multiplyLongChecks_pcOperand (.inl h))
    have hacc := accumulate (multiplyLongChecks_pcOperand (.inl h))
    exact ⟨armStep_error hc (mulBody_pcOperand sf _ h), armStep_error hc (mlaBody_pcOperand sf _ (.inl h)),
      hlong _, hacc _, hlong _, hacc _⟩
  case addend => exact armStep_error hc (mlaBody_pcOperand sf _ (.inr hn))
  case accumulator =>
    have hacc := accumulate (multiplyLongChecks_pcOperand (.inr ⟨rfl, h⟩))
    exact ⟨hacc _, hacc _⟩
  case rdEqualsRm =>
    exact ⟨armStep_error hc (mulBody_rdEqualsRm sf _ hm hs h), fun hn => armStep_error hc (mlaBody_rdEqualsRm sf _ hm hs hn h)⟩
  case longRegisters =>
    have hlong := long (multiplyLongChecks_registers hm hs nofun h)
    have hacc (ha : a ≠ 15) (hb : b ≠ 15) := accumulate (multiplyLongChecks_registers hm hs (fun _ => ⟨ha, hb⟩) h)
    exact ⟨hlong _, hlong _, fun ha hb => ⟨hacc ha hb _, hacc ha hb _⟩⟩

end Sys2Proof.Machine
end

section
/-! The 44_arm_load_store.md statements, part 1: the single transfers (O23, O24), the halfword transfers (O25), where both stop (O26), and
the swap (O28). -/

namespace Sys2Proof.Machine

open Sys2Proof.Claims

/-! ## The end of a load and of a store -/

/-- The end of a step that wrote its base back and then its destination, which may be R15 (R371, R382). -/
theorem finish_load {b : Bool} {rn : Reg} (hb : b = true → rn ≠ 15) (rd : Reg) (ea v : Word) (s : State) :
    finishStep false (.ok ((withBase b rn ea s).begin.write rd v)) = .next (if rd = 15
      then (withBase b rn ea s).setSlot 15 (jump s.cpsr.t v)
      else ((withBase b rn ea s).setSlot (slotOf s.cpsr.m rd) v).setSlot 15 (s.pc + 4#32)) := by
  by_cases hrd : rd = 15
  · rw [hrd, write_pc, finishStep_branch, begin_st, withBase_cpsr, if_pos rfl]
  · rw [finishStep_write_reg false hrd, withBase_cpsr, withBase_pc hb, if_neg hrd]
    rfl

/-- The end of a step that stored to memory and then wrote its base back. -/
theorem finish_store {b : Bool} {rn : Reg} (hb : b = true → rn ≠ 15) (ea : Word) (s : State) (m : Memory) :
    finishStep false (.ok (withBase b rn ea (s.setMem m)).begin) =
      .next ((withBase b rn ea (s.setMem m)).setSlot 15 (s.pc + 4#32)) := by
  rw [finishStep_plain, withBase_pc hb, setMem_pc]
  rfl

/-- The bytes outside the one that a byte store writes. -/
theorem read8_write8_outside {m : Memory} (h : m.wf = true) {a b : Word} (v : Byte) (hb : inBytes a 1 b = false) :
    (m.write8 a v).read8 b = m.read8 b := by
  refine read8_write8_ne h v ?_
  rintro rfl
  simp [inBytes] at hb

/-! ## Single transfers (R371) -/

/-- An instruction that runs `singleLoad` under its condition. -/
theorem singleLoad_of_exec {c : Cond} {mk : Bool → Reg → Reg → TransferOffset → Instr} {byte p wb : Bool}
    (hexec : ∀ u rn rd off s, exec (mk u rn rd off) s = armStep c (singleLoad byte p u wb rn rd off) s) :
    SingleLoad c mk byte p (writesBack p wb) := by
  intro u rn rd off s hc ho hb hd
  rw [hexec, armStep_pass hc, singleLoad_ok ho hb hd]
  exact finish_load (fun h => (hb h).1) ..

/-- Settles O23: each form is `singleLoad` at its own width and indexing. -/
theorem singleLoadsResult : Obligations.SingleLoadsResult := fun _ =>
  ⟨fun _ => singleLoad_of_exec fun _ _ _ _ _ => rfl, singleLoad_of_exec fun _ _ _ _ _ => rfl,
    fun _ => singleLoad_of_exec fun _ _ _ _ _ => rfl, singleLoad_of_exec fun _ _ _ _ _ => rfl,
    singleLoad_of_exec (wb := true) fun _ _ _ _ _ => rfl, singleLoad_of_exec (wb := true) fun _ _ _ _ _ => rfl⟩

/-- An instruction that runs `singleStore` under its condition. -/
theorem singleStore_of_exec {c : Cond} {mk : Bool → Reg → Reg → TransferOffset → Instr} {byte p wb : Bool}
    (hexec : ∀ u rn rd off s, exec (mk u rn rd off) s = armStep c (singleStore byte p u wb rn rd off) s) :
    SingleStore c mk byte p (writesBack p wb) := by
  intro u rn rd off s hc ho hb a at' mem
  refine ⟨_, ?_, rfl, fun hwf b hout => ?_⟩
  · rw [hexec, armStep_pass hc, singleStore_ok ho hb]
    rw [finish_store hb]
    cases byte <;> rfl
  · rw [setSlot_mem, withBase_mem, setMem_mem]
    cases byte with
    | false => exact read8_write32_outside hwf _ hout
    | true => exact read8_write8_outside hwf _ hout

/-- Settles O24: each form is `singleStore` at its own width and indexing. -/
theorem singleStoresResult : Obligations.SingleStoresResult := fun _ =>
  ⟨fun _ => singleStore_of_exec fun _ _ _ _ _ => rfl, singleStore_of_exec fun _ _ _ _ _ => rfl,
    fun _ => singleStore_of_exec fun _ _ _ _ _ => rfl, singleStore_of_exec fun _ _ _ _ _ => rfl,
    singleStore_of_exec (wb := true) fun _ _ _ _ _ => rfl, singleStore_of_exec (wb := true) fun _ _ _ _ _ => rfl⟩

/-! ## Halfword transfers (R391) -/

/-- A halfword transfer writes its base back when P = 0 or W = 1 (R390). -/
theorem writesBack_iff {p w : Bool} : writesBack p w = true ↔ p = false ∨ w = true := by simp [writesBack]

/-- An instruction that runs `halfTransferLoad` under its condition, with a load that answers at every address it admits. -/
theorem halfLoad_of_exec {c : Cond} {mk : Bool → Bool → Bool → Reg → Reg → HalfOffset → Instr} {value : Word → State → Word}
    {half : Bool} {load : Word → State → Except Fault Word}
    (hexec : ∀ p u w rn rd off s, exec (mk p u w rn rd off) s = armStep c (halfTransferLoad load p u w rn rd off) s)
    (hload : ∀ a s, (half = true → HalfReady a s) → load a s = .ok (value a s)) : HalfLoad c mk value half := by
  intro p u w rn rd off s hc hw ho hb hd ha
  rw [hexec, armStep_pass hc, halfTransferLoad_ok hw ho hb hd (hload _ s ha),
    finish_load (b := !p || w) (fun h => (hb (writesBack_iff.mp h)).1), if_neg hd]

theorem halfStore_result (c : Cond) : HalfStore c := by
  intro p u w rn rd off s hc hw ho hb ha a
  refine ⟨_, (armStep_pass hc _).trans ?_, rfl, fun hwf b hout => ?_⟩
  · rw [halfTransferStore_ok hw ho hb ha]
    exact finish_store (fun h => hb (writesBack_iff.mp h)) ..
  · rw [setSlot_mem, withBase_mem, setMem_mem]
    exact read8_write16_outside hwf _ hout

/-- Settles O25: each load is `halfTransferLoad` at its own primitive, of which the byte one has no alignment test. -/
theorem halfTransfersResult : Obligations.HalfTransfersResult := fun c =>
  ⟨halfLoad_of_exec (fun _ _ _ _ _ _ _ => rfl) fun _ _ h => loadHalf_ok (h rfl),
    halfLoad_of_exec (fun _ _ _ _ _ _ _ => rfl) fun _ _ _ => rfl,
    halfLoad_of_exec (fun _ _ _ _ _ _ _ => rfl) fun _ _ h => loadSHalf_ok (h rfl), halfStore_result c⟩

/-! ## The tests of a single transfer (R372) -/

section
variable {byte p wb : Bool} {rn rd : Reg} {off : TransferOffset} {e : Fault} {w : Work}

theorem storeChecks_offsetIsPc (h : offsetRegIsPc off) : storeChecks p wb rn off = .error (.unpredictable .offsetIsPc) := by
  rw [storeChecks, faultWhen_of (offsetIsPc_iff.mpr h), error_bind]

/-- The first test passes. -/
theorem storeChecks_offset (ho : ¬ offsetRegIsPc off) :
    storeChecks p wb rn off = faultWhen (writesBack p wb && rn == 15) (.unpredictable .writebackToPc) := by
  rw [storeChecks, faultWhen_of_not (Bool.eq_false_iff.mpr (offsetIsPc_iff.not.mpr ho)), ok_bind]

theorem storeChecks_writebackToPc (ho : ¬ offsetRegIsPc off) (hb : writesBack p wb = true) (hn : rn = 15) :
    storeChecks p wb rn off = .error (.unpredictable .writebackToPc) := by
  rw [storeChecks_offset ho, faultWhen_of (by simp [hb, hn])]

theorem storeChecks_ok (ho : ¬ offsetRegIsPc off) (hb : writesBack p wb = true → rn ≠ 15) : storeChecks p wb rn off = .ok () := by
  rw [storeChecks_offset ho, faultWhen_of_not (by simpa using hb)]

/-- A load makes the tests of a store and then two of its own. -/
theorem loadChecks_eq : loadChecks byte p wb rn rd off = (storeChecks p wb rn off >>= fun _ => do
    faultWhen (writesBack p wb && rn == rd) (.unpredictable .loadWritebackSameRegister)
    faultWhen (byte && rd == 15) (.unpredictable .subwordLoadToPc)) := by
  rw [loadChecks, storeChecks, bind_assoc]

theorem loadChecks_of_store (h : storeChecks p wb rn off = .error e) : loadChecks byte p wb rn rd off = .error e := by
  rw [loadChecks_eq, h, error_bind]

theorem loadChecks_sameRegister (ho : ¬ offsetRegIsPc off) (hb : writesBack p wb = true) (hn : rn ≠ 15) (h : rn = rd) :
    loadChecks byte p wb rn rd off = .error (.unpredictable .loadWritebackSameRegister) := by
  rw [loadChecks_eq, storeChecks_ok ho fun _ => hn, ok_bind, faultWhen_of (by simp [hb, h]), error_bind]

theorem loadChecks_subwordToPc (ho : ¬ offsetRegIsPc off) (hb : writesBack p wb = true → rn ≠ 15 ∧ rn ≠ rd) (hbyte : byte = true)
    (hd : rd = 15) : loadChecks byte p wb rn rd off = .error (.unpredictable .subwordLoadToPc) := by
  rw [loadChecks_eq, storeChecks_ok ho fun h => (hb h).1, ok_bind, faultWhen_of_not (by simpa using fun h => (hb h).2), ok_bind,
    faultWhen_of (by simp [hbyte, hd])]

theorem singleLoad_error {u : Bool} (h : loadChecks byte p wb rn rd off = .error e) : singleLoad byte p u wb rn rd off w = .error e := by
  rw [singleLoad, h, error_bind]

theorem singleStore_error {u : Bool} (h : storeChecks p wb rn off = .error e) : singleStore byte p u wb rn rd off w = .error e := by
  rw [singleStore, h, error_bind]

end

section
variable {c : Cond} {s : State} {mk : Reg → Reg → TransferOffset → Instr} {byte u : Bool}
  (hc : conditionPassed c s.cpsr = true) (p wb : Bool)
include hc

theorem singleStops_of_load (hexec : ∀ rn rd off, exec (mk rn rd off) s = armStep c (singleLoad byte p u wb rn rd off) s) :
    SingleStops mk true byte (writesBack p wb) s := by
  intro rn rd off
  have stop {e : Fault} (h : loadChecks byte p wb rn rd off = .error e) : exec (mk rn rd off) s = .fault e := by
    rw [hexec, armStep_error hc (singleLoad_error h)]
  exact ⟨fun ho => stop (loadChecks_of_store (storeChecks_offsetIsPc ho)),
    fun ho hb hn => stop (loadChecks_of_store (storeChecks_writebackToPc ho hb hn)),
    fun ho _ hb hn h => stop (loadChecks_sameRegister ho hb hn h),
    fun ho _ hbyte hb hd => stop (loadChecks_subwordToPc ho hb hbyte hd)⟩

theorem singleStops_of_store (hexec : ∀ rn rd off, exec (mk rn rd off) s = armStep c (singleStore byte p u wb rn rd off) s) :
    SingleStops mk false byte (writesBack p wb) s := by
  intro rn rd off
  have stop {e : Fault} (h : storeChecks p wb rn off = .error e) : exec (mk rn rd off) s = .fault e := by
    rw [hexec, armStep_error hc (singleStore_error h)]
  exact ⟨fun ho => stop (storeChecks_offsetIsPc ho), fun ho hb hn => stop (storeChecks_writebackToPc ho hb hn), nofun, nofun⟩

end

/-! ## The tests of a halfword transfer (R392) -/

section
variable {p wb : Bool} {rn rd : Reg} {off : HalfOffset} {e : Fault}

theorem halfStoreChecks_postWriteback (hp : p = false) (hw : wb = true) :
    halfStoreChecks p wb rn off = .error (.unpredictable .halfwordPostWriteback) := by
  rw [halfStoreChecks, faultWhen_of (by simp [hp, hw]), error_bind]

/-- The first test passes. -/
theorem halfStoreChecks_indexing (hw : ¬ (p = false ∧ wb = true)) : halfStoreChecks p wb rn off = (do
    faultWhen (halfOffsetIsPc off) (.unpredictable .offsetIsPc)
    faultWhen (writesBack p wb && rn == 15) (.unpredictable .writebackToPc)) := by
  rw [halfStoreChecks, faultWhen_of_not (by simpa using hw), ok_bind]

theorem halfStoreChecks_offsetIsPc (hw : ¬ (p = false ∧ wb = true)) (ho : halfRegIsPc off) :
    halfStoreChecks p wb rn off = .error (.unpredictable .offsetIsPc) := by
  rw [halfStoreChecks_indexing hw, faultWhen_of (halfOffsetIsPc_iff.mpr ho), error_bind]

/-- The first two tests pass. -/
theorem halfStoreChecks_offset (hw : ¬ (p = false ∧ wb = true)) (ho : ¬ halfRegIsPc off) :
    halfStoreChecks p wb rn off = faultWhen (writesBack p wb && rn == 15) (.unpredictable .writebackToPc) := by
  rw [halfStoreChecks_indexing hw, faultWhen_of_not (Bool.eq_false_iff.mpr (halfOffsetIsPc_iff.not.mpr ho)), ok_bind]

theorem halfStoreChecks_writebackToPc (hw : ¬ (p = false ∧ wb = true)) (ho : ¬ halfRegIsPc off) (hb : p = false ∨ wb = true)
    (hn : rn = 15) : halfStoreChecks p wb rn off = .error (.unpredictable .writebackToPc) := by
  rw [halfStoreChecks_offset hw ho, faultWhen_of (by simp [writesBack_iff.mpr hb, hn])]

theorem halfStoreChecks_ok (hw : ¬ (p = false ∧ wb = true)) (ho : ¬ halfRegIsPc off) (hb : p = false ∨ wb = true → rn ≠ 15) :
    halfStoreChecks p wb rn off = .ok () := by
  rw [halfStoreChecks_offset hw ho, faultWhen_of_not (by simpa using fun h => hb (writesBack_iff.mp h))]

/-- A load makes the tests of a store and then two of its own. -/
theorem halfLoadChecks_eq : halfLoadChecks p wb rn rd off = (halfStoreChecks p wb rn off >>= fun _ => do
    faultWhen (writesBack p wb && rn == rd) (.unpredictable .loadWritebackSameRegister)
    faultWhen (rd == 15) (.unpredictable .subwordLoadToPc)) := by
  simp only [halfLoadChecks, halfStoreChecks, bind_assoc]

theorem halfLoadChecks_of_store (h : halfStoreChecks p wb rn off = .error e) : halfLoadChecks p wb rn rd off = .error e := by
  rw [halfLoadChecks_eq, h, error_bind]

theorem halfLoadChecks_sameRegister (hw : ¬ (p = false ∧ wb = true)) (ho : ¬ halfRegIsPc off) (hb : p = false ∨ wb = true)
    (hn : rn ≠ 15) (h : rn = rd) : halfLoadChecks p wb rn rd off = .error (.unpredictable .loadWritebackSameRegister) := by
  rw [halfLoadChecks_eq, halfStoreChecks_ok hw ho fun _ => hn, ok_bind, faultWhen_of (by simp [writesBack_iff.mpr hb, h]), error_bind]

/-- Every test but the last passes. -/
theorem halfLoadChecks_registers (hw : ¬ (p = false ∧ wb = true)) (ho : ¬ halfRegIsPc off)
    (hb : p = false ∨ wb = true → rn ≠ 15 ∧ rn ≠ rd) :
    halfLoadChecks p wb rn rd off = faultWhen (rd == 15) (.unpredictable .subwordLoadToPc) := by
  rw [halfLoadChecks_eq, halfStoreChecks_ok hw ho fun h => (hb h).1, ok_bind,
    faultWhen_of_not (by simpa using fun h => (hb (writesBack_iff.mp h)).2), ok_bind]

theorem halfLoadChecks_subwordToPc (hw : ¬ (p = false ∧ wb = true)) (ho : ¬ halfRegIsPc off)
    (hb : p = false ∨ wb = true → rn ≠ 15 ∧ rn ≠ rd) (hd : rd = 15) :
    halfLoadChecks p wb rn rd off = .error (.unpredictable .subwordLoadToPc) := by
  rw [halfLoadChecks_registers hw ho hb, faultWhen_of (by simp [hd])]

theorem halfLoadChecks_ok (hw : ¬ (p = false ∧ wb = true)) (ho : ¬ halfRegIsPc off)
    (hb : p = false ∨ wb = true → rn ≠ 15 ∧ rn ≠ rd) (hd : rd ≠ 15) : halfLoadChecks p wb rn rd off = .ok () := by
  rw [halfLoadChecks_registers hw ho hb, faultWhen_of_not (beq_false_of_ne hd)]

theorem halfTransferLoad_error {load : Word → State → Except Fault Word} {u : Bool} {w : Work}
    (h : halfLoadChecks p wb rn rd off = .error e) : halfTransferLoad load p u wb rn rd off w = .error e := by
  rw [halfTransferLoad, h, error_bind]

theorem halfTransferStore_error {u : Bool} {w : Work} (h : halfStoreChecks p wb rn off = .error e) :
    halfTransferStore p u wb rn rd off w = .error e := by
  rw [halfTransferStore, h, error_bind]

/-- The primitive's own stop comes after the checks (R88). -/
theorem halfTransferLoad_load_error {load : Word → State → Except Fault Word} {u : Bool} {s : State}
    (h : halfLoadChecks p wb rn rd off = .ok ()) (hload : load (address p u rn (halfOff off s) s) s = .error e) :
    halfTransferLoad load p u wb rn rd off s.begin = .error e := by
  simp only [halfTransferLoad, h, ok_bind, begin_st, halfOffset_eq, readReg_eq, offsetBase_eq_effective, accessAddress_effective,
    hload, error_bind]

theorem halfTransferStore_misaligned {u : Bool} {s : State} (h : halfStoreChecks p wb rn off = .ok ())
    (ha : ¬ HalfReady (address p u rn (halfOff off s) s) s) :
    halfTransferStore p u wb rn rd off s.begin = .error (.unpredictable .misalignedHalfword) := by
  simp only [halfTransferStore, h, ok_bind, begin_st, halfOffset_eq, readReg_eq, offsetBase_eq_effective, accessAddress_effective,
    storeHalf, checkHalf_error ha, error_bind]

end

theorem loadHalf_error {a : Word} {s : State} (h : ¬ HalfReady a s) : loadHalf a s = .error (.unpredictable .misalignedHalfword) := by
  rw [loadHalf, checkHalf_error h, error_bind]

theorem loadSHalf_error {a : Word} {s : State} (h : ¬ HalfReady a s) : loadSHalf a s = .error (.unpredictable .misalignedHalfword) := by
  rw [loadSHalf, checkHalf_error h, error_bind]

theorem not_halfReady {a : Word} {s : State} (hm : s.cfg.misaligned = .arm7tdmi) (ha : a.getLsbD 0 = true) : ¬ HalfReady a s := by
  simp [HalfReady, hm, ha]

section
variable {c : Cond} {s : State} (hc : conditionPassed c s.cpsr = true)
include hc

theorem halfStops_of_load {mk : Bool → Bool → Bool → Reg → Reg → HalfOffset → Instr} {half : Bool}
    {load : Word → State → Except Fault Word}
    (hexec : ∀ p u w rn rd off, exec (mk p u w rn rd off) s = armStep c (halfTransferLoad load p u w rn rd off) s)
    (hload : ∀ a, half = true → ¬ HalfReady a s → load a s = .error (.unpredictable .misalignedHalfword)) :
    HalfStops mk true half s := by
  intro p u w rn rd off
  have stop {e : Fault} (h : halfLoadChecks p w rn rd off = .error e) : exec (mk p u w rn rd off) s = .fault e := by
    rw [hexec, armStep_error hc (halfTransferLoad_error h)]
  refine ⟨fun hp hw => stop (halfLoadChecks_of_store (halfStoreChecks_postWriteback hp hw)),
    fun hw ho => stop (halfLoadChecks_of_store (halfStoreChecks_offsetIsPc hw ho)),
    fun hw ho hb hn => stop (halfLoadChecks_of_store (halfStoreChecks_writebackToPc hw ho hb hn)),
    fun hw ho _ hb hn h => stop (halfLoadChecks_sameRegister hw ho hb hn h),
    fun hw ho _ hb hd => stop (halfLoadChecks_subwordToPc hw ho hb hd), fun hw ho hb hd hhalf hm ha => ?misaligned⟩
  case misaligned =>
    have hok : halfLoadChecks p w rn rd off = .ok () :=
      halfLoadChecks_ok hw ho (fun h => ⟨(hb h).1, (hb h).2 rfl⟩) (hd rfl)
    rw [hexec, armStep_error hc (halfTransferLoad_load_error hok (hload _ hhalf (not_halfReady hm ha)))]

theorem halfStops_of_store : HalfStops (.strh c) false true s := by
  intro p u w rn rd off
  have stop {e : Fault} (h : halfTransferStore p u w rn rd off s.begin = .error e) : exec (.strh c p u w rn rd off) s = .fault e :=
    armStep_error hc h
  exact ⟨fun hp hw => stop (halfTransferStore_error (halfStoreChecks_postWriteback hp hw)),
    fun hw ho => stop (halfTransferStore_error (halfStoreChecks_offsetIsPc hw ho)),
    fun hw ho hb hn => stop (halfTransferStore_error (halfStoreChecks_writebackToPc hw ho hb hn)), nofun, nofun,
    fun hw ho hb _ _ hm ha =>
      stop (halfTransferStore_misaligned (halfStoreChecks_ok hw ho fun h => (hb h).1) (not_halfReady hm ha))⟩

end

/-- Settles O26: each clause is a test of the body's checks with those before it passed, the last the access's own test. -/
theorem transferStops : Obligations.TransferStops := fun _ _ w _ hc =>
  ⟨singleStops_of_load hc true w fun _ _ _ => rfl, singleStops_of_load hc false false fun _ _ _ => rfl,
    singleStops_of_load hc true w fun _ _ _ => rfl, singleStops_of_load hc false false fun _ _ _ => rfl,
    singleStops_of_store hc true w fun _ _ _ => rfl, singleStops_of_store hc false false fun _ _ _ => rfl,
    singleStops_of_store hc true w fun _ _ _ => rfl, singleStops_of_store hc false false fun _ _ _ => rfl,
    singleStops_of_load hc false true fun _ _ _ => rfl, singleStops_of_load hc false true fun _ _ _ => rfl,
    singleStops_of_store hc false true fun _ _ _ => rfl, singleStops_of_store hc false true fun _ _ _ => rfl,
    halfStops_of_load hc (fun _ _ _ _ _ _ => rfl) fun _ _ h => loadHalf_error h, halfStops_of_store hc,
    halfStops_of_load (load := fun a s => .ok (loadSByte a s)) hc (fun _ _ _ _ _ _ => rfl) nofun,
    halfStops_of_load hc (fun _ _ _ _ _ _ => rfl) fun _ _ h => loadSHalf_error h⟩

/-! ## The swap (R410) -/

section
variable {rn rd rm : Reg}

theorem swapChecks_pc (h : rn = 15 ∨ rd = 15 ∨ rm = 15) : swapChecks rn rd rm = .error (.unpredictable .swapPc) := by
  rw [swapChecks, faultWhen_of (by simpa [or_assoc] using h), error_bind]

/-- The first test passes. -/
theorem swapChecks_noPc (hn : rn ≠ 15) (hd : rd ≠ 15) (hm : rm ≠ 15) :
    swapChecks rn rd rm = faultWhen (rn == rd || rn == rm) (.unpredictable .swapBaseOverlap) := by
  rw [swapChecks, faultWhen_of_not (by simp [hn, hd, hm]), ok_bind]

theorem swapChecks_overlap (hn : rn ≠ 15) (hd : rd ≠ 15) (hm : rm ≠ 15) (h : rn = rd ∨ rn = rm) :
    swapChecks rn rd rm = .error (.unpredictable .swapBaseOverlap) := by
  rw [swapChecks_noPc hn hd hm, faultWhen_of (by simpa using h)]

theorem swapChecks_ok (hn : rn ≠ 15) (hd : rd ≠ 15) (hm : rm ≠ 15) (hnd : rn ≠ rd) (hnm : rn ≠ rm) :
    swapChecks rn rd rm = .ok () := by
  rw [swapChecks_noPc hn hd hm, faultWhen_of_not (by simp [hnd, hnm])]

theorem swapBody_error {byte : Bool} {e : Fault} {w : Work} (h : swapChecks rn rd rm = .error e) :
    swapBody byte rn rd rm w = .error e := by
  rw [swapBody, h, error_bind]

/-- The swap's body, its stored memory and its loaded value by the width. -/
theorem swapBody_ok (byte : Bool) (hn : rn ≠ 15) (hm : rm ≠ 15) (s : State) (h : swapChecks rn rd rm = .ok ()) :
    swapBody byte rn rd rm s.begin =
      .ok ((s.setMem (if byte then s.mem.write8 (reg rn s) ((reg rm s).extractLsb' 0 8)
          else s.mem.write32 (wordStoreAt s.cfg (reg rn s)) (reg rm s))).begin.write rd
        (if byte then (s.mem.read8 (reg rn s)).zeroExtend 32 else wordAt (reg rn s) s)) := by
  simp only [swapBody, h, ok_bind, begin_st, readReg_eq, x_ne_pc hn, x_ne_pc hm, loadByte, loadWord_eq, storeByte, storeWord_eq]
  cases byte <;> rfl

end

/-- Settles O28: the body loads, stores and writes Rd when its checks pass, and each stop is one of them. -/
theorem swapResult : Obligations.SwapResult := by
  intro c rn rd rm sbz s hc
  refine ⟨fun hn hd hm hnd hnm => ?done, fun h => ?pc, fun hn hd hm h => ?overlap⟩
  case done =>
    have ended (byte : Bool) := armStep_pass hc (swapBody byte rn rd rm)
    simp only [swapBody_ok _ hn hm s (swapChecks_ok hn hd hm hnd hnm), finishStep_write_reg false hd] at ended
    exact ⟨⟨_, ended false, rfl, fun hwf _ hout => read8_write32_outside hwf _ hout⟩,
      ⟨_, ended true, rfl, fun hwf _ hout => read8_write8_outside hwf _ hout⟩⟩
  case pc =>
    have stop (byte : Bool) := armStep_error hc (swapBody_error (byte := byte) (swapChecks_pc h))
    exact ⟨stop false, stop true⟩
  case overlap =>
    have stop (byte : Bool) := armStep_error hc (swapBody_error (byte := byte) (swapChecks_overlap hn hd hm h))
    exact ⟨stop false, stop true⟩

end Sys2Proof.Machine
end

section
/-! The 44_arm_load_store.md statements, part 2: the block transfers, their addresses (O29), LDM (O30), STM (O31) and both in sequence
(O32).  What an LDM or STM does is said once, for a step of either instruction set, so that Thumb's block transfers are the same lemma. -/

namespace Sys2Proof.Machine

open Sys2Proof.Claims

/-! ## Addresses (R420) -/

/-- Settles O29: the walk is `blockAddresses_eq`, and every closed form is a multiple of 4 (`blockAddress_mod`). -/
theorem blockAddressesClosedForm : Obligations.BlockAddressesClosedForm := by
  intro cfg p u base list
  refine ⟨blockAddresses_eq cfg p u base list, fun q hq => ?_⟩
  rw [blockAddresses_eq] at hq
  obtain ⟨i, -, rfl⟩ := List.mem_map.mp hq
  exact and_three_eq_zero.mpr (blockAddress_mod ..)

/-! ## The base -/

theorem withBase_cell (b : Bool) (rn : Reg) (v : Word) (s : State) (q : Slot) :
    (withBase b rn v s).cell q = if b = true ∧ q = slotOf s.cpsr.m rn then ⟨v, true⟩ else s.cell q := by
  cases b <;> simp [withBase, setSlot_cell]

/-- The base R15 stops both block transfers before anything else (R428). -/
theorem loadMultiple_basePc (p u sb wb : Bool) (list : BitVec 16) (w : Work) :
    loadMultiple p u sb wb 15 list w = .error (.unpredictable .blockBaseIsPc) := rfl

theorem storeMultiple_basePc (p u sb wb : Bool) (list : BitVec 16) (w : Work) :
    storeMultiple p u sb wb 15 list w = .error (.unpredictable .blockBaseIsPc) := rfl

/-! ## LDM (R422) -/

/-- The listed registers with the words at their addresses. -/
def loadedWords (p u : Bool) (rn : Reg) (list : BitVec 16) (s : State) : List (Reg × Word) :=
  (listedRegs list).map fun r => (r, s.mem.read32 (blockAddress s.cfg p u (x rn s) list r))

/-- An LDM's work before the return: the base written back, then the listed registers. -/
def loadedWork (p u sb wb : Bool) (rn : Reg) (list : BitVec 16) (s : State) : Work :=
  writeBlock (loadBank s.cfg sb list s.cpsr.m) (loadedWords p u rn list s) (withBase wb rn (blockBase u (x rn s) list) s).begin

section
variable {p u sb wb : Bool} {rn : Reg} {list : BitVec 16} {s : State}

theorem loadBlock_eq : loadBlock s (blockAddresses s.cfg p u (x rn s) list) = loadedWords p u rn list s := by
  simp only [loadBlock, blockAddresses_eq, List.map_map, loadedWords, Function.comp_def, loadWord_eq,
    wordAt_aligned (blockAddress_aligned ..)]

theorem loadMultiple_eq (hn : rn ≠ 15) : loadMultiple p u sb wb rn list s.begin =
    restoreCpsrIf (sb && list.getLsbD 15) (loadedWork p u sb wb rn list s) := by
  simp only [loadMultiple, beq_false_of_ne hn, faultWhen_false, ok_bind, begin_st, readReg_eq, loadBlock_eq, blockBank_load,
    writeBackBase_eq fun _ => hn, blockWriteBack_eq]
  rfl

theorem mem_loadedWords {r : Reg} (h : Listed list r) :
    (r, s.mem.read32 (blockAddress s.cfg p u (x rn s) list r)) ∈ loadedWords p u rn list s :=
  List.mem_map_of_mem (mem_listedRegs.mpr h)

theorem listed_of_mem_loadedWords {q : Reg × Word} (h : q ∈ loadedWords p u rn list s) : Listed list q.1 := by
  obtain ⟨r, hr, rfl⟩ := List.mem_map.mp h
  exact mem_listedRegs.mp hr

theorem loadedWords_sorted : (loadedWords p u rn list s).Pairwise (fun a b => a.1 < b.1) :=
  List.pairwise_map.mpr (listedRegs_sorted list)

@[simp] theorem loadedWork_cfg : (loadedWork p u sb wb rn list s).st.cfg = s.cfg :=
  (writeBlock_keeps ..).1.trans (withBase_cfg ..)
@[simp] theorem loadedWork_cpsr : (loadedWork p u sb wb rn list s).st.cpsr = s.cpsr :=
  (writeBlock_keeps ..).2.1.trans (withBase_cpsr ..)
@[simp] theorem loadedWork_spsr : (loadedWork p u sb wb rn list s).st.spsr = s.spsr :=
  (writeBlock_keeps ..).2.2.1.trans (withBase_spsr ..)
@[simp] theorem loadedWork_mem : (loadedWork p u sb wb rn list s).st.mem = s.mem :=
  (writeBlock_keeps ..).2.2.2.trans (withBase_mem ..)

theorem loadedWork_cell_listed {r : Reg} (h : Listed list r) (hr : r ≠ 15) :
    (loadedWork p u sb wb rn list s).st.cell (slotOf (loadBank s.cfg sb list s.cpsr.m) r) =
      ⟨s.mem.read32 (blockAddress s.cfg p u (x rn s) list r), true⟩ :=
  writeBlock_cell _ _ loadedWords_sorted (mem_loadedWords h) hr

theorem loadedWork_cell_unlisted {q : Slot} (h : ∀ r, Listed list r → r = 15 ∨ slotOf (loadBank s.cfg sb list s.cpsr.m) r ≠ q) :
    (loadedWork p u sb wb rn list s).st.cell q =
      if wb = true ∧ q = slotOf s.cpsr.m rn then ⟨blockBase u (x rn s) list, true⟩ else s.cell q := by
  rw [loadedWork, writeBlock_cell_ne _ _ _ fun a ha => h _ (listed_of_mem_loadedWords ha)]
  exact withBase_cell ..

theorem loadedWork_pc (hn : rn ≠ 15) : (loadedWork p u sb wb rn list s).st.pc = s.pc := by
  have hkept : ∀ r, Listed list r → r = 15 ∨ slotOf (loadBank s.cfg sb list s.cpsr.m) r ≠ 15 :=
    fun r _ => or_iff_not_imp_left.mpr slotOf_ne_pc
  rw [State.pc, loadedWork_cell_unlisted hkept, if_neg fun h => slotOf_ne_pc hn h.2.symm]
  rfl

theorem loadedWork_target : (loadedWork p u sb wb rn list s).target =
    if list.getLsbD 15 then some (s.mem.read32 (blockAddress s.cfg p u (x rn s) list 15)) else none := by
  split
  · next h => exact writeBlock_target _ _ loadedWords_sorted (mem_loadedWords h)
  · next h => exact writeBlock_target_none _ _ _ fun a ha e => h (show Listed list 15 from e ▸ listed_of_mem_loadedWords ha)

end

/-- The return in a mode whose SPSR holds a mode, and in one without an SPSR: only the status may change (R635, R636). -/
theorem restoreCpsrIf_ok {b : Bool} {w : Work}
    (h : ∀ n, b = true → spsrOf w.st.cpsr.m = some n → (modeOf ((w.st.spsr.get n).value.extractLsb' 0 5)).isSome) :
    ∃ c, restoreCpsrIf b w = .ok (w.setCpsr c) ∧ (¬ b = true → c = w.st.cpsr) ∧
      (b = true → spsrOf w.st.cpsr.m = none → c = w.st.cpsr) ∧
      (∀ n, b = true → spsrOf w.st.cpsr.m = some n → Cpsr.unpack (w.st.spsr.get n).value = .ok c) := by
  cases b with
  | false => exact ⟨w.st.cpsr, rfl, fun _ => rfl, nofun, nofun⟩
  | true =>
    cases hm : spsrOf w.st.cpsr.m with
    | none => exact ⟨w.st.cpsr, restoreCpsr_none hm, fun _ => rfl, fun _ _ => rfl, nofun⟩
    | some n =>
      obtain ⟨m, hmode⟩ := Option.isSome_iff_exists.mp (h n rfl hm)
      obtain ⟨c, hc⟩ : ∃ c, Cpsr.unpack (w.st.spsr.get n).value = .ok c := ⟨_, by rw [Cpsr.unpack, requireMode_some hmode]⟩
      refine ⟨c, restoreCpsr_some hm hc, fun hne => absurd rfl hne, nofun, fun k _ hk => ?_⟩
      rw [← Option.some.inj hk]
      exact hc

/-- An LDM of either instruction set. -/
theorem loadsBlock_of_exec {i : Instr} {p u sb wb : Bool} {rn : Reg} {list : BitVec 16} {s : State} (thumb : Bool)
    (hexec : exec i s = finishStep thumb (loadMultiple p u sb wb rn list s.begin)) (hn : rn ≠ 15) :
    LoadsBlock i (instructionBytes thumb) p u sb wb rn list s := by
  intro hspsr
  have hret : (sb && list.getLsbD 15) = true ↔ sb = true ∧ list.getLsbD 15 = true := Bool.and_eq_true_iff
  obtain ⟨c, hok, hkept, hnone, hsome⟩ := restoreCpsrIf_ok (b := sb && list.getLsbD 15) (w := loadedWork p u sb wb rn list s)
    (by simpa only [loadedWork_cpsr, loadedWork_spsr, hret] using hspsr)
  simp only [loadedWork_cpsr, loadedWork_spsr, hret] at hkept hnone hsome
  rw [hexec, loadMultiple_eq hn, hok, finishStep_ok]
  refine ⟨_, rfl, fun r hr h15 => ?listed, fun q h15 hq => ?others, ?status, ?noSpsr, ?spsr, ?pc, ?_, ?_, ?_⟩
  case listed => rw [endOfStep_cell _ _ (slotOf_ne_pc h15)]; exact loadedWork_cell_listed hr h15
  case others => rw [endOfStep_cell _ _ h15]; exact loadedWork_cell_unlisted fun r hr => .inr (hq r hr)
  case status => rw [endOfStep_cpsr]; exact hkept
  case noSpsr => rw [endOfStep_cpsr]; exact hnone
  case spsr => rw [endOfStep_cpsr]; exact hsome
  case pc =>
    have htarget : ((loadedWork p u sb wb rn list s).setCpsr c).target = _ := loadedWork_target
    rw [endOfStep_cpsr]
    split
    · next h => exact endOfStep_pc_target _ (htarget.trans (if_pos h))
    · next h =>
      rw [endOfStep_pc_none _ (htarget.trans (if_neg h)), workSetCpsr_st, setCpsr_pc, loadedWork_pc hn]
  all_goals simp

/-- Settles O30: each form is `loadMultiple` at its own direction and indexing. -/
theorem loadMultipleResult : Obligations.LoadMultipleResult := by
  intro c sb wb rn list s hc
  refine ⟨fun hn => ?_, ?_⟩
  · exact ⟨loadsBlock_of_exec false (armStep_pass hc _) hn, loadsBlock_of_exec false (armStep_pass hc _) hn,
      loadsBlock_of_exec false (armStep_pass hc _) hn, loadsBlock_of_exec false (armStep_pass hc _) hn⟩
  · rintro rfl
    have stop (p u : Bool) := armStep_error hc (loadMultiple_basePc p u sb wb list s.begin)
    simpa using ⟨stop false true, stop true true, stop false false, stop true false⟩

/-! ## STM (R423) -/

/-- The addresses of the listed registers with the values stored there. -/
def storedWords (p u sb wb : Bool) (rn : Reg) (list : BitVec 16) (s : State) : List (Word × Word) :=
  (listedRegs list).map fun r => (blockAddress s.cfg p u (x rn s) list r, blockValue sb wb rn u list r s)

section
variable {p u sb wb : Bool} {rn : Reg} {list : BitVec 16} {s : State}

theorem storeMultiple_ok (hn : rn ≠ 15) : storeMultiple p u sb wb rn list s.begin =
    .ok (withBase wb rn (blockBase u (x rn s) list) (s.setMem (storeWords (storedWords p u sb wb rn list s) s.mem))).begin := by
  have hstore : storeBlock (blockStoreValue wb (storeBank sb s.cpsr.m) rn (blockBase u (x rn s) list) list)
      ((listedRegs list).map fun r => (r, blockAddress s.cfg p u (x rn s) list r)) s =
      s.setMem (storeWords (storedWords p u sb wb rn list s) s.mem) := by
    rw [storeBlock_eq (val := fun r => blockValue sb wb rn u list r s), List.map_map]
    · rfl
    · rintro _ hq m
      obtain ⟨r, hr, rfl⟩ := List.mem_map.mp hq
      exact blockStoreValue_eq (mem_listedRegs.mp hr) m
    · rintro _ hq
      obtain ⟨r, -, rfl⟩ := List.mem_map.mp hq
      exact blockAddress_aligned ..
  simp only [storeMultiple, beq_false_of_ne hn, faultWhen_false, ok_bind, begin_st, readReg_eq, blockAddresses_eq, blockBank_store,
    blockWriteBack_eq, hstore, writeBackBase_eq fun _ => hn]
  rfl

theorem read32_storedWords (h : s.mem.wf = true) {r : Reg} (hr : Listed list r) :
    (storeWords (storedWords p u sb wb rn list s) s.mem).read32 (blockAddress s.cfg p u (x rn s) list r) =
      blockValue sb wb rn u list r s := by
  refine storeWords_read32 h ?_ (List.mem_map_of_mem (mem_listedRegs.mpr hr))
  refine List.pairwise_map.mpr (List.Pairwise.imp_of_mem ?_ (listedRegs_sorted list))
  intro i j hi hj hij k hk
  exact blockAddress_disjoint s.cfg p u _ (mem_listedRegs.mp hj) (mem_listedRegs.mp hi) hij.ne' hk

theorem read8_storedWords_outside (h : s.mem.wf = true) {b : Word}
    (hb : ∀ r, Listed list r → inBytes (blockAddress s.cfg p u (x rn s) list r) 4 b = false) :
    (storeWords (storedWords p u sb wb rn list s) s.mem).read8 b = s.mem.read8 b := by
  refine storeWords_outside h fun q hq => ?_
  obtain ⟨r, hr, rfl⟩ := List.mem_map.mp hq
  exact hb r (mem_listedRegs.mp hr)

end

/-- An STM of either instruction set. -/
theorem storesBlock_of_exec {i : Instr} {p u sb wb : Bool} {rn : Reg} {list : BitVec 16} {s : State} (thumb : Bool)
    (hexec : exec i s = finishStep thumb (storeMultiple p u sb wb rn list s.begin)) (hn : rn ≠ 15) :
    StoresBlock i (instructionBytes thumb) p u sb wb rn list s := by
  rw [storeMultiple_ok hn, finishStep_ok] at hexec
  refine ⟨_, hexec, fun hwf => ⟨fun r hr => ?_, fun b hb => ?_⟩, fun q h15 => ?cell, ?pc, ?_, ?_, ?_⟩
  · rw [endOfStep_mem, begin_st, withBase_mem, setMem_mem, read32_storedWords hwf hr]
  · rw [endOfStep_mem, begin_st, withBase_mem, setMem_mem, read8_storedWords_outside hwf hb]
  case cell => rw [endOfStep_cell _ _ h15, begin_st, withBase_cell]; rfl
  case pc => rw [endOfStep_pc_none _ (begin_target _), begin_st, withBase_pc fun _ => hn, setMem_pc]
  all_goals simp

/-- Settles O31: each form is `storeMultiple` at its own direction and indexing. -/
theorem storeMultipleResult : Obligations.StoreMultipleResult := by
  intro c sb wb rn list s hc
  refine ⟨fun hn => ?_, ?_⟩
  · exact ⟨storesBlock_of_exec false (armStep_pass hc _) hn, storesBlock_of_exec false (armStep_pass hc _) hn,
      storesBlock_of_exec false (armStep_pass hc _) hn, storesBlock_of_exec false (armStep_pass hc _) hn⟩
  · rintro rfl
    have stop (p u : Bool) := armStep_error hc (storeMultiple_basePc p u sb wb list s.begin)
    simpa using ⟨stop false true, stop true true, stop false false, stop true false⟩

/-! ## An STM and a later LDM (R438) -/

/-- Without write-back and S, an LDM of the memory an STM left, at the same addresses; the two modes need not agree, since `reg` reads each
state through its own. -/
theorem roundTrip_of_exec {i j : Instr} {len len' : Word} {p u : Bool} {rn : Reg} {list : BitVec 16} {s t s' t' : State}
    (hwf : s.mem.wf = true) (hmem : s'.mem = t.mem) (hcfg : s'.cfg = s.cfg) (hbase : x rn s' = x rn s)
    (hstore : StoresBlock i len p u false false rn list s) (hi : exec i s = .next t)
    (hload : LoadsBlock j len' p u false false rn list s') (hj : exec j s' = .next t') :
    (∀ r, Listed list r → r ≠ 15 → reg r t' = reg r s) ∧ (∀ r, ¬ Listed list r → r ≠ 15 → reg r t' = reg r s') := by
  obtain ⟨_, hi', hstored, -⟩ := hstore
  obtain ⟨_, hj', hlisted, hothers, hstatus, -⟩ := hload (by simp)
  cases hi.symm.trans hi'
  cases hj.symm.trans hj'
  have hcpsr : t'.cpsr = s'.cpsr := hstatus (by simp)
  have hbank : loadBank s'.cfg false list s'.cpsr.m = s'.cpsr.m := by simp [loadBank]
  rw [hbank] at hlisted hothers
  refine ⟨fun r hr h15 => ?listed, fun r hr h15 => ?unlisted⟩
  case listed =>
    rw [reg, hcpsr, hlisted r hr h15, hmem, hcfg, hbase]
    exact ((hstored hwf).1 r hr).trans (by simp [blockValue, h15, storeBank, reg])
  case unlisted =>
    have hne : ∀ r', Listed list r' → slotOf s'.cpsr.m r' ≠ slotOf s'.cpsr.m r :=
      fun r' hr' e => hr (slotOf_inj.mp e ▸ hr')
    rw [reg, hcpsr, hothers _ (slotOf_ne_pc h15) hne, if_neg (by simp)]
    rfl

/-- Settles O32: with base R15 the STM stops, and below it each pair is `roundTrip_of_exec`. -/
theorem storeLoadRoundTrip : Obligations.StoreLoadRoundTrip := by
  intro c c' rn list s t u v hwf hmem hcfg _ hreg hc hc' hrun
  obtain ⟨hstore, hstop⟩ := storeMultipleResult c false false rn list s hc
  obtain ⟨hload, -⟩ := loadMultipleResult c' false false rn list u hc'
  by_cases hn : rn = 15
  case pos =>
    rcases hrun with ⟨h, -⟩ | ⟨h, -⟩ | ⟨h, -⟩ | ⟨h, -⟩ <;> cases h.symm.trans (hstop hn _ (by simp))
  case neg =>
    have hbase : x rn u = x rn s := by rw [x_ne_pc hn, x_ne_pc hn, hreg]
    obtain ⟨sia, sib, sda, sdb⟩ := hstore hn
    obtain ⟨lia, lib, lda, ldb⟩ := hload hn
    rcases hrun with ⟨hi, hj⟩ | ⟨hi, hj⟩ | ⟨hi, hj⟩ | ⟨hi, hj⟩
    · exact roundTrip_of_exec hwf hmem hcfg hbase sia hi lia hj
    · exact roundTrip_of_exec hwf hmem hcfg hbase sib hi lib hj
    · exact roundTrip_of_exec hwf hmem hcfg hbase sda hi lda hj
    · exact roundTrip_of_exec hwf hmem hcfg hbase sdb hi ldb hj

end Sys2Proof.Machine
end

section
/-! The 45_arm_branch_system.md statements: the branches B, BL and BX (O33), and the undefined and coprocessor instructions of both
instruction sets under both settings of `cfg.undefined` (O35).  What an exception entry leaves is said once for both exceptions. -/

namespace Sys2Proof.Machine

open Sys2Proof.Claims

/-! ## Branches (R450 to R452) -/

/-- A word, halfword or page offset: `k` zero bits below a signed field scale it by `2 ^ k`. -/
theorem signExtend_append_zero {n : Nat} (a : BitVec n) (k m : Nat) :
    (a ++ 0#k).signExtend m = BitVec.ofInt m (2 ^ k * a.toInt) := by
  rw [BitVec.signExtend, BitVec.toInt_append_zero]

theorem branchTarget_eq (s : State) (off : BitVec 24) :
    branchTarget s off = s.pc + 8#32 + BitVec.ofInt 32 (4 * off.toInt) := by
  rw [branchTarget, signExtend_append_zero]
  norm_num

/-- BX's body, with the register as operand reads see it (R204). -/
theorem branchExchange_eq (rn : Reg) (w : Work) :
    branchExchange rn w = .ok ((w.setCpsr { w.st.cpsr with t := (x rn w.st).getLsbD 0 }).branch (x rn w.st)) := by
  simp only [branchExchange, readReg_eq]

/-- Settles O33: each body ends in a branch (`finishStep_branch`), after the write of R14 in BL and of T in BX. -/
theorem branchResult : Obligations.BranchResult := by
  intro c off rn s hc
  refine ⟨?b, ?bl, ?bx⟩
  case b =>
    have ended : exec (.b c off) s = _ := armStep_pass hc (branchBody off)
    rw [ended, branchBody, finishStep_branch, begin_st, branchTarget_eq]
  case bl =>
    have ended : exec (.bl c off) s = _ := armStep_pass hc (branchLinkBody off)
    rw [ended, branchLinkBody, finishStep_branch, write_reg _ _ (by decide), begin_st, branchTarget_eq, setSlot_cpsr]
  case bx =>
    have ended : exec (.bx c rn) s = _ := armStep_pass hc (branchExchange rn)
    rw [ended, branchExchange_eq, finishStep_branch, workSetCpsr_st, begin_st, setCpsr_cpsr]

/-! ## Undefined instructions (R455, R615, R640) -/

/-- A step of either set that takes an exception ends in `entered` (R630, R640); both vectors are aligned. -/
theorem finishStep_takeException (t : Bool) (k : ExceptionKind) (ret : Word) (s : State) :
    finishStep t (.ok (takeException k ret s.begin)) = .next (entered s k.spsr (slotOf k.mode 14) k.mode ret k.vector) := by
  have hvector : jump false k.vector = k.vector := by cases k <;> rfl
  rw [takeException, finishStep_branch, setSlot_cpsr, setCpsr_cpsr, hvector]
  rfl

theorem undefinedInstruction_trap {w : Work} (h : w.st.cfg.undefined = .trap) (category : Unimplemented) (ret : Word) :
    undefinedInstruction category ret w = .ok (takeException .undefinedInstruction ret w) := by
  simp only [undefinedInstruction, h]

theorem undefinedInstruction_fatal {w : Work} (h : w.st.cfg.undefined = .fatal) (category : Unimplemented) (ret : Word) :
    undefinedInstruction category ret w = .error (.unimplemented category) := by
  simp only [undefinedInstruction, h]

/-- An undefined instruction of either set, whose return address is `ret`, under both settings. -/
theorem undefined_of_exec {i : Instr} {t : Bool} {category : Unimplemented} {ret : Word} {s : State}
    (hexec : exec i s = finishStep t (undefinedInstruction category ret s.begin)) :
    (s.cfg.undefined = .trap → exec i s = .next (entered s .und 30 .undefined ret 4#32)) ∧
    (s.cfg.undefined = .fatal → exec i s = .fault (.unimplemented category)) := by
  refine ⟨fun h => ?trap, fun h => ?fatal⟩
  case trap =>
    rw [hexec, undefinedInstruction_trap h, finishStep_takeException]
    rfl
  case fatal => rw [hexec, undefinedInstruction_fatal h, finishStep_error]

/-- Settles O35: each ARM form whose condition passes, and each Thumb form, is an undefined instruction (`undefined_of_exec`). -/
theorem undefinedInstructions : Obligations.UndefinedInstructions := by
  intro c x20 x4 p u n w a b d e o8 i3 o3 x9 x10 x11 s
  refine ⟨fun hc => ?arm, ?thumb⟩
  case arm =>
    exact ⟨undefined_of_exec (armStep_pass hc _), undefined_of_exec (armStep_pass hc _), undefined_of_exec (armStep_pass hc _),
      undefined_of_exec (armStep_pass hc _), undefined_of_exec (armStep_pass hc _), undefined_of_exec (armStep_pass hc _)⟩
  case thumb =>
    have ended {i : Instr} (h : exec i s = thumbStep thumbUndefinedHalf s) := undefined_of_exec (ret := s.pc + 2#32) h
    exact ⟨ended rfl, ended rfl, ended rfl, ended rfl, ended rfl, ended rfl, ended rfl⟩

end Sys2Proof.Machine
end

section
/-! The 46_thumb_alu.md statements: the shifts (O37), the additions, subtractions and comparisons (O38), the moves, logic and MUL (O39),
and the hi-register operations and BX (O40).  Formats 1 to 4 run the operations of data processing on low registers, so each operation's
Thumb answer is said once, for any second operand that answers. -/

namespace Sys2Proof.Machine

open Sys2Proof.Claims

/-! ## Operands (R490) -/

/-- A first operand that is a low register reads the same beside every second operand. -/
@[simp] theorem op1_lowReg (r : LowReg) (o : Operand2) (s : State) : op1 (lowReg r) o s = low r s := by
  cases o <;> simp only [op1, x_low, xPc12_low]

/-- LSL #0 keeps the value and the carry under both settings of `cfg.imm_shift_zero` (R255). -/
theorem shiftImm_lsl_zero (cfg : Config) (cin : Bool) (v : Word) : shiftImm cfg cin v 0 .lsl = ⟨v, cin⟩ := by
  unfold shiftImm
  cases cfg.immShiftZero <;> rfl

theorem operand2_plainReg (r : LowReg) (s : State) : operand2 (plainReg r) s = .ok ⟨low r s, s.cpsr.c⟩ := by
  rw [← x_low, ← readReg_eq]
  exact congrArg Except.ok (shiftImm_lsl_zero ..)

theorem operand2_plainImm (imm8 : BitVec 8) (s : State) : operand2 (plainImm imm8) s = .ok ⟨imm8.zeroExtend 32, s.cpsr.c⟩ := rfl

theorem operand2_plainImm_three (imm3 : BitVec 3) (s : State) :
    operand2 (plainImm (imm3.zeroExtend 8)) s = .ok ⟨imm3.zeroExtend 32, s.cpsr.c⟩ := by
  have hwidth : (imm3.zeroExtend 8).zeroExtend 32 = imm3.zeroExtend 32 := BitVec.setWidth_setWidth (by decide)
  rw [operand2_plainImm, hwidth]

theorem operand2_lowReg_byImm (r : LowReg) (type : ShiftType) (amount : BitVec 5) (s : State) :
    operand2 (.regImm (lowReg r) type amount) s = .ok (shiftImm s.cfg s.cpsr.c (low r s) amount.toNat type) := by
  rw [operand2, readReg_eq, x_low]

/-- A register amount is bits 7:0 of Rs (R522). -/
theorem operand2_lowReg_byReg (rm rs : LowReg) (type : ShiftType) (s : State) :
    operand2 (.regReg (lowReg rm) type (lowReg rs)) s = .ok (shift s.cpsr.c (low rm s) ((low rs s).toNat % 256) type) := by
  have ready : Op2Ready (.regReg (lowReg rm) type (lowReg rs)) := lowReg_ne_pc rs
  rw [operand2_ok ready, op2, xPc12_low, reg_low]

/-! ## Data processing on low registers -/

/-- The end of a Thumb step that wrote a low register and its flags. -/
theorem finish_writeResult_low (rd : LowReg) (v : Word) (s : State) {f : Cpsr} (hmode : f.m = s.cpsr.m) :
    finishStep true (writeResult true (lowReg rd) v (s.begin.setCpsr (if true && lowReg rd != 15 then f else s.cpsr))) =
      .next (afterLow s f rd v) := by
  have hrd : lowReg rd ≠ 15 := lowReg_ne_pc rd
  rw [finish_writeResult_reg true true hrd, bne_iff_ne.mpr hrd, Bool.and_self, if_pos rfl, hmode, slotOf_low]
  rfl

/-- The end of a Thumb step that only wrote the status. -/
theorem finish_thumb_setCpsr (s : State) (f : Cpsr) :
    finishStep true (.ok (s.begin.setCpsr f)) = .next (advance (s.setCpsr f) 2#32) := finishStep_plain true (s.setCpsr f)

section
variable {o : Operand2} {s : State} {b : Shifted} (h : operand2 o s = .ok b)
include h

theorem thumbStep_moveOp (f : Word → Word) (rd : LowReg) :
    thumbStep (moveOp f true (lowReg rd) o) s = .next (afterLow s (nzc s.cpsr (f b.value) b.carry) rd (f b.value)) := by
  obtain ⟨ho, rfl⟩ := operand2_eq_ok h
  rw [thumbStep, moveOp_ok ho]
  exact finish_writeResult_low rd _ s rfl

theorem thumbStep_logicalOp (f : Word → Word → Word) (rn rd : LowReg) :
    thumbStep (logicalOp f true (lowReg rn) (lowReg rd) o) s =
      .next (afterLow s (nzc s.cpsr (f (low rn s) b.value) b.carry) rd (f (low rn s) b.value)) := by
  obtain ⟨ho, rfl⟩ := operand2_eq_ok h
  rw [thumbStep, logicalOp_ok ho, begin_st, op1_lowReg]
  exact finish_writeResult_low rd _ s rfl

theorem thumbStep_arithmeticOp (f : AluOp) (rn rd : LowReg) :
    thumbStep (arithmeticOp f true (lowReg rn) (lowReg rd) o) s =
      .next (afterLow s (nzcv s.cpsr (f s.cfg (low rn s) b.value s.cpsr.c)) rd (f s.cfg (low rn s) b.value s.cpsr.c).value) := by
  obtain ⟨ho, rfl⟩ := operand2_eq_ok h
  rw [thumbStep, arithmeticOp_ok ho, begin_st, op1_lowReg]
  exact finish_writeResult_low rd _ s rfl

theorem thumbStep_logicalTest (f : Word → Word → Word) (rn rd : LowReg) :
    thumbStep (logicalTest f (lowReg rn) (lowReg rd) o) s =
      .next (advance (s.setCpsr (nzc s.cpsr (f (low rn s) b.value) b.carry)) 2#32) := by
  obtain ⟨ho, rfl⟩ := operand2_eq_ok h
  rw [thumbStep, logicalTest_ok ho, begin_st, op1_lowReg, if_pos (bne_iff_ne.mpr (lowReg_ne_pc rd)), finish_thumb_setCpsr]

theorem thumbStep_arithmeticTest (f : AluOp) (rn rd : LowReg) :
    thumbStep (arithmeticTest f (lowReg rn) (lowReg rd) o) s =
      .next (advance (s.setCpsr (nzcv s.cpsr (f s.cfg (low rn s) b.value s.cpsr.c))) 2#32) := by
  obtain ⟨ho, rfl⟩ := operand2_eq_ok h
  rw [thumbStep, arithmeticTest_ok ho, begin_st, op1_lowReg, if_pos (bne_iff_ne.mpr (lowReg_ne_pc rd)), finish_thumb_setCpsr]

end

/-- Settles O37: each shift is a move of its shifted operand (`thumbStep_moveOp`). -/
theorem thumbShiftsResult : Obligations.ThumbShiftsResult := by
  intro off rs rd s byImm byReg
  have imm (type : ShiftType) : thumbStep (moveOp id true (lowReg rd) (.regImm (lowReg rs) type off)) s = .next (byImm type) :=
    thumbStep_moveOp (operand2_lowReg_byImm rs type off s) id rd
  have register (type : ShiftType) : thumbStep (thumbShiftReg type rs rd) s = .next (byReg type) :=
    thumbStep_moveOp (operand2_lowReg_byReg rd rs type s) id rd
  exact ⟨imm .lsl, imm .lsr, imm .asr, register .lsl, register .lsr, register .asr, register .ror⟩

/-- Settles O38: each form is `arithmeticOp` or `arithmeticTest` at its own adder, on a plain register or an immediate. -/
theorem thumbArithmeticResult : Obligations.ThumbArithmeticResult := by
  intro rn rs rd imm3 imm8 s sets compares
  have writes {o : Operand2} {b : Word} (h : operand2 o s = .ok ⟨b, s.cpsr.c⟩) (f : AluOp) (ra : LowReg) :
      thumbStep (arithmeticOp f true (lowReg ra) (lowReg rd) o) s = .next (sets (f s.cfg (low ra s) b s.cpsr.c)) :=
    thumbStep_arithmeticOp h f ra rd
  have tests {o : Operand2} {b : Word} (h : operand2 o s = .ok ⟨b, s.cpsr.c⟩) (f : AluOp) :
      thumbStep (arithmeticTest f (lowReg rd) (lowReg rd) o) s = .next (compares (f s.cfg (low rd s) b s.cpsr.c)) :=
    thumbStep_arithmeticTest h f rd rd
  have three := operand2_plainImm_three imm3 s
  have eight := operand2_plainImm imm8 s
  have second := operand2_plainReg rs s
  have third := operand2_plainReg rn s
  exact ⟨writes third aluAdd rs, writes third aluSub rs, writes three aluAdd rs, writes three aluSub rs,
    writes (operand2_plainImm 0#8 s) aluRsb rs, tests eight aluSub, writes eight aluAdd rd, writes eight aluSub rd,
    writes second aluAdc rd, writes second aluSbc rd, tests second aluSub, tests second aluAdd⟩

/-- Settles O39: each form is its operation on plain operands, which keep C; MUL's checks pass (`mulBody_ok`) unless Rd = Rs. -/
theorem thumbLogicResult : Obligations.ThumbLogicResult := by
  intro rs rd imm8 s sets
  have plain := operand2_plainReg rs s
  have logical (f : Word → Word → Word) :
      thumbStep (logicalOp f true (lowReg rd) (lowReg rd) (plainReg rs)) s = .next (sets (f (low rd s) (low rs s))) :=
    thumbStep_logicalOp plain f rd rd
  refine ⟨thumbStep_moveOp (operand2_plainImm imm8 s) id rd, thumbStep_moveOp plain (~~~ ·) rd, logical (· &&& ·), logical (· ^^^ ·),
    logical (· ||| ·), logical bicWord, thumbStep_logicalTest plain (· &&& ·) rd rd, fun hne => ?mul, ?mulSame⟩
  case mul =>
    have ended : exec (.tMul rs rd) s = finishStep true (mulBody true (lowReg rd) (lowReg rd) (lowReg rs) s.begin) := rfl
    rw [ended, mulBody_ok true _ (lowReg_ne_pc rs) (lowReg_ne_pc rd) (fun e => hne (lowReg_inj.mp e).symm), begin_st, reg_low, reg_low,
      word_mul_eq_ofNat, finish_setMultiplyFlags_reg true true (lowReg_ne_pc rd), slotOf_low]
    rfl
  case mulSame => exact thumbStep_error (mulBody_rdEqualsRm true _ (lowReg_ne_pc rd) (lowReg_ne_pc rd) rfl)

/-! ## The hi-register operations (R540 to R542) -/

theorem checkHiReg_ok {rs rd : Reg} (h : rs.val ≥ 8 ∨ rd.val ≥ 8) : checkHiReg rs rd = .ok () := by
  refine faultWhen_of_not ?_ _
  rw [Bool.and_eq_false_iff, decide_eq_false_iff_not, decide_eq_false_iff_not]
  exact h.imp Nat.not_lt.mpr Nat.not_lt.mpr

theorem checkHiReg_lowLow {rs rd : Reg} (hs : rs.val < 8) (hd : rd.val < 8) :
    checkHiReg rs rd = .error (.unpredictable .thumbHiRegLowLow) :=
  faultWhen_of (Bool.and_eq_true_iff.mpr ⟨decide_eq_true hs, decide_eq_true hd⟩) _

/-- The end of a Thumb step whose last act was the write of a register, R15 among them. -/
theorem finish_thumb_write (rd : Reg) (v : Word) (s : State) :
    finishStep true (.ok (s.begin.write rd v)) = .next (afterWrite s rd v 2#32) := by
  by_cases h : rd = 15
  · rw [h, write_pc, finishStep_branch, afterWrite, if_pos rfl, begin_st]
  · rw [finishStep_write_reg true h, afterWrite, if_neg h]
    rfl

section
variable {rs rd : Reg} (h : rs.val ≥ 8 ∨ rd.val ≥ 8) (w : Work)
include h

theorem hiMove_ok : hiMove rs rd w = .ok (w.write rd (x rs w.st)) := by
  rw [hiMove, checkHiReg_ok h, ok_bind, readReg_eq]

theorem hiAdd_ok : hiAdd rs rd w = .ok (w.write rd (x rd w.st + x rs w.st)) := by
  rw [hiAdd, checkHiReg_ok h, ok_bind, readReg_eq, readReg_eq]

theorem hiCompare_ok :
    hiCompare rs rd w = .ok (w.setCpsr (nzcv w.st.cpsr (subWithBorrow w.st.cfg (x rd w.st) (x rs w.st) false))) := by
  simp only [hiCompare, checkHiReg_ok h, ok_bind, readReg_eq, withArithmetic_eq]

end

/-- Settles O40: with a high register the check passes and each body ends in its write (`finish_thumb_write`) or its flags; two low
registers fail the check, which comes first; BX is the branch of `branchExchange_eq`. -/
theorem thumbHiRegistersResult : Obligations.ThumbHiRegistersResult := by
  intro rs rd x3 s
  refine ⟨fun h => ⟨?move, ?add, ?compare⟩, fun hs hd => ⟨?moveLow, ?addLow, ?compareLow⟩, ?bx⟩
  case move =>
    have ended : exec (.tMovHi rs rd) s = finishStep true (hiMove rs rd s.begin) := rfl
    rw [ended, hiMove_ok h, finish_thumb_write, begin_st]
  case add =>
    have ended : exec (.tAddHi rs rd) s = finishStep true (hiAdd rs rd s.begin) := rfl
    rw [ended, hiAdd_ok h, finish_thumb_write, begin_st]
  case compare =>
    have ended : exec (.tCmpHi rs rd) s = finishStep true (hiCompare rs rd s.begin) := rfl
    rw [ended, hiCompare_ok h, finish_thumb_setCpsr, begin_st]
  case moveLow => exact thumbStep_error (by rw [hiMove, checkHiReg_lowLow hs hd, error_bind])
  case addLow => exact thumbStep_error (by rw [hiAdd, checkHiReg_lowLow hs hd, error_bind])
  case compareLow => exact thumbStep_error (by rw [hiCompare, checkHiReg_lowLow hs hd, error_bind])
  case bx =>
    have ended : exec (.tBx rs x3) s = finishStep true (branchExchange rs s.begin) := rfl
    rw [ended, branchExchange_eq, finishStep_branch, workSetCpsr_st, begin_st, setCpsr_cpsr]

end Sys2Proof.Machine
end

section
/-! The 47_thumb_memory_branch.md statements: the loads (O41), the stores (O42), the address arithmetic (O43), the block transfers (O44),
the branches (O45) and the long branch (O46).  Formats 7 to 11 run the ARM transfers with P = 1, U = 1 and W = 0 (R549), so what a
transfer answers is said once, for every base and offset that give its address. -/

namespace Sys2Proof.Machine

open Sys2Proof.Claims

/-! ## Scaled offsets -/

/-- `k` zero bits below an unsigned field scale it by `2 ^ k`. -/
theorem zeroExtend_append_zero {n : Nat} (a : BitVec n) (k m : Nat) :
    (a ++ 0#k).zeroExtend m = BitVec.ofNat m (2 ^ k * a.toNat) := by
  apply BitVec.eq_of_toNat_eq
  rw [BitVec.toNat_setWidth, BitVec.toNat_append, BitVec.toNat_ofNat, BitVec.toNat_ofNat, Nat.zero_mod, Nat.or_zero,
    Nat.shiftLeft_eq, Nat.mul_comm]

/-- The word-aligned pc plus a multiple of 4 is word-aligned (R550). -/
theorem pcWordAddress_aligned (s : State) (word8 : BitVec 8) :
    (thumbPcBase s + wordOffset word8) &&& 0xFFFFFFFC#32 = thumbPcBase s + wordOffset word8 := by
  have hbase : (thumbPcBase s).toNat % 4 = 0 := word_mask_mod _
  rw [and_word_mask, wordOffset, zeroExtend_append_zero, BitVec.toNat_add, BitVec.toNat_ofNat]
  omega

/-! ## The address of a transfer (R549) -/

/-- A single transfer's base and offset, which is not R15, give the address `a`. -/
def TransferAt (rn : Reg) (off : TransferOffset) (s : State) (a : Word) : Prop :=
  ¬ offsetRegIsPc off ∧ address true true rn (offset off s) s = a

/-- The same of a halfword transfer. -/
def HalfTransferAt (rn : Reg) (off : HalfOffset) (s : State) (a : Word) : Prop :=
  ¬ halfRegIsPc off ∧ address true true rn (halfOff off s) s = a

/-- A pre-indexed address that adds its offset (R371). -/
theorem address_add (rn : Reg) (off : Word) (s : State) : address true true rn off s = x rn s + off := rfl

section
variable (ro rb : LowReg) (off : BitVec 5) (word8 : BitVec 8) (s : State)

theorem transferAt_reg : TransferAt (lowReg rb) (regOffset ro) s (low rb s + low ro s) :=
  ⟨lowReg_ne_pc ro, by rw [address_add, x_low, offset_regOffset]⟩

theorem transferAt_immWord : TransferAt (lowReg rb) (immWordOffset off) s (low rb s + (off ++ 0b00#2).zeroExtend 32) :=
  ⟨id, by rw [address_add, x_low, offset_immWord]⟩

theorem transferAt_immByte : TransferAt (lowReg rb) (immByteOffset off) s (low rb s + off.zeroExtend 32) :=
  ⟨id, by rw [address_add, x_low, offset_immByte]⟩

theorem transferAt_sp : TransferAt 13 (spOffset word8) s (reg 13 s + (word8 ++ 0b00#2).zeroExtend 32) :=
  ⟨id, by rw [address_add, x_sp, offset_sp]⟩

theorem halfTransferAt_reg : HalfTransferAt (lowReg rb) (halfRegOffset ro) s (low rb s + low ro s) :=
  ⟨lowReg_ne_pc ro, by rw [address_add, x_low, halfOff_regOffset]⟩

theorem halfTransferAt_imm : HalfTransferAt (lowReg rb) (immHalfOffset off) s (low rb s + (off ++ 0b0#1).zeroExtend 32) :=
  ⟨id, by rw [address_add, x_low, halfOff_immHalf]⟩

end

/-! ## Loads (R550 to R571) -/

/-- The end of a Thumb step whose last act was the write of a low register: the status stays. -/
theorem finish_thumb_write_low (rd : LowReg) (v : Word) (s : State) :
    finishStep true (.ok (s.begin.write (lowReg rd) v)) = .next (afterLow s s.cpsr rd v) := by
  rw [finishStep_write_reg true (lowReg_ne_pc rd), slotOf_low]
  rfl

section
variable {rn : Reg} {rd : LowReg} {s : State} {a : Word}

theorem thumbStep_singleLoad {off : TransferOffset} (h : TransferAt rn off s a) (byte : Bool) :
    thumbStep (singleLoad byte true true false rn (lowReg rd) off) s =
      .next (afterLow s s.cpsr rd (if byte then (s.mem.read8 a).zeroExtend 32 else wordAt a s)) := by
  obtain ⟨ho, rfl⟩ := h
  rw [thumbStep, singleLoad_ok ho (by simp [writesBack]) fun _ => lowReg_ne_pc rd]
  exact finish_thumb_write_low ..

theorem thumbStep_halfLoad {off : HalfOffset} {load : Word → State → Except Fault Word} {v : Word} (h : HalfTransferAt rn off s a)
    (hload : load a s = .ok v) :
    thumbStep (halfTransferLoad load true true false rn (lowReg rd) off) s = .next (afterLow s s.cpsr rd v) := by
  obtain ⟨ho, rfl⟩ := h
  rw [thumbStep, halfTransferLoad_ok (by simp) ho (by simp) (lowReg_ne_pc rd) hload]
  exact finish_thumb_write_low ..

theorem thumbStep_halfLoad_error {off : HalfOffset} {load : Word → State → Except Fault Word} {e : Fault}
    (h : HalfTransferAt rn off s a) (hload : load a s = .error e) :
    thumbStep (halfTransferLoad load true true false rn (lowReg rd) off) s = .fault e := by
  obtain ⟨ho, rfl⟩ := h
  exact thumbStep_error (halfTransferLoad_load_error (halfLoadChecks_ok (by simp) ho (by simp) (lowReg_ne_pc rd)) hload)

end

/-- PC-relative: the address is aligned, so both settings of `cfg.misaligned` load the word itself. -/
theorem thumbStep_pcLoad (rd : LowReg) (word8 : BitVec 8) (s : State) :
    thumbStep (pcLoad rd word8) s = .next (afterLow s s.cpsr rd (s.mem.read32 (thumbPcBase s + wordOffset word8))) := by
  rw [thumbStep, pcLoad, begin_st, loadWord_eq, wordAt_aligned (pcWordAddress_aligned s word8), finish_thumb_write_low]

/-- Settles O41: each form is the PC load, `singleLoad` or `halfTransferLoad` at its own address and width. -/
theorem thumbLoadsResult : Obligations.ThumbLoadsResult := by
  intro ro rb rd off word8 s loads sum half
  have single {rn : Reg} {o : TransferOffset} {a : Word} (h : TransferAt rn o s a) := thumbStep_singleLoad (rd := rd) h
  have atSum : TransferAt (lowReg rb) (regOffset ro) s sum := transferAt_reg ro rb s
  have halfAtSum : HalfTransferAt (lowReg rb) (halfRegOffset ro) s sum := halfTransferAt_reg ro rb s
  have halfAtImm : HalfTransferAt (lowReg rb) (immHalfOffset off) s half := halfTransferAt_imm rb off s
  exact ⟨thumbStep_pcLoad rd word8 s, single (transferAt_sp word8 s) false, single (transferAt_immWord rb off s) false,
    single (transferAt_immByte rb off s) true, single atSum false, single atSum true, thumbStep_halfLoad halfAtSum rfl,
    fun h => thumbStep_halfLoad halfAtImm (loadHalf_ok h), fun h => thumbStep_halfLoad_error halfAtImm (loadHalf_error h),
    fun h => ⟨thumbStep_halfLoad halfAtSum (loadHalf_ok h), thumbStep_halfLoad halfAtSum (loadSHalf_ok h)⟩,
    fun h => ⟨thumbStep_halfLoad_error halfAtSum (loadHalf_error h), thumbStep_halfLoad_error halfAtSum (loadSHalf_error h)⟩⟩

/-! ## Stores (R551 to R570) -/

theorem storeValue_low (rd : LowReg) (s : State) : storeValue (lowReg rd) s = low rd s := by
  rw [storeValue, if_neg (lowReg_ne_pc rd), reg_low]

section
variable {i : Instr} {rn : Reg} {rd : LowReg} {s : State} {a : Word}

/-- A Thumb step whose body left the memory `mem`, which agrees with the one before outside the `n` bytes from `a`. -/
theorem thumbStores_of_setMem {mem : Memory} {n : Nat} (hexec : exec i s = finishStep true (.ok (s.setMem mem).begin))
    (houtside : s.mem.wf = true → ∀ b, inBytes a n b = false → mem.read8 b = s.mem.read8 b) : ThumbStores i s mem a n :=
  ⟨_, hexec.trans (finishStep_plain true _), rfl, houtside⟩

theorem thumbStores_word {off : TransferOffset} (h : TransferAt rn off s a)
    (hexec : exec i s = thumbStep (singleStore false true true false rn (lowReg rd) off) s) :
    ThumbStores i s (s.mem.write32 (wordStoreAt s.cfg a) (low rd s)) (wordStoreAt s.cfg a) 4 := by
  obtain ⟨ho, rfl⟩ := h
  rw [thumbStep, singleStore_ok ho (by simp [writesBack]), storeValue_low] at hexec
  exact thumbStores_of_setMem hexec fun hwf _ hb => read8_write32_outside hwf _ hb

theorem thumbStores_byte {off : TransferOffset} (h : TransferAt rn off s a)
    (hexec : exec i s = thumbStep (singleStore true true true false rn (lowReg rd) off) s) :
    ThumbStores i s (s.mem.write8 a ((low rd s).extractLsb' 0 8)) a 1 := by
  obtain ⟨ho, rfl⟩ := h
  rw [thumbStep, singleStore_ok ho (by simp [writesBack]), storeValue_low] at hexec
  exact thumbStores_of_setMem hexec fun hwf _ hb => read8_write8_outside hwf _ hb

theorem thumbStores_half {off : HalfOffset} (h : HalfTransferAt rn off s a) (ha : HalfReady a s)
    (hexec : exec i s = thumbStep (halfTransferStore true true false rn (lowReg rd) off) s) :
    ThumbStores i s (s.mem.write16 a ((low rd s).extractLsb' 0 16)) a 2 := by
  obtain ⟨ho, rfl⟩ := h
  rw [thumbStep, halfTransferStore_ok (by simp) ho (by simp) ha, storeValue_low] at hexec
  exact thumbStores_of_setMem hexec fun hwf _ hb => read8_write16_outside hwf _ hb

theorem thumbStep_halfStore_misaligned {off : HalfOffset} (h : HalfTransferAt rn off s a) (ha : ¬ HalfReady a s) :
    thumbStep (halfTransferStore true true false rn (lowReg rd) off) s = .fault (.unpredictable .misalignedHalfword) := by
  obtain ⟨ho, rfl⟩ := h
  exact thumbStep_error (halfTransferStore_misaligned (halfStoreChecks_ok (by simp) ho (by simp)) ha)

end

/-- Settles O42: each form is `singleStore` or `halfTransferStore` at its own address and width. -/
theorem thumbStoresResult : Obligations.ThumbStoresResult := by
  intro ro rb rd off word8 s word half byte
  have atSum := transferAt_reg ro rb s
  have halfAtSum := halfTransferAt_reg ro rb s
  have halfAtImm := halfTransferAt_imm rb off s
  exact ⟨thumbStores_word (transferAt_sp word8 s) rfl, thumbStores_word (transferAt_immWord rb off s) rfl,
    thumbStores_byte (transferAt_immByte rb off s) rfl,
    ⟨fun h => thumbStores_half halfAtImm h rfl, thumbStep_halfStore_misaligned halfAtImm⟩,
    thumbStores_word atSum rfl, thumbStores_byte atSum rfl,
    ⟨fun h => thumbStores_half halfAtSum h rfl, thumbStep_halfStore_misaligned halfAtSum⟩⟩

/-! ## Address arithmetic (R580 to R586) -/

theorem thumbStep_adjustSp (up : Bool) (sword7 : BitVec 7) (s : State) : thumbStep (adjustSp up sword7) s =
    .next ((s.setSlot (slotOf s.cpsr.m 13) (offsetBase up (reg 13 s) ((sword7 ++ 0b00#2).zeroExtend 32))).setSlot 15
      (s.pc + 2#32)) := by
  rw [thumbStep, adjustSp, begin_st, readReg_eq, x_sp, finishStep_write_reg true (by decide)]
  rfl

/-- Settles O43: each body ends in the write of its register; SP is read without a bias. -/
theorem thumbAddressesResult : Obligations.ThumbAddressesResult := by
  intro rd word8 sword7 s
  refine ⟨finish_thumb_write_low rd _ s, ?addSp, thumbStep_adjustSp true sword7 s, thumbStep_adjustSp false sword7 s⟩
  case addSp =>
    have ended : exec (.tAddSp rd word8) s = finishStep true (addSpBody rd word8 s.begin) := rfl
    rw [ended, addSpBody, begin_st, readReg_eq, x_sp]
    exact finish_thumb_write_low rd _ s

/-! ## Block transfers (R590 to R596) -/

/-- Settles O44: each form is the ARM block transfer it runs, with a base that is not R15. -/
theorem thumbBlockResult : Obligations.ThumbBlockResult := by
  intro r rb rlist s base
  have hsp : (13 : Reg) ≠ 15 := by decide
  have hbase : base ≠ 15 := lowReg_ne_pc rb
  exact ⟨storesBlock_of_exec true rfl hsp, loadsBlock_of_exec true rfl hsp, storesBlock_of_exec true rfl hbase,
    loadsBlock_of_exec true rfl hbase⟩

/-! ## Branches (R600, R608) -/

theorem thumbBranchTarget_eq {n : Nat} (s : State) (off : BitVec n) :
    thumbBranchTarget s off = s.pc + 4#32 + BitVec.ofInt 32 (2 * off.toInt) := by
  rw [thumbBranchTarget, signExtend_append_zero, pow_one]

theorem thumbStep_thumbBranch (offset11 : BitVec 11) (s : State) : thumbStep (thumbBranch offset11) s =
    .next (s.setSlot 15 (jump s.cpsr.t (s.pc + 4#32 + BitVec.ofInt 32 (2 * offset11.toInt)))) := by
  rw [thumbStep, thumbBranch, finishStep_branch, begin_st, thumbBranchTarget_eq]

/-- A failing condition leaves the work as it began (R600). -/
theorem thumbStep_thumbCondBranch (c : Cond) (soffset8 : BitVec 8) (s : State) : thumbStep (thumbCondBranch c soffset8) s =
    .next (if conditionPassed c s.cpsr
      then s.setSlot 15 (jump s.cpsr.t (s.pc + 4#32 + BitVec.ofInt 32 (2 * soffset8.toInt))) else advance s 2#32) := by
  rw [thumbStep, thumbCondBranch, begin_st]
  split
  · rw [finishStep_branch, begin_st, thumbBranchTarget_eq]
  · exact finishStep_plain true s

/-- Settles O45: the three conditional rows run one body, the unconditional one its own. -/
theorem thumbBranchesResult : Obligations.ThumbBranchesResult := by
  intro c soffset8 offset11 s cond
  have taken := thumbStep_thumbCondBranch c soffset8 s
  exact ⟨taken, taken, taken, thumbStep_thumbBranch offset11 s⟩

/-! ## The long branch (R610 to R612) -/

/-- The state after the first half: R14 holds pc + 4 plus the high part. -/
def afterBlHigh (high : BitVec 11) (s : State) : State :=
  (s.setSlot (slotOf s.cpsr.m 14) (s.pc + 4#32 + BitVec.ofInt 32 (4096 * high.toInt))).setSlot 15 (s.pc + 2#32)

/-- The state after the second half: R14 holds the return address with bit 0 set. -/
def afterBlLow (low11 : BitVec 11) (s : State) : State :=
  (s.setSlot (slotOf s.cpsr.m 14) ((s.pc + 2#32) ||| 1#32)).setSlot 15
    (jump s.cpsr.t (reg 14 s + BitVec.ofNat 32 (2 * low11.toNat)))

theorem exec_tBlHigh (high : BitVec 11) (s : State) : exec (.tBlHigh high) s = .next (afterBlHigh high s) := by
  have ended : exec (.tBlHigh high) s = finishStep true (thumbBlHigh high s.begin) := rfl
  rw [ended, thumbBlHigh, signExtend_append_zero, finishStep_write_reg true (by decide)]
  rfl

theorem exec_tBlLow (low11 : BitVec 11) (s : State) : exec (.tBlLow low11) s = .next (afterBlLow low11 s) := by
  have hlr : x 14 s = reg 14 s := x_ne_pc (by decide) s
  have ended : exec (.tBlLow low11) s = finishStep true (thumbBlLow low11 s.begin) := rfl
  rw [ended, thumbBlLow, finishStep_branch, zeroExtend_append_zero, write_reg _ _ (by decide), begin_st, readReg_eq, hlr]
  rfl

/-- The two parts of the offset join: the high one is signed and the low one is not. -/
theorem longBranchOffset_eq (high low11 : BitVec 11) : BitVec.ofInt 32 (4096 * high.toInt) + BitVec.ofNat 32 (2 * low11.toNat) =
    BitVec.ofInt 32 (2 * (high ++ low11).toInt) := by
  have hjoin : 2 * (high ++ low11).toInt = 4096 * high.toInt + (2 * low11.toNat : Nat) := by
    rw [BitVec.toInt_append, if_neg (by decide)]
    push_cast
    ring
  rw [hjoin, BitVec.ofInt_add, BitVec.ofInt_natCast]

section
variable (high low11 : BitVec 11) (s : State)

theorem afterBlHigh_pc : (afterBlHigh high s).pc = s.pc + 2#32 := by simp [afterBlHigh, State.pc]

theorem reg_lr_afterBlHigh : reg 14 (afterBlHigh high s) = s.pc + 4#32 + BitVec.ofInt 32 (4096 * high.toInt) := by
  have hne : slotOf s.cpsr.m 14 ≠ 15 := slotOf_ne_pc (by decide)
  simp [afterBlHigh, reg, setSlot_cell_ne _ _ hne]

theorem afterBlLow_pc : (afterBlLow low11 s).pc = jump s.cpsr.t (reg 14 s + BitVec.ofNat 32 (2 * low11.toNat)) := by
  simp [afterBlLow, State.pc]

theorem reg_lr_afterBlLow : reg 14 (afterBlLow low11 s) = ((s.pc + 2#32) ||| 1#32) := by
  have hne : slotOf s.cpsr.m 14 ≠ 15 := slotOf_ne_pc (by decide)
  simp [afterBlLow, reg, setSlot_cell_ne _ _ hne]

end

/-- Settles O46: the second half reads the R14 and the pc that the first one left. -/
theorem thumbLongBranchResult : Obligations.ThumbLongBranchResult := by
  intro high low11 s
  refine ⟨exec_tBlHigh high s, exec_tBlLow low11 s, afterBlHigh high s, afterBlLow low11 (afterBlHigh high s),
    exec_tBlHigh high s, exec_tBlLow low11 _, ?pc, ?lr, rfl, rfl⟩
  case pc =>
    rw [afterBlLow_pc, reg_lr_afterBlHigh, BitVec.add_assoc, longBranchOffset_eq]
    rfl
  case lr =>
    rw [reg_lr_afterBlLow, afterBlHigh_pc, BitVec.add_assoc]
    rfl

end Sys2Proof.Machine
end

section
/-! The 60_exceptions.md and 70_reset_and_hazards.md statements: the software interrupt's entry (O34) and the return from it (O36), the ways
the mode changes (O52), what User mode cannot change (O58), and reset (O49). -/

namespace Sys2Proof.Machine

open Sys2Proof.Claims

/-! ## The entry (R630, R631) -/

/-- Settles O34: both instruction sets take the exception, each with the address of its next instruction (`finishStep_takeException`). -/
theorem softwareInterruptEntry : Obligations.SoftwareInterruptEntry := by
  intro c comment24 value8 s
  have entry (t : Bool) (ret : Word) := finishStep_takeException t .softwareInterrupt ret s
  refine ⟨fun hc => ?arm, ?thumb⟩
  case arm =>
    have ended : exec (.swi c comment24) s = _ := armStep_pass hc fun w => .ok (takeException .softwareInterrupt (armReturn w) w)
    exact ended.trans (entry false (s.pc + 4#32))
  case thumb => exact entry true (s.pc + 2#32)

section
variable (s : State) (n : SpsrName) (lr : Slot) (m : Mode) (ret vector : Word)

theorem entered_pc : (entered s n lr m ret vector).pc = vector := congrArg RegCell.value (setSlot_cell_self ..)
theorem entered_spsr_self : (entered s n lr m ret vector).spsr.get n = ⟨s.cpsr.pack, true⟩ := setSpsr_spsr_self ..

variable {n lr}

theorem entered_spsr_ne {k : SpsrName} (h : k ≠ n) : (entered s n lr m ret vector).spsr.get k = s.spsr.get k := setSpsr_spsr_ne s _ h
theorem entered_cell_lr (h : lr ≠ 15) : (entered s n lr m ret vector).cell lr = ⟨ret, true⟩ := by
  rw [entered, setSlot_cell_ne _ _ h, setSlot_cell_self]
theorem entered_cell_ne {q : Slot} (h15 : q ≠ 15) (hlr : q ≠ lr) : (entered s n lr m ret vector).cell q = s.cell q := by
  rw [entered, setSlot_cell_ne _ _ h15, setSlot_cell_ne _ _ hlr, setCpsr_cell, setSpsr_cell]

end

/-! ## The return (R633, R637) -/

theorem setSlot_setSlot (s : State) (q : Slot) (v v' : Word) : (s.setSlot q v).setSlot q v' = s.setSlot q v' := by
  simp [State.setSlot]

/-- Restoring the status of before an entry leaves of it the SPSR, the link register and the pc. -/
theorem entered_restored (s : State) (n : SpsrName) (lr : Slot) (m : Mode) (ret vector v : Word) :
    ((entered s n lr m ret vector).setCpsr s.cpsr).setSlot 15 v = ((s.setSpsr n s.cpsr.pack).setSlot lr ret).setSlot 15 v :=
  setSlot_setSlot ((s.setSpsr n s.cpsr.pack).setSlot lr ret) 15 vector v

/-- `MOVS PC, LR` in the handler: R14 holds the saved address, and the saved status unpacks to the status saved. -/
theorem exec_movsPcLr_entered (s : State) (ret : Word) :
    exec (.mov .al true 0 15 (.regImm 14 .lsl 0#5)) (entered s .svc 24 .supervisor ret 8#32) =
      .next (((s.setSpsr .svc s.cpsr.pack).setSlot 24 ret).setSlot 15 (jump s.cpsr.t ret)) := by
  generalize hh : entered s .svc 24 .supervisor ret 8#32 = h
  have hoperand : (op2 (.regImm 14 .lsl 0#5) h).value = ret := by
    have hlr : x 14 h = ret := by
      subst hh
      exact congrArg RegCell.value (entered_cell_lr s .supervisor ret 8#32 (by decide))
    exact (congrArg Shifted.value (shiftImm_lsl_zero ..)).trans hlr
  have hsaved : Cpsr.unpack (h.spsr.get .svc).value = .ok s.cpsr := by rw [← hh, entered_spsr_self, unpack_pack]
  have hmode : spsrOf h.cpsr.m = some .svc := by rw [← hh]; rfl
  have hbody : moveOp id true 15 (.regImm 14 .lsl 0#5) h.begin = .ok ((h.begin.branch ret).setCpsr s.cpsr) := by
    have hready : Op2Ready (.regImm 14 .lsl 0#5) := trivial
    rw [moveOp_pc hready, hoperand]
    exact restoreCpsr_some hmode hsaved
  have hpass : conditionPassed .al h.cpsr = true := rfl
  have ended : exec (.mov .al true 0 15 (.regImm 14 .lsl 0#5)) h = _ := armStep_pass hpass (moveOp id true 15 (.regImm 14 .lsl 0#5))
  rw [ended, hbody, finishStep_branch_setCpsr, begin_st, ← hh, entered_restored]

/-- The instruction after an aligned pc's is where a return to its address continues (R54, R207). -/
theorem jump_next {s : State} {len : Word} (h : s.pcAligned = true) (hlen : instructionBytes s.cpsr.t = len) :
    jump s.cpsr.t (s.pc + len) = s.pc + len := hlen ▸ alignTarget_next (beq_iff_eq.mp h)

/-- Settles O36: the entry is O34's, the return `exec_movsPcLr_entered`. -/
theorem softwareInterruptReturn : Obligations.SoftwareInterruptReturn := by
  intro comment24 value8 s
  obtain ⟨hswi, htSwi⟩ := softwareInterruptEntry .al comment24 value8 s
  refine ⟨fun hpc ht => ⟨_, _, hswi rfl, exec_movsPcLr_entered s _, congrArg _ (jump_next hpc ?arm)⟩,
    fun hpc ht => ⟨_, _, htSwi, exec_movsPcLr_entered s _, congrArg _ (jump_next hpc ?thumb)⟩⟩
  case arm => rw [ht]; rfl
  case thumb => rw [ht]; rfl

/-! ## The mode (R652) -/

/-- The mode after a change of the status that is no entry and no MSR: kept, or the one a return takes from the SPSR. -/
theorem StatusChange.mode_kept_or_returned {flags overflow ret : Bool} {w w' : Work} (h : StatusChange flags overflow ret w w') :
    w'.st.cpsr.m = w.st.cpsr.m ∨
    (ret = true ∧ ∃ n, spsrOf w.st.cpsr.m = some n ∧ modeOf ((w.st.spsr.get n).value.extractLsb' 0 5) = some w'.st.cpsr.m) := by
  cases h with
  | kept hc _ => exact .inl (by rw [hc])
  | set _ _ _ _ _ _ hc _ => exact .inl (by rw [hc])
  | returned hr n hn hc _ _ =>
    obtain ⟨hm, -⟩ := unpack_eq_ok hc
    exact .inr ⟨hr, n, hn, hm⟩

/-- Settles O52: each status effect keeps the mode or is one of the four ways. -/
theorem modeChangesComplete : Obligations.ModeChangesComplete := by
  intro i s t hex hne
  obtain ⟨w', ⟨-, hst⟩, rfl⟩ := exec_effect i s t hex
  rw [endOfStep_cpsr] at hne ⊢
  cases hst with
  | skipped hw => exact absurd (by rw [hw, begin_st]) hne
  | plain h _ => exact .inr (.inr (.inl (h.mode_kept_or_returned.resolve_left hne)))
  | bx _ _ hc _ _ => exact absurd (by rw [hc, begin_st]) hne
  | entry k ret hk hw =>
    subst hw
    rcases hk with ⟨hi, rfl⟩ | ⟨hi, hu, rfl⟩
    · exact .inl ⟨hi, rfl⟩
    · exact .inr (.inl ⟨hi, hu, rfl⟩)
  | msr p mask hm hp hc =>
    obtain ⟨rfl, h0, hu⟩ := hc.of_control_moved fun h => hne h.2.2
    exact .inr (.inr (.inr ⟨hp, hu, mask, hm, h0⟩))

/-! ## User mode (R651, R626) -/

theorem SpsrFile.ext_get {f g : SpsrFile} (h : ∀ n, f.get n = g.get n) : f = g := by
  cases f
  cases g
  simp only [SpsrFile.mk.injEq]
  exact ⟨h .fiq, h .svc, h .abt, h .irq, h .und⟩

theorem lo_lt : ∀ r : LowReg, (lo r).val < 16 := by decide

/-- An LDM run in User mode writes User's registers, with S = 1 too (R421). -/
theorem ldmSlots_user {s : State} (hu : s.cpsr.m = .user) {sb wb : Bool} {rn : Reg} {list : BitVec 16} {q : Slot}
    (h : q ∈ ldmSlots s sb wb rn list) : q.val < 16 := by
  have hbank : loadBank s.cfg sb list s.cpsr.m = .user := by rw [hu, loadBank, ite_self]
  rw [ldmSlots, hbank, hu, List.mem_append, List.mem_map] at h
  rcases h with ⟨r, -, rfl⟩ | h
  · exact slotOf_user_lt r
  · split at h
    · rw [List.mem_singleton.mp h]; exact slotOf_user_lt rn
    · cases h

/-- In User mode only an exception entry may write a banked slot: every other instruction names its registers through User's bank. -/
theorem writtenSlots_user {i : Instr} {s : State} (hu : s.cpsr.m = .user) (hi : (isSwi i || isUndefined i) = false) {q : Slot}
    (h : q ∈ writtenSlots i s) : q.val < 16 := by
  cases i with
  | swi | tSwi | undefined | ldc | stc | cdp | mcr | mrc | tBCond14 | tUndefB1 | tUndefB2 | tUndefB6 | tUndefB8 | tUndefBE
  | tUndefE8 => cases hi
  | ldmia | ldmib | ldmda | ldmdb | tPop | tLdmia => exact ldmSlots_user hu h
  | _ =>
    simp only [writtenSlots, hu] at h
    revert q
    simp [slotOf_user_lt, lo_lt]

theorem not_entry_of_isBx {i : Instr} (h : isBx i = true) : (isSwi i || isUndefined i) = false := by
  cases i with
  | bx | tBx => rfl
  | _ => cases h

theorem not_entry_of_msr {i : Instr} {p : Bool} {mask : BitVec 4} (h : (if p then msrSpsrMask i else msrCpsrMask i) = some mask) :
    (isSwi i || isUndefined i) = false := by
  cases i with
  | msrReg | msrImm => rfl
  | _ => cases p <;> cases h

/-- What User mode cannot change is as it was: the banked slots, the SPSRs, the mode, I and F. -/
def PrivilegedKept (s t : State) : Prop :=
  (∀ q : Slot, 16 ≤ q.val → t.cell q = s.cell q) ∧ t.spsr = s.spsr ∧ t.cpsr.m = .user ∧ t.cpsr.i = s.cpsr.i ∧
    t.cpsr.f = s.cpsr.f

theorem banked_ne_pc {q : Slot} (h : 16 ≤ q.val) : q ≠ 15 := by
  rintro rfl
  exact absurd h (by decide)

/-- An instruction that enters no exception keeps it all in User mode: by its register frame, and by the complete lists of what writes an
SPSR, the mode and the control bits, none of whose other entries is open to User mode. -/
theorem exec_privilegedKept {i : Instr} {s t : State} (hu : s.cpsr.m = .user) (hi : (isSwi i || isUndefined i) = false)
    (hex : exec i s = .next t) : PrivilegedKept s t := by
  obtain ⟨hswi, hund⟩ := Bool.or_eq_false_iff.mp hi
  have hnone : spsrOf .user = none := rfl
  obtain ⟨hI, hF, -⟩ := controlBitWriters i s t hex
  refine ⟨fun q hq => ?cell, SpsrFile.ext_get fun n => ?spsr, ?mode, ?i, ?f⟩
  case cell => exact registerFrame i s t q hex (banked_ne_pc hq) fun h => absurd (writtenSlots_user hu hi h) (by omega)
  case spsr => by_contra hne; simpa [hswi, hund, hu, hnone] using spsrWriters i s t n hex hne
  case mode => by_contra hne; simpa [hswi, hund, hu, hnone] using modeChangesComplete i s t hex (hu ▸ hne)
  case i => by_contra hne; simpa [hswi, hund, hu, hnone] using hI hne
  case f => by_contra hne; simpa [hu, hnone] using hF hne

/-- Settles O58: an instruction that takes no exception keeps what is privileged; one that does is an SWI or an undefined instruction. -/
theorem userModeConfined : Obligations.UserModeConfined := by
  intro s t hu hstep
  have hkept (hi : (isSwi (fetchCode s).decode || isUndefined (fetchCode s).decode) = false) := exec_privilegedKept hu hi hstep
  obtain ⟨w', ⟨-, hst⟩, rfl⟩ := step_effect hstep
  cases hst with
  | skipped hw =>
    subst hw
    refine .inl ⟨fun q hq => endOfStep_cell _ _ (banked_ne_pc hq), endOfStep_spsr .., ?_⟩
    rw [endOfStep_cpsr]
    exact ⟨hu, rfl, rfl⟩
  | plain _ hi => exact .inl (hkept hi)
  | bx hi => exact .inl (hkept (not_entry_of_isBx hi))
  | msr _ _ hm => exact .inl (hkept (not_entry_of_msr hm))
  | entry k ret hk hw =>
    have hend : endOfStep s.cpsr.t w' = entered s k.spsr (slotOf k.mode 14) k.mode ret k.vector :=
      hw ▸ Host.Outcome.next.inj (finishStep_takeException s.cpsr.t k ret s)
    rw [hend]
    have hcell (q : Slot) (hq : 16 ≤ q.val) (hlr : q ≠ slotOf k.mode 14) :=
      entered_cell_ne s (n := k.spsr) k.mode ret k.vector (banked_ne_pc hq) hlr
    have hspsr (n : SpsrName) (hn : n ≠ k.spsr) := entered_spsr_ne s (lr := slotOf k.mode 14) k.mode ret k.vector hn
    rcases hk with ⟨-, rfl⟩ | ⟨-, htrap, rfl⟩
    · exact .inr (.inl ⟨hcell, hspsr, rfl, rfl, rfl, entered_pc ..⟩)
    · exact .inr (.inr ⟨htrap, hcell, hspsr, rfl, rfl, rfl, entered_pc ..⟩)

/-! ## Reset (R680, R681) -/

section
variable {s : State}

theorem savePrior_written (h : (s.cell 15).written = true) : savePrior s = (s.setSlot 24 s.pc).setSpsr .svc s.cpsr.pack := if_pos h
theorem savePrior_unwritten (h : (s.cell 15).written = false) : savePrior s = s := by simp [savePrior, h]

theorem savePrior_cell_ne {q : Slot} (h : q ≠ 24) : (savePrior s).cell q = s.cell q := by
  unfold savePrior
  split
  · rw [setSpsr_cell, setSlot_cell_ne _ _ h]
  · rfl

theorem savePrior_spsr_ne {n : SpsrName} (h : n ≠ .svc) : (savePrior s).spsr.get n = s.spsr.get n := by
  unfold savePrior
  split
  · rw [setSpsr_spsr_ne _ _ h, setSlot_spsr]
  · rfl

theorem savePrior_mem : (savePrior s).mem = s.mem := by unfold savePrior; split <;> rfl
theorem savePrior_cfg : (savePrior s).cfg = s.cfg := by unfold savePrior; split <;> rfl

theorem hostReset_cell_ne {q : Slot} (h : q ≠ 15) : (hostReset s).cell q = (savePrior s).cell q := setSlot_cell_ne _ _ h
theorem hostReset_spsr : (hostReset s).spsr = (savePrior s).spsr := rfl

end

/-- Settles O49: apart from the save of the prior pc and status, which power-on has not, reset writes the CPSR and the pc only. -/
theorem resetState : Obligations.ResetState := by
  refine ⟨fun s => ⟨rfl, ?pack, setSlot_cell_self .., fun q h15 h24 => ?cell, fun n hn => savePrior_spsr_ne hn, savePrior_mem,
    savePrior_cfg, fun h => ⟨?lr, ?spsr⟩, fun h => ⟨?lrKept, ?spsrKept⟩⟩, fun _ _ => rfl, rfl, rfl, by decide, fun n => ?unwritten⟩
  case pack => exact show Cpsr.atReset.pack = 0x000000D3#32 by decide
  case cell => rw [hostReset_cell_ne h15, savePrior_cell_ne h24]
  case lr => rw [hostReset_cell_ne (by decide), savePrior_written h, setSpsr_cell, setSlot_cell_self]
  case spsr => rw [hostReset_spsr, savePrior_written h, setSpsr_spsr_self]
  case lrKept => rw [hostReset_cell_ne (by decide), savePrior_unwritten h]
  case spsrKept => rw [hostReset_spsr, savePrior_unwritten h]
  case unwritten => cases n <;> rfl

end Sys2Proof.Machine
end
